-- ==== Sys2Proof/Word.lean ====
section
/-! DEFINITION. The words of the card: bytes of the roll link, tags, roll times. -/

namespace Sys2Proof

/-- A byte of either lane (R161). -/
abbrev Byte := BitVec 8

/-- A frame's tag, a line number on the link, or a report sequence number: 24 bits (R161, R169). -/
abbrev Tag := BitVec 24

/-- Roll time: a 32-bit count of microseconds that wraps (R41). -/
abbrev RollTime := BitVec 32

end Sys2Proof
end

