-- ==== Sys2Proof/Syntax.lean ====
section
/-! DEFINITION. The names of the card (keys, pedals, groups, regions) and its commands: one constructor of Instr per row of spec/opcode_table.json. -/

namespace Sys2Proof

/-- A key, counted from 0: key number k + 1 of the manual (1 to 88). -/
abbrev Key := Fin 88

/-- The number the manual and the link give a key. -/
def Key.number (k : Key) : Nat := k.val + 1

/-- A drive group 0 to 11; group 11 is the pedals'. -/
abbrev Group := Fin 12

/-- A Column Map set 0 to 3. -/
abbrev MapNo := Fin 4

/-- A region of the settings store 0 to 7: MAP0 to MAP3, FORMAT, EXPRESSION, KEYS, DRIVE. -/
abbrev Region := Fin 8

/-- The pedals, in the order the manual uses wherever it needs one. -/
inductive Pedal where
  | sustain
  | soft
  | sostenuto
deriving DecidableEq, Repr

/-- A half of the keyboard (R65). -/
inductive Half where
  | bass
  | treble
deriving DecidableEq, Repr

/-- The seven expression roles of a half (section 2.1). -/
inductive Role where
  | step1
  | step2
  | step4
  | cresc
  | fast
  | sfz
  | accent
deriving DecidableEq, Repr

/-- The commands of the card, one constructor per row of the table of operations and events. A
CONTROL frame's constructor carries the frame's tag and its parameters as the link carries them. -/
inductive Instr where
  | powerOn
  | resetLineAsserted
  | resetLineReleased
  | headerError
  | payloadError
  | scanFrame (line : Tag) (payload : List Byte)
  | leaderMaxExpiry
  | unknownCommand (tag : Tag) (payload : List Byte)
  | rollStart (tag : Tag) (line : Tag) (tempo : BitVec 16) (mode : Byte)
  | rollStop (tag : Tag)
  | pause (tag : Tag)
  | resume (tag : Tag)
  | tempo (tag : Tag) (line : Tag) (tempo : BitVec 16)
  | tableWrite (tag : Tag) (table start count : Byte) (entries : List Byte)
  | tableRead (tag : Tag) (table start count : Byte)
  | statusQuery (tag : Tag)
  | countersRead (tag : Tag)
  | faultClear (tag : Tag) (mask : BitVec 16)
  | keyTest (tag : Tag) (key : Byte) (velocity : BitVec 16)
  | storeSave (tag : Tag) (region : Byte)
  | storeProtect (tag : Tag) (mask : Byte)
  | storeUnprotect (tag : Tag) (mask : Byte)
  | storeLock (tag : Tag) (value : Byte)
  | storeLockdown (tag : Tag) (region confirm : Byte)
  | linkReset (tag : Tag)
  | storeSaveComplete (readBack : Bool)
  | storeLockdownComplete (readBack : Bool)
  | returnSend
  | linkAliveExpiry
  | abandon
  | planLine
  | starveEpisodeStart
  | starveHold
  | holdLimitExpiry (k : Key)
  | rollEnd
  | keyFire (k : Key)
  | kickEnd (k : Key)
  | deferExpiry (k : Key)
  | holdRelease (k : Key)
  | testRelease (k : Key)
  | gapEnd (k : Key)
  | pedalFire (p : Pedal)
  | pedalKickEnd (p : Pedal)
  | pedalLift (p : Pedal)
  | pedalReleaseEnd (p : Pedal)
  | heatCooling
  | faultLineActive (g : Group)
  | faultLineInactive (g : Group)
  | senseEdge (k : Key)
  | senseDeadline (k : Key)
  | powerFail
deriving DecidableEq, Repr

end Sys2Proof
end

