-- ==== Sys2Proof/Machine/TableTypes.lean ====
section
/-! DEFINITION. The working tables as plain data (R176) and their built-in defaults (R181 and the chapters it names). -/

namespace Sys2Proof.Machine

/-- What a column controls (section 2.1). -/
inductive ColumnFunction where
  | nothing
  | key (k : Key)
  | expr (h : Half) (r : Role)
  | pedal (p : Pedal)
  | endMark
deriving DecidableEq, Repr

/-- A map set's column entry (section 2.1). -/
structure Column where
  centre : Nat
  width : Nat
  openRun : Nat
  closeRun : Nat
  function : ColumnFunction
deriving DecidableEq, Repr

/-- A Column Map set: its header's nominal edges and its 128 entries (section 2.1). -/
structure MapSet where
  nl : Nat
  nr : Nat
  columns : Vector Column 128
deriving DecidableEq, Repr

/-- The FORMAT table (section 2.5); a code entry that is none reads UNKNOWN. -/
structure Format where
  nl : Nat
  nr : Nat
  centres : Vector Nat 6
  width : Nat
  codeLines : Nat
  leaderMax : Nat
  defaultSet : MapNo
  codes : Vector (Option MapNo) 64
deriving DecidableEq, Repr

/-- An expression profile (section 4.2). The treble profile's splitKey and softScale are its zero reserved bytes (R176). -/
structure ExprProfile where
  stepTable : Vector Nat 8
  rateSlow : Nat
  rateFast : Nat
  rateDecay : Nat
  swellMax : Nat
  slewRate : Nat
  accentBoost : Nat
  accentReach : Nat
  splitKey : Nat
  softScale : Nat
deriving DecidableEq, Repr

/-- A key record (section 5.1). -/
structure KeyRecord where
  travel : Nat
  lag : Nat
  vFloor : Nat
  vMax : Nat
  k0 : Nat
  kg : Nat
  kickMax : Nat
  holdDuty : Nat
  releaseLead : Nat
  repeatGap : Nat
  priority : Nat
  senseFitted : Bool
deriving DecidableEq, Repr

/-- A pedal record (section 8.1). -/
structure PedalRecord where
  lead : Nat
  kick : Nat
  holdDuty : Nat
  releaseLead : Nat
deriving DecidableEq, Repr

/-- The SETTINGS entry (section 11.1). -/
structure Settings where
  holeThreshold : Nat
  edgeThreshold : Nat
  maxShift : Nat
  widthTol : Nat
  lpi : Nat
  planLead : Nat
  starveGrace : Nat
  holdLimit : Nat
  abandonTimeout : Nat
  kickSlots : Nat
  deferLimit : Nat
  heatLimit : Nat
  coolPerMs : Nat
  minHold : Nat
  catchMargin : Nat
  senseWindow : Nat
  adaptEnable : Bool
  vStep : Nat
  vFloorMax : Nat
deriving DecidableEq, Repr

/-- The eleven working tables (R176). -/
structure Tables where
  maps : Vector MapSet 4
  format : Format
  exprBass : ExprProfile
  exprTreble : ExprProfile
  velocity : Vector Nat 33
  keys : Vector KeyRecord 88
  pedals : Vector PedalRecord 3
  settings : Settings
deriving DecidableEq, Repr

/-- A default column (R181). -/
def defaultColumn : Column := ⟨40, 1, 1, 1, .nothing⟩

/-- A default map set (R181). -/
def defaultMap : MapSet := ⟨40, 472, Vector.replicate 128 defaultColumn⟩

/-- The default FORMAT table (R181). -/
def defaultFormat : Format :=
  ⟨40, 472, #v[48, 56, 64, 72, 80, 88], 3, 16, 2400, 0, Vector.replicate 64 none⟩

/-- The default step table (section 4.2). -/
def defaultSteps : Vector Nat 8 := #v[100, 200, 300, 400, 500, 600, 750, 900]

/-- The default bass profile (section 4.2). -/
def defaultBass : ExprProfile := ⟨defaultSteps, 160, 640, 96, 300, 800, 120, 3, 44, 192⟩

/-- The default treble profile (section 4.2, R176). -/
def defaultTreble : ExprProfile := ⟨defaultSteps, 160, 640, 96, 300, 800, 120, 3, 0, 0⟩

/-- The built-in velocity map (R81). -/
def defaultVelocity : Vector Nat 33 := Vector.ofFn fun i => 300 + 150 * i.val

/-- The default key record (section 5.1). -/
def defaultKey : KeyRecord :=
  ⟨4800, 6000, 300, 5200, 1000, 2048, 12000, 96, 8000, 20000, 1, false⟩

/-- The default pedal records, SUSTAIN, SOFT, SOSTENUTO (section 8.1). -/
def defaultPedals : Vector PedalRecord 3 :=
  #v[⟨40000, 20000, 80, 30000⟩, ⟨30000, 15000, 60, 20000⟩, ⟨40000, 20000, 80, 30000⟩]

/-- The default SETTINGS entry (section 11.1). -/
def defaultSettings : Settings :=
  ⟨9, 5, 16, 30, 200, 120000, 40, 8000, 5, 10, 15000, 60000, 60, 5000, 30000, 12000, true, 25, 1200⟩

/-- The built-in defaults of every table (R181). -/
def defaultTables : Tables :=
  ⟨Vector.replicate 4 defaultMap, defaultFormat, defaultBass, defaultTreble, defaultVelocity,
    Vector.replicate 88 defaultKey, defaultPedals, defaultSettings⟩

/-- The half's profile. -/
def Tables.profile (t : Tables) : Half → ExprProfile
  | .bass => t.exprBass
  | .treble => t.exprTreble

/-- The stored content of a region: the images of the tables it carries (section 11.4). -/
inductive RegionImage where
  | map (m : MapSet)
  | format (f : Format)
  | expression (bass treble : ExprProfile) (velocity : Vector Nat 33)
  | keys (k : Vector KeyRecord 88)
  | drive (p : Vector PedalRecord 3) (s : Settings)
deriving DecidableEq, Repr

/-- The image of a region's tables as they stand (R182; regions of R176). -/
def Tables.image (t : Tables) (r : Region) : RegionImage :=
  match r with
  | 0 => .map t.maps[0]
  | 1 => .map t.maps[1]
  | 2 => .map t.maps[2]
  | 3 => .map t.maps[3]
  | 4 => .format t.format
  | 5 => .expression t.exprBass t.exprTreble t.velocity
  | 6 => .keys t.keys
  | 7 => .drive t.pedals t.settings

end Sys2Proof.Machine
end

