-- ==== Sys2Proof/Machine/Records.lean ====
section
/-! DEFINITION. The records each block of the card keeps, as plain data, with their values after power-on. -/

namespace Sys2Proof.Machine

/-- Whether the card is powered and out of reset (R181, R96). -/
inductive Power where
  | off
  | inReset
  | running
deriving DecidableEq, Repr

/-! Roll Timeline (Chapter 3) -/

/-- The roll state (section 3.1). -/
inductive RollState where
  | noRoll
  | leader
  | playing
  | ending
deriving DecidableEq, Repr

/-- A tempo segment: origin line, origin time, tempo (R45). -/
structure Segment where
  origin : Nat
  time : RollTime
  tempo : Nat
deriving DecidableEq, Repr

/-- The timeline record (section 3.1). A plan line of -1 is "none" (entry 26). -/
structure Timeline where
  rollState : RollState
  operator : Bool
  starved : Bool
  rollTime : RollTime
  startTempo : Nat
  tempo : Nat
  schedule : List Segment
  planLine : Int
  endLine : Option Nat
  starveStart : Option Nat
  abandonStart : Option Nat
deriving DecidableEq, Repr

/-! Scan Front End (Chapter 1) -/

/-- A column set: the six code columns or a map set (section 1.2). -/
inductive ColumnSet where
  | code
  | map (m : MapNo)
deriving DecidableEq, Repr

/-- The continuity record and the edge history (sections 1.2 and 1.3). A sample is true when its column is open. -/
structure FrontEnd where
  newest : Int
  heldSamples : List Bool
  heldSet : Option ColumnSet
  edges : List (Nat × Nat)
deriving DecidableEq, Repr

/-! Hole Recognizer (Chapter 2) -/

/-- The kind of a hole event (R26). -/
inductive EventKind where
  | opens
  | closes
deriving DecidableEq, Repr

/-- An event of the Event Queue (R26, R27), with the index of its entry in the active set, by which R27 orders it. -/
structure HoleEvent where
  line : Nat
  entry : Nat
  function : ColumnFunction
  kind : EventKind
deriving DecidableEq, Repr

/-- A run in progress: its start line and its length (section 2.2). -/
structure Run where
  start : Nat
  length : Nat
deriving DecidableEq, Repr

/-- A debounce record (section 2.2). The candidate of a run is the opposite of the reported state, so it is not stored. -/
structure Debounce where
  reportedOpen : Bool
  run : Option Run
deriving DecidableEq, Repr

/-- The code reader (section 2.5). -/
structure CodeReader where
  lastCode : Nat
  codeRun : Nat
  linesRead : Nat
deriving DecidableEq, Repr

/-- The Hole Recognizer's state. `settled` is the settled line N - 8 as of the last whole arrival; below 0 no line is settled (R31). -/
structure HoleRecognizer where
  activeSet : Option MapNo
  debounce : List Debounce
  queue : List HoleEvent
  code : Nat
  reader : CodeReader
  settled : Int
deriving DecidableEq, Repr

/-! Expression Unit (Chapter 4) -/

/-- An expression record (section 4.1). -/
structure ExprRecord where
  step1 : Bool
  step2 : Bool
  step4 : Bool
  cresc : Bool
  fast : Bool
  sfz : Bool
  accent : Bool
  base : Nat
  swell : Nat
  intensity : Nat
  lastAccent : Option Nat
deriving DecidableEq, Repr

/-! Key Channels (Chapter 6) -/

/-- A note record (R91). A test note has no line, due time or fire time (R94). -/
structure Note where
  line : Option Nat
  due : Option RollTime
  fire : Option RollTime
  velocity : Nat
  kick : Nat
  lead : Nat
  accented : Bool
  release : Option RollTime
  deferred : Bool
deriving DecidableEq, Repr

/-- The phase of a key or pedal channel (sections 6.1 and 8.4). -/
inductive ChannelState where
  | idle
  | armed
  | waiting
  | kick
  | hold
  | release
deriving DecidableEq, Repr

/-- Which note the key's next planned note-off belongs to (section 6.1); `nothing` is NONE. -/
inductive NoteOffTarget where
  | nothing
  | current
  | pending
deriving DecidableEq, Repr

/-- An open sense watch: expected arrival and kick start (section 9.2). -/
structure SenseWatch where
  expected : Nat
  start : Nat
deriving DecidableEq, Repr

/-- A hold-limit watch: its start and its expired mark (R56, R57). -/
structure HoldWatch where
  start : Nat
  expired : Bool
deriving DecidableEq, Repr

/-- A key channel record (section 6.1). `testRelease` is when a test note's TestHold ends (R116); `duty` is the drive output in 1/255 of full duty (R97). -/
structure KeyChannel where
  state : ChannelState
  current : Option Note
  pending : Option Note
  target : NoteOffTarget
  holdReleased : Bool
  appliedKick : Option Nat
  kickEnd : Option Nat
  minHoldEnd : Option Nat
  testRelease : Option Nat
  gapEnd : Option Nat
  waitStart : Option Nat
  sense : Option SenseWatch
  holdWatch : Option HoldWatch
  heat : Nat
  duty : Nat
deriving DecidableEq, Repr

/-- A key channel after power-on (R96). -/
def KeyChannel.fresh : KeyChannel :=
  ⟨.idle, none, none, .nothing, false, none, none, none, none, none, none, none, none, 0, 0⟩

/-! Pedals (Chapter 8) -/

/-- A press record (section 8.3). -/
structure Press where
  line : Nat
  fire : RollTime
  kick : Nat
  lift : Option RollTime
deriving DecidableEq, Repr

/-- A pedal channel (R140), with its drive output. -/
structure PedalChannel where
  state : ChannelState
  current : Option Press
  pending : Option Press
  kickEnd : Option Nat
  waitStart : Option Nat
  releaseEnd : Option Nat
  duty : Nat
deriving DecidableEq, Repr

/-- A pedal channel after power-on (R145). -/
def PedalChannel.fresh : PedalChannel := ⟨.idle, none, none, none, none, none, 0⟩

/-- The planned pedal states, true for DOWN (section 8.2). -/
structure PlannedPedals where
  sustain : Bool
  soft : Bool
  sostenuto : Bool
deriving DecidableEq, Repr

/-- The Pedal Unit's records: planned states, roll key states (true for DOWN), the Capture Set in ascending order and the window end of an open catch window (R135 to R137, R146, R147). -/
structure PedalUnit where
  planned : PlannedPedals
  rollKeys : Vector Bool 88
  capture : List Key
  window : Option RollTime
deriving DecidableEq, Repr

/-- The Pedal Unit's records after power-on (R136, R137, R147). -/
def PedalUnit.fresh : PedalUnit := ⟨⟨false, false, false⟩, Vector.replicate 88 false, [], none⟩

/-! Drive Power Manager (Chapter 7) -/

/-- A drive channel: a pedal's or a key's. -/
inductive Channel where
  | pedal (p : Pedal)
  | key (k : Key)
deriving DecidableEq, Repr

/-- A Fire List entry (R98). -/
structure FireEntry where
  channel : Channel
  time : RollTime
deriving DecidableEq, Repr

/-- The class a channel waits in (section 7.1). -/
inductive WaitClass where
  | pedal
  | key (c : Nat)
deriving DecidableEq, Repr

/-- A Kick Wait List entry (section 7.1). -/
structure WaitEntry where
  channel : Channel
  cls : WaitClass
  start : Nat
deriving DecidableEq, Repr

/-! Link Port (Chapter 10) -/

/-- The receiver of the forward lane (R162 to R164). -/
inductive Receiver where
  /-- Hunting for a sync word; `before` is the byte before the next one, where there is one. -/
  | hunting (before : Option Byte)
  /-- In a frame, taking the seven header bytes; `got` holds those taken. -/
  | header (got : List Byte)
  /-- In a frame with a good header, taking payload and payload check; `got` holds those taken. -/
  | payload (kind : Byte) (length : Nat) (tag : Tag) (got : List Byte)
deriving DecidableEq, Repr

/-- An entry of the return queue (section 10.5). A reply's payload starts with the command code and the result. -/
inductive ReturnEntry where
  | reply (tag : Tag) (payload : List Byte)
  | window (seq : Tag) (payload : List Byte)
  | state (seq : Tag) (payload : List Byte)
deriving DecidableEq, Repr

/-- A frame being sent on the return lane: its bytes and the moment its last bit ends, in bit times since power-on (R161, R168). -/
structure Sending where
  frame : List Byte
  ends : Nat
deriving DecidableEq, Repr

/-- The Link Port's records (sections 10.2, 10.3, 10.5). -/
structure Link where
  forwardLane : List Byte
  receiver : Receiver
  aliveStart : Option Nat
  linkLost : Bool
  queue : List ReturnEntry
  reportSeq : Tag
  sending : Option Sending
deriving DecidableEq, Repr

/-- The 26 counters of Table 10-1. -/
inductive Counter where
  | headerError
  | payloadError
  | widthMismatch
  | missingLine
  | staleLine
  | overrun
  | eventOverflow
  | edgeLost
  | shiftLimited
  | widthLimited
  | starveHold
  | abandoned
  | lateStrike
  | deferred
  | deferDrop
  | heatTrim
  | heatDrop
  | faultDrop
  | repeatDrop
  | groupFault
  | repeatFault
  | senseAdapted
  | senseOutlier
  | senseMiss
  | senseStray
  | replyOverflow
deriving DecidableEq, Repr

/-! Settings store (Chapter 11) -/

/-- A region of the store: its stored content, whether its check value matches, and its flags (section 11.4). -/
structure StoreRegion where
  content : RegionImage
  checkGood : Bool
  lockdown : Bool
  protectedFlag : Bool
  storeBad : Bool
deriving DecidableEq, Repr

/-- The two store operations. -/
inductive StoreOpKind where
  /-- A save, with the copy it took of the region's working tables (R182). -/
  | save (copy : RegionImage)
  | lockdown
deriving DecidableEq, Repr

/-- The operation in flight (section 11.4). -/
structure StoreOp where
  kind : StoreOpKind
  region : Region
  tag : Tag
  completes : Nat
deriving DecidableEq, Repr

/-- The settings store. -/
structure Store where
  regions : Vector StoreRegion 8
  lock : Bool
  op : Option StoreOp
deriving DecidableEq, Repr

/-- A store in which nothing was ever saved: every check fails and no region is locked down. DESIGN CHOICE, entry 5. -/
def Store.blank : Store :=
  ⟨Vector.ofFn fun r => ⟨defaultTables.image r, false, false, true, true⟩, false, none⟩

/-- The continuity record and edge history after power-on (R2). -/
def FrontEnd.fresh : FrontEnd := ⟨-1, [], none, []⟩

/-- The Hole Recognizer after power-on (R23, R24, R30, R31, R37); the code reader's values are entry 24's. -/
def HoleRecognizer.fresh : HoleRecognizer := ⟨none, [], [], 0, ⟨0, 0, 0⟩, -9⟩

/-- The timeline record after power-on (R40). -/
def Timeline.fresh : Timeline := ⟨.noRoll, false, false, 0, 0, 0, [], -1, none, none, none⟩

/-- An expression record at its roll-start values (R64). -/
def ExprRecord.rollStart (p : ExprProfile) : ExprRecord :=
  ⟨false, false, false, false, false, false, false, p.stepTable[0], 0, p.stepTable[0] * 256, none⟩

/-- The Link Port after power-on at a device time: hunting, watch started, queue empty, lane idle (R162, R165, R168, R169). -/
def Link.fresh (now : Nat) : Link := ⟨[], .hunting none, some now, false, [], 0, none⟩

end Sys2Proof.Machine
end

