-- ==== Sys2Proof/Machine/State.lean ====
section
/-! DEFINITION. The state of the card as plain data, its fault and refusal types, and the state right after power-on. -/

namespace Sys2Proof.Machine

/-- No command of the card stops it: every error the spec names is counted or answered and the card
goes on (R163, R164, R166, R174). So there is no fault to raise; an empty type is the safe choice. -/
inductive Fault : Type
deriving DecidableEq, Repr

/-- Why a command has no meaning in the model. -/
inductive Refusal where
  /-- Raised by exec's own arms only, for a command whose meaning is not written yet; safe. No arm raises it. -/
  | notModelled (mnemonic : String)
deriving DecidableEq, Repr

/-- The whole card. -/
structure State where
  power : Power
  deviceTime : Nat
  nextCool : Nat
  freeIndex : Nat
  setupLock : Bool
  link : Link
  counters : Vector Nat 26
  front : FrontEnd
  holes : HoleRecognizer
  roll : Timeline
  exprBass : ExprRecord
  exprTreble : ExprRecord
  pedalUnit : PedalUnit
  keys : Vector KeyChannel 88
  pedals : Vector PedalChannel 3
  fireList : List FireEntry
  waitList : List WaitEntry
  groupFaulted : Vector Bool 12
  faultLines : Vector Bool 12
  tables : Tables
  store : Store
  pending : List Instr
deriving DecidableEq, Repr

/-- Every block at its power-on values, over given tables, store and input levels (R96, R118 and the rules above). -/
def State.powered (now nextCool freeIndex : Nat) (setupLock : Bool) (faultLines : Vector Bool 12)
    (tables : Tables) (store : Store) (pending : List Instr) : State where
  power := .running
  deviceTime := now
  nextCool := nextCool
  freeIndex := freeIndex
  setupLock := setupLock
  link := Link.fresh now
  counters := Vector.replicate 26 0
  front := FrontEnd.fresh
  holes := HoleRecognizer.fresh
  roll := Timeline.fresh
  exprBass := ExprRecord.rollStart tables.exprBass
  exprTreble := ExprRecord.rollStart tables.exprTreble
  pedalUnit := PedalUnit.fresh
  keys := Vector.replicate 88 KeyChannel.fresh
  pedals := Vector.replicate 3 PedalChannel.fresh
  fireList := []
  waitList := []
  groupFaulted := faultLines
  faultLines := faultLines
  tables := tables
  store := store
  pending := pending

/-- The card right after power-on (R181): a blank store, so every table at its default (entry 5); no
fault line active and SETUP LOCK not asserted (entry 6). -/
def State.reset : State :=
  State.powered 0 1000 0 false (Vector.replicate 12 false) defaultTables Store.blank []

end Sys2Proof.Machine
end

