-- ==== Sys2Proof/Machine/Expression.lean ====
section
/-! DEFINITION. The arithmetic of the Expression Unit (R68 to R76). -/

namespace Sys2Proof.Machine

/-- A rate turned into a per-line increment in 1/256 level (R70). -/
def lineIncrement (rate period : Nat) : Nat := rate * period * 256 / 1000000

/-- A role's function state set in a record (R68). -/
def ExprRecord.setRole (r : ExprRecord) (role : Role) (isOpen : Bool) : ExprRecord :=
  match role with
  | .step1 => { r with step1 := isOpen }
  | .step2 => { r with step2 := isOpen }
  | .step4 => { r with step4 := isOpen }
  | .cresc => { r with cresc := isOpen }
  | .fast => { r with fast := isOpen }
  | .sfz => { r with sfz := isOpen }
  | .accent => { r with accent := isOpen }

/-- The line's EXPR events of one half applied to its record, in queue order (R68). -/
def ExprRecord.applyEvents (r : ExprRecord) (h : Half) (es : List HoleEvent) : ExprRecord :=
  es.foldl (fun q e =>
    match e.function with
    | .expr h' role => if h' = h then q.setRole role (e.kind == .opens) else q
    | _ => q) r

/-- The step number of the step roles, 0 to 7 (R69). -/
def ExprRecord.step (r : ExprRecord) : Fin 8 :=
  match r.step1, r.step2, r.step4 with
  | false, false, false => 0
  | true, false, false => 1
  | false, true, false => 2
  | true, true, false => 3
  | false, false, true => 4
  | true, false, true => 5
  | false, true, true => 6
  | true, true, true => 7

/-- The swell after one line's motion, clamped to 0 to the ceiling (R71). -/
def nextSwell (p : ExprProfile) (period : Nat) (r : ExprRecord) : Nat :=
  if r.fast then min (r.swell + lineIncrement p.rateFast period) (p.swellMax * 256)
  else if r.cresc then min (r.swell + lineIncrement p.rateSlow period) (p.swellMax * 256)
  else min (r.swell - lineIncrement p.rateDecay period) (p.swellMax * 256)

/-- The intensity moved toward a target by at most an increment (R73). -/
def slew (inc target i : Nat) : Nat :=
  if i ≤ target then (if target - i ≤ inc then target else i + inc)
  else if i - target ≤ inc then target else i - inc

/-- One half's record after the computation of line n, its events applied already (R69 to R75). -/
def ExprRecord.compute (r : ExprRecord) (p : ExprProfile) (period n : Nat) : ExprRecord :=
  let base := p.stepTable[r.step.val]
  let swell := nextSwell p period r
  let target := min (base * 256 + swell) (1023 * 256)
  { r with
    base := base
    swell := swell
    intensity := if r.sfz then target else slew (lineIncrement p.slewRate period) target r.intensity
    lastAccent := if r.accent then some n else r.lastAccent }

/-- Line n is accented: the last accent line is at or above n - AccentReach (R75). -/
def ExprRecord.accentedOn (r : ExprRecord) (p : ExprProfile) (n : Nat) : Bool :=
  match r.lastAccent with
  | some a => decide (n ≤ a + p.accentReach)
  | none => false

/-- The intensity handed to the Strike Planner, a level 0 to 1023 (R76). -/
def ExprRecord.level (r : ExprRecord) : Nat := r.intensity / 256

end Sys2Proof.Machine
end

