-- ==== Sys2Proof/Config.lean ====
section
/-! DEFINITION. What is fixed for the card (times and sizes the rules state as fixed), and the two free values. -/

namespace Sys2Proof.Config

/-- LinkTimeout, 250 ms of device time (R165). -/
def linkTimeout : Nat := 250000

/-- TestHold, 100 ms (R116). -/
def testHold : Nat := 100000

/-- How long a pedal channel stays in RELEASE (R143). -/
def pedalRelease : Nat := 20000

/-- How long a STORE SAVE is in flight, 40 ms (R182). -/
def saveTime : Nat := 40000

/-- How long a STORE LOCKDOWN is in flight, 10 ms (R184). -/
def lockdownTime : Nat := 10000

/-- The most replies the return queue holds, reservation included (R166). -/
def replyLimit : Nat := 14

/-- The most events the Event Queue holds (R27). -/
def eventLimit : Nat := 1024

/-- The most edge pairs the edge history holds (R11). -/
def edgeLimit : Nat := 8

/-- The most segments the tempo schedule holds (R48). -/
def segmentLimit : Nat := 8

/-- How far ahead of its reference line the window top lies (R5). -/
def windowSpan : Nat := 2048

/-- The highest line number (00_scope.md, Two clocks). -/
def lastLine : Nat := 16777215

/-- A kick is late when it starts more than this after its fire time (R92). -/
def lateLimit : Nat := 2000

/-- The shortest kick ever driven (R90, R125). -/
def kickFloor : Nat := 500

/-- Where a counter stays (R174). -/
def counterTop : Nat := 65535

/-- Bit times of a lane in one microsecond: 12 Mbit/s (R161). -/
def bitsPerMicrosecond : Nat := 12

/-- Bit times of one byte on a lane (R161). -/
def bitsPerByte : Nat := 10

/-- FREE VALUE. Which of several events due at one device time the idle step takes first; the spec
leaves the order open (R166 and the rules entry 3 names). -/
opaque tieBreak : Nat → Nat

/-- FREE VALUE. Whether a store write that completes by itself reads back good (R182, R184); entry 8. -/
opaque readBack : Nat → Bool

end Sys2Proof.Config
end

