-- ==== Sys2Proof/Machine/Clock.lean ====
section
/-! DEFINITION. Roll times, due times and the tempo schedule (R41, R45, R46, R50, R51). -/

namespace Sys2Proof.Machine

/-- Roll time `now` has reached roll time `t`: it is at or past it on the signed reading of their difference (R41). -/
def reached (now t : RollTime) : Bool := decide (0 ≤ (now - t).toInt)

/-- Roll time `a` is earlier than `b` (R41). -/
def earlier (a b : RollTime) : Bool := decide ((a - b).toInt < 0)

/-- A duration added to a roll time, kept modulo 2^32. -/
def rollAdd (t : RollTime) (d : Nat) : RollTime := t + BitVec.ofNat 32 d

/-- A duration taken from a roll time, kept modulo 2^32. -/
def rollSub (t : RollTime) (d : Nat) : RollTime := t - BitVec.ofNat 32 d

/-- The time from a segment's origin to a line, rounded half up (R46). -/
def lineOffset (lpi tempo lines : Nat) : Nat :=
  (lines * 100000000 + tempo * lpi) / (2 * tempo * lpi)

/-- The line period of a tempo (R46). -/
def linePeriod (lpi tempo : Nat) : Nat := (100000000 + tempo * lpi) / (2 * tempo * lpi)

/-- The due time of line n under a segment that governs it (R46). -/
def Segment.due (g : Segment) (lpi n : Nat) : RollTime :=
  rollAdd g.time (lineOffset lpi g.tempo (n - g.origin))

/-- The segment that governs line n: the last whose origin is n or before, else the head (R45). -/
def governing (schedule : List Segment) (n : Nat) : Segment :=
  schedule.foldl (fun g h => if h.origin ≤ n then h else g) (schedule.headD ⟨0, 0, 0⟩)

/-- The due time of line n under the schedule as it stands (R46). -/
def State.due (s : State) (n : Nat) : RollTime :=
  (governing s.roll.schedule n).due s.tables.settings.lpi n

/-- The line period of line n (R46). -/
def State.period (s : State) (n : Nat) : Nat :=
  linePeriod s.tables.settings.lpi (governing s.roll.schedule n).tempo

/-- The next line to be planned, plan line + 1 (R50). -/
def State.nextLine (s : State) : Nat := (s.roll.planLine + 1).toNat

/-- Roll time has reached the plan moment of line n, due(n) - PlanLead (R50). -/
def State.planReached (s : State) (n : Nat) : Bool :=
  reached s.roll.rollTime (rollSub (s.due n) s.tables.settings.planLead)

/-- Line n is at or below the settled line (R31, R50). -/
def State.lineSettled (s : State) (n : Nat) : Bool := decide ((n : Int) ≤ s.holes.settled)

/-- The timeline is starving (R51). -/
def State.starving (s : State) : Bool :=
  s.roll.rollState == .playing && s.planReached s.nextLine && !s.lineSettled s.nextLine

/-- The roll state is LEADER, PLAYING or ENDING. -/
def State.rollActive (s : State) : Bool := s.roll.rollState != .noRoll

/-- The roll state is PLAYING or ENDING, where the roll clock can run (R41). -/
def State.clocked (s : State) : Bool := s.roll.rollState == .playing || s.roll.rollState == .ending

/-- The roll clock runs (R41). -/
def State.clockRuns (s : State) : Bool := s.clocked && !(s.roll.operator || s.roll.starved)

/-- The roll clock is stopped by a hold reason (R55). -/
def State.clockStopped (s : State) : Bool := s.clocked && (s.roll.operator || s.roll.starved)

/-- A tempo clamped to 10 to 300 (R42, R48). -/
def clampTempo (t : Nat) : Nat := if t < 10 then 10 else if 300 < t then 300 else t

end Sys2Proof.Machine
end

