-- ==== Sys2Proof/Machine/Wire.lean ====
section
/-! DEFINITION. Byte order, the two frame checks and the forms of control frames (R161, R163, R164, R166, R177). -/

namespace Sys2Proof.Machine

/-- The `n` bytes of a number, most significant first (R161). -/
def toBytes : Nat → Nat → List Byte
  | 0, _ => []
  | n + 1, v => BitVec.ofNat 8 (v / 256 ^ n) :: toBytes n v

/-- The number that bytes spell, most significant first (R161). -/
def ofBytes (bs : List Byte) : Nat :=
  bs.foldl (fun v b => v * 256 + b.toNat) 0

/-- A byte as a lane carries it: a start bit, the eight data bits from the least significant, a stop bit, true
for the stop-bit level (R161). -/
def byteBits (b : Byte) : List Bool := false :: (List.range 8).map b.getLsbD ++ [true]

/-- The bits of a run of bytes, each sent right after the one before (R161). -/
def laneBits (bs : List Byte) : List Bool := bs.flatMap byteBits

/-- One bit of the header check: generator x^8 + x^2 + x + 1 (R161). -/
def crc8Bit (r : BitVec 8) : BitVec 8 :=
  if r.msb then (r <<< 1) ^^^ 0x07#8 else r <<< 1

/-- The header check of some bytes: register 00 hex, most significant bit first, no inversion (R161). -/
def crc8 (bs : List Byte) : BitVec 8 :=
  bs.foldl (fun r b => (List.replicate 8 ()).foldl (fun x _ => crc8Bit x) (r ^^^ b)) 0x00#8

/-- One bit of the payload check: generator x^16 + x^12 + x^5 + 1 (R161). -/
def crc16Bit (r : BitVec 16) : BitVec 16 :=
  if r.msb then (r <<< 1) ^^^ 0x1021#16 else r <<< 1

/-- The payload check of some bytes: register FFFF hex, most significant bit first, no inversion (R161). -/
def crc16 (bs : List Byte) : BitVec 16 :=
  bs.foldl (fun r b => (List.replicate 8 ()).foldl (fun x _ => crc16Bit x) (r ^^^ (BitVec.setWidth 16 b <<< 8))) 0xFFFF#16

/-- A whole frame as a lane carries it: sync word, kind, length, tag, header check, payload, payload check (R161). -/
def frameBytes (kind : Byte) (tag : Tag) (payload : List Byte) : List Byte :=
  let head := kind :: toBytes 2 payload.length ++ toBytes 3 tag.toNat
  [0xE1#8, 0x9B#8] ++ head ++ [crc8 head] ++ payload ++ toBytes 2 (crc16 payload).toNat

/-- A received header, the seven bytes from the kind to the header check, is good when its check
matches, its kind is SCAN or CONTROL and its length is at most 288 (R163). -/
def headerGood (h : List Byte) : Bool :=
  match h with
  | [kind, l1, l0, t2, t1, t0, check] =>
    crc8 [kind, l1, l0, t2, t1, t0] == check && (kind == 0x01#8 || kind == 0x02#8) && ofBytes [l1, l0] ≤ 288
  | _ => false

/-- Whether a table byte names a table (R176). -/
def tableNamed (table : Byte) : Bool := table.toNat ≤ 0x0A

/-- The size in bytes of the entry at an index of a table (R176, R177): FORMAT's header alone differs. -/
def entrySize (table : Byte) (index : Nat) : Nat :=
  match table.toNat with
  | 0x04 => if index = 0 then 21 else 1
  | 0x05 => 32
  | 0x06 => 32
  | 0x07 => 2
  | 0x08 => 23
  | 0x09 => 9
  | 0x0A => 33
  | _ => 8

/-- The bytes of a run of entries from a start index (R177); indices beyond the table's end count too. -/
def runSize (table : Byte) (start : Nat) : Nat → Nat
  | 0 => 0
  | n + 1 => runSize table start n + entrySize table (start + n)

/-- The payload length the table of section 10.4 gives a fixed-length command code, where it gives one. -/
def commandLength (code : Byte) : Option Nat :=
  match code.toNat with
  | 0x10 => some 7
  | 0x11 => some 1
  | 0x12 => some 1
  | 0x13 => some 1
  | 0x14 => some 6
  | 0x21 => some 4
  | 0x30 => some 1
  | 0x31 => some 1
  | 0x32 => some 3
  | 0x33 => some 4
  | 0x40 => some 2
  | 0x41 => some 2
  | 0x42 => some 2
  | 0x43 => some 2
  | 0x44 => some 3
  | 0x50 => some 1
  | _ => none

/-- Whether a CONTROL payload has a known code and the length that code calls for (R166, R177). -/
def payloadKnown (payload : List Byte) : Bool :=
  match payload with
  | [] => false
  | code :: rest =>
    if code.toNat = 0x20 then
      match rest with
      | table :: start :: count :: entries =>
        tableNamed table && entries.length == runSize table start.toNat count.toNat
      | _ => false
    else commandLength code == some payload.length

end Sys2Proof.Machine
end

