-- ==== Sys2Proof/Machine/Flags.lean ====
section
/-! DEFINITION. Counters, result codes, status bytes and the return queue (R167 to R174). -/

namespace Sys2Proof.Machine

/-- A counter's place in Table 10-1, from 0. -/
def Counter.place : Counter → Fin 26
  | .headerError => 0
  | .payloadError => 1
  | .widthMismatch => 2
  | .missingLine => 3
  | .staleLine => 4
  | .overrun => 5
  | .eventOverflow => 6
  | .edgeLost => 7
  | .shiftLimited => 8
  | .widthLimited => 9
  | .starveHold => 10
  | .abandoned => 11
  | .lateStrike => 12
  | .deferred => 13
  | .deferDrop => 14
  | .heatTrim => 15
  | .heatDrop => 16
  | .faultDrop => 17
  | .repeatDrop => 18
  | .groupFault => 19
  | .repeatFault => 20
  | .senseAdapted => 21
  | .senseOutlier => 22
  | .senseMiss => 23
  | .senseStray => 24
  | .replyOverflow => 25

/-- The value of a counter (R174). -/
def State.counter (s : State) (c : Counter) : Nat := s.counters[c.place.val]

/-- A counter raised by n occurrences, staying at 65,535 (R174). -/
def State.bumpBy (s : State) (c : Counter) (n : Nat) : State :=
  { s with counters := s.counters.set c.place.val (min Config.counterTop (s.counter c + n)) c.place.isLt }

/-- A counter raised by one occurrence (R174). -/
def State.bump (s : State) (c : Counter) : State := s.bumpBy c 1

/-- A counter raised by one when a condition holds. -/
def State.bumpIf (s : State) (b : Bool) (c : Counter) : State := if b then s.bump c else s

/-- The result codes of a reply (R167). -/
inductive ResultCode where
  | done
  | clamped
  | busy
  | state
  | range
  | isProtected
  | locked
  | lockedDown
  | faultActive
  | unknown
  | storeFail
deriving DecidableEq, Repr

/-- A result code's value on the link (R167). -/
def ResultCode.byte : ResultCode → Byte
  | .done => 0x00#8
  | .clamped => 0x01#8
  | .busy => 0x02#8
  | .state => 0x03#8
  | .range => 0x04#8
  | .isProtected => 0x05#8
  | .locked => 0x06#8
  | .lockedDown => 0x07#8
  | .faultActive => 0x08#8
  | .unknown => 0x09#8
  | .storeFail => 0x0A#8

/-- Bits as a number, bit i for entry i. -/
def bitsToNat : List Bool → Nat
  | [] => 0
  | b :: bs => (if b then 1 else 0) + 2 * bitsToNat bs

/-- A line number as three bytes, FFFFFF hex for none (R171). -/
def lineBytes (n : Int) : List Byte := if n < 0 then toBytes 3 Config.lastLine else toBytes 3 n.toNat

/-- A roll state's value on the link (R171). -/
def RollState.byte : RollState → Byte
  | .noRoll => 0x00#8
  | .leader => 0x01#8
  | .playing => 0x02#8
  | .ending => 0x03#8

/-- The 19 bytes of STATE content (R171). -/
def State.stateBytes (s : State) : List Byte :=
  [s.roll.rollState.byte, BitVec.ofNat 8 (bitsToNat [s.roll.operator, s.roll.starved])]
    ++ lineBytes s.roll.planLine ++ lineBytes s.front.newest ++ lineBytes s.holes.settled
    ++ [match s.holes.activeSet with
        | some m => BitVec.ofNat 8 m.val
        | none => 0xFF#8]
    ++ toBytes 1 s.holes.code ++ toBytes 2 s.roll.tempo ++ toBytes 4 s.roll.rollTime.toNat

/-- The 25 bytes of data a STATUS QUERY returns (R172). -/
def State.statusBytes (s : State) : List Byte :=
  s.stateBytes ++ toBytes 1 (bitsToNat [s.link.linkLost, s.setupLock, s.store.op.isSome])
    ++ toBytes 2 (bitsToNat s.groupFaulted.toList) ++ toBytes 2 (bitsToNat s.faultLines.toList)
    ++ toBytes 1 (bitsToNat (s.store.regions.toList.map (·.storeBad)))

/-- The 52 bytes of data a COUNTERS READ returns (R173). -/
def State.counterBytes (s : State) : List Byte := s.counters.toList.flatMap (toBytes 2)

/-- An entry of the return queue is a reply. -/
def ReturnEntry.isReply : ReturnEntry → Bool
  | .reply _ _ => true
  | _ => false

/-- An entry of the return queue is a WINDOW report. -/
def ReturnEntry.isWindow : ReturnEntry → Bool
  | .window _ _ => true
  | _ => false

/-- An entry of the return queue is a STATE report. -/
def ReturnEntry.isState : ReturnEntry → Bool
  | .state _ _ => true
  | _ => false

/-- The frame an entry is sent as (R161). -/
def ReturnEntry.frame : ReturnEntry → List Byte
  | .reply tag payload => frameBytes 0x81#8 tag payload
  | .window seq payload => frameBytes 0x82#8 seq payload
  | .state seq payload => frameBytes 0x83#8 seq payload

/-- The replies the queue holds, counting the reservation of a store operation in flight (R166, R167). -/
def State.replyCount (s : State) : Nat :=
  s.link.queue.countP (·.isReply) + if s.store.op.isSome then 1 else 0

/-- A reply added at the newest end of the queue (R168): the command code, the result and the data (R167). -/
def State.queueReply (s : State) (tag : Tag) (code : Byte) (r : ResultCode) (data : List Byte) : State :=
  { s with link := { s.link with queue := s.link.queue ++ [.reply tag (code :: r.byte :: data)] } }

/-- A STATE report built now: it takes the next sequence number and replaces one still waiting (R168, R169, R171). -/
def State.queueState (s : State) : State :=
  { s with link := { s.link with
      queue := s.link.queue.filter (fun e => !e.isState) ++ [.state (s.link.reportSeq + 1) s.stateBytes]
      reportSeq := s.link.reportSeq + 1 } }

/-- A WINDOW report built now with a window top and the plan line (R168 to R170); a top above 16,777,215 is sent as 16,777,215. -/
def State.queueWindow (s : State) (top : Int) : State :=
  { s with link := { s.link with
      queue := s.link.queue.filter (fun e => !e.isWindow)
        ++ [.window (s.link.reportSeq + 1) (lineBytes (min top Config.lastLine) ++ lineBytes s.roll.planLine)]
      reportSeq := s.link.reportSeq + 1 } }

end Sys2Proof.Machine
end

