-- ==== Sys2Proof/Machine/Operands.lean ====
section
/-! DEFINITION. The operand forms of the table commands: table codes and runs, the entry layouts of R176, their ranges and the cross checks of R178. -/

namespace Sys2Proof.Machine

/-- The number fields of an entry with the given widths in bytes, where the bytes are exactly that long (R176). -/
def splitFields : List Nat → List Byte → Option (List Nat)
  | [], [] => some []
  | [], _ :: _ => none
  | w :: ws, bs =>
    if bs.length < w then none
    else (splitFields ws (bs.drop w)).map (fun vs => ofBytes (bs.take w) :: vs)

/-- The bytes of an entry whose fields have the given widths (R176). -/
def joinFields (ws vs : List Nat) : List Byte := (List.zipWith toBytes ws vs).flatten

/-- Every field lies in its range, bounds included. -/
def inRanges (ranges : List (Nat × Nat)) (vs : List Nat) : Bool :=
  (List.zipWith (fun (r : Nat × Nat) v => decide (r.1 ≤ v) && decide (v ≤ r.2)) ranges vs).all id

/-- The fields of an entry, where its length and every field's range are right (R176, R178). -/
def entryFields (ws : List Nat) (ranges : List (Nat × Nat)) (bs : List Byte) : Option (List Nat) :=
  (splitFields ws bs).bind fun vs => if inRanges ranges vs then some vs else none

/-- A key from the number a link byte carries, 1 to 88. -/
def keyOfNumber (n : Nat) : Option Key :=
  if h : 1 ≤ n ∧ n ≤ 88 then some ⟨n - 1, by omega⟩ else none

/-- A pedal's place in the order SUSTAIN, SOFT, SOSTENUTO. -/
def pedalPlace : Pedal → Fin 3
  | .sustain => 0
  | .soft => 1
  | .sostenuto => 2

/-- A pedal from its code (R176). -/
def pedalOfCode : Nat → Option Pedal
  | 0 => some .sustain
  | 1 => some .soft
  | 2 => some .sostenuto
  | _ => none

/-- A role's code (R176). -/
def roleCode : Role → Nat
  | .step1 => 0
  | .step2 => 1
  | .step4 => 2
  | .cresc => 3
  | .fast => 4
  | .sfz => 5
  | .accent => 6

/-- A role from its code (R176). -/
def roleOfCode : Nat → Option Role
  | 0 => some .step1
  | 1 => some .step2
  | 2 => some .step4
  | 3 => some .cresc
  | 4 => some .fast
  | 5 => some .sfz
  | 6 => some .accent
  | _ => none

/-- A half's code (R176). -/
def halfCode : Half → Nat
  | .bass => 0
  | .treble => 1

/-- A half from its code (R176). -/
def halfOfCode : Nat → Option Half
  | 0 => some .bass
  | 1 => some .treble
  | _ => none

/-- A map set or default set from its code. -/
def mapOfCode (n : Nat) : Option MapNo := if h : n < 4 then some ⟨n, h⟩ else none

/-- The class byte and parameters of a column's function (R176). -/
def ColumnFunction.codes : ColumnFunction → List Nat
  | .nothing => [0, 0, 0]
  | .key k => [1, k.number, 0]
  | .expr h r => [2, halfCode h, roleCode r]
  | .pedal p => [3, (pedalPlace p).val, 0]
  | .endMark => [4, 0, 0]

/-- A column's function from its class byte and parameters; an unused parameter byte must be zero (R176). -/
def functionOfCodes (cls p1 p2 : Nat) : Option ColumnFunction :=
  match cls with
  | 0 => if p1 = 0 ∧ p2 = 0 then some .nothing else none
  | 1 => if p2 = 0 then (keyOfNumber p1).map .key else none
  | 2 => (halfOfCode p1).bind fun h => (roleOfCode p2).map (.expr h)
  | 3 => if p2 = 0 then (pedalOfCode p1).map .pedal else none
  | 4 => if p1 = 0 ∧ p2 = 0 then some .endMark else none
  | _ => none

/-! Map sets -/

/-- The widths of a MAP header's fields. -/
def mapHeaderWidths : List Nat := [2, 2, 1, 1, 1, 1]

/-- The widths of a MAP column's fields. -/
def columnWidths : List Nat := [2, 1, 1, 1, 1, 1, 1]

/-- The bytes of a MAP header (R176). -/
def MapSet.headerBytes (m : MapSet) : List Byte := joinFields mapHeaderWidths [m.nl, m.nr, 0, 0, 0, 0]

/-- The bytes of a MAP column (R176). -/
def Column.bytes (c : Column) : List Byte :=
  joinFields columnWidths ([c.centre, c.width, c.openRun, c.closeRun] ++ c.function.codes)

/-- A map set with its header rewritten; NL and NR lie in 0 to 511 and the pad bytes are zero. -/
def MapSet.writeHeader (m : MapSet) (bs : List Byte) : Option MapSet :=
  match entryFields mapHeaderWidths [(0, 511), (0, 511), (0, 0), (0, 0), (0, 0), (0, 0)] bs with
  | some [nl, nr, _, _, _, _] => some { m with nl := nl, nr := nr }
  | _ => none

/-- A column from its bytes, ranges and coding checked (section 2.1). -/
def columnOfBytes (bs : List Byte) : Option Column :=
  match entryFields columnWidths [(0, 65535), (1, 15), (1, 8), (1, 8), (0, 4), (0, 255), (0, 255)] bs with
  | some [c, w, o, cl, f, p1, p2] => (functionOfCodes f p1 p2).map fun fn => ⟨c, w, o, cl, fn⟩
  | _ => none

/-- A map set with the entry at a table index rewritten. -/
def MapSet.writeEntry (m : MapSet) (i : Nat) (bs : List Byte) : Option MapSet :=
  if i = 0 then m.writeHeader bs
  else if h : i - 1 < 128 then
    (columnOfBytes bs).map fun c => { m with columns := m.columns.set (i - 1) c h }
  else none

/-- The bytes of a map set's entry at a table index. -/
def MapSet.readEntry (m : MapSet) (i : Nat) : List Byte :=
  if i = 0 then m.headerBytes
  else if h : i - 1 < 128 then m.columns[i - 1].bytes
  else []

/-- The cross checks of a map set: no function twice, NR - NL at least 64, every centre within NL to NR (R21, R178). -/
def MapSet.crossCheck (m : MapSet) : Bool :=
  decide ((m.columns.toList.map (·.function)).filter (· ≠ .nothing)).Nodup
    && decide (m.nl + 64 ≤ m.nr)
    && m.columns.toList.all (fun c => decide (m.nl ≤ c.centre) && decide (c.centre ≤ m.nr))

/-! FORMAT -/

/-- The widths of the FORMAT header's fields. -/
def formatWidths : List Nat := [2, 2, 2, 2, 2, 2, 2, 2, 1, 1, 2, 1]

/-- The bytes of the FORMAT header (R176). -/
def Format.headerBytes (f : Format) : List Byte :=
  joinFields formatWidths ([f.nl, f.nr] ++ f.centres.toList ++ [f.width, f.codeLines, f.leaderMax, f.defaultSet.val])

/-- FORMAT with its header rewritten (section 2.5). -/
def Format.writeHeader (f : Format) (bs : List Byte) : Option Format :=
  match entryFields formatWidths
      [(0, 511), (0, 511), (0, 65535), (0, 65535), (0, 65535), (0, 65535), (0, 65535), (0, 65535),
        (1, 15), (4, 64), (0, 8000), (0, 3)] bs with
  | some [nl, nr, c0, c1, c2, c3, c4, c5, w, cl, lm, ds] =>
    (mapOfCode ds).map fun d =>
      { f with nl := nl, nr := nr, centres := #v[c0, c1, c2, c3, c4, c5], width := w, codeLines := cl,
               leaderMax := lm, defaultSet := d }
  | _ => none

/-- A FORMAT code entry's byte: FF hex for UNKNOWN (R176). -/
def codeEntryByte : Option MapNo → Byte
  | some m => BitVec.ofNat 8 m.val
  | none => 0xFF#8

/-- A FORMAT code entry from its byte (R176). -/
def codeEntryOfBytes (bs : List Byte) : Option (Option MapNo) :=
  match bs with
  | [b] => if b = 0xFF#8 then some none else (mapOfCode b.toNat).map some
  | _ => none

/-- FORMAT with the entry at a table index rewritten. -/
def Format.writeEntry (f : Format) (i : Nat) (bs : List Byte) : Option Format :=
  if i = 0 then f.writeHeader bs
  else if h : i - 1 < 64 then
    (codeEntryOfBytes bs).map fun c => { f with codes := f.codes.set (i - 1) c h }
  else none

/-- The bytes of FORMAT's entry at a table index. -/
def Format.readEntry (f : Format) (i : Nat) : List Byte :=
  if i = 0 then f.headerBytes
  else if h : i - 1 < 64 then [codeEntryByte f.codes[i - 1]]
  else []

/-- The cross checks of FORMAT (R178). -/
def Format.crossCheck (f : Format) : Bool :=
  decide (f.nl + 64 ≤ f.nr) && f.centres.toList.all (fun c => decide (f.nl ≤ c) && decide (c ≤ f.nr))

/-! Expression profiles -/

/-- The widths of an EXPR entry's fields. -/
def exprWidths : List Nat := [2, 2, 2, 2, 2, 2, 2, 2, 2, 2, 2, 2, 2, 2, 1, 1, 2]

/-- The bytes of a profile (R176). -/
def ExprProfile.bytes (p : ExprProfile) : List Byte :=
  joinFields exprWidths (p.stepTable.toList
    ++ [p.rateSlow, p.rateFast, p.rateDecay, p.swellMax, p.slewRate, p.accentBoost, p.accentReach, p.splitKey, p.softScale])

/-- A profile from its bytes (section 4.2); the treble's split key and SoftScale are reserved zeros (R176). -/
def profileOfBytes (h : Half) (bs : List Byte) : Option ExprProfile :=
  let own : List (Nat × Nat) := match h with
    | .bass => [(0, 88), (128, 256)]
    | .treble => [(0, 0), (0, 0)]
  match entryFields exprWidths
      (List.replicate 8 (0, 1023)
        ++ [(0, 4095), (0, 4095), (0, 4095), (0, 1023), (1, 8191), (0, 511), (0, 8)] ++ own) bs with
  | some [s0, s1, s2, s3, s4, s5, s6, s7, rs, rf, rd, sm, sl, ab, ar, sk, ss] =>
    some ⟨#v[s0, s1, s2, s3, s4, s5, s6, s7], rs, rf, rd, sm, sl, ab, ar, sk, ss⟩
  | _ => none

/-! Key records, pedal records, SETTINGS -/

/-- The widths of a KEYS entry's fields. -/
def keyWidths : List Nat := [2, 2, 2, 2, 2, 2, 2, 1, 3, 3, 1, 1]

/-- The bytes of a key record (R176). -/
def KeyRecord.bytes (k : KeyRecord) : List Byte :=
  joinFields keyWidths [k.travel, k.lag, k.vFloor, k.vMax, k.k0, k.kg, k.kickMax, k.holdDuty, k.releaseLead,
    k.repeatGap, k.priority, if k.senseFitted then 1 else 0]

/-- A key record from its bytes (section 5.1). -/
def keyOfBytes (bs : List Byte) : Option KeyRecord :=
  match entryFields keyWidths
      [(2000, 8000), (0, 20000), (50, 3000), (100, 6000), (0, 10000), (0, 8191), (1000, 30000), (0, 255),
        (0, 100000), (5000, 100000), (0, 3), (0, 1)] bs with
  | some [d, l, vf, vm, k0, kg, km, hd, rl, rg, c, sf] =>
    some ⟨d, l, vf, vm, k0, kg, km, hd, rl, rg, c, sf == 1⟩
  | _ => none

/-- The widths of a PEDALS entry's fields. -/
def pedalWidths : List Nat := [3, 2, 1, 3]

/-- The bytes of a pedal record (R176). -/
def PedalRecord.bytes (p : PedalRecord) : List Byte :=
  joinFields pedalWidths [p.lead, p.kick, p.holdDuty, p.releaseLead]

/-- A pedal record from its bytes (section 8.1); the bound of Lead by PlanLead is a cross check. -/
def pedalOfBytes (bs : List Byte) : Option PedalRecord :=
  match entryFields pedalWidths [(0, 16777215), (1000, 60000), (0, 255), (0, 100000)] bs with
  | some [l, k, h, r] => some ⟨l, k, h, r⟩
  | _ => none

/-- The widths of the SETTINGS entry's fields. -/
def settingsWidths : List Nat := [1, 1, 1, 1, 2, 3, 2, 2, 1, 1, 2, 3, 2, 2, 3, 2, 1, 1, 2]

/-- The bytes of SETTINGS (section 11.1). -/
def Settings.bytes (g : Settings) : List Byte :=
  joinFields settingsWidths [g.holeThreshold, g.edgeThreshold, g.maxShift, g.widthTol, g.lpi, g.planLead,
    g.starveGrace, g.holdLimit, g.abandonTimeout, g.kickSlots, g.deferLimit, g.heatLimit, g.coolPerMs, g.minHold,
    g.catchMargin, g.senseWindow, if g.adaptEnable then 1 else 0, g.vStep, g.vFloorMax]

/-- SETTINGS from its bytes (section 11.1). -/
def settingsOfBytes (bs : List Byte) : Option Settings :=
  match entryFields settingsWidths
      [(1, 15), (1, 15), (0, 64), (0, 100), (50, 400), (40000, 250000), (5, 500), (500, 30000), (1, 30), (1, 24),
        (0, 50000), (5000, 200000), (0, 1000), (2000, 20000), (0, 100000), (1000, 30000), (0, 1), (0, 200),
        (300, 3000)] bs with
  | some [ht, et, ms, wt, lpi, pl, sg, hl, at', ks, dl, he, co, mh, cm, sw, ae, vs, vf] =>
    some ⟨ht, et, ms, wt, lpi, pl, sg, hl, at', ks, dl, he, co, mh, cm, sw, ae == 1, vs, vf⟩
  | _ => none

/-! Tables by code -/

/-- The tables a table code names (R176). -/
inductive TableName where
  | map (m : MapNo)
  | format
  | expr (h : Half)
  | velocity
  | keys
  | pedals
  | settings
deriving DecidableEq, Repr

/-- The table a table byte names (R176). -/
def tableOfByte (b : Byte) : Option TableName :=
  match b.toNat with
  | 0x00 => some (.map 0)
  | 0x01 => some (.map 1)
  | 0x02 => some (.map 2)
  | 0x03 => some (.map 3)
  | 0x04 => some .format
  | 0x05 => some (.expr .bass)
  | 0x06 => some (.expr .treble)
  | 0x07 => some .velocity
  | 0x08 => some .keys
  | 0x09 => some .pedals
  | 0x0A => some .settings
  | _ => none

/-- A table's first and last index (R176). -/
def TableName.indices : TableName → Nat × Nat
  | .map _ => (0, 128)
  | .format => (0, 64)
  | .expr _ => (0, 0)
  | .velocity => (0, 32)
  | .keys => (1, 88)
  | .pedals => (1, 3)
  | .settings => (0, 0)

/-- The bytes of a table's entry at an index (R176, R180). -/
def Tables.readEntry (t : Tables) (n : TableName) (i : Nat) : List Byte :=
  match n with
  | .map m => t.maps[m.val].readEntry i
  | .format => t.format.readEntry i
  | .expr h => (t.profile h).bytes
  | .velocity => if h : i < 33 then toBytes 2 t.velocity[i] else []
  | .keys => if h : i - 1 < 88 then t.keys[i - 1].bytes else []
  | .pedals => if h : i - 1 < 3 then t.pedals[i - 1].bytes else []
  | .settings => t.settings.bytes

/-- The tables with one entry rewritten, where its coding and field ranges are right (R178, step 3). -/
def Tables.writeEntry (t : Tables) (n : TableName) (i : Nat) (bs : List Byte) : Option Tables :=
  match n with
  | .map m => (t.maps[m.val].writeEntry i bs).map fun x => { t with maps := t.maps.set m.val x m.isLt }
  | .format => (t.format.writeEntry i bs).map fun x => { t with format := x }
  | .expr .bass => (profileOfBytes .bass bs).map fun x => { t with exprBass := x }
  | .expr .treble => (profileOfBytes .treble bs).map fun x => { t with exprTreble := x }
  | .velocity =>
    if h : i < 33 then
      match entryFields [2] [(0, 6000)] bs with
      | some [v] => some { t with velocity := t.velocity.set i v h }
      | _ => none
    else none
  | .keys =>
    if h : i - 1 < 88 then (keyOfBytes bs).map fun x => { t with keys := t.keys.set (i - 1) x h } else none
  | .pedals =>
    if h : i - 1 < 3 then (pedalOfBytes bs).map fun x => { t with pedals := t.pedals.set (i - 1) x h } else none
  | .settings => (settingsOfBytes bs).map fun x => { t with settings := x }

/-- The tables with a run of `count` entries from an index rewritten, each taking its own size of the bytes (R176 to R178). -/
def Tables.writeRun (t : Tables) (b : Byte) (n : TableName) (i : Nat) : Nat → List Byte → Option Tables
  | 0, _ => some t
  | count + 1, bs =>
    (t.writeEntry n i (bs.take (entrySize b i))).bind fun t' =>
      t'.writeRun b n (i + 1) count (bs.drop (entrySize b i))

/-- The velocity map is nondecreasing (R81). -/
def velocityRises (v : Vector Nat 33) : Bool :=
  (List.finRange 32).all fun i => decide (v[i.val]'(by omega) ≤ v[i.val + 1]'(by omega))

/-- Every pedal's Lead is at most PlanLead (R134). -/
def leadsFit (p : Vector PedalRecord 3) (planLead : Nat) : Bool := p.toList.all fun r => decide (r.lead ≤ planLead)

/-- The cross checks of R178, on the tables as the run leaves them. For KEYS only the run's own entries are looked at. -/
def Tables.crossCheck (t : Tables) (n : TableName) (start count : Nat) : Bool :=
  match n with
  | .map m => t.maps[m.val].crossCheck
  | .format => t.format.crossCheck
  | .expr _ => true
  | .velocity => velocityRises t.velocity
  | .keys => (List.finRange 88).all fun k =>
      !(decide (start ≤ k.val + 1) && decide (k.val + 1 < start + count))
        || (decide (t.keys[k.val].vFloor < t.keys[k.val].vMax) && decide (t.keys[k.val].vFloor ≤ t.settings.vFloorMax))
  | .pedals => leadsFit t.pedals t.settings.planLead
  | .settings => leadsFit t.pedals t.settings.planLead
      && t.keys.toList.all fun k => decide (k.vFloor ≤ t.settings.vFloorMax)

/-- A run that stays inside its table (R178, step 1). -/
def TableName.runFits (n : TableName) (start count : Nat) : Bool :=
  decide (count ≠ 0) && decide (n.indices.1 ≤ start) && decide (start + count ≤ n.indices.2 + 1)

/-- The entries a TABLE READ returns: as many from the start index as the count asks for, the table
holds and 283 bytes fit (R180). -/
def Tables.readRun (t : Tables) (n : TableName) (i : Nat) : Nat → Nat → List (List Byte)
  | 0, _ => []
  | count + 1, room =>
    let e := t.readEntry n i
    if n.indices.2 < i ∨ room < e.length then []
    else e :: t.readRun n (i + 1) count (room - e.length)

/-! Loading a region -/

/-- The tables with a region's stored content loaded; content of another region's kind loads nothing (R181). -/
def Tables.load (t : Tables) (r : Region) (c : RegionImage) : Tables :=
  match c with
  | .map m => if h : r.val < 4 then { t with maps := t.maps.set r.val m h } else t
  | .format f => if r = 4 then { t with format := f } else t
  | .expression b tr v => if r = 5 then { t with exprBass := b, exprTreble := tr, velocity := v } else t
  | .keys k => if r = 6 then { t with keys := k } else t
  | .drive p g => if r = 7 then { t with pedals := p, settings := g } else t

end Sys2Proof.Machine
end

