-- ==== Sys2Proof/Machine/Registration.lean ====
section
/-! DEFINITION. Pixels, paper edges, the registration transform and column sampling (R1, R10 to R17). -/

namespace Sys2Proof.Machine

/-- The 512 pixel levels of a SCAN payload: byte j holds pixel 2j in its high half and pixel 2j+1 in its low half (R1). -/
def pixelsOf (payload : List Byte) : List Nat := payload.flatMap fun b => [b.toNat / 16, b.toNat % 16]

/-- The good edge pair of a line, where it has one: the lowest and the highest pixel below the edge threshold, at least 64 apart (R10). -/
def findEdges (threshold : Nat) (px : List Nat) : Option (Nat × Nat) :=
  match px.findIdx? (· < threshold), px.reverse.findIdx? (· < threshold) with
  | some left, some back =>
    if left + 64 ≤ px.length - 1 - back then some (left, px.length - 1 - back) else none
  | _, _ => none

/-- The edge history with a pair appended, the oldest leaving when it would be the ninth (R11). -/
def appendEdge (edges : List (Nat × Nat)) (pair : Nat × Nat) : List (Nat × Nat) :=
  (edges ++ [pair]).drop (edges.length + 1 - 8)

/-- A mean rounded half up (R12). -/
def meanHalfUp (xs : List Nat) : Nat := (2 * xs.sum + xs.length) / (2 * xs.length)

/-- A value clamped to lo to hi. -/
def clampInt (lo hi x : Int) : Int := if x < lo then lo else if hi < x then hi else x

/-- The registration transform of a line: Lc, Wc and whether each clamp acted (R12 to R15). -/
structure Transform where
  lc : Int
  wc : Int
  shiftLimited : Bool
  widthLimited : Bool
deriving DecidableEq, Repr

/-- The transform from the edge history and the nominal edges (R12 to R15). -/
def registration (nl nr maxShift widthTol : Nat) (edges : List (Nat × Nat)) : Transform :=
  let nw : Int := (nr : Int) - nl
  if edges.isEmpty then ⟨nl, nw, false, false⟩
  else
    let lavg : Int := meanHalfUp (edges.map (·.1))
    let wavg : Int := meanHalfUp (edges.map (·.2)) - lavg
    let tol : Int := nw * widthTol / 1000
    let lc := clampInt (nl - maxShift) (nl + maxShift) lavg
    let wc := clampInt (nw - tol) (nw + tol) wavg
    ⟨lc, wc, decide (lc ≠ lavg), decide (wc ≠ wavg)⟩

/-- The registered centre of a column with nominal centre c (R16). -/
def Transform.place (t : Transform) (nl nr c : Nat) : Int :=
  let nw : Int := (nr : Int) - nl
  t.lc + (2 * ((c : Int) - nl) * t.wc + nw) / (2 * nw)

/-- Whether pixel i is on the line and at or above the hole threshold; a pixel off the bar counts as dark (R17). -/
def pixelBright (px : List Nat) (threshold : Nat) (i : Int) : Bool :=
  if 0 ≤ i then
    match px[i.toNat]? with
    | some level => decide (threshold ≤ level)
    | none => false
  else false

/-- Whether a column centred at pos with window width w is open: at least ceil(w / 2) bright window pixels (R17). -/
def columnOpen (px : List Nat) (threshold : Nat) (pos : Int) (w : Nat) : Bool :=
  let first : Int := pos - ((w - 1) / 2 : Nat)
  decide ((w + 1) / 2 ≤ (List.range w).countP fun (j : Nat) => pixelBright px threshold (first + j))

/-- A column set as sampling needs it: nominal edges, and each column's centre and window width in entry order (section 1.4). -/
structure ColumnPlan where
  nl : Nat
  nr : Nat
  columns : List (Nat × Nat)
deriving DecidableEq, Repr

/-- The plan of a column set, from FORMAT's header or a map set (R4, R16). -/
def Tables.columnPlan (t : Tables) : ColumnSet → ColumnPlan
  | .code => ⟨t.format.nl, t.format.nr, t.format.centres.toList.map fun c => (c, t.format.width)⟩
  | .map m => ⟨t.maps[m.val].nl, t.maps[m.val].nr, t.maps[m.val].columns.toList.map fun c => (c.centre, c.width)⟩

/-- The samples of a line's columns, in entry order (R17). -/
def ColumnPlan.sample (p : ColumnPlan) (t : Transform) (threshold : Nat) (px : List Nat) : List Bool :=
  p.columns.map fun c => columnOpen px threshold (t.place p.nl p.nr c.1) c.2

/-- All-closed samples for a column set (R7). -/
def ColumnPlan.closed (p : ColumnPlan) : List Bool := List.replicate p.columns.length false

end Sys2Proof.Machine
end

