-- ==== Sys2Proof/Machine/Strike.lean ====
section
/-! DEFINITION. The arithmetic of the Strike Planner, from note level to note record (R84 to R94). -/

namespace Sys2Proof.Machine

/-- The note level: intensity, lifted by the accent boost up to 1023, then scaled by the soft pedal (R84). -/
def noteLevel (intensity : Nat) (accented : Bool) (boost : Nat) (soft : Bool) (softScale : Nat) : Nat :=
  let lifted := if accented then min 1023 (intensity + boost) else intensity
  if soft then lifted * softScale / 256 else lifted

/-- The mapped velocity of a note level, interpolated in the velocity map and rounded half up (R85). -/
def mappedVelocity (v : Vector Nat 33) (level : Nat) : Nat :=
  let i := min 31 (level / 32)
  let f := level - 32 * i
  v[i]'(by omega) + ((v[i + 1]'(by omega) - v[i]'(by omega)) * f + 16) / 32

/-- A velocity clamped to a key's own range (R86). -/
def clampVelocity (r : KeyRecord) (v : Nat) : Nat :=
  if v < r.vFloor then r.vFloor else if r.vMax < v then r.vMax else v

/-- The flight of a hammer at a velocity, rounded half up (R87). -/
def flight (r : KeyRecord) (v : Nat) : Nat := (r.travel * 10000 + v / 2) / v

/-- The lead at a velocity (R88). -/
def lead (r : KeyRecord) (v : Nat) : Nat := r.lag + flight r v

/-- The kick for a velocity, clamped to 500 to KickMax (R90). -/
def kickFor (r : KeyRecord) (v : Nat) : Nat :=
  let k := r.k0 + v * r.kg / 1024
  if k < Config.kickFloor then Config.kickFloor else if r.kickMax < k then r.kickMax else k

/-- The note record of a note-on of a key on line n with a due time, from its note level (R85 to R91). -/
def rollNote (r : KeyRecord) (map : Vector Nat 33) (n : Nat) (due : RollTime) (level : Nat) (accented : Bool) : Note :=
  let v := clampVelocity r (mappedVelocity map level)
  { line := some n
    due := some due
    fire := some (rollSub due (lead r v))
    velocity := v
    kick := kickFor r v
    lead := lead r v
    accented := accented
    release := none
    deferred := false }

/-- The note record of a KEY TEST at a given velocity (R94). -/
def testNote (r : KeyRecord) (velocity : Nat) : Note :=
  let v := clampVelocity r velocity
  { line := none
    due := none
    fire := none
    velocity := v
    kick := kickFor r v
    lead := lead r v
    accented := false
    release := none
    deferred := false }

/-- A note is a KEY TEST's: it has no fire time (R94). -/
def Note.isTest (n : Note) : Bool := n.fire.isNone

end Sys2Proof.Machine
end

