-- ==== Sys2Proof/Machine/Ops.lean ====
section
/-! DEFINITION. The shared operations of the card: channels and their lists, kick slots, the requests of one device time, releases, holds, the roll's stop, entering PLAYING, frames and replies, power-on. -/

namespace Sys2Proof.Machine

/-- What a command answers: always a next state (see Fault). -/
abbrev Answer := Host.Outcome State Fault Refusal

/-- A meaning that acts only while the card is powered and out of reset; otherwise nothing happens (entry 4). -/
def whenRunning (s : State) (f : State → State) : Answer :=
  .next (if s.power = .running then f s else s)

/-- A meaning that acts only when its event is due (entry 1). -/
def whenDue (s : State) (due : State → Bool) (f : State → State) : Answer :=
  whenRunning s fun t => if due t then f t else t

/-! Channels -/

/-- All keys, ascending. -/
def allKeys : List Key := List.finRange 88

/-- All pedals, in the manual's order. -/
def allPedals : List Pedal := [.sustain, .soft, .sostenuto]

/-- A key's channel record. -/
def State.key (s : State) (k : Key) : KeyChannel := s.keys[k.val]

/-- The state with a key's channel record replaced. -/
def State.withKey (s : State) (k : Key) (c : KeyChannel) : State :=
  { s with keys := s.keys.set k.val c k.isLt }

/-- The state with every key channel changed. -/
def State.mapKeys (s : State) (f : Key → KeyChannel → KeyChannel) : State :=
  { s with keys := Vector.ofFn fun k => f k (s.key k) }

/-- A pedal's channel record. -/
def State.pedal (s : State) (p : Pedal) : PedalChannel := s.pedals[(pedalPlace p).val]

/-- The state with a pedal's channel record replaced. -/
def State.withPedal (s : State) (p : Pedal) (c : PedalChannel) : State :=
  { s with pedals := s.pedals.set (pedalPlace p).val c (pedalPlace p).isLt }

/-- The state with every pedal channel changed. -/
def State.mapPedals (s : State) (f : PedalChannel → PedalChannel) : State :=
  { s with pedals := s.pedals.map f }

/-- A key's record in the working KEYS table. -/
def State.record (s : State) (k : Key) : KeyRecord := s.tables.keys[k.val]

/-- The state with a key's record replaced in the working KEYS table. -/
def State.withRecord (s : State) (k : Key) (r : KeyRecord) : State :=
  { s with tables := { s.tables with keys := s.tables.keys.set k.val r k.isLt } }

/-- A pedal's record in the working PEDALS table. -/
def State.pedalRecord (s : State) (p : Pedal) : PedalRecord := s.tables.pedals[(pedalPlace p).val]

/-- A key's drive group (00_scope.md; R128). -/
def keyGroup (k : Key) : Group := ⟨k.val / 8, by omega⟩

/-- The pedals' drive group (R128). -/
def pedalGroup : Group := 11

/-- A drive group is FAULTED (R128). -/
def State.faulted (s : State) (g : Group) : Bool := s.groupFaulted[g.val]

/-- The kick count: the channels, key and pedal, in KICK (section 7.1). -/
def State.kickCount (s : State) : Nat :=
  allKeys.countP (fun k => (s.key k).state == .kick) + allPedals.countP (fun p => (s.pedal p).state == .kick)

/-- Every key and pedal channel is IDLE (R59, R179). -/
def State.allIdle (s : State) : Bool :=
  allKeys.all (fun k => (s.key k).state == .idle) && allPedals.all (fun p => (s.pedal p).state == .idle)

/-! The Fire List and the Kick Wait List -/

/-- A channel's place among channels of equal fire time: pedals first, then keys ascending (R98, R119). -/
def Channel.rank : Channel → Nat
  | .pedal p => (pedalPlace p).val
  | .key k => 3 + k.val

/-- Whether a Fire List entry stands before another (R98). -/
def FireEntry.before (a b : FireEntry) : Bool :=
  earlier a.time b.time || (a.time == b.time && decide (a.channel.rank < b.channel.rank))

/-- An entry inserted at its place in the Fire List (R98). -/
def insertFire (e : FireEntry) : List FireEntry → List FireEntry
  | [] => [e]
  | x :: xs => if e.before x then e :: x :: xs else x :: insertFire e xs

/-- Whether a Kick Wait List entry stands before another in grant order: PEDAL, then the higher key class;
within a class the channels' order (R120). -/
def WaitEntry.before (a b : WaitEntry) : Bool :=
  match a.cls, b.cls with
  | .pedal, .pedal => decide (a.channel.rank < b.channel.rank)
  | .pedal, .key _ => true
  | .key _, .pedal => false
  | .key c, .key d => decide (d < c) || (decide (c = d) && decide (a.channel.rank < b.channel.rank))

/-- An entry inserted at its place in the Kick Wait List (R120). -/
def insertWait (e : WaitEntry) : List WaitEntry → List WaitEntry
  | [] => [e]
  | x :: xs => if e.before x then e :: x :: xs else x :: insertWait e xs

/-- The state with a Fire List entry inserted. -/
def State.armFire (s : State) (c : Channel) (t : RollTime) : State :=
  { s with fireList := insertFire ⟨c, t⟩ s.fireList }

/-- The state with a channel's entries out of the Fire List (R98). -/
def State.dropFire (s : State) (c : Channel) : State :=
  { s with fireList := s.fireList.filter (fun e => e.channel != c) }

/-- The state with a channel's entry in the Kick Wait List (R119, R120). -/
def State.joinWait (s : State) (c : Channel) (cls : WaitClass) : State :=
  { s with waitList := insertWait ⟨c, cls, s.deviceTime⟩ s.waitList }

/-- The state with a channel's entries out of the Kick Wait List (R124). -/
def State.dropWait (s : State) (c : Channel) : State :=
  { s with waitList := s.waitList.filter (fun e => e.channel != c) }

/-! Key channels: IDLE, RELEASE, kick start, firing, promotion -/

/-- A key channel gone IDLE: no notes, target NONE, hold-released clear (R108, R109). Heat and an open sense watch stay (R151). -/
def KeyChannel.toIdle (c : KeyChannel) : KeyChannel :=
  { KeyChannel.fresh with sense := c.sense, heat := c.heat }

/-- A key channel entering RELEASE with a gap end (R108). Its notes stay; its drive goes off. -/
def KeyChannel.toRelease (c : KeyChannel) (gapEnd : Nat) : KeyChannel :=
  { c with
    state := .release, appliedKick := none, kickEnd := none, minHoldEnd := none, testRelease := none
    gapEnd := some gapEnd, waitStart := none, holdWatch := none, duty := 0 }

/-- Key channel k enters RELEASE: its gap end is RepeatGap_k from now (R108). -/
def State.enterRelease (s : State) (k : Key) : State :=
  s.withKey k ((s.key k).toRelease (s.deviceTime + (s.record k).repeatGap))

/-- A strike is late: its kick starts more than 2,000 microseconds after its fire time (R92). -/
def lateKick (now : RollTime) (fire : Option RollTime) : Bool :=
  match fire with
  | some f => decide ((Config.lateLimit : Int) < (now - f).toInt)
  | none => false

/-- The key channel at the start of a kick of a given length (R106, R125, R56, R151). -/
def KeyChannel.toKick (c : KeyChannel) (n : Note) (now kick : Nat) (fromList stopped : Bool) : KeyChannel :=
  { c with
    state := .kick
    current := some { n with deferred := n.deferred || fromList }
    appliedKick := some kick
    kickEnd := some (now + kick)
    waitStart := none
    sense := some ⟨now + n.lead, now⟩
    holdWatch := if stopped then some ⟨now, false⟩ else c.holdWatch
    heat := c.heat + kick
    duty := 255 }

/-- Key channel k starts a kick of a given length of its note n, granted from the list or not: the
channel, the deferred counter (R121) and the late check (R92). -/
def State.startKick (s : State) (k : Key) (n : Note) (kick : Nat) (fromList : Bool) : State :=
  ((s.withKey k ((s.key k).toKick n s.deviceTime kick fromList s.clockStopped)).bumpIf fromList .deferred).bumpIf
    (lateKick s.roll.rollTime n.fire) .lateStrike

/-- The kick start of key channel k on a grant: cap and heat check (R106, R125). True when the kick
starts; false when the heat check refuses it, the note then being dropped by the caller. -/
def State.kickStart (s : State) (k : Key) (fromList : Bool) : Bool × State :=
  match (s.key k).current with
  | none => (false, s)
  | some n =>
    let capped := min n.kick (s.record k).kickMax
    let headroom := s.tables.settings.heatLimit - (s.key k).heat
    if capped ≤ headroom then (true, s.startKick k n capped fromList)
    else if Config.kickFloor ≤ headroom then (true, (s.bump .heatTrim).startKick k n headroom fromList)
    else (false, s.bump .heatDrop)

/-- Key channel k enters WAITING and joins the Kick Wait List (R105, R119). -/
def State.wait (s : State) (k : Key) : State :=
  (s.withKey k { s.key k with state := .waiting, waitStart := some s.deviceTime }).joinWait (.key k)
    (.key (s.record k).priority)

/-- Key channel k fires (R105): a fault drop in a FAULTED group, else a kick slot granted at once or a
place in the list (R119). False when its note is dropped. -/
def State.attempt (s : State) (k : Key) : Bool × State :=
  if s.faulted (keyGroup k) then (false, s.bump .faultDrop)
  else if s.kickCount < s.tables.settings.kickSlots then s.kickStart k false
  else (true, s.wait k)

/-- Key channel k goes IDLE. -/
def State.goIdle (s : State) (k : Key) : State := s.withKey k (s.key k).toIdle

/-- Key channel k fires a note that has no pending note behind it; a dropped note leaves it IDLE (R105, R109). -/
def State.fireLast (s : State) (k : Key) : State :=
  let r := s.attempt k
  if r.1 then r.2 else r.2.goIdle k

/-- The key channel with its pending note promoted (R109), in ARMED. -/
def KeyChannel.promoted (c : KeyChannel) (n : Note) : KeyChannel :=
  { c.toIdle with
    state := .armed
    current := some n
    target := if c.target = .pending then .current else c.target }

/-- Key channel k's current note is gone: its pending note is promoted, into the Fire List or firing at
once when its fire time is reached, or the channel goes IDLE (R108, R109). -/
def State.promote (s : State) (k : Key) : State :=
  match (s.key k).pending with
  | none => s.goIdle k
  | some n =>
    let t := s.withKey k ((s.key k).promoted n)
    match n.fire with
    | some f => if reached s.roll.rollTime f then t.fireLast k else t.armFire (.key k) f
    | none => t.fireLast k

/-- Key channel k, armed with a current note, fires (R105); a dropped note promotes the pending one. -/
def State.fireKey (s : State) (k : Key) : State :=
  let r := s.attempt k
  if r.1 then r.2 else r.2.promote k

/-- Key channel k's entry expires: it leaves the Kick Wait List, its note is a defer drop, a pending note is promoted (R123). -/
def State.expireWait (s : State) (k : Key) : State := ((s.dropWait (.key k)).bump .deferDrop).promote k

/-! Pedal channels -/

/-- A pedal channel at kick start (R141). -/
def PedalChannel.toKick (c : PedalChannel) (now : Nat) : PedalChannel :=
  { c with
    state := .kick
    kickEnd := c.current.map (fun p => now + p.kick)
    waitStart := none
    duty := 255 }

/-- A pedal channel entering RELEASE (R143). -/
def PedalChannel.toRelease (c : PedalChannel) (now : Nat) : PedalChannel :=
  { c with
    state := .release, kickEnd := none, waitStart := none, releaseEnd := some (now + Config.pedalRelease), duty := 0 }

/-- Pedal channel p starts its kick (R141). -/
def State.startPedal (s : State) (p : Pedal) : State := s.withPedal p ((s.pedal p).toKick s.deviceTime)

/-- Pedal channel p fires: a slot at once or a place in the list at class PEDAL (R141, R119). -/
def State.firePedal (s : State) (p : Pedal) : State :=
  if s.kickCount < s.tables.settings.kickSlots then s.startPedal p
  else (s.withPedal p { s.pedal p with state := .waiting, waitStart := some s.deviceTime }).joinWait (.pedal p) .pedal

/-- Pedal channel p takes a press as its current one and enters ARMED, firing at once when its fire time is reached (R143). -/
def State.armPedal (s : State) (p : Pedal) (press : Press) : State :=
  let t := s.withPedal p { PedalChannel.fresh with state := .armed, current := some press }
  if reached s.roll.rollTime press.fire then t.firePedal p else t.armFire (.pedal p) press.fire

/-- Pedal channel p's release time has run out: the press goes; a pending one is armed, or the channel goes IDLE (R143). -/
def State.endPedalRelease (s : State) (p : Pedal) : State :=
  match (s.pedal p).pending with
  | some press => s.armPedal p press
  | none => s.withPedal p PedalChannel.fresh

/-- Pedal channel p enters RELEASE (R143). -/
def State.releasePedal (s : State) (p : Pedal) : State := s.withPedal p ((s.pedal p).toRelease s.deviceTime)

/-- Pedal channel p's current press has a lift time that roll time has reached (R142). -/
def State.liftReached (s : State) (p : Pedal) : Bool :=
  match (s.pedal p).current with
  | some c => match c.lift with
    | some t => reached s.roll.rollTime t
    | none => false
  | none => false

/-! What requests a kick slot at this device time, and the order of R119 -/

/-- A device time that is present has been reached. -/
def passed (now : Nat) (t : Option Nat) : Bool :=
  match t with
  | some e => decide (e ≤ now)
  | none => false

/-- Key channel k's repeat gap has run out (R108). -/
def State.gapDue (s : State) (k : Key) : Bool :=
  (s.key k).state == .release && passed s.deviceTime (s.key k).gapEnd

/-- Key channel k has waited DeferLimit in the Kick Wait List (R123). -/
def State.deferDue (s : State) (k : Key) : Bool :=
  (s.key k).state == .waiting && decide (0 < s.tables.settings.deferLimit)
    && passed s.deviceTime ((s.key k).waitStart.map (· + s.tables.settings.deferLimit))

/-- Pedal channel p's release time has run out (R143). -/
def State.pedalReleaseDue (s : State) (p : Pedal) : Bool :=
  (s.pedal p).state == .release && passed s.deviceTime (s.pedal p).releaseEnd

/-- Key channel k has a pending note that would fire as it is promoted: its fire time is reached, or it has none (R109). -/
def State.promotesToFire (s : State) (k : Key) : Bool :=
  match (s.key k).pending with
  | some n => match n.fire with
    | some f => reached s.roll.rollTime f
    | none => true
  | none => false

/-- Pedal channel p has a pending press that would fire as it is armed (R143). -/
def State.armsToFire (s : State) (p : Pedal) : Bool :=
  match (s.pedal p).pending with
  | some f => reached s.roll.rollTime f.fire
  | none => false

/-- A channel is ARMED with the fire time of its Fire List entry reached (R98). -/
def State.firesNow (s : State) (c : Channel) : Bool :=
  (match c with
    | .pedal p => (s.pedal p).state == .armed
    | .key k => (s.key k).state == .armed)
  && s.fireList.any fun e => e.channel == c && reached s.roll.rollTime e.time

/-- A channel requests a kick slot at this device time by itself: its fire time is reached, or the end of its
release, gap or wait lets a pending press or note through to fire (R105, R109, R119, R123, R143). -/
def State.requestsNow (s : State) (c : Channel) : Bool :=
  s.firesNow c || (match c with
    | .pedal p => s.pedalReleaseDue p && s.armsToFire p
    | .key k => (s.gapDue k || s.deferDue k) && s.promotesToFire k)

/-- A channel's request of this device time is judged, where it makes one (R119). -/
def State.judge (s : State) (c : Channel) : State :=
  if !s.requestsNow c then s
  else match c with
    | .pedal p => if s.firesNow c then (s.dropFire c).firePedal p else s.endPedalRelease p
    | .key k =>
      if s.firesNow c then (s.dropFire c).fireKey k
      else if s.gapDue k then s.promote k
      else s.expireWait k

/-- Every drive channel in the order in which R119 judges requests of one device time. -/
def allChannels : List Channel := allPedals.map .pedal ++ allKeys.map .key

/-- Some channels request a kick slot inside one step, and every request that R119 puts before one of them is
judged in its turn with them (R119). -/
def State.judgeUpTo (s : State) (own : List Channel) : State :=
  (allChannels.filter fun c => own.any fun o => decide (c.rank ≤ o.rank)).foldl State.judge s

/-! Freed slots -/

/-- The slots below KickSlots handed to the heads of the Kick Wait List in turn, at most n grants
(R121). The keys whose notes the heat check refused are answered too, to promote afterwards. -/
def State.handOnLoop : Nat → State → List Key → State × List Key
  | 0, s, dropped => (s, dropped)
  | n + 1, s, dropped =>
    match s.waitList with
    | [] => (s, dropped)
    | e :: rest =>
      if s.kickCount < s.tables.settings.kickSlots then
        match e.channel with
        | .pedal p => State.handOnLoop n ({ s with waitList := rest }.startPedal p) dropped
        | .key k =>
          let r := { s with waitList := rest }.kickStart k true
          State.handOnLoop n r.2 (if r.1 then dropped else k :: dropped)
      else (s, dropped)

/-- Key channel k's current note is gone: its pending note is promoted into the Fire List, or the channel goes IDLE (R109). -/
def State.rearm (s : State) (k : Key) : State :=
  match (s.key k).pending with
  | none => s.goIdle k
  | some n => (s.withKey k ((s.key k).promoted n)).armFire (.key k) (n.fire.getD s.roll.rollTime)

/-- Freed slots handed on (R121). A key whose note was dropped then promotes its pending note, and where its fire
time is reached it requests a slot after them, in its turn among the requests of this device time (R109, R119). -/
def State.handOn (s : State) : State :=
  let r := State.handOnLoop s.waitList.length s []
  let dropped := allKeys.filter fun k => r.2.contains k
  let t := dropped.foldl State.rearm r.1
  t.judgeUpTo ((dropped.map .key).filter t.firesNow)

/-- The keys that request a kick slot once freed slots have been handed on (R121). -/
def State.handOnRequests (s : State) : List Key :=
  let r := State.handOnLoop s.waitList.length s []
  allKeys.filter fun k => r.2.contains k && r.1.promotesToFire k

/-! Releases -/

/-- A note's release time has been reached by roll time (R104). -/
def releaseReached (now : RollTime) (n : Option Note) : Bool :=
  match n with
  | some m => match m.release with
    | some t => reached now t
    | none => false
  | none => false

/-- Key channel k in HOLD meets both conditions of R104. -/
def State.releaseDue (s : State) (k : Key) : Bool :=
  (s.key k).state == .hold && releaseReached s.roll.rollTime (s.key k).current
    && passed s.deviceTime (s.key k).minHoldEnd

/-- Key channel k released if R104's conditions are met. -/
def State.checkRelease (s : State) (k : Key) : State := if s.releaseDue k then s.enterRelease k else s

/-! Sweeps by a fault, a stop or a reset (R110 to R112, R144, R145) -/

/-- A key channel swept by a group fault (R110): a busy one enters RELEASE, its notes dropped and its
target NONE; a kick cut short closes its sense watch; one already in RELEASE keeps its gap end. -/
def KeyChannel.swept (c : KeyChannel) (gapEnd : Nat) : KeyChannel :=
  match c.state with
  | .idle => c
  | .release => { c with current := none, pending := none, target := .nothing }
  | _ =>
    { c.toRelease gapEnd with
      current := none, pending := none, target := .nothing
      sense := if c.state = .kick then none else c.sense }

/-- A key channel stopped by ROLL STOP, abandonment or LINK RESET (R111, R112). -/
def KeyChannel.stopped (c : KeyChannel) (gapEnd : Nat) : KeyChannel :=
  { c.swept gapEnd with target := .nothing, holdReleased := false }

/-- A pedal channel swept by a fault or a stop (R144, R145). -/
def PedalChannel.swept (c : PedalChannel) (now : Nat) : PedalChannel :=
  match c.state with
  | .idle => c
  | .release => { c with current := none, pending := none }
  | _ => { c.toRelease now with current := none, pending := none }

/-- The notes a sweep drops from a channel (R110, R117). -/
def KeyChannel.dropCount (c : KeyChannel) : Nat :=
  if c.state = .idle then 0 else c.current.toList.length + c.pending.toList.length

/-- Every channel stopped and both lists emptied (R111, R112, R118, R145). -/
def State.stopChannels (s : State) : State :=
  let t := s.mapKeys fun k c => c.stopped (s.deviceTime + (s.record k).repeatGap)
  { t.mapPedals (fun c => c.swept s.deviceTime) with fireList := [], waitList := [], pedalUnit := PedalUnit.fresh }

/-! Hold reasons and the roll clock (R51 to R57, R63) -/

/-- Every key channel in KICK or HOLD starts a hold-limit watch; one marked expired stays (R56). -/
def State.startWatches (s : State) : State :=
  s.mapKeys fun _ c =>
    if c.state = .kick ∨ c.state = .hold then
      match c.holdWatch with
      | some w => if w.expired then c else { c with holdWatch := some ⟨s.deviceTime, false⟩ }
      | none => { c with holdWatch := some ⟨s.deviceTime, false⟩ }
    else c

/-- Every hold-limit watch that has not expired is removed (R56). -/
def State.dropWatches (s : State) : State :=
  s.mapKeys fun _ c =>
    match c.holdWatch with
    | some w => if w.expired then c else { c with holdWatch := none }
    | none => c

/-- The hold reasons become OPERATOR = op, STARVED = st, and the watches start or go with the clock (R55, R56); no report. -/
def State.changeHolds (s : State) (op st : Bool) : State :=
  let t : State := { s with roll := { s.roll with operator := op, starved := st } }
  if !(s.roll.operator || s.roll.starved) && (op || st) then t.startWatches
  else if (s.roll.operator || s.roll.starved) && !(op || st) then t.dropWatches
  else t

/-- The hold reasons changed, with the STATE report of the change; setting them as they are does nothing (R55, R63). -/
def State.setHolds (s : State) (op st : Bool) : State :=
  if op = s.roll.operator ∧ st = s.roll.starved then s else (s.changeHolds op st).queueState

/-- The starve episode, if one is open, ends when the next line's plan moment is later than roll time (R52; entry 14). -/
def State.checkEpisode (s : State) : State :=
  if s.roll.starveStart.isSome && !s.planReached s.nextLine then
    ({ s with roll := { s.roll with starveStart := none } }).setHolds s.roll.operator false
  else s

/-! The roll's start and stop -/

/-- The records a ROLL START, a stop or power-on clears in the Hole Recognizer: no active set, no records, an empty queue (R23, R24, R30). -/
def HoleRecognizer.inactive (h : HoleRecognizer) : HoleRecognizer :=
  { h with activeSet := none, debounce := [], queue := [] }

/-- The timeline record at a stop or at the roll's end: NO ROLL, no holds, empty schedule; roll time,
plan line and tempo stay (R40, R59, R60). -/
def Timeline.toNoRoll (r : Timeline) : Timeline :=
  { r with
    rollState := .noRoll, operator := false, starved := false, schedule := [], endLine := none
    starveStart := none, abandonStart := none }

/-- The roll stopped with the effects of R60. -/
def State.stopRoll (s : State) : State :=
  let t := s.stopChannels
  State.queueState { t with holes := t.holes.inactive, roll := t.roll.toNoRoll }

/-- The roll enters PLAYING at first play line F with map set m (R24, R44, R170). -/
def State.enterPlaying (s : State) (f : Nat) (m : MapNo) : State :=
  let p := linePeriod s.tables.settings.lpi s.roll.startTempo
  let t : State := { s with
    holes := { s.holes with activeSet := some m, debounce := List.replicate 128 ⟨false, none⟩ }
    roll := { s.roll with
      rollState := .playing
      rollTime := 0
      schedule := [⟨f, BitVec.ofNat 32 (s.tables.settings.planLead + 8 * p), s.roll.startTempo⟩]
      tempo := s.roll.startTempo
      planLine := (f : Int) - 1 } }
  t.queueState.queueWindow ((f : Int) + 2047)

/-! Frames and replies (R61, R165 to R167) -/

/-- A valid forward-lane frame has arrived: the link-alive watch restarts (R165), and an abandon start
goes if AbandonTimeout has not passed (R61). -/
def State.validFrame (s : State) : State :=
  { s with
    link := { s.link with aliveStart := some s.deviceTime }
    roll := { s.roll with
      abandonStart := match s.roll.abandonStart with
        | some a => if s.deviceTime < a + s.tables.settings.abandonTimeout * 1000000 then none else some a
        | none => none } }

/-- What an owner answers to a command it is handed (R166): a reply, or none when it is reserved
(R167), and the effect. -/
structure Verdict where
  result : Option ResultCode
  data : List Byte
  act : State → State

/-- A command refused: a reply and no effect. -/
def refuse (r : ResultCode) : Verdict := ⟨some r, [], id⟩

/-- A command taken: a reply and its effect. -/
def accept (r : ResultCode) (act : State → State) : Verdict := ⟨some r, [], act⟩

/-- A valid CONTROL frame with a command code: it is a valid frame; with 14 replies pending it is
discarded and counted; otherwise the owner's reply is queued first and the effect follows (R166 to R168). -/
def State.control (s : State) (tag : Tag) (code : Byte) (judge : State → Verdict) : State :=
  let t := s.validFrame
  if Config.replyLimit ≤ t.replyCount then t.bump .replyOverflow
  else
    let v := judge t
    v.act (match v.result with
      | some r => t.queueReply tag code r v.data
      | none => t)

/-! Power-on (R181) -/

/-- A store operation in flight is lost and its region is left with its check failing (R181). -/
def Store.loseOp (st : Store) : Store :=
  match st.op with
  | none => st
  | some o =>
    { st with
      regions := st.regions.set o.region.val { st.regions[o.region.val] with checkGood := false } o.region.isLt
      op := none }

/-- Each region examined: its store-bad flag says whether its check fails, every protected flag is set, Lock is clear (R181). -/
def Store.examined (st : Store) : Store :=
  { regions := Vector.ofFn fun r =>
      { st.regions[r.val] with storeBad := !st.regions[r.val].checkGood, protectedFlag := true }
    lock := false
    op := none }

/-- The working tables loaded from the store, defaults where a region's check fails (R181). -/
def Store.loaded (st : Store) : Tables :=
  (List.finRange 8).foldl (fun t r =>
    if st.regions[r.val].checkGood then t.load r st.regions[r.val].content else t) defaultTables

/-- Each VFloor above VFloorMax lowered to it (R80, R181). -/
def Tables.capFloors (t : Tables) : Tables :=
  { t with keys := Vector.ofFn fun k =>
      { t.keys[k.val] with vFloor := min t.keys[k.val].vFloor t.settings.vFloorMax } }

/-- Every block at its power-on values over the store as it stands, at a device time (R181). -/
def State.bringUp (s : State) (now nextCool : Nat) : State :=
  let st := s.store.loseOp.examined
  State.powered now nextCool s.freeIndex s.setupLock s.faultLines st.loaded.capFloors st s.pending

end Sys2Proof.Machine
end

