-- ==== Sys2Proof/Machine/Drive.lean ====
section
/-! DEFINITION. Heat cooling, the drive-group fault lines and FAULT CLEAR (R126 to R132, R144). -/

namespace Sys2Proof.Machine

/-- Device time has passed a whole multiple of 1,000 microseconds (R126). -/
def State.coolDue (s : State) : Bool := decide (s.nextCool ≤ s.deviceTime)

/-- Every key's heat falls by CoolPerMs, stopping at 0, and the next multiple of 1,000 microseconds is awaited (R126). -/
def State.cool (s : State) : State :=
  { (s.mapKeys fun _ c => { c with heat := c.heat - s.tables.settings.coolPerMs }) with nextCool := s.nextCool + 1000 }

/-- HEAT_COOLING (R126). -/
def execHeatCooling (s : State) : Answer := whenDue s State.coolDue State.cool

/-- The level of a fault line set (R128). -/
def State.setFaultLine (s : State) (g : Group) (active : Bool) : State :=
  { s with faultLines := s.faultLines.set g.val active g.isLt }

/-- A group's state set (R128). -/
def State.setFaulted (s : State) (g : Group) (bad : Bool) : State :=
  { s with groupFaulted := s.groupFaulted.set g.val bad g.isLt }

/-- A drive channel belongs to a group (R128). -/
def Channel.inGroup (g : Group) : Channel → Bool
  | .pedal _ => g == pedalGroup
  | .key k => g == keyGroup k

/-- The key notes a fault of a group drops (R110). -/
def State.faultDrops (s : State) (g : Group) : Nat :=
  ((allKeys.filter (fun k => keyGroup k == g)).map fun k => (s.key k).dropCount).sum

/-- A group's channels swept by its fault (R110, R129, R144); the freed slots are handed on by the caller. -/
def State.sweepGroup (s : State) (g : Group) : State :=
  let t := (s.bumpBy .faultDrop (s.faultDrops g)).mapKeys fun k c =>
    if keyGroup k = g then c.swept (s.deviceTime + (s.record k).repeatGap) else c
  let u : State := { t with
    fireList := t.fireList.filter (fun e => !e.channel.inGroup g)
    waitList := t.waitList.filter (fun e => !e.channel.inGroup g) }
  if g = pedalGroup then
    { u.mapPedals (fun c => c.swept s.deviceTime) with
      pedalUnit := { u.pedalUnit with planned := ⟨false, false, false⟩, capture := [], window := none } }
  else u

/-- A fault line becomes active in a running card (R129, R130). -/
def State.raiseFault (s : State) (g : Group) : State :=
  if s.faulted g then s.bump .repeatFault
  else (((s.setFaulted g true).bump .groupFault).sweepGroup g).handOn

/-- FAULT_LINE_ACTIVE (R129, R130): a line that is active already becomes nothing. With the card off or in
reset only the level changes (R118; entry 4). -/
def execFaultLineActive (g : Group) (s : State) : Answer :=
  .next (if s.faultLines[g.val] then s
    else if s.power = .running then (s.setFaultLine g true).raiseFault g
    else s.setFaultLine g true)

/-- FAULT_LINE_INACTIVE (R128). -/
def execFaultLineInactive (g : Group) (s : State) : Answer := .next (s.setFaultLine g false)

/-- A group mask names a group (R132, section 10.4). -/
def maskNames (mask : BitVec 16) (g : Group) : Bool := mask.getLsbD g.val

/-- Every named FAULTED group whose line is inactive becomes OK (R132). -/
def State.clearFaults (s : State) (mask : BitVec 16) : State :=
  { s with groupFaulted := Vector.ofFn fun g =>
      s.groupFaulted[g.val] && !(maskNames mask g && !s.faultLines[g.val]) }

/-- How FAULT CLEAR is judged (R132). -/
def judgeFaultClear (mask : BitVec 16) (s : State) : Verdict :=
  if 4096 ≤ mask.toNat then refuse .range
  else
    accept
      (if (List.finRange 12).any fun g => maskNames mask g && s.faulted g && s.faultLines[g.val] then .faultActive
        else .done)
      fun t => t.clearFaults mask

/-- FAULT_CLEAR (R132). -/
def execFaultClear (tag : Tag) (mask : BitVec 16) (s : State) : Answer :=
  whenRunning s fun t => t.control tag 0x32#8 (judgeFaultClear mask)

end Sys2Proof.Machine
end

