-- ==== Sys2Proof/Machine/Keys.lean ====
section
/-! DEFINITION. The events of the key channels and KEY TEST (Chapter 6, R57, R123). -/

namespace Sys2Proof.Machine

/-- How KEY TEST is judged, in the order of R114. -/
def judgeKeyTest (key : Byte) (velocity : BitVec 16) (s : State) : Verdict :=
  if s.rollActive then refuse .state
  else match keyOfNumber key.toNat with
    | none => refuse .range
    | some k =>
      if (s.key k).state ≠ .idle then refuse .busy
      else
        accept .done fun t =>
          State.fireLast (t.withKey k { t.key k with
            current := some (testNote (t.record k) velocity.toNat), holdReleased := false }) k

/-- KEY_TEST (R94, R114, R115): the test note fires at once, without ARMED or the Fire List. -/
def execKeyTest (tag : Tag) (key : Byte) (velocity : BitVec 16) (s : State) : Answer :=
  whenRunning s fun t => t.control tag 0x33#8 (judgeKeyTest key velocity)

/-- Key channel k is at the head of the Fire List with its fire time reached (R98). -/
def State.keyFireDue (s : State) (k : Key) : Bool :=
  (s.key k).state == .armed
    && (match s.fireList with
      | e :: _ => e.channel == .key k && reached s.roll.rollTime e.time
      | [] => false)

/-- KEY_FIRE (R98, R105): the head entry leaves the Fire List and its channel fires. -/
def execKeyFire (k : Key) (s : State) : Answer :=
  whenDue s (State.keyFireDue · k) fun t => State.fireKey { t with fireList := t.fireList.drop 1 } k

/-- Key channel k's kick has run to its end (R107). -/
def State.kickEndDue (s : State) (k : Key) : Bool :=
  (s.key k).state == .kick && passed s.deviceTime (s.key k).kickEnd

/-- A note without its release time (R57, R113). -/
def Note.unreleased (n : Note) : Note := { n with release := none }

/-- Key channel k released by the hold limit: RELEASE, hold-released set, the release time discarded (R57, R113). -/
def State.limitRelease (s : State) (k : Key) : State :=
  let t := s.enterRelease k
  t.withKey k { t.key k with holdReleased := true, current := (t.key k).current.map Note.unreleased }

/-- A key channel entering HOLD at kick end (R97, R103, R107, R116). -/
def KeyChannel.toHold (c : KeyChannel) (now minHold holdDuty : Nat) : KeyChannel :=
  { c with
    state := .hold
    appliedKick := none
    kickEnd := none
    minHoldEnd := some (now + minHold)
    testRelease := if (c.current.map Note.isTest).getD false then some (now + Config.testHold) else none
    duty := holdDuty }

/-- Key channel k leaves KICK: to RELEASE when its hold-limit watch expired during the kick, else to HOLD (R107). -/
def State.endKick (s : State) (k : Key) : State :=
  if ((s.key k).holdWatch.map (·.expired)).getD false then s.limitRelease k
  else s.withKey k ((s.key k).toHold s.deviceTime s.tables.settings.minHold (s.record k).holdDuty)

/-- KICK_END (R107, R121). -/
def execKickEnd (k : Key) (s : State) : Answer :=
  whenDue s (State.kickEndDue · k) fun t => (t.endKick k).handOn

/-- DEFER_EXPIRY (R123). -/
def execDeferExpiry (k : Key) (s : State) : Answer := whenDue s (State.deferDue · k) fun t => t.expireWait k

/-- HOLD_RELEASE (R104, R108). -/
def execHoldRelease (k : Key) (s : State) : Answer :=
  whenDue s (State.releaseDue · k) fun t => t.enterRelease k

/-- Key channel k holds a test note whose TestHold has passed (R116). -/
def State.testReleaseDue (s : State) (k : Key) : Bool :=
  (s.key k).state == .hold && passed s.deviceTime (s.key k).testRelease

/-- TEST_RELEASE (R116). -/
def execTestRelease (k : Key) (s : State) : Answer :=
  whenDue s (State.testReleaseDue · k) fun t => t.enterRelease k

/-- GAP_END (R108, R109): the current note goes; the pending one is promoted, or the channel goes IDLE. -/
def execGapEnd (k : Key) (s : State) : Answer :=
  whenDue s (State.gapDue · k) fun t => t.promote k

/-- Key channel k's hold-limit watch expires: HoldLimit has passed and the clock is still stopped (R57). -/
def State.holdLimitDue (s : State) (k : Key) : Bool :=
  ((s.key k).state == .kick || (s.key k).state == .hold) && s.clockStopped
    && (match (s.key k).holdWatch with
      | some w => !w.expired && decide (w.start + s.tables.settings.holdLimit * 1000 ≤ s.deviceTime)
      | none => false)

/-- A hold-limit watch marked expired (R57). -/
def HoldWatch.mark (w : HoldWatch) : HoldWatch := { w with expired := true }

/-- HOLD_LIMIT_EXPIRY (R57, R113): a channel in HOLD is released, one in KICK has its watch marked. -/
def execHoldLimitExpiry (k : Key) (s : State) : Answer :=
  whenDue s (State.holdLimitDue · k) fun t =>
    if (t.key k).state = .hold then t.limitRelease k
    else t.withKey k { t.key k with holdWatch := (t.key k).holdWatch.map HoldWatch.mark }

end Sys2Proof.Machine
end

