-- ==== Sys2Proof/WellFormed.lean ====
section
/-! DEFINITION. When a command is one that the forward lane or the card's own events can spell. -/

namespace Sys2Proof

/-- A command is well formed when a frame could carry it: a SCAN payload has at most 288 bytes (R161,
R163); an UNKNOWN payload has at most 288 bytes and is of no known form (R166); a TABLE WRITE names a
table, carries the bytes its run calls for and fits one payload (R163, R177). Every other command is
well formed: its operands have the link's own widths. -/
def Instr.WellFormed : Instr → Bool
  | .scanFrame _ payload => payload.length ≤ 288
  | .unknownCommand _ payload => payload.length ≤ 288 && !Machine.payloadKnown payload
  | .tableWrite _ table start count entries =>
    entries.length ≤ 284 && Machine.payloadKnown (0x20#8 :: table :: start :: count :: entries)
  | _ => true

end Sys2Proof
end

