-- ==== Sys2Proof/Decode.lean ====
section
/-! DEFINITION. Reading commands. decodeTableWord answers for the opcode table, which gives no row any bits; decodeControl reads the payload of a valid CONTROL frame (section 10.4). -/

namespace Sys2Proof

/-- The command that a word spells by the table's bits. spec/opcode_table.json gives no row any bits, so no word spells one. -/
def decodeTableWord (_nbits _w : Nat) : Option Instr := none

/-- The command of a valid CONTROL frame with the given tag and payload, by the table of section 10.4;
a payload of no known form is UNKNOWN (R166, R177). -/
def decodeControl (tag : Tag) (payload : List Byte) : Instr :=
  if Machine.payloadKnown payload then
    match payload with
    | [code] =>
      match code.toNat with
      | 0x11 => .rollStop tag
      | 0x12 => .pause tag
      | 0x13 => .resume tag
      | 0x30 => .statusQuery tag
      | 0x31 => .countersRead tag
      | 0x50 => .linkReset tag
      | _ => .unknownCommand tag payload
    | [code, a] =>
      match code.toNat with
      | 0x40 => .storeSave tag a
      | 0x41 => .storeProtect tag a
      | 0x42 => .storeUnprotect tag a
      | 0x43 => .storeLock tag a
      | _ => .unknownCommand tag payload
    | [code, a, b] =>
      match code.toNat with
      | 0x32 => .faultClear tag (a ++ b)
      | 0x44 => .storeLockdown tag a b
      | _ => .unknownCommand tag payload
    | code :: a :: b :: c :: rest =>
      match code.toNat with
      | 0x10 =>
        match rest with
        | [d, e, f] => .rollStart tag (a ++ b ++ c) (d ++ e) f
        | _ => .unknownCommand tag payload
      | 0x14 =>
        match rest with
        | [d, e] => .tempo tag (a ++ b ++ c) (d ++ e)
        | _ => .unknownCommand tag payload
      | 0x20 => .tableWrite tag a b c rest
      | 0x21 => .tableRead tag a b c
      | 0x33 => .keyTest tag a (b ++ c)
      | _ => .unknownCommand tag payload
    | [] => .unknownCommand tag payload
  else .unknownCommand tag payload

/-- The command of a frame that the receiver has taken whole: an error when the payload check does not
match, a SCAN frame or a CONTROL frame otherwise (R164). -/
def decodeFrame (kind : Byte) (tag : Tag) (payload check : List Byte) : Instr :=
  if Machine.ofBytes check ≠ (Machine.crc16 payload).toNat then .payloadError
  else if kind = 0x01#8 then .scanFrame tag payload
  else decodeControl tag payload

end Sys2Proof
end

