-- ==== Sys2Proof/Machine/LinkPort.lean ====
section
/-! DEFINITION. The Link Port: the receiver, frame errors, unknown commands, queries, the return lane, the link-alive watch and LINK RESET (Chapter 10). -/

namespace Sys2Proof.Machine

/-! The receiver (R162 to R164) -/

/-- One forward-lane byte taken by the receiver: the receiver after it, and the command it completes, if
any. A header that fails leaves the receiver holding its seven bytes for HEADER_ERROR to discard (R163). -/
def Receiver.take (r : Receiver) (b : Byte) : Receiver × Option Instr :=
  match r with
  | .hunting before =>
    if before = some 0xE1#8 ∧ b = 0x9B#8 then (.header [], none) else (.hunting (some b), none)
  | .header got =>
    let h := got ++ [b]
    if h.length < 7 then (.header h, none)
    else
      match h with
      | [kind, l1, l0, t2, t1, t0, _] =>
        if headerGood h then (.payload kind (ofBytes [l1, l0]) (t2 ++ t1 ++ t0) [], none)
        else (.header h, some .headerError)
      | _ => (.header h, some .headerError)
  | .payload kind length tag got =>
    let p := got ++ [b]
    if p.length < length + 2 then (.payload kind length tag p, none)
    else (.hunting none, some (decodeFrame kind tag (p.take length) (p.drop length)))

/-- The receiver takes the next byte of the forward lane; a command it completes joins the queue (R163, R164). -/
def State.takeByte (s : State) : State :=
  match s.link.forwardLane with
  | [] => s
  | b :: rest =>
    let r := s.link.receiver.take b
    { s with
      link := { s.link with forwardLane := rest, receiver := r.1 }
      pending := s.pending ++ r.2.toList }

/-- A failed header discarded: the receiver hunts again from the byte after the frame's E1 hex, so the
bytes it had taken go back to the front of the lane (R163; entry 21). -/
def Link.rehunt (l : Link) : Link :=
  match l.receiver with
  | .header got => { l with forwardLane := 0x9B#8 :: (got ++ l.forwardLane), receiver := .hunting none }
  | _ => { l with receiver := .hunting none }

/-- HEADER_ERROR (R163): counted; no reply; the link-alive watch is not restarted. -/
def execHeaderError (s : State) : Answer :=
  whenRunning s fun t => State.bump { t with link := t.link.rehunt } .headerError

/-- PAYLOAD_ERROR (R164): counted; no reply; the link-alive watch is not restarted; the receiver looks for the next frame. -/
def execPayloadError (s : State) : Answer :=
  whenRunning s fun t => State.bump { t with link := { t.link with receiver := .hunting none } } .payloadError

/-- The code a reply to an unknown command carries: the payload's first byte, 00 hex for an empty payload (R167). -/
def unknownCode (payload : List Byte) : Byte := payload.headD 0x00#8

/-- UNKNOWN_COMMAND (R166, R167). -/
def execUnknownCommand (tag : Tag) (payload : List Byte) (s : State) : Answer :=
  whenRunning s fun t => t.control tag (unknownCode payload) fun _ => refuse .unknown

/-- STATUS QUERY's answer: the content as it stands, LINK LOST then cleared (R172). -/
def judgeStatusQuery (s : State) : Verdict :=
  ⟨some .done, s.statusBytes, fun t => { t with link := { t.link with linkLost := false } }⟩

/-- STATUS_QUERY (R172). -/
def execStatusQuery (tag : Tag) (s : State) : Answer :=
  whenRunning s fun t => t.control tag 0x30#8 judgeStatusQuery

/-- COUNTERS READ's answer: the counters copied and cleared together (R173). -/
def judgeCountersRead (s : State) : Verdict :=
  ⟨some .done, s.counterBytes, fun t => { t with counters := Vector.replicate 26 0 }⟩

/-- COUNTERS_READ (R173). -/
def execCountersRead (tag : Tag) (s : State) : Answer :=
  whenRunning s fun t => t.control tag 0x31#8 judgeCountersRead

/-! LINK RESET (R175) -/

/-- The blocks at the values their chapters give for LINK RESET, over a card whose roll is stopped
already (R2, R23, R37, R40, R62, R64, R118, R136, R137, R145). -/
def State.linkResetBlocks (s : State) : State :=
  { s with
    front := FrontEnd.fresh
    holes := HoleRecognizer.fresh
    roll := Timeline.fresh
    exprBass := ExprRecord.rollStart s.tables.exprBass
    exprTreble := ExprRecord.rollStart s.tables.exprTreble
    pedalUnit := PedalUnit.fresh
    counters := Vector.replicate 26 0
    link := { s.link with linkLost := false, queue := [], reportSeq := 0 } }

/-- LINK RESET's effect: the roll and the channels stopped, the blocks reset, its own reply alone in the queue (R175). -/
def State.linkReset (s : State) (tag : Tag) : State :=
  let t := s.validFrame
  let u := if t.rollActive then t.stopRoll else t.stopChannels
  u.linkResetBlocks.queueReply tag 0x50#8 .done []

/-- LINK_RESET (R62, R112, R166, R175): taken whatever the return queue holds. -/
def execLinkReset (tag : Tag) (s : State) : Answer := whenRunning s fun t => t.linkReset tag

/-! The return lane and the link-alive watch (R165, R168) -/

/-- Device time in bit times of a lane (R161). -/
def State.bitTime (s : State) : Nat := s.deviceTime * Config.bitsPerMicrosecond

/-- The return lane is free to start a frame within this microsecond: it is idle, or its frame ends before the next one (R168). -/
def State.laneFree (s : State) : Bool :=
  match s.link.sending with
  | some f => decide (f.ends < s.bitTime + Config.bitsPerMicrosecond)
  | none => true

/-- The return lane is free within this microsecond and an entry waits. -/
def State.sendDue (s : State) : Bool := s.laneFree && !s.link.queue.isEmpty

/-- The return lane is free at this device time already. -/
def State.laneIdle (s : State) : Bool :=
  match s.link.sending with
  | some f => decide (f.ends ≤ s.bitTime)
  | none => true

/-- The bit time at which a lane that is free starts a frame: now, or back to back with the frame that ends
within this microsecond (R161). -/
def State.sendStart (s : State) : Nat :=
  match s.link.sending with
  | some f => max s.bitTime f.ends
  | none => s.bitTime

/-- The oldest entry taken from the queue and started on the lane (R161, R168). -/
def State.sendNext (s : State) : State :=
  match s.link.queue with
  | [] => s
  | e :: rest =>
    { s with link := { s.link with
        queue := rest
        sending := some ⟨e.frame, s.sendStart + e.frame.length * Config.bitsPerByte⟩ } }

/-- The level a frame puts on its lane at a bit time since power-on, true for the stop-bit level (R161). -/
def Sending.level (f : Sending) (bit : Nat) : Bool :=
  let start := f.ends - f.frame.length * Config.bitsPerByte
  if start ≤ bit then ((laneBits f.frame)[bit - start]?).getD true else true

/-- The level of the return lane at a bit time from the start of its latest frame on: the frame's bits, and
the stop-bit level while it has nothing to send (R161). -/
def State.returnLevel (s : State) (bit : Nat) : Bool :=
  match s.link.sending with
  | some f => f.level bit
  | none => true

/-- RETURN_SEND (R168). -/
def execReturnSend (s : State) : Answer := whenDue s State.sendDue State.sendNext

/-- LinkTimeout has passed without a restart of the link-alive watch (R165). -/
def State.aliveDue (s : State) : Bool := passed s.deviceTime (s.link.aliveStart.map (· + Config.linkTimeout))

/-- LINK_ALIVE_EXPIRY (R61, R165): LINK LOST is set, the watch stops, and in an active roll abandon start is set. -/
def execLinkAliveExpiry (s : State) : Answer :=
  whenDue s State.aliveDue fun t =>
    { t with
      link := { t.link with linkLost := true, aliveStart := none }
      roll := if t.rollActive then { t.roll with abandonStart := some t.deviceTime } else t.roll }

end Sys2Proof.Machine
end

