-- ==== Sys2Proof/Machine/Pedals.lean ====
section
/-! DEFINITION. The events of the pedal channels (R141 to R143). -/

namespace Sys2Proof.Machine

/-- Pedal channel p is at the head of the Fire List with its fire time reached (R98, R141). -/
def State.pedalFireDue (s : State) (p : Pedal) : Bool :=
  (s.pedal p).state == .armed
    && (match s.fireList with
      | e :: _ => e.channel == .pedal p && reached s.roll.rollTime e.time
      | [] => false)

/-- PEDAL_FIRE (R141). -/
def execPedalFire (p : Pedal) (s : State) : Answer :=
  whenDue s (State.pedalFireDue · p) fun t => State.firePedal { t with fireList := t.fireList.drop 1 } p

/-- Pedal channel p's kick has run to its end (R142). -/
def State.pedalKickEndDue (s : State) (p : Pedal) : Bool :=
  (s.pedal p).state == .kick && passed s.deviceTime (s.pedal p).kickEnd

/-- Pedal channel p leaves KICK: to RELEASE when its lift time is reached, else to HOLD (R142). -/
def State.endPedalKick (s : State) (p : Pedal) : State :=
  if s.liftReached p then s.releasePedal p
  else s.withPedal p { s.pedal p with state := .hold, kickEnd := none, duty := (s.pedalRecord p).holdDuty }

/-- PEDAL_KICK_END (R142, R121). -/
def execPedalKickEnd (p : Pedal) (s : State) : Answer :=
  whenDue s (State.pedalKickEndDue · p) fun t => (t.endPedalKick p).handOn

/-- Pedal channel p holds a press whose lift time is reached (R142). -/
def State.pedalLiftDue (s : State) (p : Pedal) : Bool := (s.pedal p).state == .hold && s.liftReached p

/-- PEDAL_LIFT (R142, R143). -/
def execPedalLift (p : Pedal) (s : State) : Answer :=
  whenDue s (State.pedalLiftDue · p) fun t => t.releasePedal p

/-- PEDAL_RELEASE_END (R143). -/
def execPedalReleaseEnd (p : Pedal) (s : State) : Answer :=
  whenDue s (State.pedalReleaseDue · p) fun t => t.endPedalRelease p

end Sys2Proof.Machine
end

