-- ==== Sys2Proof/Machine/Plan.lean ====
section
/-! DEFINITION. PLAN_LINE: the Expression Unit, the Pedal Unit and the Strike Planner on one line, and entering ENDING (R29, R50, R58, R67, R83, R99 to R102, R135 to R139, R146 to R149). -/

namespace Sys2Proof.Machine

/-! Expression -/

/-- Both expression records after line n with its events (R67, R68). -/
def State.planExpression (s : State) (n : Nat) (es : List HoleEvent) : State :=
  { s with
    exprBass := (s.exprBass.applyEvents .bass es).compute s.tables.exprBass (s.period n) n
    exprTreble := (s.exprTreble.applyEvents .treble es).compute s.tables.exprTreble (s.period n) n }

/-- The half of a key, by the split key as it stands (R65). -/
def State.half (s : State) (k : Key) : Half := if k.number ≤ s.tables.exprBass.splitKey then .bass else .treble

/-- A half's expression record. -/
def State.exprRecord (s : State) : Half → ExprRecord
  | .bass => s.exprBass
  | .treble => s.exprTreble

/-! The sostenuto catch (R146 to R149) -/

/-- The channel with the note its target names changed, the pending one or the current one unless hold-released (R101, R148). -/
def KeyChannel.changeNamed (c : KeyChannel) (f : Note → Note) : KeyChannel :=
  match c.target with
  | .pending => { c with pending := c.pending.map f }
  | .current => if c.holdReleased then c else { c with current := c.current.map f }
  | .nothing => c

/-- A note whose release time is earlier than a window end has it moved to the window end (R148, R149). -/
def Note.caught (window : RollTime) (n : Note) : Note :=
  match n.release with
  | some t => if earlier t window then { n with release := some window } else n
  | none => n

/-- What the catch does to a note of key k: nothing unless the window is open and k is captured (R149). -/
def State.catchNote (s : State) (k : Key) (n : Note) : Note :=
  match s.pedalUnit.window with
  | some w => if s.pedalUnit.capture.contains k then n.caught w else n
  | none => n

/-- The catch window closes at the first line due later than its end (R147). -/
def State.closeWindow (s : State) (n : Nat) : State :=
  match s.pedalUnit.window with
  | some w => if earlier w (s.due n) then { s with pedalUnit := { s.pedalUnit with window := none } } else s
  | none => s

/-- The line's KEY events applied to the roll key states (R137, R146). -/
def State.applyRollKeys (s : State) (es : List HoleEvent) : State :=
  { s with pedalUnit := { s.pedalUnit with
      rollKeys := es.foldl (fun v e =>
        match e.function with
        | .key k => v.set k.val (e.kind == .opens) k.isLt
        | _ => v) s.pedalUnit.rollKeys } }

/-- The Capture Set formed from the roll key states, the window opened, and the captured keys' early release times moved (R146 to R148). -/
def State.formCapture (s : State) (n : Nat) : State :=
  let w := rollAdd (s.due n) s.tables.settings.catchMargin
  let set := allKeys.filter fun k => s.pedalUnit.rollKeys[k.val]
  let t : State := { s with pedalUnit := { s.pedalUnit with capture := set, window := some w } }
  t.mapKeys fun k c => if set.contains k then c.changeNamed (Note.caught w) else c

/-- The Capture Set emptied and its window closed (R146, R147). -/
def State.emptyCapture (s : State) : State :=
  { s with pedalUnit := { s.pedalUnit with capture := [], window := none } }

/-! Pedals (R135, R138, R139) -/

/-- A pedal's planned state set (R135). -/
def PlannedPedals.put (q : PlannedPedals) (p : Pedal) (down : Bool) : PlannedPedals :=
  match p with
  | .sustain => { q with sustain := down }
  | .soft => { q with soft := down }
  | .sostenuto => { q with sostenuto := down }

/-- A pedal's planned state, true for DOWN. -/
def PlannedPedals.get (q : PlannedPedals) : Pedal → Bool
  | .sustain => q.sustain
  | .soft => q.soft
  | .sostenuto => q.sostenuto

/-- A pedal's planned state set in the state. -/
def State.putPlanned (s : State) (p : Pedal) (down : Bool) : State :=
  { s with pedalUnit := { s.pedalUnit with planned := s.pedalUnit.planned.put p down } }

/-- A press handed to pedal channel p (R138): armed with its entry in the Fire List, pending, or dropped. -/
def State.handPress (s : State) (p : Pedal) (press : Press) : State :=
  let c := s.pedal p
  if c.state = .idle then
    (s.withPedal p { PedalChannel.fresh with state := .armed, current := some press }).armFire (.pedal p) press.fire
  else if c.pending.isNone then s.withPedal p { c with pending := some press }
  else s

/-- A lift handed to pedal channel p (R139), a lift time stored in HOLD acting when it is reached already (R142). -/
def State.handLift (s : State) (p : Pedal) (t : RollTime) : State :=
  let c := s.pedal p
  if c.pending.isSome then s.withPedal p { c with pending := none }
  else
    match c.state, c.current with
    | .armed, _ => (s.withPedal p PedalChannel.fresh).dropFire (.pedal p)
    | .waiting, _ => (s.withPedal p PedalChannel.fresh).dropWait (.pedal p)
    | .kick, some press =>
      if press.lift.isNone then s.withPedal p { c with current := some { press with lift := some t } } else s
    | .hold, some press =>
      if press.lift.isNone then
        let u := s.withPedal p { c with current := some { press with lift := some t } }
        if u.liftReached p then u.releasePedal p else u
      else s
    | _, _ => s

/-- PEDAL(p) OPEN on line n (R135, R138, R146). -/
def State.planPress (s : State) (p : Pedal) (n : Nat) : State :=
  if s.faulted pedalGroup then s
  else
    let r := s.pedalRecord p
    let t := (s.putPlanned p true).handPress p ⟨n, rollSub (s.due n) r.lead, r.kick, none⟩
    if p = .sostenuto then t.formCapture n else t

/-- PEDAL(p) CLOSE on line n, or the close lift of ENDING (R135, R139, R145, R146). -/
def State.planLift (s : State) (p : Pedal) (n : Nat) : State :=
  if s.faulted pedalGroup then s
  else
    let t := (s.putPlanned p false).handLift p (rollSub (s.due n) (s.pedalRecord p).releaseLead)
    if p = .sostenuto then t.emptyCapture else t

/-- The pedals a line's presses arm: those IDLE before it (R138). -/
def State.pressedPedals (s : State) (es : List HoleEvent) : List Channel :=
  (allPedals.filter fun p =>
    (s.pedal p).state == .idle && es.any fun e => e.function == .pedal p && e.kind == .opens).map .pedal

/-- The channels among some that are ARMED with their fire time reached already: late presses and notes (R99, R138). -/
def State.lateAmong (s : State) (cs : List Channel) : List Channel := cs.filter s.firesNow

/-- The late ones among a line's newly armed channels leave the Fire List at once and fire, each in its turn among
the requests of this device time (R98, R99, R119, R138; entry 13). -/
def State.fireLate (s : State) (cs : List Channel) : State := s.judgeUpTo (s.lateAmong cs)

/-- One PEDAL event of line n taken (R135). -/
def State.planPedal (s : State) (n : Nat) (e : HoleEvent) : State :=
  match e.function with
  | .pedal p => if e.kind = .opens then s.planPress p n else s.planLift p n
  | _ => s

/-- The Pedal Unit takes line n: the window check, the roll key states, the PEDAL events in order (R135, R146, R147). -/
def State.takePedals (s : State) (n : Nat) (es : List HoleEvent) : State :=
  es.foldl (fun t e => t.planPedal n e) ((s.closeWindow n).applyRollKeys es)

/-- The Pedal Unit takes line n, its late presses firing (R135, R138). -/
def State.planPedals (s : State) (n : Nat) (es : List HoleEvent) : State :=
  (s.takePedals n es).fireLate (s.pressedPedals es)

/-! Notes (R83 to R91, R93, R99 to R101) -/

/-- The note record of a note-on of key k on line n (R84 to R91). -/
def State.noteFor (s : State) (k : Key) (n : Nat) : Note :=
  let h := s.half k
  let p := s.tables.profile h
  let r := s.exprRecord h
  let accented := r.accentedOn p n
  let level := noteLevel r.level accented p.accentBoost s.pedalUnit.planned.soft s.tables.exprBass.softScale
  rollNote (s.record k) s.tables.velocity n (s.due n) level accented

/-- A note-on handed to key channel k: dropped in a FAULTED group, armed when IDLE, pending, or dropped (R99, R100). -/
def State.noteOn (s : State) (k : Key) (note : Note) : State :=
  let c := s.key k
  if s.faulted (keyGroup k) then (s.withKey k { c with target := .nothing }).bump .faultDrop
  else if c.state = .idle then
    (s.withKey k { c with state := .armed, current := some note, target := .current, holdReleased := false }).armFire
      (.key k) (note.fire.getD s.roll.rollTime)
  else if c.pending.isNone then s.withKey k { c with pending := some note, target := .pending }
  else (s.withKey k { c with target := .nothing }).bump .repeatDrop

/-- A note-off handed to key channel k with a release time: attached by its target and caught, and acted on where the
current note has got it and it completes R104; without a note to attach to it has no effect (R93, R101, R104, R149). -/
def State.noteOff (s : State) (k : Key) (t : RollTime) : State :=
  let c := s.key k
  let u := s.withKey k (c.changeNamed fun n => s.catchNote k { n with release := some t })
  if c.target = .current ∧ c.holdReleased = false then u.checkRelease k else u

/-- The Strike Planner takes one KEY event of line n (R83). -/
def State.planKey (s : State) (n : Nat) (e : HoleEvent) : State :=
  match e.function with
  | .key k =>
    if e.kind = .opens then s.noteOn k (s.noteFor k n)
    else s.noteOff k (rollSub (s.due n) (s.record k).releaseLead)
  | _ => s

/-- The keys a line's note-ons arm: those IDLE before it (R99). -/
def State.struckKeys (s : State) (es : List HoleEvent) : List Channel :=
  (allKeys.filter fun k => (s.key k).state == .idle && es.any fun e => e.function == .key k && e.kind == .opens).map .key

/-- The Strike Planner takes line n's KEY events in queue order (R83). -/
def State.takeKeys (s : State) (n : Nat) (es : List HoleEvent) : State := es.foldl (fun t e => t.planKey n e) s

/-- The Strike Planner takes line n's KEY events, its late notes firing (R83, R99). -/
def State.planKeys (s : State) (n : Nat) (es : List HoleEvent) : State :=
  (s.takeKeys n es).fireLate (s.struckKeys es)

/-! Advance of the plan line, and ENDING (R47, R50, R52, R58, R102) -/

/-- The plan line becomes n: the head segment goes when n is the second segment's origin (R47), the
starve episode is checked (R52), and a WINDOW report is built at a multiple of 64 (R170). -/
def State.advancePlan (s : State) (n : Nat) : State :=
  let t : State := { s with roll := { s.roll with
    planLine := n
    schedule := match s.roll.schedule with
      | g :: h :: rest => if h.origin = n then h :: rest else g :: h :: rest
      | l => l
    tempo := match s.roll.schedule with
      | _ :: h :: _ => if h.origin = n then h.tempo else s.roll.tempo
      | _ => s.roll.tempo } }
  if n % 64 = 0 then t.checkEpisode.queueWindow ((n : Int) + Config.windowSpan) else t.checkEpisode

/-- A note that the roll's close still gives a note-off: no release time, and not a test note (R58, R102). -/
def Note.needsClose (n : Note) : Bool := n.release.isNone && !n.isTest

/-- Key k's close note-offs with a release time, for its current note unless hold-released and for its
pending note, caught, and acted on where the current note has got one; the roll key state goes UP (R58, R102, R137, R149). -/
def State.closeKey (s : State) (k : Key) (n : Nat) : State :=
  let c := s.key k
  let t := rollSub (s.due n) (s.record k).releaseLead
  let off := fun (m : Note) => if m.needsClose then s.catchNote k { m with release := some t } else m
  let hitCurrent := !c.holdReleased && (c.current.map Note.needsClose).getD false
  let hit := hitCurrent || (c.pending.map Note.needsClose).getD false
  let u := s.withKey k { c with
    current := if c.holdReleased then c.current else c.current.map off
    pending := c.pending.map off }
  let v : State :=
    if hit then { u with pedalUnit := { u.pedalUnit with rollKeys := u.pedalUnit.rollKeys.set k.val false k.isLt } } else u
  if hitCurrent then v.checkRelease k else v

/-- The roll enters ENDING at end line n: the queue empties, any starve episode ends, one STATE report,
then the close of the keys and of the pedals that are DOWN (R58, R102, R145). -/
def State.enterEnding (s : State) (n : Nat) : State :=
  let t : State := s.changeHolds s.roll.operator false
  let u := State.queueState { t with
    holes := { t.holes with queue := [] }
    roll := { t.roll with rollState := .ending, endLine := some n, starveStart := none } }
  let v := allKeys.foldl (fun q k => q.closeKey k n) u
  allPedals.foldl (fun q p => if q.pedalUnit.planned.get p then q.planLift p n else q) v

/-- The line's events hold an ENDMARK OPEN (R50, R58). -/
def endMarked (es : List HoleEvent) : Bool := es.any fun e => e.function == .endMark && e.kind == .opens

/-- The events of the next line: those of its number at the head of the Event Queue (R29). -/
def State.nextEvents (s : State) : List HoleEvent := s.holes.queue.takeWhile fun e => e.line == s.nextLine

/-- The next line is planned (R50). -/
def State.planNext (s : State) : State :=
  let n := s.nextLine
  let es := s.nextEvents
  let t : State := { s with holes := { s.holes with queue := s.holes.queue.dropWhile fun e => e.line == n } }
  let u := ((((t.planExpression n es).planPedals n es).planKeys n es).advancePlan n)
  if endMarked es then u.enterEnding n else u

/-- The next line is settled and its plan moment is reached, in PLAYING (R50). -/
def State.planDue (s : State) : Bool :=
  s.roll.rollState == .playing && s.lineSettled s.nextLine && s.planReached s.nextLine

/-- The channels that request a kick slot at once when the next line is planned: its late presses and notes (R99, R138). -/
def State.lateRequests (s : State) : List Channel :=
  let n := s.nextLine
  let es := s.nextEvents
  let t := s.planExpression n es
  let u := t.planPedals n es
  (t.takePedals n es).lateAmong (t.pressedPedals es) ++ (u.takeKeys n es).lateAmong (u.struckKeys es)

/-- PLAN_LINE (R50). -/
def execPlanLine (s : State) : Answer := whenDue s State.planDue State.planNext

end Sys2Proof.Machine
end

