-- ==== Sys2Proof/Machine/PowerEvents.lean ====
section
/-! DEFINITION. Power and the reset line (R96, R181). -/

namespace Sys2Proof.Machine

/-- POWER_ON (R181): device time starts, the store is examined and loaded, every block takes its
power-on values. Power that was on before has failed in between (entry 4). -/
def execPowerOn (s : State) : Answer := .next (s.bringUp 0 1000)

/-- The card in reset: every key drive off, every key channel's notes dropped uncounted, its watch closed, both
lists and the Event Queue empty, the return frame cut off, a store operation lost, the receiver hunting (R30, R96,
R124, R151, R162, R168, R181). Heat is kept, and cools on, until the line is released (entries 4 and 10).
DESIGN CHOICE, entry 38: the pedal channels stop with the keys at the assertion, their drive off and their
presses dropped, where R145 speaks of them after the reset line only. -/
def State.assertReset (s : State) : State :=
  let t := s.mapKeys fun _ c => { KeyChannel.fresh with heat := c.heat }
  { t.mapPedals (fun _ => PedalChannel.fresh) with
    power := .inReset
    holes := { s.holes with queue := [] }
    fireList := []
    waitList := []
    link := { s.link with forwardLane := [], receiver := .hunting none, queue := [], sending := none, aliveStart := none }
    store := s.store.loseOp }

/-- RESET_LINE_ASSERTED (R96): without power nothing happens. -/
def execResetLineAsserted (s : State) : Answer := .next (if s.power = .off then s else s.assertReset)

/-- RESET_LINE_RELEASED (R181): the store is examined and loaded and every block takes its power-on
values; device time runs on, and with it the whole multiples of 1,000 microseconds of R126 (entry
10). Without power nothing happens. -/
def execResetLineReleased (s : State) : Answer :=
  .next (if s.power = .off then s else s.bringUp s.deviceTime s.nextCool)

/-- POWER_FAIL (R181): all volatile state and drive stop; a store operation in flight is lost and its
region's check fails. What is left is the store, the input levels, and blocks that hold nothing. -/
def execPowerFail (s : State) : Answer :=
  .next { State.powered 0 1000 s.freeIndex s.setupLock s.faultLines defaultTables s.store.loseOp s.pending with
    power := .off }

end Sys2Proof.Machine
end

