-- ==== Sys2Proof/Machine/Roll.lean ====
section
/-! DEFINITION. The roll commands and the roll's own events: ROLL START, ROLL STOP, PAUSE, RESUME, TEMPO, starve episodes, abandonment, the roll's end (Chapter 3). -/

namespace Sys2Proof.Machine

/-- The map mode of a ROLL START. -/
inductive MapMode where
  | auto
  | fixed (m : MapNo)
deriving DecidableEq, Repr

/-- The map mode a byte codes: 80 hex AUTO, 00 to 03 hex FIXED (section 10.4). -/
def mapModeOfByte (b : Byte) : Option MapMode :=
  if b = 0x80#8 then some .auto else (mapOfCode b.toNat).map .fixed

/-- The records of a new roll, before it enters LEADER or PLAYING (R4, R32, R43, R64, R136, R137). -/
def State.setUpRoll (s : State) (line tempo : Nat) (set : ColumnSet) : State :=
  { s with
    roll := { s.roll with
      operator := false, starved := false, rollTime := 0, startTempo := tempo, tempo := tempo, schedule := []
      planLine := -1, endLine := none, starveStart := none, abandonStart := none }
    front := ⟨(line : Int) - 1, (s.tables.columnPlan set).closed, some set, []⟩
    holes := { s.holes.inactive with code := 0, reader := ⟨0, 0, 0⟩, settled := (line : Int) - 9 }
    exprBass := ExprRecord.rollStart s.tables.exprBass
    exprTreble := ExprRecord.rollStart s.tables.exprTreble
    pedalUnit := PedalUnit.fresh }

/-- The effect of a ROLL START taken (R43, R44, R170). -/
def State.startRoll (s : State) (line tempo : Nat) : MapMode → State
  | .fixed m => (s.setUpRoll line tempo (.map m)).enterPlaying line m
  | .auto =>
    let t := s.setUpRoll line tempo .code
    if s.tables.format.leaderMax = 0 then t.enterPlaying line s.tables.format.defaultSet
    else
      (State.queueState { t with roll := { t.roll with rollState := .leader } }).queueWindow ((line : Int) + 2047)

/-- How ROLL START is judged (R42). -/
def judgeRollStart (line : Tag) (tempo : BitVec 16) (mode : Byte) (s : State) : Verdict :=
  if s.rollActive then refuse .state
  else match mapModeOfByte mode with
    | none => refuse .range
    | some m =>
      accept (if clampTempo tempo.toNat = tempo.toNat then .done else .clamped)
        fun t => t.startRoll line.toNat (clampTempo tempo.toNat) m

/-- ROLL_START (R42 to R44). -/
def execRollStart (tag line : Tag) (tempo : BitVec 16) (mode : Byte) (s : State) : Answer :=
  whenRunning s fun t => t.control tag 0x10#8 (judgeRollStart line tempo mode)

/-- How ROLL STOP is judged (R60). -/
def judgeRollStop (s : State) : Verdict := if s.rollActive then accept .done State.stopRoll else refuse .state

/-- ROLL_STOP (R60, R111, R145). -/
def execRollStop (tag : Tag) (s : State) : Answer :=
  whenRunning s fun t => t.control tag 0x11#8 judgeRollStop

/-- How PAUSE is judged (R53). -/
def judgePause (s : State) : Verdict :=
  if s.clocked then accept .done fun t => t.setHolds true t.roll.starved else refuse .state

/-- PAUSE (R53, R55, R56). -/
def execPause (tag : Tag) (s : State) : Answer :=
  whenRunning s fun t => t.control tag 0x12#8 judgePause

/-- How RESUME is judged (R54). -/
def judgeResume (s : State) : Verdict :=
  if s.roll.operator then accept .done fun t => t.setHolds false t.roll.starved else refuse .state

/-- RESUME (R54). -/
def execResume (tag : Tag) (s : State) : Answer :=
  whenRunning s fun t => t.control tag 0x13#8 judgeResume

/-- The schedule with a segment from line e at a tempo, superseding every segment that starts at e or later (R48). -/
def State.schedule (s : State) (e tempo : Nat) : List Segment :=
  s.roll.schedule.filter (fun g => decide (g.origin < e)) ++ [⟨e, s.due e, tempo⟩]

/-- How TEMPO is judged in PLAYING and ENDING, its line and tempo clamped already or not (R47, R48). -/
def judgeTempoPlaying (line tempo : Nat) (s : State) : Verdict :=
  let e := if (line : Int) ≤ s.roll.planLine then s.nextLine else line
  let next := s.schedule e (clampTempo tempo)
  if Config.segmentLimit < next.length then refuse .busy
  else
    accept (if clampTempo tempo = tempo ∧ e = line then .done else .clamped)
      fun t => State.checkEpisode { t with roll := { t.roll with
        schedule := next
        tempo := (next.headD ⟨0, 0, 0⟩).tempo } }

/-- How TEMPO is judged in LEADER (R49). -/
def judgeTempoLeader (tempo : Nat) : Verdict :=
  accept (if clampTempo tempo = tempo then .done else .clamped)
    fun t => { t with roll := { t.roll with startTempo := clampTempo tempo, tempo := clampTempo tempo } }

/-- How TEMPO is judged (R48, R49). -/
def judgeTempo (line : Tag) (tempo : BitVec 16) (s : State) : Verdict :=
  match s.roll.rollState with
  | .noRoll => refuse .state
  | .leader => judgeTempoLeader tempo.toNat
  | _ => judgeTempoPlaying line.toNat tempo.toNat s

/-- TEMPO (R47 to R49, R52). -/
def execTempo (tag line : Tag) (tempo : BitVec 16) (s : State) : Answer :=
  whenRunning s fun t => t.control tag 0x14#8 (judgeTempo line tempo)

/-- A starve episode begins now (R51). -/
def State.episodeDue (s : State) : Bool := s.roll.starveStart.isNone && s.starving

/-- STARVE_EPISODE_START (R51). -/
def execStarveEpisodeStart (s : State) : Answer :=
  whenDue s State.episodeDue fun t => { t with roll := { t.roll with starveStart := some t.deviceTime } }

/-- StarveGrace has passed with the episode open and STARVED not yet added (R51). -/
def State.starveHoldDue (s : State) : Bool :=
  s.roll.rollState == .playing && !s.roll.starved
    && passed s.deviceTime (s.roll.starveStart.map (· + s.tables.settings.starveGrace * 1000))

/-- STARVE_HOLD (R51, R55, R56). -/
def execStarveHold (s : State) : Answer :=
  whenDue s State.starveHoldDue fun t => (t.bump .starveHold).setHolds t.roll.operator true

/-- AbandonTimeout has passed with abandon start present (R61). -/
def State.abandonDue (s : State) : Bool :=
  s.rollActive && passed s.deviceTime (s.roll.abandonStart.map (· + s.tables.settings.abandonTimeout * 1000000))

/-- ABANDON (R61): the stop of R60, counted. -/
def execAbandon (s : State) : Answer :=
  whenDue s State.abandonDue fun t => (t.bump .abandoned).stopRoll

/-- The roll in ENDING has reached due(end line) with every channel IDLE (R59). -/
def State.rollEndDue (s : State) : Bool :=
  s.roll.rollState == .ending && s.allIdle
    && (match s.roll.endLine with
      | some n => reached s.roll.rollTime (s.due n)
      | none => false)

/-- ROLL_END (R59): NO ROLL, no active set, no holds, the Capture Set empty and its window closed; one
STATE report. -/
def execRollEnd (s : State) : Answer :=
  whenDue s State.rollEndDue fun t =>
    State.queueState { t.changeHolds false false with
      roll := t.roll.toNoRoll
      holes := t.holes.inactive
      pedalUnit := { t.pedalUnit with capture := [], window := none } }

end Sys2Proof.Machine
end

