-- ==== Sys2Proof/Machine/Scan.lean ====
section
/-! DEFINITION. SCAN_FRAME and LEADER_MAX_EXPIRY: line continuity, the Hole Recognizer and the leader code (Chapters 1 and 2). -/

namespace Sys2Proof.Machine

/-- The column set of the lines being processed: the code columns in LEADER, the active set afterwards (R4, R9). -/
def State.currentSet (s : State) : Option ColumnSet :=
  match s.roll.rollState with
  | .leader => some .code
  | .noRoll => none
  | _ => s.holes.activeSet.map .map

/-! Debounce and the Event Queue (R22, R25 to R28) -/

/-- A debounce record after line n reads a sample, and the event it makes, if any: the run start line and the kind (R25, R26). -/
def Debounce.update (c : Column) (d : Debounce) (sample : Bool) (n : Nat) : Debounce × Option (Nat × EventKind) :=
  if c.function = .nothing then (d, none)
  else if sample = d.reportedOpen then (⟨d.reportedOpen, none⟩, none)
  else
    let run : Run := match d.run with
      | some r => ⟨r.start, r.length + 1⟩
      | none => ⟨n, 1⟩
    if (if sample then c.openRun else c.closeRun) ≤ run.length then
      (⟨sample, none⟩, some (run.start, if sample then .opens else .closes))
    else (⟨d.reportedOpen, some run⟩, none)

/-- The debounce records of a set after line n, and the events the line makes, from a first entry index on (R25, R26). -/
def debounceLine : Nat → List Column → List Debounce → List Bool → Nat → List Debounce × List HoleEvent
  | i, c :: cs, d :: ds, x :: xs, n =>
    let u := Debounce.update c d x n
    let rest := debounceLine (i + 1) cs ds xs n
    (u.1 :: rest.1,
      match u.2 with
      | some e => ⟨e.1, i, c.function, e.2⟩ :: rest.2
      | none => rest.2)
  | _, _, ds, _, _ => (ds, [])

/-- A function's class in the order of R27: EXPR, PEDAL, ENDMARK, KEY. -/
def ColumnFunction.classRank : ColumnFunction → Nat
  | .expr _ _ => 0
  | .pedal _ => 1
  | .endMark => 2
  | .key _ => 3
  | .nothing => 4

/-- Whether an event stands before another in the Event Queue (R27). -/
def HoleEvent.before (a b : HoleEvent) : Bool :=
  decide (a.line < b.line)
    || (decide (a.line = b.line)
      && (decide (a.function.classRank < b.function.classRank)
        || (decide (a.function.classRank = b.function.classRank) && decide (a.entry < b.entry))))

/-- An event inserted at its place (R27). -/
def insertEvent (q : List HoleEvent) (e : HoleEvent) : List HoleEvent :=
  match q with
  | [] => [e]
  | x :: xs => if e.before x then e :: x :: xs else x :: insertEvent xs e

/-- The queue with a line's events inserted, all of them where there is room for all (R28). -/
def offerEvents (q es : List HoleEvent) : Option (List HoleEvent) :=
  if q.length + es.length ≤ Config.eventLimit then some (es.foldl insertEvent q) else none

/-- The Hole Recognizer after one pass over line n with given samples, where the line's events fit: they are all
inserted, each dated where its change began (R25 to R28). -/
def HoleRecognizer.pass (h : HoleRecognizer) (cols : List Column) (samples : List Bool) (n : Nat) : Option HoleRecognizer :=
  let r := debounceLine 1 cols h.debounce samples n
  (offerEvents h.queue r.2).map fun q => { h with debounce := r.1, queue := q }

/-- The samples a filled line carries: the held samples when they are the set's own, else all closed (R7). -/
def State.copySamples (s : State) (set : ColumnSet) : List Bool :=
  if s.front.heldSet = some set then s.front.heldSamples else (s.tables.columnPlan set).closed

/-- The line recorded as newest, with its samples held (R6). -/
def State.hold (s : State) (n : Nat) (set : ColumnSet) (samples : List Bool) : State :=
  { s with front := { s.front with newest := n, heldSamples := samples, heldSet := some set } }

/-- Line n of PLAYING handed to the Hole Recognizer with map set m: its events are queued, or the line
overflows and is processed again as a copy of the line before (R25, R28); then N becomes n (R6). -/
def State.playLine (s : State) (m : MapNo) (samples : List Bool) (n : Nat) : State :=
  let cols := s.tables.maps[m.val].columns.toList
  match s.holes.pass cols samples n with
  | some h => State.hold { s with holes := h } n (.map m) samples
  | none =>
    let t := s.bump .eventOverflow
    let u := match s.holes.pass cols (s.copySamples (.map m)) n with
      | some h => { t with holes := h }
      | none => t
    { u with front := { u.front with newest := n } }

/-- The code reader after a line that gives a code (R33). -/
def CodeReader.update (r : CodeReader) (code : Nat) : CodeReader :=
  ⟨code, if code = 0 then 0 else if code = r.lastCode then r.codeRun + 1 else 1, r.linesRead + 1⟩

/-- The leader ends after line n on a settled code or on LeaderMax, a code settling first (R34, R35). -/
def State.endLeader (s : State) (n : Nat) : State :=
  let f := s.tables.format
  let r := s.holes.reader
  if r.lastCode ≠ 0 ∧ f.codeLines ≤ r.codeRun then
    let m := match f.codes[r.lastCode]? with
      | some (some m) => m
      | _ => f.defaultSet
    State.enterPlaying { s with holes := { s.holes with code := r.lastCode } } (n + 1) m
  else if f.leaderMax ≤ r.linesRead then
    State.enterPlaying { s with holes := { s.holes with code := 0 } } (n + 1) f.defaultSet
  else s

/-- A processed line handed to the Hole Recognizer with its samples (R6, R25, R30, R33). -/
def State.recognize (s : State) (set : ColumnSet) (samples : List Bool) (n : Nat) : State :=
  match s.roll.rollState, set with
  | .leader, _ =>
    let t := s.hold n set samples
    State.endLeader
      { t with holes := { t.holes with reader := t.holes.reader.update (bitsToNat samples) } } n
  | .playing, .map m => s.playLine m samples n
  | .noRoll, _ => s
  | _, _ => s.hold n set samples

/-- Line n filled (R7). -/
def State.fillLine (s : State) (n : Nat) : State :=
  match s.currentSet with
  | some set => (s.bump .missingLine).recognize set (s.copySamples set) n
  | none => s

/-- Lines from n on filled, `count` of them, ascending (R7). -/
def State.fillLines (s : State) (n : Nat) : Nat → State
  | 0 => s
  | count + 1 => (s.fillLine n).fillLines (n + 1) count

/-- The paper edges of a taken line found and kept, or the line counted as edge lost (R10, R11). -/
def State.trackEdges (s : State) (px : List Nat) : State :=
  match findEdges s.tables.settings.edgeThreshold px with
  | some pair => { s with front := { s.front with edges := appendEdge s.front.edges pair } }
  | none => s.bump .edgeLost

/-- Line n taken: edges, registration, sampling, and the Hole Recognizer (R6, R10 to R17). -/
def State.takeLine (s : State) (n : Nat) (px : List Nat) : State :=
  match s.currentSet with
  | none => s
  | some set =>
    let t := s.trackEdges px
    let g := t.tables.settings
    let plan := t.tables.columnPlan set
    let tr := registration plan.nl plan.nr g.maxShift g.widthTol t.front.edges
    ((t.bumpIf tr.shiftLimited .shiftLimited).bumpIf tr.widthLimited .widthLimited).recognize set
      (plan.sample tr g.holeThreshold px) n

/-- The events of a queue whose line has not yet been planned. -/
def stillToPlan (plan : Int) (q : List HoleEvent) : List HoleEvent := q.filter fun e => decide (plan < e.line)

/-- What the Event Queue holds in PLAYING once an arrival is processed: "the events that have been made and whose line has
not yet been planned" (section 2.3, R27). An event that was inserted dated to a line planned already, which only a line
refused twice can bring about (R28), is no longer among them (DEDUCED, entry 37). -/
def State.queueToPlan (s : State) : List HoleEvent :=
  if s.roll.rollState = .playing then stillToPlan s.roll.planLine s.holes.queue else s.holes.queue

/-- An arrival taken whole: the gap filled, line n taken, the settled line moved, what is left to plan in the Event Queue,
the starve episode checked (R7, R27, R31, R52). -/
def State.arrive (s : State) (n : Nat) (px : List Nat) : State :=
  let first := (s.front.newest + 1).toNat
  let t := (s.fillLines first (n - first)).takeLine n px
  State.checkEpisode { t with holes := { t.holes with settled := t.front.newest - 8, queue := t.queueToPlan } }

/-- The window top (R5). -/
def State.windowTop (s : State) : Int :=
  (if s.roll.rollState = .leader then s.front.newest else s.roll.planLine) + Config.windowSpan

/-- A valid SCAN frame judged by the Scan Front End (R1, R3, R5). -/
def State.scan (s : State) (line : Tag) (payload : List Byte) : State :=
  if s.roll.rollState = .noRoll then s.bump .staleLine
  else if payload.length ≠ 256 then s.bump .widthMismatch
  else if (line.toNat : Int) ≤ s.front.newest then s.bump .staleLine
  else if s.windowTop < (line.toNat : Int) then s.bump .overrun
  else s.arrive line.toNat (pixelsOf payload)

/-- SCAN_FRAME (R1 to R20, R25 to R38, R164). -/
def execScanFrame (line : Tag) (payload : List Byte) (s : State) : Answer :=
  whenRunning s fun t => t.validFrame.scan line payload

/-- The leader has read LeaderMax lines and no code has settled (R35). -/
def State.leaderMaxDue (s : State) : Bool :=
  s.roll.rollState == .leader && decide (s.tables.format.leaderMax ≤ s.holes.reader.linesRead)

/-- LEADER_MAX_EXPIRY (R35): the default set, code 0, PLAYING at the line after the newest (entry 12). -/
def execLeaderMaxExpiry (s : State) : Answer :=
  whenDue s State.leaderMaxDue fun t =>
    State.enterPlaying { t with holes := { t.holes with code := 0 } } (t.front.newest + 1).toNat t.tables.format.defaultSet

end Sys2Proof.Machine
end

