-- ==== Sys2Proof/Machine/Sense.lean ====
section
/-! DEFINITION. Strike sensing and adaptation (Chapter 9). -/

namespace Sys2Proof.Machine

/-- The lag after a match with timing error e: an eighth of it, truncated toward zero, added and clamped to 0 to 20,000 (R154). -/
def correctedLag (lag : Nat) (e : Int) : Nat := (clampInt 0 20000 ((lag : Int) + e.tdiv 8)).toNat

/-- The velocity floor after a miss (R156). -/
def raisedFloor (r : KeyRecord) (vStep vFloorMax : Nat) : Nat := min (r.vFloor + vStep) (min vFloorMax r.vMax)

/-- Key k's sense watch closed. -/
def State.closeSense (s : State) (k : Key) : State := s.withKey k { s.key k with sense := none }

/-- A match on key k with timing error e: with AdaptEnable set the lag is corrected and counted (R154). -/
def State.senseMatch (s : State) (k : Key) (e : Int) : State :=
  if s.tables.settings.adaptEnable then
    (s.withRecord k { s.record k with lag := correctedLag (s.record k).lag e }).bump .senseAdapted
  else s

/-- A sense edge of a fitted key, judged (R152, R153). One that finds a watch open past its deadline is an outlier; in a run
the deadline comes first (entry 39). -/
def State.judgeEdge (s : State) (k : Key) : State :=
  match (s.key k).sense with
  | none => s.bump .senseStray
  | some w =>
    let e : Int := (s.deviceTime : Int) - w.expected
    if s.tables.settings.senseWindow < e.natAbs then (s.closeSense k).bump .senseOutlier
    else (s.closeSense k).senseMatch k e

/-- SENSE_EDGE (R150, R152, R153): an edge on a key without a sensor is ignored. -/
def execSenseEdge (k : Key) (s : State) : Answer :=
  whenRunning s fun t => if (t.record k).senseFitted then t.judgeEdge k else t

/-- Key k's watch has reached its deadline (R155). Strike 4 of section 9.9 prints an edge past it as an outlier and no miss;
the model follows the rules (DEDUCED, entry 39). -/
def State.deadlineDue (s : State) (k : Key) : Bool :=
  match (s.key k).sense with
  | some w => decide (w.expected + s.tables.settings.senseWindow ≤ s.deviceTime)
  | none => false

/-- A miss of key k's watch raises its velocity floor while AdaptEnable is set (R156). -/
def State.senseMiss (s : State) (k : Key) : State :=
  let g := s.tables.settings
  let t := s.bump .senseMiss
  if g.adaptEnable then t.withRecord k { s.record k with vFloor := raisedFloor (s.record k) g.vStep g.vFloorMax } else t

/-- Key k's watch at its deadline (R156). -/
def State.reachDeadline (s : State) (k : Key) : State :=
  if (s.record k).senseFitted then (s.closeSense k).senseMiss k else s.closeSense k

/-- SENSE_DEADLINE (R155, R156). -/
def execSenseDeadline (k : Key) (s : State) : Answer :=
  whenDue s (State.deadlineDue · k) fun t => t.reachDeadline k

/-- Key k's deadline lies in the past (R155). -/
def State.deadlinePast (s : State) (k : Key) : Bool :=
  match (s.key k).sense with
  | some w => decide (w.expected + s.tables.settings.senseWindow < s.deviceTime)
  | none => false

/-- The watches whose deadline a SETTINGS write has put in the past reach it as the write is taken (R155). -/
def State.passDeadlines (s : State) : State :=
  allKeys.foldl (fun t k => if t.deadlinePast k then t.reachDeadline k else t) s

end Sys2Proof.Machine
end

