-- ==== Sys2Proof/Machine/Store.lean ====
section
/-! DEFINITION. TABLE WRITE, TABLE READ and the settings store's commands (Chapter 11). -/

namespace Sys2Proof.Machine

/-- Whether the roll state or the channels forbid a TABLE WRITE to a table, and the refusal (R179). -/
def State.tableBar (s : State) (n : TableName) : Option ResultCode :=
  match n with
  | .map m =>
    match s.roll.rollState with
    | .noRoll => none
    | .leader => some .state
    | _ => if s.holes.activeSet = some m then some .state else none
  | .format => if s.roll.rollState = .leader then some .state else none
  | .settings => if s.rollActive then some .state else if s.allIdle then none else some .busy
  | _ => none

/-- What a write takes with it: a swell above its new ceiling (R66), heat above its new limit (R127),
watches whose deadline is past (R155). -/
def State.afterWrite (s : State) : TableName → State
  | .expr .bass => { s with exprBass := { s.exprBass with swell := min s.exprBass.swell (s.tables.exprBass.swellMax * 256) } }
  | .expr .treble =>
    { s with exprTreble := { s.exprTreble with swell := min s.exprTreble.swell (s.tables.exprTreble.swellMax * 256) } }
  | .settings => (s.mapKeys fun _ c => { c with heat := min c.heat s.tables.settings.heatLimit }).passDeadlines
  | _ => s

/-- How TABLE WRITE is judged: its form, then run, state and values (R177 to R179). -/
def judgeTableWrite (table start count : Byte) (entries : List Byte) (s : State) : Verdict :=
  match tableOfByte table with
  | none => refuse .unknown
  | some n =>
    if entries.length ≠ runSize table start.toNat count.toNat then refuse .unknown
    else if !n.runFits start.toNat count.toNat then refuse .range
    else
      match s.tableBar n with
      | some r => refuse r
      | none =>
        match s.tables.writeRun table n start.toNat count.toNat entries with
        | none => refuse .range
        | some t =>
          if t.crossCheck n start.toNat count.toNat then accept .done fun u => State.afterWrite { u with tables := t } n
          else refuse .range

/-- TABLE_WRITE (R177 to R179). -/
def execTableWrite (tag : Tag) (table start count : Byte) (entries : List Byte) (s : State) : Answer :=
  whenRunning s fun t => t.control tag 0x20#8 (judgeTableWrite table start count entries)

/-- How TABLE READ is judged (R180). -/
def judgeTableRead (table start count : Byte) (s : State) : Verdict :=
  match tableOfByte table with
  | none => refuse .range
  | some n =>
    if count.toNat = 0 ∨ start.toNat < n.indices.1 ∨ n.indices.2 < start.toNat then refuse .range
    else
      let es := s.tables.readRun n start.toNat count.toNat 283
      { result := some .done
        data := table :: start :: BitVec.ofNat 8 es.length :: es.flatten
        act := id }

/-- TABLE_READ (R180). -/
def execTableRead (tag : Tag) (table start count : Byte) (s : State) : Answer :=
  whenRunning s fun t => t.control tag 0x21#8 (judgeTableRead table start count)

/-- A region from a link byte. -/
def regionOfByte (b : Byte) : Option Region := if h : b.toNat < 8 then some ⟨b.toNat, h⟩ else none

/-- A region of the store. -/
def State.region (s : State) (r : Region) : StoreRegion := s.store.regions[r.val]

/-- The state with a region of the store replaced. -/
def State.withRegion (s : State) (r : Region) (x : StoreRegion) : State :=
  { s with store := { s.store with regions := s.store.regions.set r.val x r.isLt } }

/-- A store operation put in flight, its reply reserved (R167, R182, R184). -/
def State.startOp (s : State) (kind : StoreOpKind) (r : Region) (tag : Tag) (time : Nat) : State :=
  { s with store := { s.store with op := some ⟨kind, r, tag, s.deviceTime + time⟩ } }

/-- How STORE SAVE is judged (R182). -/
def judgeStoreSave (tag : Tag) (region : Byte) (s : State) : Verdict :=
  match regionOfByte region with
  | none => refuse .range
  | some r =>
    if s.store.op.isSome then refuse .busy
    else if (s.region r).lockdown then refuse .lockedDown
    else if (s.region r).protectedFlag then refuse .isProtected
    else ⟨none, [], fun t => t.startOp (.save (t.tables.image r)) r tag Config.saveTime⟩

/-- STORE_SAVE (R182). -/
def execStoreSave (tag : Tag) (region : Byte) (s : State) : Answer :=
  whenRunning s fun t => t.control tag 0x40#8 (judgeStoreSave tag region)

/-- The regions' records with the protected flags of those a mask names set to a value (R183). -/
def protectRegions (v : Vector StoreRegion 8) (mask : Byte) (value : Bool) : Vector StoreRegion 8 :=
  Vector.ofFn fun r => if BitVec.getLsbD mask r.val then { v[r.val] with protectedFlag := value } else v[r.val]

/-- The protected flags of the regions a mask names set to a value (R183). -/
def State.setProtected (s : State) (mask : Byte) (value : Bool) : State :=
  { s with store := { s.store with regions := protectRegions s.store.regions mask value } }

/-- How STORE PROTECT and STORE UNPROTECT are judged (R183). -/
def judgeProtect (mask : Byte) (value : Bool) (s : State) : Verdict :=
  if s.store.lock then refuse .locked else accept .done fun t => t.setProtected mask value

/-- STORE_PROTECT (R183). -/
def execStoreProtect (tag : Tag) (mask : Byte) (s : State) : Answer :=
  whenRunning s fun t => t.control tag 0x41#8 (judgeProtect mask true)

/-- STORE_UNPROTECT (R183). -/
def execStoreUnprotect (tag : Tag) (mask : Byte) (s : State) : Answer :=
  whenRunning s fun t => t.control tag 0x42#8 (judgeProtect mask false)

/-- The Lock flag set to a value. -/
def State.setLock (s : State) (value : Bool) : State := { s with store := { s.store with lock := value } }

/-- How STORE LOCK is judged (R183). -/
def judgeStoreLock (value : Byte) (s : State) : Verdict :=
  if value = 0x01#8 then accept .done fun t => t.setLock true
  else if value = 0x00#8 then
    if s.setupLock then refuse .locked else accept .done fun t => t.setLock false
  else refuse .range

/-- STORE_LOCK (R183). -/
def execStoreLock (tag : Tag) (value : Byte) (s : State) : Answer :=
  whenRunning s fun t => t.control tag 0x43#8 (judgeStoreLock value)

/-- How STORE LOCKDOWN is judged (R184). -/
def judgeStoreLockdown (tag : Tag) (region confirm : Byte) (s : State) : Verdict :=
  match regionOfByte region with
  | none => refuse .range
  | some r =>
    if confirm ≠ 0xA5#8 then refuse .range
    else if s.store.op.isSome then refuse .busy
    else if s.store.lock then refuse .locked
    else if (s.region r).lockdown then refuse .lockedDown
    else ⟨none, [], fun t => t.startOp .lockdown r tag Config.lockdownTime⟩

/-- STORE_LOCKDOWN (R184). -/
def execStoreLockdown (tag : Tag) (region confirm : Byte) (s : State) : Answer :=
  whenRunning s fun t => t.control tag 0x44#8 (judgeStoreLockdown tag region confirm)

/-- The save in flight, when its time has come (R182). -/
def State.saveDue (s : State) : Option (StoreOp × RegionImage) :=
  match s.store.op with
  | some o =>
    match o.kind with
    | .save copy => if o.completes ≤ s.deviceTime then some (o, copy) else none
    | .lockdown => none
  | none => none

/-- The lockdown in flight, when its time has come (R184). -/
def State.lockdownOpDue (s : State) : Option StoreOp :=
  match s.store.op with
  | some o =>
    match o.kind with
    | .lockdown => if o.completes ≤ s.deviceTime then some o else none
    | .save _ => none
  | none => none

/-- The operation in flight becomes absent; its reservation goes with it (R182, R184). -/
def State.clearOp (s : State) : State := { s with store := { s.store with op := none } }

/-- A save's copy written to its region and read back (R182; entry 8). -/
def State.finishSave (s : State) (o : StoreOp) (copy : RegionImage) (readBack : Bool) : State :=
  (State.clearOp (s.withRegion o.region
    { s.region o.region with content := copy, checkGood := readBack, storeBad := !readBack })).queueReply
    o.tag 0x40#8 (if readBack then .done else .storeFail) []

/-- STORE_SAVE_COMPLETE (R167, R182). -/
def execStoreSaveComplete (readBack : Bool) (s : State) : Answer :=
  whenRunning s fun t =>
    match t.saveDue with
    | some (o, copy) => t.finishSave o copy readBack
    | none => t

/-- A lockdown flag written and read back (R184; entry 8). -/
def State.finishLockdown (s : State) (o : StoreOp) (readBack : Bool) : State :=
  (State.clearOp (s.withRegion o.region
    { s.region o.region with lockdown := (s.region o.region).lockdown || readBack })).queueReply
    o.tag 0x44#8 (if readBack then .done else .storeFail) []

/-- STORE_LOCKDOWN_COMPLETE (R167, R184). -/
def execStoreLockdownComplete (readBack : Bool) (s : State) : Answer :=
  whenRunning s fun t =>
    match t.lockdownOpDue with
    | some o => t.finishLockdown o readBack
    | none => t

end Sys2Proof.Machine
end

