-- ==== Sys2Proof/Machine/Due.lean ====
section
/-! DEFINITION. What the card does by itself when no command waits: the events that are due, and the passing of time (R41; entries 2 and 3). -/

namespace Sys2Proof.Machine

/-- An event as a one-entry list when it is due. -/
def dueIf (b : Bool) (i : Instr) : List Instr := if b then [i] else []

/-- The card's own events that are due at this device time. -/
def State.dueEvents (s : State) : List Instr :=
  dueIf (s.sendDue && s.laneIdle) .returnSend ++ dueIf s.aliveDue .linkAliveExpiry ++ dueIf s.abandonDue .abandon
    ++ dueIf s.leaderMaxDue .leaderMaxExpiry ++ dueIf s.planDue .planLine ++ dueIf s.episodeDue .starveEpisodeStart
    ++ dueIf s.starveHoldDue .starveHold ++ dueIf s.rollEndDue .rollEnd ++ dueIf s.coolDue .heatCooling
    ++ dueIf s.saveDue.isSome (.storeSaveComplete (Config.readBack s.freeIndex))
    ++ dueIf s.lockdownOpDue.isSome (.storeLockdownComplete (Config.readBack s.freeIndex))
    ++ allPedals.flatMap (fun p =>
        dueIf (s.pedalFireDue p) (.pedalFire p) ++ dueIf (s.pedalKickEndDue p) (.pedalKickEnd p)
          ++ dueIf (s.pedalLiftDue p) (.pedalLift p) ++ dueIf (s.pedalReleaseDue p) (.pedalReleaseEnd p))
    ++ allKeys.flatMap (fun k =>
        dueIf (s.keyFireDue k) (.keyFire k) ++ dueIf (s.kickEndDue k) (.kickEnd k) ++ dueIf (s.releaseDue k) (.holdRelease k)
          ++ dueIf (s.testReleaseDue k) (.testRelease k) ++ dueIf (s.gapDue k) (.gapEnd k)
          ++ dueIf (s.deferDue k) (.deferExpiry k) ++ dueIf (s.holdLimitDue k) (.holdLimitExpiry k)
          ++ dueIf (s.deadlineDue k) (.senseDeadline k))

/-- The channels that request a kick slot when an event happens now, PLAN_LINE apart: a channel that fires, a
pending press or note that is promoted to fire, and the keys that a handed-on slot lets promote (R105, R109, R119,
R121). The late channels of a planned line stand in lateRequests. -/
def State.requests (s : State) : Instr → List Channel
  | .pedalFire p => [.pedal p]
  | .pedalReleaseEnd p => if s.armsToFire p then [.pedal p] else []
  | .keyFire k => [.key k]
  | .gapEnd k => if s.promotesToFire k then [.key k] else []
  | .deferExpiry k => if s.promotesToFire k then [.key k] else []
  | .kickEnd k => (s.endKick k).handOnRequests.map .key
  | .pedalKickEnd p => (s.endPedalKick p).handOnRequests.map .key
  | _ => []

/-- An event that frees a kick slot at the end of a kick (R121). -/
def isKickEnd : Instr → Bool
  | .kickEnd _ | .pedalKickEnd _ => true
  | _ => false

/-- The keys that request a kick slot once all the slots whose kicks end now have been handed on (R121). -/
def State.kickEndRequests (s : State) : List Channel :=
  let ends := s.dueEvents.filter isKickEnd
  let freed := ends.foldl (fun t i =>
    match i with
    | .kickEnd k => t.endKick k
    | .pedalKickEnd p => t.endPedalKick p
    | _ => t) s
  if ends.isEmpty then [] else freed.handOnRequests.map .key

/-- The channels that request a kick slot at this device time in the state as it stands (R119). -/
def State.requesters (s : State) : List Channel :=
  (s.dueEvents.filter fun i => !isKickEnd i).flatMap s.requests ++ s.kickEndRequests

/-- The channels that request a kick slot at this device time because of the lines that can be planned now one after
another, at most some number of them: each line's late notes and presses, and what its events let a channel at the end
of its gap, release or wait request after it (R50, R99, R109, R119, R138). -/
def State.requestsAhead : Nat → State → List Channel
  | 0, _ => []
  | lines + 1, s =>
    if s.planDue then s.lateRequests ++ s.planNext.requesters ++ State.requestsAhead lines s.planNext else []

/-- The requests of every line that can be planned at this device time: no more lines than are settled above the plan line (R50). -/
def State.lineRequests (s : State) : List Channel := s.requestsAhead (s.holes.settled - s.roll.planLine).toNat

/-- The first channel an event makes request a kick slot is judged before some others or with them, pedals before
keys and ascending (R119); so is an event that makes no request. -/
def State.judgedFirst (s : State) (i : Instr) (others : List Channel) : Bool :=
  match ((s.requests i).map Channel.rank).min? with
  | some place => others.all fun c => decide (place ≤ c.rank)
  | none => true

/-- The due events that can happen next (R119; entry 3): any that requests no kick slot, a due line among them; the one
that requests first of all the channels that request at this device time, in the lines that are due too; and a kick end
whose requests no request that the lines bring comes before. -/
def State.nextEventChoices (s : State) : List Instr :=
  let now := s.requesters
  let lines := s.lineRequests.filter fun c => !now.contains c
  s.dueEvents.filter fun i => s.judgedFirst i lines && (isKickEnd i || s.judgedFirst i now)

/-- An event put into the queue by the card itself; it advances the free-value counter. -/
def State.post (s : State) (i : Instr) : State := { s with pending := [i], freeIndex := s.freeIndex + 1 }

/-- What can happen now with no command waiting and no time passing: a forward-lane byte is taken, or a due
event is posted, of those that request a kick slot only the first (R119); where nothing else can happen and
the return lane's frame ends within this microsecond, the next frame starts back to back with it (R161). -/
def State.idleChoices (s : State) : List State :=
  let now := (if s.link.forwardLane.isEmpty then [] else [s.takeByte]) ++ s.nextEventChoices.map s.post
  if now.isEmpty then (dueIf s.sendDue .returnSend).map s.post else now

/-- One microsecond of device time passes; roll time advances with it while the roll clock runs (R41). -/
def State.advance (s : State) : State :=
  { s with
    deviceTime := s.deviceTime + 1
    roll := if s.clockRuns then { s.roll with rollTime := s.roll.rollTime + 1 } else s.roll }

/-- A card in reset lets device time pass, and its heat cools with it (R126; entry 10). -/
def State.advanceInReset (s : State) : State :=
  let t := if s.coolDue then s.cool else s
  { t with deviceTime := t.deviceTime + 1 }

/-- The card with no command waiting: nothing without power; otherwise one thing that can happen now,
chosen by a free value where several can, and a microsecond of time where none can (entries 2 and 3). -/
def State.idle (s : State) : State :=
  match s.power with
  | .off => s
  | .inReset => s.advanceInReset
  | .running =>
    match s.idleChoices with
    | [] => s.advance
    | [t] => t
    | ts => { (ts[Config.tieBreak s.freeIndex % ts.length]?).getD s with freeIndex := s.freeIndex + 1 }

end Sys2Proof.Machine
end

