-- ==== Sys2Proof/Machine/Dispatch.lean ====
section
/-! DEFINITION. One arm per command, each a direct call of its meaning. -/

namespace Sys2Proof.Machine

/-- The effect of a command on everything but the queue. -/
def exec (i : Instr) (s : State) : Host.Outcome State Fault Refusal :=
  match i with
  | .powerOn => Sys2Proof.Machine.execPowerOn s
  | .resetLineAsserted => Sys2Proof.Machine.execResetLineAsserted s
  | .resetLineReleased => Sys2Proof.Machine.execResetLineReleased s
  | .headerError => Sys2Proof.Machine.execHeaderError s
  | .payloadError => Sys2Proof.Machine.execPayloadError s
  | .scanFrame line payload => Sys2Proof.Machine.execScanFrame line payload s
  | .leaderMaxExpiry => Sys2Proof.Machine.execLeaderMaxExpiry s
  | .unknownCommand tag payload => Sys2Proof.Machine.execUnknownCommand tag payload s
  | .rollStart tag line tempo mode => Sys2Proof.Machine.execRollStart tag line tempo mode s
  | .rollStop tag => Sys2Proof.Machine.execRollStop tag s
  | .pause tag => Sys2Proof.Machine.execPause tag s
  | .resume tag => Sys2Proof.Machine.execResume tag s
  | .tempo tag line tempo => Sys2Proof.Machine.execTempo tag line tempo s
  | .tableWrite tag table start count entries => Sys2Proof.Machine.execTableWrite tag table start count entries s
  | .tableRead tag table start count => Sys2Proof.Machine.execTableRead tag table start count s
  | .statusQuery tag => Sys2Proof.Machine.execStatusQuery tag s
  | .countersRead tag => Sys2Proof.Machine.execCountersRead tag s
  | .faultClear tag mask => Sys2Proof.Machine.execFaultClear tag mask s
  | .keyTest tag key velocity => Sys2Proof.Machine.execKeyTest tag key velocity s
  | .storeSave tag region => Sys2Proof.Machine.execStoreSave tag region s
  | .storeProtect tag mask => Sys2Proof.Machine.execStoreProtect tag mask s
  | .storeUnprotect tag mask => Sys2Proof.Machine.execStoreUnprotect tag mask s
  | .storeLock tag value => Sys2Proof.Machine.execStoreLock tag value s
  | .storeLockdown tag region confirm => Sys2Proof.Machine.execStoreLockdown tag region confirm s
  | .linkReset tag => Sys2Proof.Machine.execLinkReset tag s
  | .storeSaveComplete readBack => Sys2Proof.Machine.execStoreSaveComplete readBack s
  | .storeLockdownComplete readBack => Sys2Proof.Machine.execStoreLockdownComplete readBack s
  | .returnSend => Sys2Proof.Machine.execReturnSend s
  | .linkAliveExpiry => Sys2Proof.Machine.execLinkAliveExpiry s
  | .abandon => Sys2Proof.Machine.execAbandon s
  | .planLine => Sys2Proof.Machine.execPlanLine s
  | .starveEpisodeStart => Sys2Proof.Machine.execStarveEpisodeStart s
  | .starveHold => Sys2Proof.Machine.execStarveHold s
  | .holdLimitExpiry k => Sys2Proof.Machine.execHoldLimitExpiry k s
  | .rollEnd => Sys2Proof.Machine.execRollEnd s
  | .keyFire k => Sys2Proof.Machine.execKeyFire k s
  | .kickEnd k => Sys2Proof.Machine.execKickEnd k s
  | .deferExpiry k => Sys2Proof.Machine.execDeferExpiry k s
  | .holdRelease k => Sys2Proof.Machine.execHoldRelease k s
  | .testRelease k => Sys2Proof.Machine.execTestRelease k s
  | .gapEnd k => Sys2Proof.Machine.execGapEnd k s
  | .pedalFire p => Sys2Proof.Machine.execPedalFire p s
  | .pedalKickEnd p => Sys2Proof.Machine.execPedalKickEnd p s
  | .pedalLift p => Sys2Proof.Machine.execPedalLift p s
  | .pedalReleaseEnd p => Sys2Proof.Machine.execPedalReleaseEnd p s
  | .heatCooling => Sys2Proof.Machine.execHeatCooling s
  | .faultLineActive g => Sys2Proof.Machine.execFaultLineActive g s
  | .faultLineInactive g => Sys2Proof.Machine.execFaultLineInactive g s
  | .senseEdge k => Sys2Proof.Machine.execSenseEdge k s
  | .senseDeadline k => Sys2Proof.Machine.execSenseDeadline k s
  | .powerFail => Sys2Proof.Machine.execPowerFail s

end Sys2Proof.Machine
end

