-- ==== Sys2Proof/Safety.lean ====
section
/-! DEFINITION. What a run of the card keeps true, and the words the statements use: kinds of command, frames as bytes, what a change of state leaves alone. -/

namespace Sys2Proof.Safety

open Sys2Proof.Machine

/-! Kinds of command -/

/-- The commands a CONTROL frame carries, but for LINK RESET, with the command code of their payload (section 10.4). -/
def controlCode : Instr → Option Byte
  | .unknownCommand _ payload => some (payload.headD 0x00#8)
  | .rollStart _ _ _ _ => some 0x10#8
  | .rollStop _ => some 0x11#8
  | .pause _ => some 0x12#8
  | .resume _ => some 0x13#8
  | .tempo _ _ _ => some 0x14#8
  | .tableWrite _ _ _ _ _ => some 0x20#8
  | .tableRead _ _ _ _ => some 0x21#8
  | .statusQuery _ => some 0x30#8
  | .countersRead _ => some 0x31#8
  | .faultClear _ _ => some 0x32#8
  | .keyTest _ _ _ => some 0x33#8
  | .storeSave _ _ => some 0x40#8
  | .storeProtect _ _ => some 0x41#8
  | .storeUnprotect _ _ => some 0x42#8
  | .storeLock _ _ => some 0x43#8
  | .storeLockdown _ _ _ => some 0x44#8
  | _ => none

/-- The command is a CONTROL frame other than LINK RESET. -/
def isControl (c : Instr) : Bool := (controlCode c).isSome

/-- The command is a valid frame of the forward lane (R164). -/
def isFrame : Instr → Bool
  | .scanFrame _ _ => true
  | .linkReset _ => true
  | c => isControl c

/-- The command is power, the reset line or a fault line: the card meets it powered or not. -/
def isPowerOrLine : Instr → Bool
  | .powerOn => true
  | .resetLineAsserted => true
  | .resetLineReleased => true
  | .powerFail => true
  | .faultLineActive _ => true
  | .faultLineInactive _ => true
  | _ => false

/-- The command is power or the reset line. -/
def isPowerOrReset : Instr → Bool
  | .powerOn => true
  | .resetLineAsserted => true
  | .resetLineReleased => true
  | .powerFail => true
  | _ => false

/-- For an event of the card's own, whether it is due; none for every other command. -/
def ownEventDue (s : State) : Instr → Option Bool
  | .leaderMaxExpiry => some s.leaderMaxDue
  | .storeSaveComplete _ => some s.saveDue.isSome
  | .storeLockdownComplete _ => some s.lockdownOpDue.isSome
  | .returnSend => some s.sendDue
  | .linkAliveExpiry => some s.aliveDue
  | .abandon => some s.abandonDue
  | .planLine => some s.planDue
  | .starveEpisodeStart => some s.episodeDue
  | .starveHold => some s.starveHoldDue
  | .holdLimitExpiry k => some (s.holdLimitDue k)
  | .rollEnd => some s.rollEndDue
  | .keyFire k => some (s.keyFireDue k)
  | .kickEnd k => some (s.kickEndDue k)
  | .deferExpiry k => some (s.deferDue k)
  | .holdRelease k => some (s.releaseDue k)
  | .testRelease k => some (s.testReleaseDue k)
  | .gapEnd k => some (s.gapDue k)
  | .pedalFire p => some (s.pedalFireDue p)
  | .pedalKickEnd p => some (s.pedalKickEndDue p)
  | .pedalLift p => some (s.pedalLiftDue p)
  | .pedalReleaseEnd p => some (s.pedalReleaseDue p)
  | .heatCooling => some s.coolDue
  | .senseDeadline k => some (s.deadlineDue k)
  | _ => none

/-! Frames as bytes -/

/-- The tag and payload of the CONTROL frame that carries a command (section 10.4). -/
def controlFrame : Instr → Option (Tag × List Byte)
  | .unknownCommand tag payload => some (tag, payload)
  | .rollStart tag line tempo mode => some (tag, 0x10#8 :: toBytes 3 line.toNat ++ toBytes 2 tempo.toNat ++ [mode])
  | .rollStop tag => some (tag, [0x11#8])
  | .pause tag => some (tag, [0x12#8])
  | .resume tag => some (tag, [0x13#8])
  | .tempo tag line tempo => some (tag, 0x14#8 :: toBytes 3 line.toNat ++ toBytes 2 tempo.toNat)
  | .tableWrite tag table start count entries => some (tag, [0x20#8, table, start, count] ++ entries)
  | .tableRead tag table start count => some (tag, [0x21#8, table, start, count])
  | .statusQuery tag => some (tag, [0x30#8])
  | .countersRead tag => some (tag, [0x31#8])
  | .faultClear tag mask => some (tag, 0x32#8 :: toBytes 2 mask.toNat)
  | .keyTest tag key velocity => some (tag, [0x33#8, key] ++ toBytes 2 velocity.toNat)
  | .storeSave tag region => some (tag, [0x40#8, region])
  | .storeProtect tag mask => some (tag, [0x41#8, mask])
  | .storeUnprotect tag mask => some (tag, [0x42#8, mask])
  | .storeLock tag value => some (tag, [0x43#8, value])
  | .storeLockdown tag region confirm => some (tag, [0x44#8, region, confirm])
  | .linkReset tag => some (tag, [0x50#8])
  | _ => none

/-- The bytes on the forward lane of the frame that carries a command, for a command that is a valid frame (R161). -/
def frameOf : Instr → Option (List Byte)
  | .scanFrame line payload => some (frameBytes 0x01#8 line payload)
  | c => (controlFrame c).map fun f => frameBytes 0x02#8 f.1 f.2

/-- The receiver and the commands it completes, after a stretch of forward-lane bytes. -/
def receive (r : Receiver) (bytes : List Byte) : Receiver × List Instr :=
  bytes.foldl (fun (a : Receiver × List Instr) b =>
    let u := a.1.take b
    (u.1, a.2 ++ u.2.toList)) (r, [])

/-! What a change of state does -/

/-- One counter rose by n occurrences, staying at 65,535, and no other moved (R174). -/
def Counted (s t : State) (c : Counter) (n : Nat) : Prop :=
  ∀ d : Counter, t.counter d = if d = c then min 65535 (s.counter c + n) else s.counter d

/-- A key channel sent to RELEASE at a device time with its repeat gap: the drive is off, the gap runs,
and its timers are gone (R108). Its notes stand. -/
def Released (c : KeyChannel) (now gap : Nat) : KeyChannel :=
  { c with
    state := .release, gapEnd := some (now + gap), duty := 0
    appliedKick := none, kickEnd := none, minHoldEnd := none, testRelease := none, waitStart := none, holdWatch := none }

/-- A key channel after a stop (R111, R112): an idle one stays, one in RELEASE keeps its gap end, every
other one is released; its notes go, its target is NONE, hold-released is clear, and a kick cut short
closes its sense watch. -/
def StoppedKey (c : KeyChannel) (now gap : Nat) : KeyChannel :=
  match c.state with
  | .idle => { c with target := .nothing, holdReleased := false }
  | .release => { c with current := none, pending := none, target := .nothing, holdReleased := false }
  | .kick =>
    { Released c now gap with current := none, pending := none, target := .nothing, holdReleased := false, sense := none }
  | _ => { Released c now gap with current := none, pending := none, target := .nothing, holdReleased := false }

/-- A pedal channel after a stop or a fault of its group (R143 to R145). -/
def StoppedPedal (c : PedalChannel) (now : Nat) : PedalChannel :=
  match c.state with
  | .idle => c
  | .release => { c with current := none, pending := none }
  | _ =>
    { c with
      state := .release, current := none, pending := none, kickEnd := none, waitStart := none
      releaseEnd := some (now + 20000), duty := 0 }

/-- A key channel in KICK after a kick of a given length of its note m has started at a device time (R97, R106, R125, R56, R151). -/
def KickedKey (c : KeyChannel) (m : Note) (now kick : Nat) (fromList stopped : Bool) : KeyChannel :=
  { c with
    state := .kick, current := some { m with deferred := m.deferred || fromList }
    appliedKick := some kick, kickEnd := some (now + kick), waitStart := none
    sense := some ⟨now + m.lead, now⟩, holdWatch := if stopped then some ⟨now, false⟩ else c.holdWatch
    heat := c.heat + kick, duty := 255 }

/-- A note's kick that starts now is late: more than 2,000 microseconds of roll time after its fire time (R92). -/
def startsLate (now : RollTime) (m : Note) : Bool :=
  match m.fire with
  | some f => decide (2000 < (now - f).toInt)
  | none => false

/-- The counter of late strikes after such a start. -/
def lateCount (s : State) (m : Note) : Nat :=
  if startsLate s.roll.rollTime m then min 65535 (s.counter .lateStrike + 1) else s.counter .lateStrike

/-- A key channel gone IDLE with nothing pending: no notes, target NONE; heat and an open sense watch stay (R108, R109, R151). -/
def IdleKey (c : KeyChannel) : KeyChannel :=
  ⟨.idle, none, none, .nothing, false, none, none, none, none, none, none, c.sense, none, c.heat, 0⟩

/-- A key channel armed with its pending note n promoted (R108, R109). -/
def PromotedKey (c : KeyChannel) (n : Note) : KeyChannel :=
  { IdleKey c with
    state := .armed, current := some n, target := if c.target = .pending then .current else c.target }

/-- The current note of key channel k is gone (R108, R109): without a pending note it is IDLE, and with
one whose fire time is still ahead it is ARMED with an entry in the Fire List, which was `list`. No other channel moves. -/
def MovesOn (s t : State) (k : Key) (list : List FireEntry) : Prop :=
  (∀ j, j ≠ k → t.key j = s.key j)
    ∧ ((s.key k).pending = none → t.key k = IdleKey (s.key k) ∧ t.fireList = list)
    ∧ (∀ n f, (s.key k).pending = some n → n.fire = some f →
        t.key k = PromotedKey (s.key k) n ∧ t.fireList = insertFire ⟨.key k, f⟩ list)

/-- Nothing pending behind key channel k, or a pending note whose fire time roll time has not reached. -/
def nothingToFire (s : State) (k : Key) : Prop :=
  ∀ n, (s.key k).pending = some n → ∃ f, n.fire = some f ∧ reached s.roll.rollTime f = false

/-- A promoted note n of key channel k fires (R105, R106, R109, R119, R125): t is the state after it, b the one in
which its pending place is still n and the current note has gone with all that its going moves but the channel.
In a FAULTED group it is a fault drop; with a slot free its kick starts, whole or cut to the headroom of at least 500,
or the heat check drops it, and a dropped one leaves the channel IDLE; on a full card it waits from now on. -/
def PromotedFires (b t : State) (k : Key) (n : Note) : Prop :=
  let c := PromotedKey (b.key k) n
  let capped := min n.kick (b.record k).kickMax
  let room := b.tables.settings.heatLimit - (b.key k).heat
  let ok := b.faulted (keyGroup k) = false
  let free := b.kickCount < b.tables.settings.kickSlots
  let starts (kick trims : Nat) : Prop :=
    t = { b.withKey k (KickedKey c n b.deviceTime kick false b.clockStopped) with counters := t.counters }
      ∧ ∀ d : Counter, t.counter d = if d = .lateStrike then lateCount b n
          else if d = .heatTrim ∧ trims = 1 then min 65535 (b.counter .heatTrim + 1) else b.counter d
  let drops (d : Counter) : Prop :=
    Counted b t d 1 ∧ t = { b.withKey k (IdleKey (b.key k)) with counters := t.counters }
  (¬ok → drops .faultDrop)
    ∧ (ok → free → capped ≤ room → starts capped 0)
    ∧ (ok → free → room < capped → 500 ≤ room → starts room 1)
    ∧ (ok → free → room < capped → room < 500 → drops .heatDrop)
    ∧ (ok → ¬free → t = { b.withKey k { c with state := .waiting, waitStart := some b.deviceTime } with
        waitList := insertWait ⟨.key k, .key (b.record k).priority, b.deviceTime⟩ b.waitList })

/-- Key channel k has a pending note n that fires as it is promoted: roll time has reached its fire time, or it has none. -/
def firesPending (s : State) (k : Key) (n : Note) : Prop :=
  (s.key k).pending = some n ∧ ∀ f, n.fire = some f → reached s.roll.rollTime f = true

/-- A key channel after a fault of its group (R110): an idle one stays; the notes of any other go with its target; hold-released stays. -/
def FaultedKey (c : KeyChannel) (now gap : Nat) : KeyChannel :=
  if c.state = .idle then c else { StoppedKey c now gap with holdReleased := c.holdReleased }

/-- Every key and pedal channel is stopped, both lists are empty and the Pedal Unit's records are at rest (R60, R111, R145). -/
def ChannelsStopped (s t : State) : Prop :=
  (∀ k, t.key k = StoppedKey (s.key k) s.deviceTime (s.record k).repeatGap)
    ∧ (∀ p, t.pedal p = StoppedPedal (s.pedal p) s.deviceTime)
    ∧ t.fireList = [] ∧ t.waitList = [] ∧ t.pedalUnit = ⟨⟨false, false, false⟩, Vector.replicate 88 false, [], none⟩

/-- The roll entered PLAYING at first play line f with map set m at a tempo (R24, R44): what the records
hold, and the STATE and WINDOW reports at the newest end of the queue. `before` is the queue's part before
them; the STATE report shows the settled line as `settled`, which a line that ends the leader has not moved yet (entry 11). -/
def EnteredPlaying (t : State) (f : Nat) (m : MapNo) (tempo : Nat) (seq : Tag) (before : List ReturnEntry)
    (settled : Int) : Prop :=
  t.roll.rollState = .playing ∧ t.roll.rollTime = 0 ∧ t.roll.tempo = tempo ∧ t.roll.planLine = (f : Int) - 1
    ∧ t.roll.schedule = [⟨f, BitVec.ofNat 32 (t.tables.settings.planLead
        + 8 * ((100000000 + tempo * t.tables.settings.lpi) / (2 * tempo * t.tables.settings.lpi))), tempo⟩]
    ∧ t.holes.activeSet = some m ∧ t.holes.debounce = List.replicate 128 ⟨false, none⟩
    ∧ t.link.reportSeq = seq + 2
    ∧ t.link.queue = before
        ++ [.state (seq + 1) (State.stateBytes { t with holes := { t.holes with settled := settled } }),
          .window (seq + 2) (lineBytes (min ((f : Int) + 2047) 16777215) ++ lineBytes ((f : Int) - 1))]

/-- The hold-limit watches of a clock that stops: each channel in KICK or HOLD whose watch is not marked
expired starts one now (R56). -/
def WatchesStarted (s t : State) : Prop :=
  ∀ k, t.key k =
    if ((s.key k).state = .kick ∨ (s.key k).state = .hold)
        ∧ ((s.key k).holdWatch.map (·.expired)) ≠ some true then
      { s.key k with holdWatch := some ⟨s.deviceTime, false⟩ }
    else s.key k

/-- The hold-limit watches of a clock that starts: each that is not marked expired is removed (R56). -/
def WatchesRemoved (s t : State) : Prop :=
  ∀ k, t.key k =
    if ((s.key k).holdWatch.map (·.expired)) = some true then s.key k else { s.key k with holdWatch := none }

/-- What an arrival leaves of the timeline, the link and the hold-limit watches (R52, R55, R56), w being the state before it
with its frame counted as valid: where an episode that is open `ends`, starve start goes and STARVED with it, the hold-limit watches
go where that starts the clock, and the STATE report of a STARVED that was in force is the one change of the return queue.
Of the timeline and the link nothing else changes. -/
def EpisodeLeft (w t : State) (ends : Prop) : Prop :=
  (ends → t.roll = { w.roll with starveStart := none, starved := false })
    ∧ (¬ends → t.roll = w.roll)
    ∧ (ends → w.roll.starved = true →
        t.link = { w.link with
          reportSeq := w.link.reportSeq + 1
          queue := w.link.queue.filter (fun e => !e.isState) ++ [.state (w.link.reportSeq + 1) t.stateBytes] })
    ∧ (¬(ends ∧ w.roll.starved = true) → t.link = w.link)
    ∧ (ends → w.roll.starved = true → w.roll.operator = false → WatchesRemoved w t)
    ∧ (¬(ends ∧ w.roll.starved = true ∧ w.roll.operator = false) → t.keys = w.keys)

/-- A role's function state in an expression record, true for OPEN (section 4.1). -/
def roleState (r : ExprRecord) : Role → Bool
  | .step1 => r.step1
  | .step2 => r.step2
  | .step4 => r.step4
  | .cresc => r.cresc
  | .fast => r.fast
  | .sfz => r.sfz
  | .accent => r.accent

/-- A key's note-off of line n as it is stored: its release time, moved to the window end while the key is caught (R93, R149). -/
def noteOffTime (s : State) (k : Key) (n : Nat) : RollTime :=
  let off := s.due n - BitVec.ofNat 32 (s.record k).releaseLead
  match s.pedalUnit.window with
  | some w => if k ∈ s.pedalUnit.capture ∧ earlier off w = true then w else off
  | none => off

/-- Key channel k, with record c, holds a note whose release time is reached past its MinHold end (R104). -/
def Releases (s : State) (c : KeyChannel) : Prop :=
  c.state = .hold ∧ (∃ m r, c.current = some m ∧ m.release = some r ∧ reached s.roll.rollTime r = true)
    ∧ ∃ e, c.minHoldEnd = some e ∧ e ≤ s.deviceTime

/-- What the catch leaves of key channel k as its window opens with an end (R148): the note its target names,
unless hold-released, has a release time before the window end moved to it. -/
def CaughtKey (c : KeyChannel) (w : RollTime) : KeyChannel :=
  let move (m : Note) : Note :=
    match m.release with
    | some r => if earlier r w = true then { m with release := some w } else m
    | none => m
  match c.target with
  | .pending => { c with pending := c.pending.map move }
  | .current => if c.holdReleased = true then c else { c with current := c.current.map move }
  | .nothing => c

/-- A region's content is of the kind its region carries (R176). -/
def carriedBy (r : Region) : RegionImage → Bool
  | .map _ => decide (r.val < 4)
  | .format _ => decide (r.val = 4)
  | .expression _ _ _ => decide (r.val = 5)
  | .keys _ => decide (r.val = 6)
  | .drive _ _ => decide (r.val = 7)

/-! What every step keeps -/

/-- Every counter is a 16-bit count (R174). -/
def CountersBounded (s : State) : Prop := ∀ c : Counter, s.counter c ≤ 65535

/-- The return queue holds at most 14 replies, the reservation counted, at most one WINDOW report and at most one STATE report (section 10.5). -/
def ReturnQueueShaped (s : State) : Prop :=
  s.replyCount ≤ 14 ∧ s.link.queue.countP (·.isWindow) ≤ 1 ∧ s.link.queue.countP (·.isState) ≤ 1

/-- The edge history holds at most eight pairs (R11); the Event Queue holds at most 1024 events, none behind an event that R27 orders after it. -/
def ScanRecordsBounded (s : State) : Prop :=
  s.front.edges.length ≤ 8 ∧ s.holes.queue.length ≤ 1024
    ∧ s.holes.queue.Pairwise (fun a b => b.before a = false)

/-- No key's heat is above HeatLimit (R125, R127), and no half's swell is above its ceiling (R66, R71). -/
def AccountsBounded (s : State) : Prop :=
  (∀ k, (s.key k).heat ≤ s.tables.settings.heatLimit)
    ∧ s.exprBass.swell ≤ s.tables.exprBass.swellMax * 256
    ∧ s.exprTreble.swell ≤ s.tables.exprTreble.swellMax * 256

/-- A channel's state, key or pedal. -/
def channelState (s : State) : Channel → ChannelState
  | .key k => (s.key k).state
  | .pedal p => (s.pedal p).state

/-- A channel requests a kick slot by itself at this device time (R98, R105, R109, R119, R123, R143): it is ARMED with
its fire time reached; or it is a pedal at its release end, or a key at the end of its repeat gap or of DeferLimit,
with a pending press or note that fires at once. -/
def Requests (s : State) (c : Channel) : Prop :=
  (channelState s c = .armed ∧ ∃ e ∈ s.fireList, e.channel = c ∧ reached s.roll.rollTime e.time = true)
    ∨ (∃ p f e, c = .pedal p ∧ (s.pedal p).state = .release ∧ (s.pedal p).releaseEnd = some e ∧ e ≤ s.deviceTime
        ∧ (s.pedal p).pending = some f ∧ reached s.roll.rollTime f.fire = true)
    ∨ (∃ k n, c = .key k ∧ firesPending s k n
        ∧ (((s.key k).state = .release ∧ ∃ e, (s.key k).gapEnd = some e ∧ e ≤ s.deviceTime)
          ∨ ((s.key k).state = .waiting ∧ 0 < s.tables.settings.deferLimit
            ∧ ∃ w, (s.key k).waitStart = some w ∧ w + s.tables.settings.deferLimit ≤ s.deviceTime)))

/-- No channel but those of a list requests a kick slot now that R119 judges before channel c: pedals in the order
SUSTAIN, SOFT, SOSTENUTO, then keys ascending. -/
def noneBefore (s : State) (c : Channel) (but : List Channel) : Prop :=
  ∀ d : Channel, d.rank < c.rank → d ∉ but → ¬Requests s d

/-- The Fire List holds exactly one entry for each channel in ARMED and no other (R98); the Kick Wait List exactly one for each channel in WAITING and no other (R119, R120). -/
def ListsMatchStates (s : State) : Prop :=
  ∀ c : Channel,
    s.fireList.countP (fun e => e.channel == c) = (if channelState s c = .armed then 1 else 0)
      ∧ s.waitList.countP (fun e => e.channel == c) = (if channelState s c = .waiting then 1 else 0)

/-- One entry of the Kick Wait List stands before another in grant order (R120): pedals first, in the order
SUSTAIN, SOFT, SOSTENUTO; then keys by class, the higher first, and within a class ascending. -/
def GrantsBefore (a b : WaitEntry) : Prop :=
  match a.cls, b.cls with
  | .pedal, .pedal => a.channel.rank < b.channel.rank
  | .pedal, .key _ => True
  | .key _, .pedal => False
  | .key c, .key d => d < c ∨ (c = d ∧ a.channel.rank < b.channel.rank)

/-- The Kick Wait List stands in grant order (R120), each entry's class that of a pedal exactly when its channel is one. -/
def WaitListOrdered (s : State) : Prop :=
  s.waitList.Pairwise GrantsBefore
    ∧ ∀ e ∈ s.waitList, e.cls = .pedal ↔ ∃ p, e.channel = .pedal p

/-- The roll's records are in the form its state calls for: a schedule of one to eight segments of ascending
origin exactly while the roll is PLAYING or ENDING (R45, R48, R60), and an active set exactly then (R23); no event
queued outside PLAYING, nor in it at or below the plan line (R27, R30, R39); no key captured and no window open while the
planned sostenuto is UP (R146, R147). -/
def RollRecordsInForm (s : State) : Prop :=
  let plays := s.roll.rollState = .playing ∨ s.roll.rollState = .ending
  (plays → 1 ≤ s.roll.schedule.length ∧ s.roll.schedule.length ≤ 8
      ∧ s.roll.schedule.Pairwise (fun g h => g.origin < h.origin))
    ∧ (¬plays → s.roll.schedule = []) ∧ (s.holes.activeSet.isSome = true ↔ plays)
    ∧ (s.roll.rollState = .playing →
        -1 ≤ s.roll.planLine ∧ ∀ e ∈ s.holes.queue, s.roll.planLine < (e.line : Int))
    ∧ (s.roll.rollState ≠ .playing → s.holes.queue = [])
    ∧ (s.pedalUnit.planned.sostenuto = false → s.pedalUnit.capture = [] ∧ s.pedalUnit.window = none)

/-- The debounce records of PLAYING between arrivals: 128 of them, and each run one of at most seven lines up to the newest line
that began above the plan line, on an entry with a function (R22, R25). -/
def RunsAheadOfPlan (s : State) : Prop :=
  s.holes.debounce.length = 128
    ∧ ∀ (m : MapNo) (i : Fin 128) (d : Debounce) (r : Run), s.holes.activeSet = some m →
        s.holes.debounce[i.val]? = some d → d.run = some r →
        (s.tables.maps[m.val].columns[i.val]).function ≠ .nothing ∧ 1 ≤ r.length ∧ r.length ≤ 7
          ∧ (r.start : Int) + r.length = s.front.newest + 1 ∧ s.roll.planLine < (r.start : Int)

/-- What keeps the events of every line above the plan line (R31, R39): the settled line at least eight lines behind the
newest, the plan line no further than the newest, and runs of at most seven lines above the plan line. -/
def MarginHolds (s : State) : Prop :=
  (∀ m, s.front.heldSet = some (.map m) → s.front.heldSamples.length = 128)
    ∧ (s.roll.rollState ≠ .noRoll → -1 ≤ s.front.newest ∧ s.holes.settled ≤ s.front.newest - 8)
    ∧ (s.roll.rollState = .playing → s.roll.planLine ≤ s.front.newest ∧ RunsAheadOfPlan s)

/-- Every run length of the map sets is at most 8 (Table 2-1). -/
def RunsBounded (s : State) : Prop :=
  ∀ (m : MapNo) (i : Fin 128),
    (s.tables.maps[m.val].columns[i.val]).openRun ≤ 8 ∧ (s.tables.maps[m.val].columns[i.val]).closeRun ≤ 8

/-- Every channel's record is in the form its state calls for (R95, R97, R100, R108, R140): an IDLE channel holds no
note and no press, a kick end belongs to KICK, a gap end to RELEASE, and the drive is full in KICK, off outside KICK and HOLD. -/
def ChannelsInForm (s : State) : Prop :=
  (∀ k, let c := s.key k
    (c.state = .idle → c.current = none ∧ c.pending = none ∧ c.target = .nothing)
      ∧ (c.kickEnd.isSome = true ↔ c.state = .kick) ∧ (c.gapEnd.isSome = true ↔ c.state = .release)
      ∧ (c.state = .kick → c.duty = 255) ∧ (c.state ≠ .kick → c.state ≠ .hold → c.duty = 0))
    ∧ (∀ p, let c := s.pedal p
      (c.state = .idle → c.current = none ∧ c.pending = none)
        ∧ (c.state = .kick → c.duty = 255) ∧ (c.state ≠ .kick → c.state ≠ .hold → c.duty = 0))

/-- At most KickSlots channels are in KICK, and nobody waits while there are fewer (R119). -/
def SlotsBounded (s : State) : Prop :=
  s.kickCount ≤ s.tables.settings.kickSlots
    ∧ (s.kickCount < s.tables.settings.kickSlots → s.waitList = [])

/-- A channel of a FAULTED drive group is IDLE, or in RELEASE with nothing pending behind it, and does not wait (R129). -/
def FaultedGroupsRest (s : State) : Prop :=
  (∀ k, s.faulted (keyGroup k) = true →
      (s.key k).state = .idle ∨ ((s.key k).state = .release ∧ (s.key k).pending = none))
    ∧ (s.faulted pedalGroup = true → ∀ p,
      (s.pedal p).state = .idle ∨ ((s.pedal p).state = .release ∧ (s.pedal p).pending = none))

/-- Every key record of a KEYS image keeps VFloor at or below VMax. -/
def floorsFit (v : Vector KeyRecord 88) : Prop := ∀ k : Key, v[k.val].vFloor ≤ v[k.val].vMax

/-- The same of a region's image, which may be a KEYS image. -/
def imageFloorsFit : RegionImage → Prop
  | .keys v => floorsFit v
  | _ => True

/-- No key's VFloor is above the smaller of VFloorMax and VMax in the working tables (R80), nor above VMax in a KEYS image that the store holds or is about to. -/
def FloorsBounded (s : State) : Prop :=
  floorsFit s.tables.keys ∧ (∀ k, (s.record k).vFloor ≤ s.tables.settings.vFloorMax)
    ∧ (∀ r, imageFloorsFit (s.region r).content)
    ∧ (∀ o copy, s.store.op = some o → o.kind = .save copy → imageFloorsFit copy)

/-! Tables: the field ranges and the cross checks of R178 -/

/-- Within a map set, no two entries hold the same function other than NONE, NR - NL is at least 64 and every entry's
centre lies within NL to NR (R21, R178). -/
def MapChecks (m : MapSet) : Prop :=
  (∀ i j : Fin 128, i ≠ j → (m.columns[i.val]).function ≠ .nothing →
      (m.columns[i.val]).function ≠ (m.columns[j.val]).function)
    ∧ m.nl + 64 ≤ m.nr ∧ ∀ i : Fin 128, m.nl ≤ (m.columns[i.val]).centre ∧ (m.columns[i.val]).centre ≤ m.nr

/-- In FORMAT, code NR - code NL is at least 64 and every code centre lies within code NL to code NR (R178). -/
def FormatChecks (f : Format) : Prop :=
  f.nl + 64 ≤ f.nr ∧ ∀ i : Fin 6, f.nl ≤ f.centres[i.val] ∧ f.centres[i.val] ≤ f.nr

/-- The velocity map never falls (R81). -/
def VelocityChecks (v : Vector Nat 33) : Prop := ∀ i : Fin 32, v[i.val]'(by omega) ≤ v[i.val + 1]'(by omega)

/-- No pedal's Lead exceeds PlanLead (R134). -/
def LeadChecks (p : Vector PedalRecord 3) (planLead : Nat) : Prop := ∀ i : Fin 3, (p[i.val]).lead ≤ planLead

/-- The cross checks of R178, step 3, on the tables as a run of a table leaves them; those of KEYS on the run's own keys. -/
def CrossChecks (w : Tables) (start count : Nat) : TableName → Prop
  | .map m => MapChecks w.maps[m.val]
  | .format => FormatChecks w.format
  | .expr _ => True
  | .velocity => VelocityChecks w.velocity
  | .keys => ∀ k : Key, start ≤ k.number → k.number < start + count →
      (w.keys[k.val]).vFloor < (w.keys[k.val]).vMax ∧ (w.keys[k.val]).vFloor ≤ w.settings.vFloorMax
  | .pedals => LeadChecks w.pedals w.settings.planLead
  | .settings => LeadChecks w.pedals w.settings.planLead
      ∧ ∀ k : Key, (w.keys[k.val]).vFloor ≤ w.settings.vFloorMax

/-- A number field lies in a range, bounds included. -/
def within (low v high : Nat) : Prop := low ≤ v ∧ v ≤ high

/-- The ranges of a map set's fields (section 2.1). -/
def MapRanges (m : MapSet) : Prop :=
  within 0 m.nl 511 ∧ within 0 m.nr 511
    ∧ ∀ i : Fin 128, let c := m.columns[i.val]
      within 1 c.width 15 ∧ within 1 c.openRun 8 ∧ within 1 c.closeRun 8

/-- The ranges of FORMAT's fields (section 2.5). -/
def FormatRanges (f : Format) : Prop :=
  within 0 f.nl 511 ∧ within 0 f.nr 511 ∧ within 1 f.width 15 ∧ within 4 f.codeLines 64 ∧ within 0 f.leaderMax 8000

/-- The ranges of an expression profile's fields (section 4.2); the treble's split key and SoftScale are zero (R176). -/
def ExprRanges (h : Half) (p : ExprProfile) : Prop :=
  (∀ i : Fin 8, within 0 p.stepTable[i.val] 1023)
    ∧ within 0 p.rateSlow 4095 ∧ within 0 p.rateFast 4095 ∧ within 0 p.rateDecay 4095 ∧ within 0 p.swellMax 1023
    ∧ within 1 p.slewRate 8191 ∧ within 0 p.accentBoost 511 ∧ within 0 p.accentReach 8
    ∧ match h with
      | .bass => within 0 p.splitKey 88 ∧ within 128 p.softScale 256
      | .treble => p.splitKey = 0 ∧ p.softScale = 0

/-- The ranges of a key record's fields (section 5.1). -/
def KeyRanges (k : KeyRecord) : Prop :=
  within 2000 k.travel 8000 ∧ within 0 k.lag 20000 ∧ within 50 k.vFloor 3000 ∧ within 100 k.vMax 6000
    ∧ within 0 k.k0 10000 ∧ within 0 k.kg 8191 ∧ within 1000 k.kickMax 30000 ∧ within 0 k.holdDuty 255
    ∧ within 0 k.releaseLead 100000 ∧ within 5000 k.repeatGap 100000 ∧ within 0 k.priority 3

/-- The ranges of a pedal record's fields but for Lead, which PlanLead bounds (section 8.1). -/
def PedalRanges (p : PedalRecord) : Prop :=
  within 1000 p.kick 60000 ∧ within 0 p.holdDuty 255 ∧ within 0 p.releaseLead 100000

/-- The ranges of the fields of SETTINGS (section 11.1). -/
def SettingsRanges (g : Settings) : Prop :=
  within 1 g.holeThreshold 15 ∧ within 1 g.edgeThreshold 15 ∧ within 0 g.maxShift 64 ∧ within 0 g.widthTol 100
    ∧ within 50 g.lpi 400 ∧ within 40000 g.planLead 250000 ∧ within 5 g.starveGrace 500 ∧ within 500 g.holdLimit 30000
    ∧ within 1 g.abandonTimeout 30 ∧ within 1 g.kickSlots 24 ∧ within 0 g.deferLimit 50000
    ∧ within 5000 g.heatLimit 200000 ∧ within 0 g.coolPerMs 1000 ∧ within 2000 g.minHold 20000
    ∧ within 0 g.catchMargin 100000 ∧ within 1000 g.senseWindow 30000 ∧ within 0 g.vStep 200
    ∧ within 300 g.vFloorMax 3000

/-- What R178 asks of a region's image: every field in its range and every cross check but that of the velocity floors. -/
def imageConsistent : RegionImage → Prop
  | .map m => MapRanges m ∧ MapChecks m
  | .format f => FormatRanges f ∧ FormatChecks f
  | .expression b t v => ExprRanges .bass b ∧ ExprRanges .treble t ∧ (∀ i : Fin 33, within 0 v[i.val] 6000) ∧ VelocityChecks v
  | .keys v => ∀ k : Key, KeyRanges v[k.val]
  | .drive p g => (∀ i : Fin 3, PedalRanges p[i.val]) ∧ SettingsRanges g ∧ LeadChecks p g.planLead

/-- The ranges and the cross checks hold of the working tables and of every image the store holds or is about to. -/
def TablesConsistent (s : State) : Prop :=
  (∀ r, imageConsistent (s.tables.image r))
    ∧ (∀ r, imageConsistent (s.region r).content)
    ∧ (∀ o copy, s.store.op = some o → o.kind = .save copy → imageConsistent copy)

/-- The fields of a table's entry at an index: each one's width in bytes and its least and greatest value (R176; sections
2.1, 2.5, 4.2, 5.1, 8.1, 11.1). The bounds that another entry gives, of centres and of a pedal's Lead, are cross checks. -/
def entryLayout : TableName → Nat → List (Nat × Nat × Nat)
  | .map _, 0 => [(2, 0, 511), (2, 0, 511), (1, 0, 0), (1, 0, 0), (1, 0, 0), (1, 0, 0)]
  | .map _, _ + 1 => [(2, 0, 65535), (1, 1, 15), (1, 1, 8), (1, 1, 8), (1, 0, 4), (1, 0, 255), (1, 0, 255)]
  | .format, 0 => [(2, 0, 511), (2, 0, 511)] ++ List.replicate 6 (2, 0, 65535)
      ++ [(1, 1, 15), (1, 4, 64), (2, 0, 8000), (1, 0, 3)]
  | .format, _ + 1 => [(1, 0, 255)]
  | .expr h, _ => List.replicate 8 (2, 0, 1023) ++ [(2, 0, 4095), (2, 0, 4095), (2, 0, 4095), (2, 0, 1023), (2, 1, 8191),
      (2, 0, 511), (1, 0, 8)] ++ (match h with
        | .bass => [(1, 0, 88), (2, 128, 256)]
        | .treble => [(1, 0, 0), (2, 0, 0)])
  | .velocity, _ => [(2, 0, 6000)]
  | .keys, _ => [(2, 2000, 8000), (2, 0, 20000), (2, 50, 3000), (2, 100, 6000), (2, 0, 10000), (2, 0, 8191),
      (2, 1000, 30000), (1, 0, 255), (3, 0, 100000), (3, 5000, 100000), (1, 0, 3), (1, 0, 1)]
  | .pedals, _ => [(3, 0, 16777215), (2, 1000, 60000), (1, 0, 255), (3, 0, 100000)]
  | .settings, _ => [(1, 1, 15), (1, 1, 15), (1, 0, 64), (1, 0, 100), (2, 50, 400), (3, 40000, 250000), (2, 5, 500),
      (2, 500, 30000), (1, 1, 30), (1, 1, 24), (2, 0, 50000), (3, 5000, 200000), (2, 0, 1000), (2, 2000, 20000),
      (3, 0, 100000), (2, 1000, 30000), (1, 0, 1), (1, 0, 200), (2, 300, 3000)]

/-- The numbers that the fields of an entry hold, each most significant byte first (R176). -/
def entryNumbers : List (Nat × Nat × Nat) → List Byte → List Nat
  | [], _ => []
  | (w, _) :: fs, bs => ofBytes (bs.take w) :: entryNumbers fs (bs.drop w)

/-- The coding of an entry (R176): a column's function class with the parameters it uses, the others zero; a set 0 to 3
or FF hex for UNKNOWN in a FORMAT code entry. -/
def codedRight : TableName → Nat → List Nat → Prop
  | .map _, _ + 1, [_, _, _, _, cls, p1, p2] =>
    ((cls = 0 ∨ cls = 4) ∧ p1 = 0 ∧ p2 = 0) ∨ (cls = 1 ∧ within 1 p1 88 ∧ p2 = 0)
      ∨ (cls = 2 ∧ p1 ≤ 1 ∧ p2 ≤ 6) ∨ (cls = 3 ∧ p1 ≤ 2 ∧ p2 = 0)
  | .format, _ + 1, [set] => set ≤ 3 ∨ set = 255
  | _, _, _ => True

/-- An entry of a table at an index, as bytes: every field lies in its range and the coding is right (R178, step 3). -/
def EntryRight (n : TableName) (i : Nat) (bs : List Byte) : Prop :=
  let vs := entryNumbers (entryLayout n i) bs
  (∀ x ∈ (entryLayout n i).zip vs, within x.1.2.1 x.2 x.1.2.2) ∧ codedRight n i vs

/-- R179: the roll state and the channels let a TABLE WRITE reach the table. KEYS, EXPR BASS, EXPR TREBLE, VELOCITY and PEDALS
are open in every roll state. -/
def TakesTable (s : State) : TableName → Prop
  | .map m => s.roll.rollState ≠ .leader
      ∧ (s.roll.rollState = .playing ∨ s.roll.rollState = .ending → s.holes.activeSet ≠ some m)
  | .format => s.roll.rollState ≠ .leader
  | .settings => s.roll.rollState = .noRoll ∧ (∀ k, (s.key k).state = .idle) ∧ ∀ p, (s.pedal p).state = .idle
  | _ => True

/-- No store operation is in flight on a region that is locked down (R182, R184). -/
def LockdownRespected (s : State) : Prop := ∀ o, s.store.op = some o → (s.region o.region).lockdown = false

end Sys2Proof.Safety
end

