-- ==== Sys2Proof/Certificates/Slice0/Obligations.lean ====
section
/-! DEFINITION. The statements for the provers, each from the rules of the manual. -/

open Sys2Proof Sys2Proof.Machine Sys2Proof.Safety

/-! Stepping, power, and when nothing happens -/

/-- A step with a command at the front of the queue is exec of that command on the state with the queue's rest. -/
def Obligations.StepRunsTheFrontCommand : Prop :=
  ∀ (c : Instr) (s : State) (rest : List Instr),
    step { s with pending := c :: rest } = exec c { s with pending := rest }

/-- With no command waiting the running card does one thing that can happen now, up to the free-value counter, and where
none can one microsecond passes; roll time advances with it exactly in PLAYING and ENDING with no hold reason (section
3.1). What can happen: the receiver takes the byte at the front of the forward lane, or an event that is due and that
R119 lets be next is posted into the queue, or, where neither can, the return lane that falls free within the
microsecond sends on. Each event of the card's own that is due is one of the due events, a store completion with the
read-back the free value gives and a frame only once its lane is free, and while there are due events one can be posted.
In reset device time runs on and every key cools at its whole multiples of 1,000, which is entry 10's. That an empty
queue does one of these things is the model's choice, entry 2, and which one a free value's, entry 3. -/
def Obligations.IdleMicrosecondMovesTheClocks : Prop :=
  (∀ s : State, s.pending = [] →
    (s.power = .running → s.idleChoices = [] →
      step s = .next { s with
        deviceTime := s.deviceTime + 1
        roll := { s.roll with
          rollTime :=
            if (s.roll.rollState = .playing ∨ s.roll.rollState = .ending)
                ∧ s.roll.operator = false ∧ s.roll.starved = false then s.roll.rollTime + 1
            else s.roll.rollTime } })
    ∧ (s.power = .running → s.idleChoices ≠ [] →
      ∃ t u, step s = .next t ∧ u ∈ s.idleChoices ∧ t = { u with freeIndex := t.freeIndex })
    ∧ (s.power = .inReset → ∃ t, step s = .next t
      ∧ (s.deviceTime < s.nextCool → t = { s with deviceTime := s.deviceTime + 1 })
      ∧ (s.nextCool ≤ s.deviceTime →
          (∀ k, t.key k = { s.key k with heat := (s.key k).heat - s.tables.settings.coolPerMs })
            ∧ t = { s with deviceTime := s.deviceTime + 1, nextCool := s.nextCool + 1000, keys := t.keys })))
  ∧ (∀ s : State,
    let posted (i : Instr) : State := { s with pending := [i], freeIndex := s.freeIndex + 1 }
    (∀ u, u ∈ s.idleChoices ↔
      (∃ b rest, s.link.forwardLane = b :: rest ∧ u = { s with
          link := { s.link with forwardLane := rest, receiver := (s.link.receiver.take b).1 }
          pending := s.pending ++ (s.link.receiver.take b).2.toList })
      ∨ (∃ i ∈ s.nextEventChoices, u = posted i)
      ∨ (s.link.forwardLane = [] ∧ s.nextEventChoices = [] ∧ s.sendDue = true ∧ u = posted .returnSend))
    ∧ (∀ i ∈ s.nextEventChoices, i ∈ s.dueEvents) ∧ (∀ i ∈ s.dueEvents, ownEventDue s i = some true)
    ∧ (∀ i, ownEventDue s i = some true → i ∈ s.dueEvents ∨ (i = .returnSend ∧ s.laneIdle = false)
      ∨ (∃ good, i = .storeSaveComplete good ∧ ∃ good', .storeSaveComplete good' ∈ s.dueEvents)
      ∨ (∃ good, i = .storeLockdownComplete good ∧ ∃ good', .storeLockdownComplete good' ∈ s.dueEvents))
    ∧ (s.dueEvents ≠ [] → s.nextEventChoices ≠ []))

/-- A command other than power, the reset line and the fault lines changes nothing while the card is off
or in reset (entry 4), and an event of the card's own changes nothing while it is not due (entry 1);
both are the model's choices. -/
def Obligations.CommandsWithoutEffect : Prop :=
  ∀ (c : Instr) (s : State),
    (s.power ≠ .running → isPowerOrLine c = false → exec c s = .next s)
      ∧ (ownEventDue s c = some false → exec c s = .next s)

/-- The values every block takes at power-on and at the release of the reset line (sections 1.2, 2.2,
2.3, 3.1, 4.1, 6.1, 7.1, 8.2, 10.3, 10.5, 10.8). That device time stands at RESET_LINE_RELEASED is entry 10's;
that POWER_ON acts on a powered card too is entry 4's. -/
def Obligations.PowerOnAndResetReleaseStartTheBlocks : Prop :=
  ∀ (s : State) (c : Instr),
    (c = .powerOn ∨ (c = .resetLineReleased ∧ s.power ≠ .off)) →
    ∃ t, exec c s = .next t
      ∧ t.power = .running ∧ t.deviceTime = (if c = .powerOn then 0 else s.deviceTime)
      ∧ t.link = ⟨[], .hunting none, some t.deviceTime, false, [], 0, none⟩
      ∧ (∀ d : Counter, t.counter d = 0)
      ∧ t.front = ⟨-1, [], none, []⟩
      ∧ t.holes.activeSet = none ∧ t.holes.debounce = [] ∧ t.holes.queue = [] ∧ t.holes.code = 0 ∧ t.holes.settled < 0
      ∧ t.roll = ⟨.noRoll, false, false, 0, 0, 0, [], -1, none, none, none⟩
      ∧ t.exprBass = ⟨false, false, false, false, false, false, false, t.tables.exprBass.stepTable[0], 0,
          t.tables.exprBass.stepTable[0] * 256, none⟩
      ∧ t.exprTreble = ⟨false, false, false, false, false, false, false, t.tables.exprTreble.stepTable[0], 0,
          t.tables.exprTreble.stepTable[0] * 256, none⟩
      ∧ t.pedalUnit = ⟨⟨false, false, false⟩, Vector.replicate 88 false, [], none⟩
      ∧ (∀ k, t.key k =
          ⟨.idle, none, none, .nothing, false, none, none, none, none, none, none, none, none, 0, 0⟩)
      ∧ (∀ p, t.pedal p = ⟨.idle, none, none, none, none, none, 0⟩)
      ∧ t.fireList = [] ∧ t.waitList = []
      ∧ (∀ g : Group, t.faulted g = s.faultLines[g.val] ∧ t.faultLines[g.val] = s.faultLines[g.val])
      ∧ t.setupLock = s.setupLock ∧ t.pending = s.pending

/-- The examination of the store at power-on and at the release of the reset line: what each region
loads, and its flags (section 11.4). A region with an operation in flight has lost it and fails its check; that
its content stands is entry 9's, and that POWER_ON or a release can meet an operation in flight is entry 4's. -/
def Obligations.PowerOnAndResetReleaseLoadTheStore : Prop :=
  ∀ (s : State) (c : Instr),
    (c = .powerOn ∨ (c = .resetLineReleased ∧ s.power ≠ .off)) →
    (∀ r, carriedBy r (s.region r).content = true) →
    ∃ t, exec c s = .next t
      ∧ (∀ r : Region, t.region r =
          { s.region r with
            checkGood := (s.region r).checkGood && !(s.store.op.map (·.region) == some r)
            storeBad := !((s.region r).checkGood && !(s.store.op.map (·.region) == some r))
            protectedFlag := true })
      ∧ t.store.lock = false ∧ t.store.op = none
      ∧ (∀ r : Region, r.val ≠ 6 →
          t.tables.image r = if (t.region r).checkGood then (s.region r).content else defaultTables.image r)
      ∧ (∀ (k : Key) (v : Vector KeyRecord 88),
          (if (t.region 6).checkGood then (s.region 6).content else defaultTables.image 6) = .keys v →
          t.record k = { v[k.val] with vFloor := min v[k.val].vFloor t.tables.settings.vFloorMax })

/-- RESET_LINE_ASSERTED on a powered card and POWER_FAIL: every drive is off, every note is dropped
uncounted, both lists and the return queue are empty, the frame on the return lane is cut off, and a
store operation in flight is lost with its region's check failing (sections 6.1, 7.2, 9.2, 10.2, 10.5, 11.4).
The Event Queue is empty too (section 2.3). That the lost region keeps its content and lockdown flag is entry 9's,
that the Lock and protected flags stand in a card without power is entry 35's, and that the pedal channels stop with
the keys at the assertion of the reset line, and not only after it, is entry 38's. -/
def Obligations.ResetAssertedAndPowerFailStopTheCard : Prop :=
  ∀ (s : State) (c : Instr),
    ((c = .resetLineAsserted ∧ s.power ≠ .off) ∨ c = .powerFail) →
    ∃ t, exec c s = .next t
      ∧ t.power = (if c = .powerFail then .off else .inReset)
      ∧ (∀ k, (t.key k).state = .idle ∧ (t.key k).current = none ∧ (t.key k).pending = none
          ∧ (t.key k).sense = none ∧ (t.key k).duty = 0)
      ∧ (∀ p, (t.pedal p).state = .idle ∧ (t.pedal p).current = none ∧ (t.pedal p).pending = none
          ∧ (t.pedal p).duty = 0)
      ∧ t.fireList = [] ∧ t.waitList = [] ∧ t.holes.queue = []
      ∧ t.link.queue = [] ∧ t.link.sending = none ∧ t.link.receiver = .hunting none
      ∧ t.store.op = none ∧ t.store.lock = s.store.lock
      ∧ (∀ r : Region, t.region r =
          { s.region r with checkGood := (s.region r).checkGood && !(s.store.op.map (·.region) == some r) })
      ∧ t.faultLines = s.faultLines ∧ t.setupLock = s.setupLock ∧ t.pending = s.pending
      ∧ (c = .resetLineAsserted → t.counters = s.counters ∧ t.tables = s.tables ∧ t.deviceTime = s.deviceTime)

/-! The link -/

/-- The Link Port's own events. A bad header or payload check: counted once, no reply, the link-alive
watch not restarted, the receiver hunting again, after a header from the byte that follows the frame's
E1 hex; that a HEADER_ERROR outside a header and any PAYLOAD_ERROR leave the receiver hunting, and that a failed
header gives its bytes back to the lane, is entry 21's. A return lane that is free within this microsecond takes
the oldest entry and sends its frame whole, back to back with a frame that ends within it, ten bit times a byte:
a start bit, the data bits from the least significant, a stop bit; after it the lane rests at the stop-bit
level. That an idle lane starts on a whole microsecond is entry 20's. A watch that has run 250 ms sets LINK LOST,
stops, and in an active roll sets abandon start (sections 10.1 to 10.5, 3.6). -/
def Obligations.LinkPortEvents : Prop :=
  ∀ s : State, s.power = .running →
    (∃ t, exec .headerError s = .next t ∧ Counted s t .headerError 1
      ∧ t.link = { s.link with
          receiver := .hunting none
          forwardLane :=
            match s.link.receiver with
            | .header got => 0x9B#8 :: got ++ s.link.forwardLane
            | _ => s.link.forwardLane }
      ∧ t = { s with link := t.link, counters := t.counters })
    ∧ (∃ t, exec .payloadError s = .next t ∧ Counted s t .payloadError 1
      ∧ t.link = { s.link with receiver := .hunting none }
      ∧ t = { s with link := t.link, counters := t.counters })
    ∧ (∀ e rest, s.link.queue = e :: rest →
        (∀ f, s.link.sending = some f → f.ends < s.deviceTime * 12 + 12) →
        let start := match s.link.sending with
          | some f => max (s.deviceTime * 12) f.ends
          | none => s.deviceTime * 12
        ∃ t, exec .returnSend s = .next t
          ∧ t = { s with link := { s.link with
              queue := rest, sending := some ⟨e.frame, start + e.frame.length * 10⟩ } }
          ∧ (∀ (i : Nat) (b : Byte), e.frame[i]? = some b →
              t.returnLevel (start + 10 * i) = false
                ∧ (∀ j, j < 8 → t.returnLevel (start + 10 * i + 1 + j) = b.getLsbD j)
                ∧ t.returnLevel (start + 10 * i + 9) = true)
          ∧ (∀ bit, start + e.frame.length * 10 ≤ bit → t.returnLevel bit = true))
    ∧ (∀ a, s.link.aliveStart = some a → a + 250000 ≤ s.deviceTime →
        exec .linkAliveExpiry s = .next { s with
          link := { s.link with linkLost := true, aliveStart := none }
          roll := { s.roll with
            abandonStart := if s.roll.rollState = .noRoll then s.roll.abandonStart else some s.deviceTime } })

/-- Every valid frame restarts the link-alive watch at the device time, one that is dropped or discarded
too; the only other commands that move the watch are its own expiry and power and the reset line (section 10.3). -/
def Obligations.ValidFramesRestartTheLinkWatch : Prop :=
  ∀ (c : Instr) (s t : State), s.power = .running → exec c s = .next t →
    (isFrame c = true → t.link.aliveStart = some s.deviceTime)
      ∧ (isFrame c = false → isPowerOrReset c = false → c ≠ .linkAliveExpiry →
          t.link.aliveStart = s.link.aliveStart)

/-- A CONTROL frame other than LINK RESET that meets 14 replies is discarded unanswered: the reply
overflow counter rises, the frame is a valid frame, and nothing else happens (section 10.4). That a frame at
exactly the end of AbandonTimeout leaves abandon start is entry 25's. -/
def Obligations.FullReplyQueueDiscardsCommands : Prop :=
  ∀ (c : Instr) (s : State), s.power = .running → isControl c = true → 14 ≤ s.replyCount →
    ∃ t, exec c s = .next t ∧ Counted s t .replyOverflow 1
      ∧ t.link = { s.link with aliveStart := some s.deviceTime }
      ∧ t.roll = { s.roll with
          abandonStart := s.roll.abandonStart.filter
            (fun a => decide (a + s.tables.settings.abandonTimeout * 1000000 ≤ s.deviceTime)) }
      ∧ t = { s with link := t.link, roll := t.roll, counters := t.counters }

/-- A frame spelled out by the layout of section 10.1 and fed to a hunting receiver byte by byte is
received as exactly the command it carries, for every well-formed command that is a valid frame, and
the receiver hunts again after it. Seven header bytes whose check does not match, whose kind is neither SCAN nor CONTROL,
or whose length is above 288 make HEADER_ERROR and no other command, and stay with the receiver for it to discard; a good
header makes no command. After a good header, a payload of its length and two bytes that are not its payload check make
PAYLOAD_ERROR and no other command. Bytes that do not complete a sync word are passed over (sections 10.1, 10.2). That the
bytes of a failed header stay with the receiver until HEADER_ERROR is entry 21's. -/
def Obligations.ReceiverReadsEveryFrame : Prop :=
  (∀ (c : Instr) (bytes : List Byte) (before : Option Byte),
    c.WellFormed = true → frameOf c = some bytes →
    receive (.hunting before) bytes = (.hunting none, [c]))
  ∧ (∀ (kind l1 l0 t2 t1 t0 check : Byte) (before : Option Byte),
    let header := [kind, l1, l0, t2, t1, t0, check]
    let good := check = crc8 [kind, l1, l0, t2, t1, t0] ∧ (kind = 0x01#8 ∨ kind = 0x02#8) ∧ l1.toNat * 256 + l0.toNat ≤ 288
    (¬good → receive (.hunting before) ([0xE1#8, 0x9B#8] ++ header) = (.header header, [.headerError]))
    ∧ (good → (receive (.hunting before) ([0xE1#8, 0x9B#8] ++ header)).2 = []
      ∧ ∀ (payload : List Byte) (high low : Byte), payload.length = l1.toNat * 256 + l0.toNat →
        high.toNat * 256 + low.toNat ≠ (crc16 payload).toNat →
        receive (.hunting before) ([0xE1#8, 0x9B#8] ++ header ++ payload ++ [high, low]) = (.hunting none, [.payloadError])))
  ∧ (∀ (before : Option Byte) (b : Byte), ¬(before = some 0xE1#8 ∧ b = 0x9B#8) →
    receive (.hunting before) [b] = (.hunting (some b), []))

/-- STATUS QUERY and COUNTERS READ with room for a reply: 25 bytes of data, the 19 of STATE content first, field by
field, with LINK LOST as it stood and then cleared; 52 bytes with every counter's value in its place and every
counter then 0; nothing else changes (sections 10.6, 10.7). -/
def Obligations.StatusAndCounterQueries : Prop :=
  ∀ (s : State) (tag : Tag), s.power = .running → s.replyCount < 14 →
    (∃ (t : State) (data : List Byte), exec (.statusQuery tag) s = .next t
      ∧ data.length = 25 ∧ data.take 19 = s.stateBytes
      ∧ (let line (n : Int) : Nat := if n < 0 then 0xFFFFFF else n.toNat % 0x1000000
        data[0]? = some (match s.roll.rollState with
          | .noRoll => 0x00#8
          | .leader => 0x01#8
          | .playing => 0x02#8
          | .ending => 0x03#8)
        ∧ data[1]? = some (BitVec.ofNat 8 ((if s.roll.operator then 1 else 0) + (if s.roll.starved then 2 else 0)))
        ∧ ofBytes ((data.drop 2).take 3) = line s.roll.planLine
        ∧ ofBytes ((data.drop 5).take 3) = line s.front.newest
        ∧ ofBytes ((data.drop 8).take 3) = line s.holes.settled
        ∧ data[11]? = some (match s.holes.activeSet with
          | some m => BitVec.ofNat 8 m.val
          | none => 0xFF#8)
        ∧ data[12]? = some (BitVec.ofNat 8 s.holes.code)
        ∧ ofBytes ((data.drop 13).take 2) = s.roll.tempo % 0x10000
        ∧ ofBytes ((data.drop 15).take 4) = s.roll.rollTime.toNat)
      ∧ data[19]? = some (BitVec.ofNat 8 ((if s.link.linkLost then 1 else 0)
          + (if s.setupLock then 2 else 0) + (if s.store.op.isSome then 4 else 0)))
      ∧ (∀ g : Group, (ofBytes ((data.drop 20).take 2)).testBit g.val = s.faulted g)
      ∧ (∀ g : Group, (ofBytes ((data.drop 22).take 2)).testBit g.val = s.faultLines[g.val])
      ∧ (∀ r : Region, (ofBytes (data.drop 24)).testBit r.val = (s.region r).storeBad)
      ∧ t = { s.validFrame with link := { s.validFrame.link with
          linkLost := false, queue := s.link.queue ++ [.reply tag (0x30#8 :: 0x00#8 :: data)] } })
    ∧ (CountersBounded s → ∃ (t : State) (data : List Byte), exec (.countersRead tag) s = .next t
      ∧ data.length = 52
      ∧ (∀ d : Counter, ofBytes ((data.drop (2 * d.place.val)).take 2) = s.counter d ∧ t.counter d = 0)
      ∧ t.link = { s.validFrame.link with queue := s.link.queue ++ [.reply tag (0x31#8 :: 0x00#8 :: data)] }
      ∧ t = { s.validFrame with link := t.link, counters := t.counters })

/-- LINK RESET in every roll state and whatever the return queue holds: the roll and the channels
stopped, the blocks at their values for it, its own reply alone in the queue; tables, store, heat, group
states, receiver and the frame being sent stand (section 10.9). -/
def Obligations.LinkResetResult : Prop :=
  ∀ (s : State) (tag : Tag), s.power = .running →
    ∃ t, exec (.linkReset tag) s = .next t ∧ ChannelsStopped s t
      ∧ t.front = ⟨-1, [], none, []⟩
      ∧ t.holes.activeSet = none ∧ t.holes.debounce = [] ∧ t.holes.queue = [] ∧ t.holes.code = 0 ∧ t.holes.settled < 0
      ∧ t.roll = ⟨.noRoll, false, false, 0, 0, 0, [], -1, none, none, none⟩
      ∧ t.exprBass = ⟨false, false, false, false, false, false, false, s.tables.exprBass.stepTable[0], 0,
          s.tables.exprBass.stepTable[0] * 256, none⟩
      ∧ t.exprTreble = ⟨false, false, false, false, false, false, false, s.tables.exprTreble.stepTable[0], 0,
          s.tables.exprTreble.stepTable[0] * 256, none⟩
      ∧ (∀ d : Counter, t.counter d = 0)
      ∧ t.link = { s.link with
          aliveStart := some s.deviceTime, linkLost := false, reportSeq := 0, queue := [.reply tag [0x50#8, 0x00#8]] }
      ∧ t = { s with
          link := t.link, counters := t.counters, front := t.front, holes := t.holes, roll := t.roll
          exprBass := t.exprBass, exprTreble := t.exprTreble, pedalUnit := t.pedalUnit, keys := t.keys
          pedals := t.pedals, fireList := t.fireList, waitList := t.waitList }

/-! Refusals -/

/-- Commands that are refused reply at once and do nothing else: unknown commands, the roll commands in
the wrong roll state, KEY TEST in its order of judgement, a bad map mode, a bad fault mask, and the
store commands in their order (sections 3.2, 3.3, 3.5, 3.6, 6.8, 7.4, 10.4, 11.4). ROLL START judged in
the wrong state before its map mode is entry 16's choice. -/
def Obligations.RefusalsOnlyReply : Prop :=
  ∀ (s : State) (tag line : Tag) (tempo velocity mask16 : BitVec 16) (mode key region mask value confirm : Byte)
    (payload : List Byte),
    s.power = .running → s.replyCount < 14 →
    let answers (c : Instr) (code : Byte) (r : ResultCode) : Prop :=
      exec c s = .next (s.validFrame.queueReply tag code r [])
    answers (.unknownCommand tag payload) (payload.headD 0x00#8) .unknown
    ∧ (s.roll.rollState ≠ .noRoll →
        answers (.rollStart tag line tempo mode) 0x10#8 .state ∧ answers (.keyTest tag key velocity) 0x33#8 .state)
    ∧ (s.roll.rollState = .noRoll →
        answers (.rollStop tag) 0x11#8 .state ∧ answers (.tempo tag line tempo) 0x14#8 .state
          ∧ (mode ≠ 0x80#8 → 4 ≤ mode.toNat → answers (.rollStart tag line tempo mode) 0x10#8 .range)
          ∧ (key.toNat = 0 ∨ 88 < key.toNat → answers (.keyTest tag key velocity) 0x33#8 .range)
          ∧ (∀ k : Key, key.toNat = k.number → (s.key k).state ≠ .idle →
              answers (.keyTest tag key velocity) 0x33#8 .busy))
    ∧ (s.roll.rollState = .noRoll ∨ s.roll.rollState = .leader → answers (.pause tag) 0x12#8 .state)
    ∧ (s.roll.operator = false → answers (.resume tag) 0x13#8 .state)
    ∧ (4096 ≤ mask16.toNat → answers (.faultClear tag mask16) 0x32#8 .range)
    ∧ (8 ≤ region.toNat →
        answers (.storeSave tag region) 0x40#8 .range ∧ answers (.storeLockdown tag region confirm) 0x44#8 .range)
    ∧ (confirm ≠ 0xA5#8 → answers (.storeLockdown tag region confirm) 0x44#8 .range)
    ∧ (∀ r : Region, region.toNat = r.val →
        (s.store.op.isSome = true → answers (.storeSave tag region) 0x40#8 .busy
          ∧ answers (.storeLockdown tag region 0xA5#8) 0x44#8 .busy)
        ∧ (s.store.op = none → (s.region r).lockdown = true → answers (.storeSave tag region) 0x40#8 .lockedDown)
        ∧ (s.store.op = none → (s.region r).lockdown = false → (s.region r).protectedFlag = true →
            answers (.storeSave tag region) 0x40#8 .isProtected)
        ∧ (s.store.op = none → s.store.lock = true → answers (.storeLockdown tag region 0xA5#8) 0x44#8 .locked)
        ∧ (s.store.op = none → s.store.lock = false → (s.region r).lockdown = true →
            answers (.storeLockdown tag region 0xA5#8) 0x44#8 .lockedDown))
    ∧ (s.store.lock = true →
        answers (.storeProtect tag mask) 0x41#8 .locked ∧ answers (.storeUnprotect tag mask) 0x42#8 .locked)
    ∧ (2 ≤ value.toNat → answers (.storeLock tag value) 0x43#8 .range)
    ∧ (s.setupLock = true → answers (.storeLock tag 0x00#8) 0x43#8 .locked)

/-! The roll: start, leader, stop -/

/-- ROLL START in NO ROLL. In map mode FIXED m it enters PLAYING at its start line with set m: the reply
first, then the reports; the records of the new roll; the key and pedal channels, tables and store
untouched, and of the link only the watch, which restarts, and the queue with its report numbers. In map mode AUTO with
LeaderMax above 0 the roll enters LEADER with the code reader cleared, with LeaderMax 0 it enters PLAYING at once with
the default set (sections 3.2, 1.2, 2.3, 2.5, 4.1, 8.2, 10.3, 10.6). -/
def Obligations.RollStartSetsUpTheRoll : Prop :=
  ∀ (s : State) (tag line : Tag) (tempo : BitVec 16),
    s.power = .running → s.replyCount < 14 → s.roll.rollState = .noRoll →
    let t0 := max 10 (min 300 tempo.toNat)
    let before := s.link.queue.filter (·.isReply)
      ++ [.reply tag [0x10#8, if 10 ≤ tempo.toNat ∧ tempo.toNat ≤ 300 then 0x00#8 else 0x01#8]]
    let setUp (t : State) : Prop :=
      t.roll.startTempo = t0 ∧ t.roll.operator = false ∧ t.roll.starved = false
        ∧ t.roll.endLine = none ∧ t.roll.starveStart = none ∧ t.roll.abandonStart = none
        ∧ t.holes.queue = [] ∧ t.holes.code = 0 ∧ t.holes.settled = (line.toNat : Int) - 9
        ∧ t.exprBass = ExprRecord.rollStart s.tables.exprBass ∧ t.exprTreble = ExprRecord.rollStart s.tables.exprTreble
        ∧ t.pedalUnit = ⟨⟨false, false, false⟩, Vector.replicate 88 false, [], none⟩
        ∧ t.link = { s.link with aliveStart := some s.deviceTime, reportSeq := t.link.reportSeq, queue := t.link.queue }
        ∧ t = { s with link := t.link, front := t.front, holes := t.holes, roll := t.roll
                       exprBass := t.exprBass, exprTreble := t.exprTreble, pedalUnit := t.pedalUnit }
    (∀ (mode : Byte) (m : MapNo), mode.toNat = m.val →
      ∃ t, exec (.rollStart tag line tempo mode) s = .next t ∧ setUp t
        ∧ EnteredPlaying t line.toNat m t0 s.link.reportSeq before t.holes.settled
        ∧ t.front = ⟨(line.toNat : Int) - 1, List.replicate 128 false, some (.map m), []⟩)
    ∧ (∃ t, exec (.rollStart tag line tempo 0x80#8) s = .next t ∧ setUp t
        ∧ t.front = ⟨(line.toNat : Int) - 1, List.replicate 6 false, some .code, []⟩
        ∧ (s.tables.format.leaderMax = 0 →
            EnteredPlaying t line.toNat s.tables.format.defaultSet t0 s.link.reportSeq before t.holes.settled)
        ∧ (s.tables.format.leaderMax ≠ 0 →
            t.roll.rollState = .leader ∧ t.roll.rollTime = 0 ∧ t.roll.tempo = t0 ∧ t.roll.schedule = []
              ∧ t.roll.planLine = -1 ∧ t.holes.activeSet = none ∧ t.holes.debounce = [] ∧ t.holes.reader = ⟨0, 0, 0⟩
              ∧ t.link.reportSeq = s.link.reportSeq + 2
              ∧ t.link.queue = before ++ [.state (s.link.reportSeq + 1) t.stateBytes,
                  .window (s.link.reportSeq + 2)
                    (lineBytes (min ((line.toNat : Int) + 2047) 16777215) ++ [0xFF#8, 0xFF#8, 0xFF#8])]))

/-- ROLL STOP in an active roll and ABANDON at its moment: every channel stopped, both lists, the Event
Queue and the schedule empty, no hold reason, NO ROLL with no active set, one STATE report; roll time,
plan line, tempo, code, newest line, heat, tables and store stand, and LINK LOST, the receiver, the forward lane and the
frame being sent (sections 3.6, 6.7, 8.5, 10.3). That one report is built for the roll state and the hold reasons
together is entry 34's. -/
def Obligations.RollStopAndAbandonStopTheRoll : Prop :=
  ∀ (s : State) (tag : Tag), s.power = .running → s.roll.rollState ≠ .noRoll →
    let Stops (t : State) (queue : List ReturnEntry) : Prop :=
      ChannelsStopped s t
        ∧ t.roll = { s.roll with
            rollState := .noRoll, operator := false, starved := false, schedule := [], endLine := none
            starveStart := none, abandonStart := none }
        ∧ t.holes = { s.holes with activeSet := none, debounce := [], queue := [] }
        ∧ t.link.reportSeq = s.link.reportSeq + 1
        ∧ t.link.queue = queue.filter (fun e => !e.isState) ++ [.state (s.link.reportSeq + 1) t.stateBytes]
        ∧ t = { s with
            link := t.link, counters := t.counters, holes := t.holes, roll := t.roll, pedalUnit := t.pedalUnit
            keys := t.keys, pedals := t.pedals, fireList := t.fireList, waitList := t.waitList }
    (s.replyCount < 14 → ∃ t, exec (.rollStop tag) s = .next t
      ∧ Stops t (s.link.queue ++ [.reply tag [0x11#8, 0x00#8]]) ∧ t.counters = s.counters
      ∧ t.link = { s.link with aliveStart := some s.deviceTime, reportSeq := t.link.reportSeq, queue := t.link.queue })
    ∧ (∀ a, s.roll.abandonStart = some a → a + s.tables.settings.abandonTimeout * 1000000 ≤ s.deviceTime →
        ∃ t, exec .abandon s = .next t ∧ Stops t s.link.queue ∧ Counted s t .abandoned 1
          ∧ t.link = { s.link with reportSeq := t.link.reportSeq, queue := t.link.queue })

/-! Holding the clock, tempo -/

/-- PAUSE in PLAYING and ENDING, and RESUME with OPERATOR present: OPERATOR joins or leaves the hold
reasons and a STATE report follows; where it was there already PAUSE only replies; where STARVED does
not hold the clock anyway, PAUSE starts the hold-limit watches with it and RESUME removes those that
have not expired. STARVE_EPISODE_START at the moment the next line's plan moment is reached unsettled, and
STARVE_HOLD once StarveGrace has passed with the episode open (sections 3.5, 10.5). -/
def Obligations.HoldReasonsComeAndGo : Prop :=
  (
    ∀ (s : State) (tag : Tag), s.power = .running → s.replyCount < 14 →
      let p := s.validFrame.queueReply tag 0x12#8 .done []
      let r := s.validFrame.queueReply tag 0x13#8 .done []
      ((s.roll.rollState = .playing ∨ s.roll.rollState = .ending) →
        (s.roll.operator = true → exec (.pause tag) s = .next p)
        ∧ (s.roll.operator = false → s.roll.starved = true →
            exec (.pause tag) s = .next (State.queueState { p with roll := { p.roll with operator := true } }))
        ∧ (s.roll.operator = false → s.roll.starved = false →
            ∃ t, exec (.pause tag) s = .next t ∧ WatchesStarted s t
              ∧ t = { State.queueState { p with roll := { p.roll with operator := true } } with keys := t.keys }))
      ∧ (s.roll.operator = true →
        (s.roll.starved = true →
            exec (.resume tag) s = .next (State.queueState { r with roll := { r.roll with operator := false } }))
        ∧ (s.roll.starved = false →
            ∃ t, exec (.resume tag) s = .next t ∧ WatchesRemoved s t
              ∧ t = { State.queueState { r with roll := { r.roll with operator := false } } with keys := t.keys })))
  ∧ (
    ∀ s : State, s.power = .running → s.roll.rollState = .playing →
      (s.roll.starveStart = none → s.holes.settled < (s.nextLine : Int) → s.planReached s.nextLine = true →
          exec .starveEpisodeStart s = .next { s with roll := { s.roll with starveStart := some s.deviceTime } })
      ∧ (∀ a, s.roll.starveStart = some a → s.roll.starved = false →
          a + s.tables.settings.starveGrace * 1000 ≤ s.deviceTime →
          ∃ t, exec .starveHold s = .next t ∧ Counted s t .starveHold 1
            ∧ t.roll = { s.roll with starved := true }
            ∧ (s.roll.operator = false → WatchesStarted s t) ∧ (s.roll.operator = true → t.keys = s.keys)
            ∧ t.link = { s.link with
                reportSeq := s.link.reportSeq + 1
                queue := s.link.queue.filter (fun e => !e.isState)
                  ++ [.state (s.link.reportSeq + 1) t.stateBytes] }
            ∧ t = { s with link := t.link, counters := t.counters, roll := t.roll, keys := t.keys }))

/-- R49 whole: in LEADER a TEMPO replaces the start tempo and the reported tempo by its own, clamped to 10
to 300, with CLAMPED when it was and DONE otherwise, whatever its line; in NO ROLL it is refused with STATE. -/
def Obligations.TempoInLeaderAndNoRoll : Prop :=
  ∀ (s : State) (tag line : Tag) (tempo : BitVec 16), s.power = .running → s.replyCount < 14 →
    (s.roll.rollState = .leader →
      exec (.tempo tag line tempo) s = .next (
        let r := s.validFrame.queueReply tag 0x14#8
          (if tempo.toNat < 10 ∨ 300 < tempo.toNat then .clamped else .done) []
        { r with roll := { r.roll with
            startTempo := max 10 (min 300 tempo.toNat), tempo := max 10 (min 300 tempo.toNat) } }))
    ∧ (s.roll.rollState = .noRoll →
      exec (.tempo tag line tempo) s = .next (s.validFrame.queueReply tag 0x14#8 .state []))

/-- TEMPO in PLAYING and ENDING: an effective line at or below the plan line is raised to the one above
it, the tempo is clamped, the segments from the effective line on give way to one that starts there at
the due time that line had, a ninth segment is refused with BUSY. A starve episode that is open goes on while
the next line's plan moment is reached under the new schedule, and ends otherwise, STARVED leaving the hold
reasons with a STATE report if it was there; nothing else changes (sections 3.3, 3.5). -/
def Obligations.TempoInPlaying : Prop :=
  ∀ (s : State) (tag line : Tag) (tempo : BitVec 16), s.power = .running → s.replyCount < 14 →
    (s.roll.rollState = .playing ∨ s.roll.rollState = .ending) → -1 ≤ s.roll.planLine →
    let e : Nat := if (line.toNat : Int) ≤ s.roll.planLine then (s.roll.planLine + 1).toNat else line.toNat
    let t0 := max 10 (min 300 tempo.toNat)
    let next := s.roll.schedule.filter (fun g => decide (g.origin < e)) ++ [⟨e, s.due e, t0⟩]
    let r : State := s.validFrame.queueReply tag 0x14#8
      (if (line.toNat : Int) ≤ s.roll.planLine ∨ tempo.toNat < 10 ∨ 300 < tempo.toNat then .clamped else .done) []
    let u : State := { r with roll := { r.roll with schedule := next, tempo := (next.headD ⟨0, 0, 0⟩).tempo } }
    let closed : State := { u with roll := { u.roll with starveStart := none } }
    (8 < next.length → exec (.tempo tag line tempo) s = .next (s.validFrame.queueReply tag 0x14#8 .busy []))
    ∧ (next.length ≤ 8 →
        (s.roll.starveStart = none ∨ u.planReached (s.roll.planLine + 1).toNat = true →
            exec (.tempo tag line tempo) s = .next u)
        ∧ (s.roll.starveStart.isSome = true → u.planReached (s.roll.planLine + 1).toNat = false →
            (s.roll.starved = false → exec (.tempo tag line tempo) s = .next closed)
            ∧ (s.roll.starved = true → ∃ t, exec (.tempo tag line tempo) s = .next t
                ∧ (s.roll.operator = true → t.keys = s.keys) ∧ (s.roll.operator = false → WatchesRemoved s t)
                ∧ t = { State.queueState { closed with roll := { closed.roll with starved := false } } with
                    keys := t.keys })))

/-- The due time of a line is the origin time of the segment that governs it, the one with the last origin at or before
it, and the exact time from that origin rounded half up, modulo 2^32. Within one segment the due times advance: each
step is the exact line spacing rounded down or that plus one, so at least 416 microseconds, and the line period is the
step from the origin (section 3.3). The rule's own "the line period or one more" fails where the spacing rounds up,
as its worked example shows: entry 29. -/
def Obligations.DueTimesAdvance : Prop :=
  (∀ (s : State) (g : Segment) (n : Nat),
    s.roll.schedule.Pairwise (fun a b => a.origin < b.origin) → g ∈ s.roll.schedule → g.origin ≤ n →
    (∀ h ∈ s.roll.schedule, g.origin < h.origin → n < h.origin) →
    let lpi := s.tables.settings.lpi
    let rounded (lines : Nat) : Nat := (lines * 100000000 + g.tempo * lpi) / (2 * g.tempo * lpi)
    s.due n = g.time + BitVec.ofNat 32 (rounded (n - g.origin)) ∧ s.period n = rounded 1)
  ∧ (∀ lpi tempo n : Nat, 50 ≤ lpi → lpi ≤ 400 → 10 ≤ tempo → tempo ≤ 300 →
    let step := lineOffset lpi tempo (n + 1) - lineOffset lpi tempo n
    50000000 / (tempo * lpi) ≤ step ∧ step ≤ 50000000 / (tempo * lpi) + 1 ∧ 416 ≤ step
      ∧ lineOffset lpi tempo n < lineOffset lpi tempo (n + 1)
      ∧ linePeriod lpi tempo = lineOffset lpi tempo 1 - lineOffset lpi tempo 0
      ∧ 417 ≤ linePeriod lpi tempo ∧ linePeriod lpi tempo ≤ 100000)

/-- ROLL_END in ENDING with every channel IDLE and the end line due: NO ROLL with no hold reason, no
active set, the Capture Set empty, and a STATE report of both changes; roll time, plan line, tempo, code
and the planned pedal states stand (section 3.6). -/
def Obligations.RollEndReachesNoRoll : Prop :=
  ∀ (s : State) (n : Nat), s.power = .running → s.roll.rollState = .ending → s.roll.endLine = some n →
    reached s.roll.rollTime (s.due n) = true →
    (∀ k, (s.key k).state = .idle) → (∀ p, (s.pedal p).state = .idle) →
    ∃ t, exec .rollEnd s = .next t
      ∧ t.roll = { s.roll with
          rollState := .noRoll, operator := false, starved := false, schedule := [], endLine := none
          starveStart := none, abandonStart := none }
      ∧ t.holes = { s.holes with activeSet := none, debounce := [], queue := [] }
      ∧ t.pedalUnit = { s.pedalUnit with capture := [], window := none }
      ∧ (∀ k, t.key k = { s.key k with holdWatch := (t.key k).holdWatch })
      ∧ t.link = { s.link with
          reportSeq := s.link.reportSeq + 1
          queue := s.link.queue.filter (fun e => !e.isState) ++ [.state (s.link.reportSeq + 1) t.stateBytes] }
      ∧ t = { s with link := t.link, holes := t.holes, roll := t.roll, pedalUnit := t.pedalUnit, keys := t.keys }

/-! Scan lines and hole events -/

/-- A valid SCAN frame that is dropped is counted once and changes nothing else: in NO ROLL as stale; in an active roll
for its width, then as stale at or below the newest line, then as overrun above the window top. One inside the window is
taken: the newest line becomes its line, every line of the gap is counted missing, the settled line moves by the whole
step, and no note, pedal, table or store record changes but for hold-limit watches removed when a starve hold ends, nor
LINK LOST, the receiver, the forward lane or the frame being sent. In PLAYING and ENDING the timeline stands but for an
episode that ends, since the next line's plan moment is later than roll time, and for the abandon start that any valid
frame may end; the return queue moves only by the STATE report of a lifted STARVED; and only the counters of missing
lines, event overflows and registration move (sections 1.1 to 1.4, 2.3, 3.5, 3.6, 10.3). That an episode ends by the
plan moment alone is entry 14's. -/
def Obligations.ScanFramesDroppedOrTaken : Prop :=
  (
    ∀ (s : State) (line : Tag) (payload : List Byte), s.power = .running →
      let top : Int := (if s.roll.rollState = .leader then s.front.newest else s.roll.planLine) + 2048
      let drops (c : Counter) : Prop :=
        ∃ t, exec (.scanFrame line payload) s = .next t ∧ Counted s t c 1
          ∧ t = { s.validFrame with counters := t.counters }
      (s.roll.rollState = .noRoll → drops .staleLine)
      ∧ (s.roll.rollState ≠ .noRoll → payload.length ≠ 256 → drops .widthMismatch)
      ∧ (s.roll.rollState ≠ .noRoll → payload.length = 256 → (line.toNat : Int) ≤ s.front.newest → drops .staleLine)
      ∧ (s.roll.rollState ≠ .noRoll → payload.length = 256 → s.front.newest < (line.toNat : Int) →
          top < (line.toNat : Int) → drops .overrun))
  ∧ (
    ∀ (s : State) (line : Tag) (payload : List Byte), s.power = .running →
      s.roll.rollState ≠ .noRoll → (s.roll.rollState ≠ .leader → s.holes.activeSet.isSome = true) →
      -1 ≤ s.front.newest → payload.length = 256 → s.front.newest < (line.toNat : Int) →
      (line.toNat : Int) ≤ (if s.roll.rollState = .leader then s.front.newest else s.roll.planLine) + 2048 →
      s.counter .missingLine ≤ 65535 →
      ∃ t, exec (.scanFrame line payload) s = .next t
        ∧ t.front.newest = (line.toNat : Int) ∧ t.holes.settled = (line.toNat : Int) - 8
        ∧ (t.counter .missingLine : Int)
            = min 65535 ((s.counter .missingLine : Int) + ((line.toNat : Int) - s.front.newest - 1))
        ∧ t.counter .staleLine = s.counter .staleLine ∧ t.counter .overrun = s.counter .overrun
        ∧ (∀ k, t.key k = { s.key k with holdWatch := (t.key k).holdWatch })
        ∧ t.link = { s.link with aliveStart := some s.deviceTime, reportSeq := t.link.reportSeq, queue := t.link.queue }
        ∧ (s.roll.rollState ≠ .leader →
            EpisodeLeft s.validFrame t (s.roll.starveStart.isSome = true ∧ s.planReached s.nextLine = false)
            ∧ ∀ d : Counter, d ≠ .missingLine → d ≠ .eventOverflow → d ≠ .edgeLost → d ≠ .shiftLimited →
                d ≠ .widthLimited → t.counter d = s.counter d)
        ∧ t = { s with link := t.link, counters := t.counters, front := t.front, holes := t.holes, roll := t.roll
                       keys := t.keys })

/-- The next line of a roll in PLAYING, taken from its own pixels: the edge history, the registered samples of the
active set, the events they make, the held samples and the counters of registration; a line whose events do not fit is
counted and read again as a copy of the line before. A frame that leaves a gap is taken as it would be after the first
line of the gap, filled and counted missing, with the held samples where they are the active set's own and all closed
where they are not. In ENDING lines are taken and filled without touching the debounce records or the Event Queue. Once
the arrival is processed the queue holds the events whose line is not yet planned (sections 1.2 to 1.4, 2.2, 2.3). That
an event inserted for a line planned already, which section 2.6 rules out and a line refused twice can bring about, is
then no longer in it, is entry 37's. -/
def Obligations.PlayingLineMakesItsEvents : Prop :=
  ∀ (s : State) (line : Tag) (payload : List Byte) (m : MapNo), s.power = .running →
    s.holes.activeSet = some m → payload.length = 256 → (line.toNat : Int) ≤ s.roll.planLine + 2048 →
    -1 ≤ s.front.newest →
    let g := s.tables.settings
    let plan := s.tables.columnPlan (.map m)
    let cols := s.tables.maps[m.val].columns.toList
    let pass (xs : List Bool) (n : Nat) : Option HoleRecognizer :=
      let r := debounceLine 1 cols s.holes.debounce xs n
      (offerEvents s.holes.queue r.2).map fun q => { s.holes with debounce := r.1, queue := q }
    let toPlan (q : List HoleEvent) : List HoleEvent := q.filter (fun e => decide (s.roll.planLine < (e.line : Int)))
    let edges := match findEdges g.edgeThreshold (pixelsOf payload) with
      | some pair => appendEdge s.front.edges pair
      | none => s.front.edges
    let tr := registration plan.nl plan.nr g.maxShift g.widthTol edges
    let samples := plan.sample tr g.holeThreshold (pixelsOf payload)
    let copy := if s.front.heldSet = some (.map m) then s.front.heldSamples else List.replicate 128 false
    let registers (d : Counter) : Bool := (d == .edgeLost && (findEdges g.edgeThreshold (pixelsOf payload)).isNone)
      || (d == .shiftLimited && tr.shiftLimited) || (d == .widthLimited && tr.widthLimited)
    (s.roll.rollState = .playing → (line.toNat : Int) = s.front.newest + 1 →
      ∃ t, exec (.scanFrame line payload) s = .next t
        ∧ t.front.newest = (line.toNat : Int) ∧ t.front.edges = edges
        ∧ (∀ h, pass samples line.toNat = some h →
            t.holes.debounce = h.debounce ∧ t.holes.queue = toPlan h.queue
              ∧ t.front.heldSamples = samples ∧ t.front.heldSet = some (.map m)
              ∧ t.counter .eventOverflow = s.counter .eventOverflow)
        ∧ (pass samples line.toNat = none →
            t.front.heldSamples = s.front.heldSamples ∧ t.front.heldSet = s.front.heldSet
              ∧ t.counter .eventOverflow = min 65535 (s.counter .eventOverflow + 1)
              ∧ (∀ h, pass copy line.toNat = some h →
                  t.holes.debounce = h.debounce ∧ t.holes.queue = toPlan h.queue)
              ∧ (pass copy line.toNat = none →
                  t.holes.debounce = s.holes.debounce ∧ t.holes.queue = toPlan s.holes.queue))
        ∧ (∀ d : Counter, d ≠ .eventOverflow → t.counter d = (if registers d then min 65535 (s.counter d + 1) else s.counter d))
        ∧ t.holes = { s.holes with
            settled := (line.toNat : Int) - 8, debounce := t.holes.debounce, queue := t.holes.queue }
        ∧ t.roll.rollState = .playing)
    ∧ (s.roll.rollState = .playing → s.front.newest + 1 < (line.toNat : Int) →
      let n := (s.front.newest + 1).toNat
      let filled (u : State) : Prop :=
        u = { s with holes := u.holes, front := u.front, counters := u.counters }
          ∧ (∀ h, pass copy n = some h →
              u.holes = h ∧ u.front = { s.front with newest := n, heldSamples := copy, heldSet := some (.map m) }
                ∧ Counted s u .missingLine 1)
          ∧ (pass copy n = none →
              u.holes = s.holes ∧ u.front = { s.front with newest := n }
                ∧ (∀ d : Counter, u.counter d = if d = .missingLine ∨ d = .eventOverflow
                    then min 65535 (s.counter d + 1) else s.counter d))
      ∃ u, filled u ∧ exec (.scanFrame line payload) s = exec (.scanFrame line payload) u)
    ∧ (s.roll.rollState = .ending → s.front.newest < (line.toNat : Int) →
      ∃ t, exec (.scanFrame line payload) s = .next t
        ∧ t.holes = { s.holes with settled := (line.toNat : Int) - 8 }
        ∧ t.front = ⟨(line.toNat : Int), samples, some (.map m), edges⟩
        ∧ (∀ d : Counter, d ≠ .missingLine → t.counter d = (if registers d then min 65535 (s.counter d + 1) else s.counter d))
        ∧ t.roll.rollState = .ending)

/-- The next line of a leader: the line's edges join the edge history or count as lost, its clamps are counted, its
samples are held for the code columns; the code reader moves by the line's code, bit i for code column i; a code that
has run CodeLines lines settles and chooses the map set, else LeaderMax lines without one choose the default set and
code 0, else the leader goes on. A frame that leaves a gap is taken as it would be after the first line of the gap,
filled and counted missing, which carries the held samples where they are the code columns' own and is all closed where
they are not, and moves the code reader and can end the leader in the same way. LEADER_MAX_EXPIRY on a leader that
stands at LeaderMax does the same from the line after the newest. LINK LOST, the receiver, the forward lane and the
frame being sent stand (sections 1.2 to 1.4, 2.5, 10.3). A STATE report built by a line that ends the leader still shows
the settled line of before its arrival: entry 11. That LeaderMax reached by a line acts inside SCAN_FRAME, and
LEADER_MAX_EXPIRY only on a leader that still stands there, is entry 12's. -/
def Obligations.LeaderLineAndLeaderMax : Prop :=
  (
    ∀ (s : State) (line : Tag) (payload : List Byte), s.power = .running →
      s.roll.rollState = .leader → s.roll.starveStart = none → payload.length = 256 →
      (line.toNat : Int) = s.front.newest + 1 →
      let g := s.tables.settings
      let f := s.tables.format
      let plan := s.tables.columnPlan .code
      let edges := match findEdges g.edgeThreshold (pixelsOf payload) with
        | some pair => appendEdge s.front.edges pair
        | none => s.front.edges
      let tr := registration plan.nl plan.nr g.maxShift g.widthTol edges
      let samples := plan.sample tr g.holeThreshold (pixelsOf payload)
      let code := bitsToNat samples
      let run := if code = 0 then 0 else if code = s.holes.reader.lastCode then s.holes.reader.codeRun + 1 else 1
      let read := s.holes.reader.linesRead + 1
      let settles := code ≠ 0 ∧ f.codeLines ≤ run
      ∃ t, exec (.scanFrame line payload) s = .next t
        ∧ t.holes.reader = ⟨code, run, read⟩ ∧ t.front = ⟨(line.toNat : Int), samples, some .code, edges⟩
        ∧ (∀ d : Counter, t.counter d =
            if (d = .edgeLost ∧ findEdges g.edgeThreshold (pixelsOf payload) = none)
              ∨ (d = .shiftLimited ∧ tr.shiftLimited = true) ∨ (d = .widthLimited ∧ tr.widthLimited = true)
            then min 65535 (s.counter d + 1) else s.counter d)
        ∧ t.link = { s.link with aliveStart := some s.deviceTime, reportSeq := t.link.reportSeq, queue := t.link.queue }
        ∧ t.holes = { s.holes with
            settled := (line.toNat : Int) - 8, reader := t.holes.reader, code := t.holes.code
            activeSet := t.holes.activeSet, debounce := t.holes.debounce, queue := t.holes.queue }
        ∧ t.holes.queue = (if t.roll.rollState = .leader then s.holes.queue
            else s.holes.queue.filter (fun e => decide (line.toNat < e.line)))
        ∧ t = { s with link := t.link, counters := t.counters, front := t.front, holes := t.holes, roll := t.roll }
        ∧ (settles →
            EnteredPlaying t (line.toNat + 1)
                (match f.codes[code]? with
                  | some (some m) => m
                  | _ => f.defaultSet) s.roll.startTempo s.link.reportSeq (s.link.queue.filter (·.isReply)) s.holes.settled
              ∧ t.holes.code = code)
        ∧ (¬settles → f.leaderMax ≤ read →
            EnteredPlaying t (line.toNat + 1) f.defaultSet s.roll.startTempo s.link.reportSeq
                (s.link.queue.filter (·.isReply)) s.holes.settled
              ∧ t.holes.code = 0)
        ∧ (¬settles → read < f.leaderMax →
            t.roll = s.validFrame.roll ∧ t.link = s.validFrame.link
              ∧ t.holes = { s.holes with settled := (line.toNat : Int) - 8, reader := t.holes.reader }))
  ∧ (
    ∀ (s : State) (line : Tag) (payload : List Byte), s.power = .running →
      s.roll.rollState = .leader → payload.length = 256 → -1 ≤ s.front.newest →
      s.front.newest + 1 < (line.toNat : Int) → (line.toNat : Int) ≤ s.front.newest + 2048 →
      let f := s.tables.format
      let n := (s.front.newest + 1).toNat
      let copy := if s.front.heldSet = some .code then s.front.heldSamples else List.replicate 6 false
      let code := bitsToNat copy
      let run := if code = 0 then 0 else if code = s.holes.reader.lastCode then s.holes.reader.codeRun + 1 else 1
      let read := s.holes.reader.linesRead + 1
      let settles := code ≠ 0 ∧ f.codeLines ≤ run
      let filled (u : State) : Prop :=
        Counted s u .missingLine 1 ∧ u.front = { s.front with newest := n, heldSamples := copy, heldSet := some .code }
          ∧ u.holes.reader = ⟨code, run, read⟩
          ∧ u.holes = { s.holes with
              reader := u.holes.reader, code := u.holes.code, activeSet := u.holes.activeSet, debounce := u.holes.debounce }
          ∧ u.link = { s.link with reportSeq := u.link.reportSeq, queue := u.link.queue }
          ∧ u = { s with counters := u.counters, front := u.front, holes := u.holes, roll := u.roll, link := u.link }
          ∧ (settles →
              EnteredPlaying u (n + 1)
                  (match f.codes[code]? with
                    | some (some m) => m
                    | _ => f.defaultSet) s.roll.startTempo s.link.reportSeq (s.link.queue.filter (·.isReply)) s.holes.settled
                ∧ u.holes.code = code)
          ∧ (¬settles → f.leaderMax ≤ read →
              EnteredPlaying u (n + 1) f.defaultSet s.roll.startTempo s.link.reportSeq (s.link.queue.filter (·.isReply))
                  s.holes.settled
                ∧ u.holes.code = 0)
          ∧ (¬settles → read < f.leaderMax →
              u.roll = s.roll ∧ u.link = s.link ∧ u.holes = { s.holes with reader := u.holes.reader })
      ∃ u, filled u ∧ exec (.scanFrame line payload) s = exec (.scanFrame line payload) u)
  ∧ (
    ∀ s : State, s.power = .running → s.roll.rollState = .leader → -1 ≤ s.front.newest →
      s.tables.format.leaderMax ≤ s.holes.reader.linesRead →
      ∃ t, exec .leaderMaxExpiry s = .next t
        ∧ EnteredPlaying t (s.front.newest + 1).toNat s.tables.format.defaultSet s.roll.startTempo s.link.reportSeq
            (s.link.queue.filter (·.isReply)) s.holes.settled
        ∧ t.holes = { s.holes with code := 0, activeSet := t.holes.activeSet, debounce := t.holes.debounce }
        ∧ t.link = { s.link with reportSeq := t.link.reportSeq, queue := t.link.queue }
        ∧ t = { s with link := t.link, holes := t.holes, roll := t.roll })

/-- One debounce record on one line: a sample equal to the reported state clears the run; a differing one
grows it or starts it on this line; a run that has reached the entry's run length makes one event, dated
to the line where the run began, and flips the reported state. On a line every record is updated by its own
column's sample, and the events made stand in entry order, an entry without a function making none. Events offered
to the Event Queue go in all together, each at its place in the order of section 2.3, when there is room for all
of them up to 1024, and otherwise not at all (sections 2.2, 2.3). -/
def Obligations.DebounceAndEventQueue : Prop :=
  (
    ∀ (c : Column) (d : Debounce) (x : Bool) (n : Nat),
      let start := (d.run.map (·.start)).getD n
      let length := (d.run.map (·.length)).getD 0 + 1
      let need := if x then c.openRun else c.closeRun
      (c.function = .nothing → Debounce.update c d x n = (d, none))
      ∧ (c.function ≠ .nothing →
          (x = d.reportedOpen → Debounce.update c d x n = (⟨d.reportedOpen, none⟩, none))
          ∧ (x ≠ d.reportedOpen → length < need →
              Debounce.update c d x n = (⟨d.reportedOpen, some ⟨start, length⟩⟩, none))
          ∧ (x ≠ d.reportedOpen → need ≤ length →
              Debounce.update c d x n = (⟨x, none⟩, some (start, if x then .opens else .closes)))))
  ∧ (
    ∀ (first n : Nat) (cols : List Column) (ds : List Debounce) (xs : List Bool),
      cols.length = ds.length → xs.length = ds.length →
      let r := debounceLine first cols ds xs n
      let records := cols.zip (ds.zip xs)
      r.1 = records.map (fun a => (Debounce.update a.1 a.2.1 a.2.2 n).1)
      ∧ r.2 = records.zipIdx.filterMap (fun a =>
          (Debounce.update a.1.1 a.1.2.1 a.1.2.2 n).2.map (fun e => ⟨e.1, first + a.2, a.1.1.function, e.2⟩)))
  ∧ (
    ∀ q es : List HoleEvent, q.Pairwise (fun a b => b.before a = false) →
      (q.length + es.length ≤ 1024 → ∃ q', offerEvents q es = some q'
        ∧ q'.Perm (q ++ es) ∧ q'.Pairwise (fun a b => b.before a = false))
      ∧ (1024 < q.length + es.length → offerEvents q es = none))

/-- The registration transform keeps to its clamps for every edge history, flags exactly the lines on
which a clamp changed the value, takes the nominal edges for an empty history, and places every column at Lc
plus its share of Wc rounded half up, so that one at the nominal left edge lands on Lc and one at the nominal
right edge on Lc + Wc (section 1.4). -/
def Obligations.RegistrationKeepsItsClamps : Prop :=
  ∀ (nl nr maxShift widthTol : Nat) (edges : List (Nat × Nat)), nl + 64 ≤ nr →
    let tr := registration nl nr maxShift widthTol edges
    let nw : Int := (nr : Int) - nl
    let lavg : Int := ((2 * (edges.map (·.1)).sum + edges.length) / (2 * edges.length) : Nat)
    let ravg : Int := ((2 * (edges.map (·.2)).sum + edges.length) / (2 * edges.length) : Nat)
    (edges = [] → tr.lc = nl ∧ tr.wc = nw ∧ tr.shiftLimited = false ∧ tr.widthLimited = false)
    ∧ (edges ≠ [] →
        tr.lc = max ((nl : Int) - maxShift) (min ((nl : Int) + maxShift) lavg)
          ∧ tr.wc = max (nw - nw * widthTol / 1000) (min (nw + nw * widthTol / 1000) (ravg - lavg))
          ∧ (tr.shiftLimited = true ↔ maxShift < (lavg - nl).natAbs)
          ∧ (tr.widthLimited = true ↔ nw * widthTol / 1000 < ((ravg - lavg) - nw).natAbs))
    ∧ (∀ c : Nat, let share := tr.place nl nr c - tr.lc
        2 * nw * share ≤ 2 * ((c : Int) - nl) * tr.wc + nw
          ∧ 2 * ((c : Int) - nl) * tr.wc + nw < 2 * nw * (share + 1))
    ∧ tr.place nl nr nl = tr.lc ∧ tr.place nl nr nr = tr.lc + tr.wc

/-- What a line's pixels say: pixel 2j in the high half of byte j and pixel 2j + 1 in the low half; the edge
pair, which is the lowest and the highest pixel below the edge threshold when they stand at least 64 apart, and
nothing otherwise; the edge history, which keeps the last eight pairs; and a column, open when at least half of
its window's pixels, rounded up, are on the line and at or above the hole threshold (sections 1.1, 1.3, 1.4). -/
def Obligations.PixelsEdgesAndColumns : Prop :=
  (∀ (payload : List Byte) (j : Nat) (b : Byte), payload[j]? = some b →
      (pixelsOf payload)[2 * j]? = some (b.toNat / 16) ∧ (pixelsOf payload)[2 * j + 1]? = some (b.toNat % 16)
        ∧ (pixelsOf payload).length = 2 * payload.length)
  ∧ (∀ (threshold : Nat) (px : List Nat) (l r : Nat),
      let dark (i : Nat) : Prop := ∃ x, px[i]? = some x ∧ x < threshold
      findEdges threshold px = some (l, r) ↔
        l + 64 ≤ r ∧ dark l ∧ dark r ∧ ∀ i, dark i → l ≤ i ∧ i ≤ r)
  ∧ (∀ (edges : List (Nat × Nat)) (pair : Nat × Nat),
      (edges.length < 8 → appendEdge edges pair = edges ++ [pair])
        ∧ (edges.length = 8 → appendEdge edges pair = edges.drop 1 ++ [pair]))
  ∧ (∀ (px : List Nat) (threshold w : Nat) (pos : Int),
      let bright (j : Nat) : Prop :=
        ∃ i x : Nat, (i : Int) = pos - ((w - 1) / 2 : Nat) + j ∧ px[i]? = some x ∧ threshold ≤ x
      columnOpen px threshold pos w = true ↔ (w + 1) / 2 ≤ { j : Nat | j < w ∧ bright j }.ncard)

/-! Planning a line -/

/-- PLAN_LINE at its moment: the line's events leave the head of the queue in its order; both expression records are
computed with them, then the Pedal Unit and the Strike Planner take them, the plan line advances by one, the schedule's
head goes when the line is the second segment's origin and the tempo follows, a starve episode ends unless the line
after is reached too, a WINDOW report is built at a multiple of 64, and an ENDMARK OPEN brings ENDING with an empty
queue and a STATE report; what the close of the roll does to the channels is said by EndMarkClosesTheRoll; the paper
records, the tables and the store are untouched (sections 3.3 to 3.6, 2.3, 4.3, 10.6). That the STATE report of a lifted
STARVED comes before the WINDOW report of its line, and the one of ENDING after it, is entry 15's, and when an episode
ends entry 14's. -/
def Obligations.PlanLinePlansTheNextLine : Prop :=
  ∀ s : State, s.power = .running → s.roll.rollState = .playing → -1 ≤ s.roll.planLine →
    (s.nextLine : Int) ≤ s.holes.settled → s.planReached s.nextLine = true →
    let n := s.nextLine
    let es := s.holes.queue.takeWhile (fun e => e.line == n)
    let rest := s.holes.queue.dropWhile (fun e => e.line == n)
    let ends := ∃ e ∈ es, e.function = .endMark ∧ e.kind = .opens
    let schedule := match s.roll.schedule with
      | a :: b :: rest => if b.origin = n then b :: rest else a :: b :: rest
      | l => l
    let moved : State := { s with roll := { s.roll with planLine := n, schedule := schedule } }
    let starves := moved.planReached (n + 1) = true
    let lifts := s.roll.starveStart.isSome = true ∧ s.roll.starved = true ∧ ¬starves
    let u : State := (State.planPedals { s with
      holes := { s.holes with queue := rest }
      exprBass := (s.exprBass.applyEvents .bass es).compute s.tables.exprBass (s.period n) n
      exprTreble := (s.exprTreble.applyEvents .treble es).compute s.tables.exprTreble (s.period n) n } n es).planKeys n es
    ∃ t, exec .planLine s = .next t
      ∧ t.roll.planLine = s.roll.planLine + 1
      ∧ t.exprBass = u.exprBass ∧ t.exprTreble = u.exprTreble
      ∧ t.roll.schedule = schedule
      ∧ t.roll.tempo = (match s.roll.schedule with
          | _ :: b :: _ => if b.origin = n then b.tempo else s.roll.tempo
          | _ => s.roll.tempo)
      ∧ t.roll.rollTime = s.roll.rollTime ∧ t.roll.operator = s.roll.operator
      ∧ t.roll.startTempo = s.roll.startTempo ∧ t.roll.abandonStart = s.roll.abandonStart
      ∧ (ends → t.roll.rollState = .ending ∧ t.roll.endLine = some n ∧ t.holes.queue = []
          ∧ t.roll.starveStart = none ∧ t.roll.starved = false)
      ∧ (¬ends → t.roll.rollState = .playing ∧ t.roll.endLine = s.roll.endLine
          ∧ t.holes.queue = rest
          ∧ (starves → t.roll.starveStart = s.roll.starveStart ∧ t.roll.starved = s.roll.starved)
          ∧ (¬starves → t.roll.starveStart = none
              ∧ t.roll.starved = (s.roll.starved && s.roll.starveStart.isNone))
          ∧ (lifts → s.roll.operator = false → WatchesRemoved u t)
          ∧ (¬(lifts ∧ s.roll.operator = false) → t.keys = u.keys) ∧ t.pedals = u.pedals
          ∧ t.fireList = u.fireList ∧ t.waitList = u.waitList ∧ t.pedalUnit = u.pedalUnit ∧ t.counters = u.counters)
      ∧ (∃ q0 q1 : List ReturnEntry, ∃ seq0 seq1 : Tag,
          (lifts → seq0 = s.link.reportSeq + 1
            ∧ ∃ bytes, q0 = s.link.queue.filter (fun e => !e.isState) ++ [.state seq0 bytes]
              ∧ (¬ends → bytes = t.stateBytes))
          ∧ (¬lifts → seq0 = s.link.reportSeq ∧ q0 = s.link.queue)
          ∧ (n % 64 = 0 → seq1 = seq0 + 1
            ∧ q1 = q0.filter (fun e => !e.isWindow)
              ++ [.window seq1 (lineBytes (min ((n : Int) + 2048) 16777215) ++ lineBytes n)])
          ∧ (n % 64 ≠ 0 → seq1 = seq0 ∧ q1 = q0)
          ∧ (¬ends → t.link = { s.link with reportSeq := seq1, queue := q1 })
          ∧ (ends → t.link = { s.link with
              reportSeq := seq1 + 1, queue := q1.filter (fun e => !e.isState) ++ [.state (seq1 + 1) t.stateBytes] }))
      ∧ t.holes = { s.holes with queue := t.holes.queue }
      ∧ t = { s with
          link := t.link, counters := t.counters, holes := t.holes, roll := t.roll, exprBass := t.exprBass
          exprTreble := t.exprTreble, pedalUnit := t.pedalUnit, keys := t.keys, pedals := t.pedals
          fireList := t.fireList, waitList := t.waitList }

/-- The close of a roll: after the line n with the end mark is planned, every roll note that still lacked a release
time, the current one unless hold-released and the pending one, has due(n) - ReleaseLead of its key, moved to the window
end while the key is caught, and its key's roll key state is UP; no other note changes, none appears, and no other key's
roll key state moves. A channel in HOLD enters RELEASE exactly when its current note has got such a time that roll time
has reached and its MinHold end is past; no other key channel moves, but for hold-limit watches removed where the lifted
STARVED starts the clock. And with the pedals' group OK no pedal is planned down, each that was having been handed a
lift as by a PEDAL CLOSE of line n, SUSTAIN, SOFT and SOSTENUTO in turn (sections 3.6, 6.4, 6.6, 8.2, 8.5, 8.6); a
sostenuto so lifted empties the Capture Set and closes its window, which stand otherwise. The two lists lose the entry
of a lifted pedal that was ARMED or WAITING without a later press, and no other, and the counters stand. That such a
release acts within PLAN_LINE is entry 17's. -/
def Obligations.EndMarkClosesTheRoll : Prop :=
  ∀ s t : State, s.power = .running → s.planDue = true → -1 ≤ s.roll.planLine → exec .planLine s = .next t →
    t.roll.rollState = .ending →
    let n := s.nextLine
    let es := s.holes.queue.takeWhile (fun e => e.line == n)
    let u : State := ((({ s with
      holes := { s.holes with queue := s.holes.queue.dropWhile (fun e => e.line == n) } }).planExpression n es).planPedals
        n es).planKeys n es
    let off (k : Key) : RollTime := noteOffTime u k n
    let lifted (x : ChannelState) : Channel → Bool
      | .pedal p => !s.faulted pedalGroup && u.pedalUnit.planned.get p && (u.pedal p).pending.isNone && (u.pedal p).state == x
      | .key _ => false
    (∀ k m, (u.key k).current = some m → (u.key k).holdReleased = false → m.fire.isSome = true → m.release = none →
        (t.key k).current = some { m with release := some (off k) } ∧ t.pedalUnit.rollKeys[k.val] = false)
    ∧ (∀ k m, (u.key k).pending = some m → m.fire.isSome = true → m.release = none →
        (t.key k).pending = some { m with release := some (off k) } ∧ t.pedalUnit.rollKeys[k.val] = false)
    ∧ (∀ k m, (u.key k).current = some m → (u.key k).holdReleased = true ∨ m.fire = none ∨ m.release.isSome = true →
        (t.key k).current = some m)
    ∧ (∀ k m, (u.key k).pending = some m → m.fire = none ∨ m.release.isSome = true → (t.key k).pending = some m)
    ∧ (∀ k, ((u.key k).current = none → (t.key k).current = none) ∧ ((u.key k).pending = none → (t.key k).pending = none))
    ∧ (∀ k : Key, (¬∃ m, ((u.key k).current = some m ∧ (u.key k).holdReleased = false ∨ (u.key k).pending = some m)
          ∧ m.fire.isSome = true ∧ m.release = none) → t.pedalUnit.rollKeys[k.val] = u.pedalUnit.rollKeys[k.val])
    ∧ (∀ k, let c := u.key k
        let after : KeyChannel := { c with current := (t.key k).current, pending := (t.key k).pending }
        let releases : Prop := c.state = .hold ∧ c.holdReleased = false
          ∧ (∃ m, c.current = some m ∧ m.fire.isSome = true ∧ m.release = none)
          ∧ reached s.roll.rollTime (off k) = true ∧ ∃ e, c.minHoldEnd = some e ∧ e ≤ s.deviceTime
        (releases → t.key k = Released after s.deviceTime (s.record k).repeatGap)
          ∧ (¬releases → t.key k = { after with
              holdWatch := if s.roll.starved = true ∧ s.roll.operator = false
                  ∧ (c.holdWatch.map (·.expired)) ≠ some true then none else c.holdWatch }))
    ∧ (s.faulted pedalGroup = true → t.pedalUnit.planned = u.pedalUnit.planned)
    ∧ (s.faulted pedalGroup = false → t.pedalUnit.planned = ⟨false, false, false⟩)
    ∧ (∀ p, (u.pedalUnit.planned.get p = false ∨ s.faulted pedalGroup = true → t.pedal p = u.pedal p)
        ∧ (u.pedalUnit.planned.get p = true → s.faulted pedalGroup = false →
            t.pedal p = (u.planPedal n ⟨n, 0, .pedal p, .closes⟩).pedal p))
    ∧ (s.faulted pedalGroup = false → u.pedalUnit.planned.sostenuto = true →
        t.pedalUnit.capture = [] ∧ t.pedalUnit.window = none)
    ∧ (s.faulted pedalGroup = true ∨ u.pedalUnit.planned.sostenuto = false →
        t.pedalUnit.capture = u.pedalUnit.capture ∧ t.pedalUnit.window = u.pedalUnit.window)
    ∧ t.fireList = u.fireList.filter (fun e => !lifted .armed e.channel)
    ∧ t.waitList = u.waitList.filter (fun e => !lifted .waiting e.channel)
    ∧ t.counters = u.counters

/-- R71 whole, on the record of a half as line n leaves it: under FAST the swell gains the fast increment,
else under CRESC the slow one, else it loses the decay increment, clamped to 0 to SwellMax times 256;
SFZ, ACCENT and the step roles do not enter. -/
def Obligations.SwellRule : Prop :=
  ∀ (r : ExprRecord) (p : ExprProfile) (period n : Nat),
    let inc (rate : Nat) : Int := ((rate * period * 256 / 1000000 : Nat) : Int)
    let moved : Int :=
      if r.fast then r.swell + inc p.rateFast else if r.cresc then r.swell + inc p.rateSlow else r.swell - inc p.rateDecay
    ((r.compute p period n).swell : Int) = max 0 (min ((p.swellMax : Int) * 256) moved)

/-- R68, R69 and R72 to R75. The planning of a line applies its EXPR events to each half's record first, in order: each
sets the function state of its role in its half and no other. Then the base is the profile's step table entry at the
step number STEP1 + 2 STEP2 + 4 STEP4; the target is the base and the swell, capped; under SFZ the intensity becomes the
target; else it lands on a target within one slew increment, and otherwise moves by exactly one increment toward it; it
stays within the scale. Where ACCENT is open the line becomes the last accent line, which otherwise stands, and the line
is accented when the last accent line is present and at or above the line less AccentReach. -/
def Obligations.IntensityRule : Prop :=
  (∀ (r : ExprRecord) (p : ExprProfile) (period n : Nat),
    let q := r.compute p period n
    let target := min (q.base * 256 + q.swell) (1023 * 256)
    let inc := p.slewRate * period * 256 / 1000000
    let counts (isOpen : Bool) : Nat := if isOpen then 1 else 0
    q.base = p.stepTable[r.step.val] ∧ r.step.val = counts r.step1 + 2 * counts r.step2 + 4 * counts r.step4
    ∧ (r.sfz = true → q.intensity = target)
    ∧ (r.sfz = false → ((target : Int) - r.intensity).natAbs ≤ inc → q.intensity = target)
    ∧ (r.sfz = false → inc < ((target : Int) - r.intensity).natAbs →
        (r.intensity < target → q.intensity = r.intensity + inc)
          ∧ (target < r.intensity → q.intensity + inc = r.intensity))
    ∧ (r.intensity ≤ 1023 * 256 → q.intensity ≤ 1023 * 256)
    ∧ (r.accent = true → q.lastAccent = some n) ∧ (r.accent = false → q.lastAccent = r.lastAccent)
    ∧ (q.accentedOn p n = true ↔ ∃ a, q.lastAccent = some a ∧ (n : Int) - p.accentReach ≤ a)
    ∧ (∀ role, roleState q role = roleState r role))
  ∧ (∀ (r : ExprRecord) (h : Half) (es : List HoleEvent),
    let q := r.applyEvents h es
    q.base = r.base ∧ q.swell = r.swell ∧ q.intensity = r.intensity ∧ q.lastAccent = r.lastAccent
    ∧ ∀ role, ((∀ e ∈ es, e.function ≠ .expr h role) → roleState q role = roleState r role)
        ∧ (∀ kind, (∃ e ∈ es, e.function = .expr h role) → (∀ e ∈ es, e.function = .expr h role → e.kind = kind) →
            roleState q role = decide (kind = .opens))
        ∧ (∀ e, roleState (r.applyEvents h (es ++ [e])) role =
            if e.function = .expr h role then decide (e.kind = .opens) else roleState q role))
  ∧ (∀ s t : State, s.power = .running → s.planDue = true → exec .planLine s = .next t →
    let n := s.nextLine
    let es := s.holes.queue.takeWhile (fun e => e.line == n)
    t.exprBass = (s.exprBass.applyEvents .bass es).compute s.tables.exprBass (s.period n) n
      ∧ t.exprTreble = (s.exprTreble.applyEvents .treble es).compute s.tables.exprTreble (s.period n) n)

/-- R85: on a velocity map that never falls, the mapped velocity of a level is the interpolation rounded
half up; it lies between the two entries it stands between and within 0 to 6000, is the lower entry at
f = 0, and a higher level never maps to a lower velocity. -/
def Obligations.MappedVelocityNeverFalls : Prop :=
  ∀ (v : Vector Nat 33) (a b : Nat), VelocityChecks v → a ≤ b → b ≤ 1023 →
    let i : Fin 32 := ⟨b / 32 % 32, Nat.mod_lt _ (by decide)⟩
    mappedVelocity v a ≤ mappedVelocity v b
      ∧ v[i.val]'(by omega) ≤ mappedVelocity v b ∧ mappedVelocity v b ≤ v[i.val + 1]'(by omega)
      ∧ ((∀ j : Fin 33, v[j.val] ≤ 6000) → mappedVelocity v b ≤ 6000)
      ∧ (b % 32 = 0 → mappedVelocity v b = v[i.val]'(by omega))
      ∧ mappedVelocity v b
          = v[i.val]'(by omega) + ((v[i.val + 1]'(by omega) - v[i.val]'(by omega)) * (b % 32) + 16) / 32

/-- The numbers of a planned note (sections 4.1, 4.3, 5.3 to 5.7): its level is the intensity of its key's half, lifted
by that half's AccentBoost up to 1023 on an accented line, then scaled while SOFT is planned down; its velocity is the
mapped velocity of that level clamped to the key's own range; flight, lead, fire time, kick within 500 to KickMax
and the accented flag follow; a harder velocity never flies longer nor kicks shorter. -/
def Obligations.NoteNumbersByTheirFormulas : Prop :=
  ∀ (s : State) (k : Key) (n : Nat),
    let r := s.record k
    let note := s.noteFor k n
    let bass := k.number ≤ s.tables.exprBass.splitKey
    let half := if bass then s.exprBass else s.exprTreble
    let profile := if bass then s.tables.exprBass else s.tables.exprTreble
    let accented := match half.lastAccent with
      | some a => decide ((n : Int) - profile.accentReach ≤ a)
      | none => false
    let lifted := if accented then min 1023 (half.intensity / 256 + profile.accentBoost) else half.intensity / 256
    let level := if s.pedalUnit.planned.soft then lifted * s.tables.exprBass.softScale / 256 else lifted
    r.vFloor ≤ r.vMax → 50 ≤ r.vFloor → 1000 ≤ r.kickMax →
    note.accented = accented
      ∧ note.velocity = max r.vFloor (min r.vMax (mappedVelocity s.tables.velocity level))
      ∧ note.lead = r.lag + (r.travel * 10000 + note.velocity / 2) / note.velocity
      ∧ note.kick = max 500 (min r.kickMax (r.k0 + note.velocity * r.kg / 1024))
      ∧ r.vFloor ≤ note.velocity ∧ note.velocity ≤ r.vMax ∧ 500 ≤ note.kick ∧ note.kick ≤ r.kickMax
      ∧ note.due = some (s.due n) ∧ note.fire = some (s.due n - BitVec.ofNat 32 note.lead)
      ∧ note.line = some n ∧ note.release = none ∧ note.deferred = false
      ∧ (half.intensity ≤ 1023 * 256 → s.tables.exprBass.softScale ≤ 256 → level ≤ 1023)
      ∧ (∀ v w, 50 ≤ v → v ≤ w → flight r w ≤ flight r v ∧ kickFor r v ≤ kickFor r w)

/-- The KEY events of a line are handed on one at a time in queue order, events of other functions leaving the key
channels alone; where no note they arm is late that is all a line's KEY events do. A note-on handed to its key channel:
dropped in a FAULTED group, armed with a Fire List entry when the channel is IDLE, else kept pending, else dropped; a
note-off stores its release time in the note its target names, moved to the window end while the key is caught, and a
channel in HOLD whose current note has got it and is then due past its MinHold end enters RELEASE with it; where the
target names no note, or one released by the hold limit, the note-off has no effect (sections 5.2, 5.9, 6.2 to 6.4, 6.6,
8.6). -/
def Obligations.KeyEventsReachTheirChannel : Prop :=
  (∀ (s : State) (n : Nat) (es : List HoleEvent),
    (∀ k, (s.key k).state = .idle → (∃ e ∈ es, e.function = .key k ∧ e.kind = .opens) →
      (∀ x ∈ s.fireList, x.channel ≠ .key k)
        ∧ reached s.roll.rollTime (s.due n - BitVec.ofNat 32 (s.noteFor k n).lead) = false) →
    s.planKeys n es = es.foldl (fun t e => t.planKey n e) s)
  ∧ (∀ (s : State) (n : Nat) (e : HoleEvent), (∀ k, e.function ≠ .key k) → s.planKey n e = s)
  ∧ ∀ (s : State) (k : Key) (n : Nat) (e : HoleEvent), e.function = .key k →
    let c := s.key k
    let note := s.noteFor k n
    let stored : RollTime := noteOffTime s k n
    let acts (d : KeyChannel) : Prop :=
      (Releases s d → s.planKey n e = s.withKey k (Released d s.deviceTime (s.record k).repeatGap))
        ∧ (¬Releases s d → s.planKey n e = s.withKey k d)
    (e.kind = .opens → s.faulted (keyGroup k) = true →
        s.planKey n e = (s.withKey k { c with target := .nothing }).bump .faultDrop)
    ∧ (e.kind = .opens → s.faulted (keyGroup k) = false → c.state = .idle →
        s.planKey n e = { s.withKey k
            { c with state := .armed, current := some note, target := .current, holdReleased := false } with
          fireList := insertFire ⟨.key k, s.due n - BitVec.ofNat 32 note.lead⟩ s.fireList })
    ∧ (e.kind = .opens → s.faulted (keyGroup k) = false → c.state ≠ .idle → c.pending = none →
        s.planKey n e = s.withKey k { c with pending := some note, target := .pending })
    ∧ (e.kind = .opens → s.faulted (keyGroup k) = false → c.state ≠ .idle → c.pending.isSome = true →
        s.planKey n e = (s.withKey k { c with target := .nothing }).bump .repeatDrop)
    ∧ (e.kind = .closes → ∀ m, c.target = .pending → c.pending = some m →
        s.planKey n e = s.withKey k { c with pending := some { m with release := some stored } })
    ∧ (e.kind = .closes → ∀ m, c.target = .current → c.holdReleased = false → c.current = some m →
        acts { c with current := some { m with release := some stored } })
    ∧ (e.kind = .closes → (c.target = .nothing ∨ (c.target = .current ∧ c.holdReleased = true)) → s.planKey n e = s)

/-- The Pedal Unit on one line: first the window closes at a line due later than its end; then the line's KEY events set
the roll key states; then the PEDAL events are taken one at a time in queue order, which is all where no press they arm
is late, and events of other functions do nothing there. A PEDAL OPEN sets the planned state DOWN and hands its press to
the pedal channel, which arms it when IDLE, else keeps it pending, else drops it; a PEDAL CLOSE sets it UP and its lift
cancels a pending press or one that has not fired, or is stored in a kicking or held press without one, releasing a held
one whose lift time is reached already; a SOSTENUTO OPEN captures the keys whose roll key state is DOWN, opens the
window to due + CatchMargin and moves the earlier release times of the captured keys' named notes to it, a SOSTENUTO
CLOSE empties and closes both; in a FAULTED group 11 a PEDAL event does nothing (sections 8.2 to 8.4, 8.6). -/
def Obligations.PedalEventsReachTheirChannel : Prop :=
  ∀ (s : State) (n : Nat),
    (∀ es : List HoleEvent,
      (∀ p, (s.pedal p).state = .idle → (∃ e ∈ es, e.function = .pedal p ∧ e.kind = .opens) →
        (∀ x ∈ s.fireList, x.channel ≠ .pedal p)
          ∧ reached s.roll.rollTime (s.due n - BitVec.ofNat 32 (s.pedalRecord p).lead) = false) →
      s.planPedals n es = es.foldl (fun t e => t.planPedal n e) ((s.closeWindow n).applyRollKeys es))
    ∧ (∀ e : HoleEvent, (∀ p, e.function ≠ .pedal p) → s.planPedal n e = s)
    ∧ (∀ w, s.pedalUnit.window = some w → s.closeWindow n = if earlier w (s.due n) = true
        then { s with pedalUnit := { s.pedalUnit with window := none } } else s)
    ∧ (s.pedalUnit.window = none → s.closeWindow n = s)
    ∧ (∀ (es : List HoleEvent) (k : Key),
        let t := s.applyRollKeys es
        t = { s with pedalUnit := { s.pedalUnit with rollKeys := t.pedalUnit.rollKeys } }
          ∧ ((∀ e ∈ es, e.function ≠ .key k) → t.pedalUnit.rollKeys[k.val] = s.pedalUnit.rollKeys[k.val])
          ∧ (∀ kind, (∃ e ∈ es, e.function = .key k) → (∀ e ∈ es, e.function = .key k → e.kind = kind) →
              t.pedalUnit.rollKeys[k.val] = decide (kind = .opens)))
    ∧ (∀ (p : Pedal) (e : HoleEvent), e.function = .pedal p →
        let c := s.pedal p
        let t := s.planPedal n e
        let r := s.pedalRecord p
        let press : Press := ⟨n, s.due n - BitVec.ofNat 32 r.lead, r.kick, none⟩
        let lift : RollTime := s.due n - BitVec.ofNat 32 r.releaseLead
        let idle : PedalChannel := ⟨.idle, none, none, none, none, none, 0⟩
        let window : RollTime := s.due n + BitVec.ofNat 32 s.tables.settings.catchMargin
        let captured (k : Key) : Prop := s.pedalUnit.rollKeys[k.val] = true
        let becomes (d : PedalChannel) : Prop := t.pedal p = d ∧ t.fireList = s.fireList ∧ t.waitList = s.waitList
        (s.faulted pedalGroup = true → t = s)
        ∧ (s.faulted pedalGroup = false →
            t.pedalUnit.planned = s.pedalUnit.planned.put p (decide (e.kind = .opens))
            ∧ t.pedalUnit.rollKeys = s.pedalUnit.rollKeys ∧ (∀ q, q ≠ p → t.pedal q = s.pedal q)
            ∧ t = { s with pedalUnit := t.pedalUnit, keys := t.keys, pedals := t.pedals, fireList := t.fireList
                           waitList := t.waitList }
            ∧ (p ≠ .sostenuto →
                t.keys = s.keys ∧ t.pedalUnit.capture = s.pedalUnit.capture ∧ t.pedalUnit.window = s.pedalUnit.window)
            ∧ (p = .sostenuto → e.kind = .opens →
                t.pedalUnit.window = some window ∧ t.pedalUnit.capture.Pairwise (· < ·)
                ∧ (∀ k, k ∈ t.pedalUnit.capture ↔ captured k)
                ∧ (∀ k, captured k → t.key k = CaughtKey (s.key k) window) ∧ (∀ k, ¬captured k → t.key k = s.key k))
            ∧ (p = .sostenuto → e.kind = .closes →
                t.keys = s.keys ∧ t.pedalUnit.capture = [] ∧ t.pedalUnit.window = none)
            ∧ (e.kind = .opens →
                (c.state = .idle → t.pedal p = ⟨.armed, some press, none, none, none, none, 0⟩
                    ∧ t.fireList = insertFire ⟨.pedal p, press.fire⟩ s.fireList ∧ t.waitList = s.waitList)
                ∧ (c.state ≠ .idle → c.pending = none → becomes { c with pending := some press })
                ∧ (c.state ≠ .idle → c.pending.isSome = true → becomes c))
            ∧ (e.kind = .closes →
                (c.pending.isSome = true → becomes { c with pending := none })
                ∧ (c.pending = none → c.state = .armed → t.pedal p = idle ∧ t.waitList = s.waitList
                    ∧ t.fireList = s.fireList.filter (fun x => x.channel != .pedal p))
                ∧ (c.pending = none → c.state = .waiting → t.pedal p = idle ∧ t.fireList = s.fireList
                    ∧ t.waitList = s.waitList.filter (fun x => x.channel != .pedal p))
                ∧ (∀ f, c.pending = none → c.current = some f → f.lift = none →
                    (c.state = .kick → becomes { c with current := some { f with lift := some lift } })
                    ∧ (c.state = .hold → reached s.roll.rollTime lift = false →
                        becomes { c with current := some { f with lift := some lift } })
                    ∧ (c.state = .hold → reached s.roll.rollTime lift = true →
                        becomes { c with
                          state := .release, current := some { f with lift := some lift }, kickEnd := none
                          waitStart := none, releaseEnd := some (s.deviceTime + 20000), duty := 0 }))
                ∧ (c.pending = none → (c.state = .idle ∨ c.state = .release
                      ∨ ((c.state = .kick ∨ c.state = .hold) ∧ ∃ f, c.current = some f ∧ f.lift.isSome = true)) →
                    becomes c))))

/-- The two lists and what leaves them at once. An entry is inserted in the Fire List at its place by fire time, then
pedals before keys in their order, where the fire times lie within half the range of roll time, and in the Kick Wait
List at its place in grant order. A press or a note whose fire time is reached as it is planned leaves the Fire List
at once and fires: its kick starts when a slot is free, and it waits when none is; of two late notes of one line, or
of a late note and a lower key whose fire time is reached too, that meet one free slot, the lower key kicks and the
higher waits. Of the events due at one device time that request kick slots the card takes one whose first channel no
other requesting channel precedes, pedals before keys, nor any channel that requests because of the lines that can be
planned then, late itself or let through by them at the end of its gap, release or wait (sections 6.2, 6.3, 7.2, 8.3).
That a due line can be planned before the other requests, and its late channels fire before the next line is planned, is
entry 13's; that a kick end can be taken before other requests of its device time is entry 3's. -/
def Obligations.LateChannelsFireAtOnceInOrder : Prop :=
  (∀ (e : FireEntry) (l : List FireEntry) (base : RollTime), (∀ x ∈ e :: l, (x.time - base).toNat < 2 ^ 31) →
      l.Pairwise (fun a b => b.before a = false) →
      (insertFire e l).Perm (e :: l) ∧ (insertFire e l).Pairwise (fun a b =>
        (a.time - base).toNat < (b.time - base).toNat ∨ (a.time = b.time ∧ a.channel.rank ≤ b.channel.rank)))
  ∧ (∀ (e : WaitEntry) (l : List WaitEntry), l.Pairwise GrantsBefore → (∀ x ∈ l, GrantsBefore x e ∨ GrantsBefore e x) →
      (insertWait e l).Perm (e :: l) ∧ (insertWait e l).Pairwise GrantsBefore)
  ∧ (∀ (s : State) (n : Nat) (k : Key) (e : HoleEvent), e.function = .key k → e.kind = .opens → (s.key k).state = .idle →
      s.faulted (keyGroup k) = false → (∀ x ∈ s.fireList, x.channel ≠ .key k) →
      let c := s.key k
      let note := s.noteFor k n
      let armed : KeyChannel := { c with state := .armed, current := some note, target := .current, holdReleased := false }
      reached s.roll.rollTime (s.due n - BitVec.ofNat 32 note.lead) = true → noneBefore s (.key k) [] →
      (s.kickCount < s.tables.settings.kickSlots →
          min note.kick (s.record k).kickMax ≤ s.tables.settings.heatLimit - c.heat →
          ∃ t, s.planKeys n [e] = t
            ∧ t = { s.withKey k (KickedKey armed note s.deviceTime (min note.kick (s.record k).kickMax) false s.clockStopped)
                with counters := t.counters }
            ∧ (∀ d : Counter, t.counter d = if d = .lateStrike then lateCount s note else s.counter d))
      ∧ (s.tables.settings.kickSlots ≤ s.kickCount →
          s.planKeys n [e] = { s.withKey k { armed with state := .waiting, waitStart := some s.deviceTime } with
            waitList := insertWait ⟨.key k, .key (s.record k).priority, s.deviceTime⟩ s.waitList }))
  ∧ (∀ (s : State) (n : Nat) (k j : Key) (e f : HoleEvent), k < j → e.function = .key k → f.function = .key j →
      (∀ x, x = k ∨ x = j → (s.key x).state = .idle ∧ s.faulted (keyGroup x) = false
        ∧ (∀ y ∈ s.fireList, y.channel ≠ .key x)
        ∧ reached s.roll.rollTime (s.due n - BitVec.ofNat 32 (s.noteFor x n).lead) = true) →
      e.kind = .opens → f.kind = .opens → s.kickCount + 1 = s.tables.settings.kickSlots → noneBefore s (.key j) [.key k] →
      min (s.noteFor k n).kick (s.record k).kickMax ≤ s.tables.settings.heatLimit - (s.key k).heat →
      ∀ es, es = [e, f] ∨ es = [f, e] →
        ((s.planKeys n es).key k).state = .kick ∧ ((s.planKeys n es).key j).state = .waiting)
  ∧ (∀ (s : State) (n : Nat) (i k : Key) (e : HoleEvent) (x : FireEntry) (m : Note), i < k →
      e.function = .key k → e.kind = .opens → (s.key k).state = .idle → s.faulted (keyGroup k) = false →
      (∀ y ∈ s.fireList, y.channel ≠ .key k) →
      reached s.roll.rollTime (s.due n - BitVec.ofNat 32 (s.noteFor k n).lead) = true →
      (s.key i).state = .armed → (s.key i).current = some m → s.faulted (keyGroup i) = false →
      x ∈ s.fireList → x.channel = .key i → reached s.roll.rollTime x.time = true →
      s.kickCount + 1 = s.tables.settings.kickSlots → noneBefore s (.key k) [.key i] →
      let kick := min m.kick (s.record i).kickMax
      kick ≤ s.tables.settings.heatLimit - (s.key i).heat →
      let t := s.planKeys n [e]
      t.key i = KickedKey (s.key i) m s.deviceTime kick false s.clockStopped ∧ (t.key k).state = .waiting
        ∧ (t.key k).current = some (s.noteFor k n) ∧ t.fireList = s.fireList.filter (fun y => y.channel != .key i)
        ∧ t.waitList = insertWait ⟨.key k, .key (s.record k).priority, s.deviceTime⟩ s.waitList)
  ∧ (∀ (s : State) (n : Nat) (p : Pedal) (e : HoleEvent), e.function = .pedal p → e.kind = .opens →
      p ≠ .sostenuto → (s.pedal p).state = .idle → s.faulted pedalGroup = false → s.pedalUnit.window = none →
      (∀ x ∈ s.fireList, x.channel ≠ .pedal p) →
      let r := s.pedalRecord p
      let press : Press := ⟨n, s.due n - BitVec.ofNat 32 r.lead, r.kick, none⟩
      let down : PedalUnit := { s.pedalUnit with planned := s.pedalUnit.planned.put p true }
      reached s.roll.rollTime press.fire = true → noneBefore s (.pedal p) [] →
      (s.kickCount < s.tables.settings.kickSlots → s.planPedals n [e] =
          { s.withPedal p ⟨.kick, some press, none, some (s.deviceTime + r.kick), none, none, 255⟩ with pedalUnit := down })
      ∧ (s.tables.settings.kickSlots ≤ s.kickCount → s.planPedals n [e] =
          { s.withPedal p ⟨.waiting, some press, none, none, some s.deviceTime, none, 0⟩ with
            pedalUnit := down, waitList := insertWait ⟨.pedal p, .pedal, s.deviceTime⟩ s.waitList }))
  ∧ (∀ (s : State) (i : Instr) (c d : Channel), i ∈ s.nextEventChoices → c ∈ s.requests i →
      let ends (j : Instr) : Prop := (∃ k, j = .kickEnd k) ∨ ∃ p, j = .pedalKickEnd p
      let now (t : State) : Prop := (∃ j ∈ t.dueEvents, ¬ends j ∧ d ∈ t.requests j) ∨ d ∈ t.kickEndRequests
      let ahead : Prop := ∃ lines : Nat, (∀ j, j ≤ lines → ((State.planNext)^[j] s).planDue = true)
        ∧ (d ∈ ((State.planNext)^[lines] s).lateRequests ∨ now ((State.planNext)^[lines + 1] s))
      ((¬ends i ∧ (now s ∨ ahead)) ∨ (ends i ∧ ¬now s ∧ ahead)) → ∃ c', c' ∈ s.requests i ∧ c'.rank ≤ d.rank)
  ∧ (∀ s : State, s.planDue = true → .planLine ∈ s.nextEventChoices)

/-! Key channels -/

/-- KEY_FIRE at the head of the Fire List: with its group OK and a slot free the kick starts, of the
note's kick capped by KickMax, whole when the heat headroom holds it, cut to the headroom when that is at
least 500 microseconds, else the note is dropped; with no slot free the channel waits in its class; in a
FAULTED group the note is dropped. A dropped note lets the pending one through, which waits for its fire time in the
Fire List or, when that is reached, fires in its turn (sections 5.8, 6.5, 6.6, 7.2, 7.3, 7.4, 9.2). -/
def Obligations.KeyFireStartsWaitsOrDrops : Prop :=
  ∀ (s : State) (k : Key) (e : FireEntry) (rest : List FireEntry) (m : Note), s.power = .running →
    (s.key k).state = .armed → (s.key k).current = some m → s.fireList = e :: rest → e.channel = .key k →
    reached s.roll.rollTime e.time = true →
    let c := s.key k
    let capped := min m.kick (s.record k).kickMax
    let room := s.tables.settings.heatLimit - c.heat
    let free := s.kickCount < s.tables.settings.kickSlots
    let ok := s.faulted (keyGroup k) = false
    let starts (kick trims : Nat) : Prop := ∃ t, exec (.keyFire k) s = .next t
      ∧ t = { s.withKey k (KickedKey c m s.deviceTime kick false s.clockStopped) with
          fireList := rest, counters := t.counters }
      ∧ (∀ d : Counter, t.counter d = if d = .lateStrike then lateCount s m
          else if d = .heatTrim ∧ trims = 1 then min 65535 (s.counter .heatTrim + 1) else s.counter d)
    let drops (d : Counter) : Prop :=
      (nothingToFire s k → ∃ t, exec (.keyFire k) s = .next t
        ∧ Counted s t d 1 ∧ MovesOn s t k rest
        ∧ t = { s with keys := t.keys, fireList := t.fireList, counters := t.counters })
      ∧ (∀ n, firesPending s k n → ∃ b t, b = { s with fireList := rest, counters := b.counters }
        ∧ Counted s b d 1 ∧ exec (.keyFire k) s = .next t ∧ PromotedFires b t k n)
    (ok → free → capped ≤ room → starts capped 0)
    ∧ (ok → free → room < capped → 500 ≤ room → starts room 1)
    ∧ (ok → free → room < capped → room < 500 → drops .heatDrop)
    ∧ (ok → ¬free → exec (.keyFire k) s = .next
        { s.withKey k { c with state := .waiting, waitStart := some s.deviceTime } with
          fireList := rest
          waitList := insertWait ⟨.key k, .key (s.record k).priority, s.deviceTime⟩ s.waitList })
    ∧ (¬ok → drops .faultDrop)

/-- KICK_END with nobody waiting: the channel enters HOLD with its MinHold end and the hold duty, a test
note with the end of its TestHold too; when its hold-limit watch expired during the kick it enters
RELEASE instead, hold-released, its release time discarded (sections 6.1, 6.4, 6.5, 6.7, 6.8). -/
def Obligations.KickEndEntersHold : Prop :=
  ∀ (s : State) (k : Key) (e : Nat), s.power = .running → (s.key k).state = .kick →
    (s.key k).kickEnd = some e → e ≤ s.deviceTime → s.waitList = [] →
    let c := s.key k
    let expired := c.holdWatch.map (·.expired) = some true
    (¬expired → exec (.kickEnd k) s = .next (s.withKey k
      { c with
        state := .hold, appliedKick := none, kickEnd := none, minHoldEnd := some (s.deviceTime + s.tables.settings.minHold)
        testRelease := match c.current with
          | some m => if m.fire = none then some (s.deviceTime + 100000) else none
          | none => none
        duty := (s.record k).holdDuty }))
    ∧ (expired → exec (.kickEnd k) s = .next (s.withKey k
        { Released c s.deviceTime (s.record k).repeatGap with
          holdReleased := true, current := c.current.map (fun m => { m with release := none }) }))

/-- KICK_END with channels waiting: the channel leaves KICK as it does with nobody waiting, and the slot is handed on.
A freed slot of a full card goes to the head of the Kick Wait List at that device time: a key's kick starts, whole or
cut to its heat headroom, its note marked and counted as deferred, a pedal's without a count; a head whose headroom
is below 500 microseconds loses its note to a heat drop and its slot to the new head, or to nobody when the list
is empty, and then moves on to its pending note, which fires after the slot has been handed on when its fire time is
reached; the other entries wait on (sections 6.5, 6.6, 7.2, 7.3). -/
def Obligations.KickEndHandsTheSlotOn : Prop :=
  (∀ (s : State) (k : Key) (e : Nat), s.power = .running → (s.key k).state = .kick →
      (s.key k).kickEnd = some e → e ≤ s.deviceTime →
      let c := s.key k
      let expired := c.holdWatch.map (·.expired) = some true
      (¬expired → exec (.kickEnd k) s = .next (State.handOn (s.withKey k
        { c with
          state := .hold, appliedKick := none, kickEnd := none
          minHoldEnd := some (s.deviceTime + s.tables.settings.minHold)
          testRelease := match c.current with
            | some m => if m.fire = none then some (s.deviceTime + 100000) else none
            | none => none
          duty := (s.record k).holdDuty })))
      ∧ (expired → exec (.kickEnd k) s = .next (State.handOn (s.withKey k
          { Released c s.deviceTime (s.record k).repeatGap with
            holdReleased := true, current := c.current.map (fun m => { m with release := none }) }))))
  ∧ (∀ (s : State) (head : WaitEntry) (rest : List WaitEntry),
      s.kickCount + 1 = s.tables.settings.kickSlots → s.waitList = head :: rest →
      let capped (j : Key) (m : Note) := min m.kick (s.record j).kickMax
      let room (j : Key) := s.tables.settings.heatLimit - (s.key j).heat
      let waits (j : Key) (m : Note) : Prop := (s.key j).state = .waiting ∧ (s.key j).current = some m
      let kicks (j : Key) (m : Note) (kick : Nat) (t : State) : Prop :=
        t.key j = KickedKey (s.key j) m s.deviceTime kick true s.clockStopped ∧ t.kickCount = s.tables.settings.kickSlots
      let moved (j : Key) (t : State) : Prop :=
        ((s.key j).pending = none → t.key j = IdleKey (s.key j) ∧ t.fireList = s.fireList)
          ∧ (∀ n f, (s.key j).pending = some n → n.fire = some f →
              t.key j = PromotedKey (s.key j) n ∧ t.fireList = insertFire ⟨.key j, f⟩ s.fireList)
      (∀ (j : Key) (m : Note), head.channel = .key j → waits j m →
        (capped j m ≤ room j → kicks j m (capped j m) s.handOn
          ∧ (∀ d : Counter, s.handOn.counter d = if d = .lateStrike then lateCount s m
              else if d = .deferred then min 65535 (s.counter .deferred + 1) else s.counter d)
          ∧ (∀ i, i ≠ j → s.handOn.key i = s.key i)
          ∧ s.handOn = { s with keys := s.handOn.keys, waitList := rest, counters := s.handOn.counters })
        ∧ (room j < capped j m → 500 ≤ room j → kicks j m (room j) s.handOn
          ∧ (∀ d : Counter, s.handOn.counter d = if d = .lateStrike then lateCount s m
              else if d = .deferred ∨ d = .heatTrim then min 65535 (s.counter d + 1) else s.counter d)
          ∧ (∀ i, i ≠ j → s.handOn.key i = s.key i)
          ∧ s.handOn = { s with keys := s.handOn.keys, waitList := rest, counters := s.handOn.counters })
        ∧ (room j < capped j m → room j < 500 → nothingToFire s j → (∀ x ∈ s.fireList, x.channel ≠ .key j) →
          (rest = [] → moved j s.handOn ∧ Counted s s.handOn .heatDrop 1 ∧ (∀ i, i ≠ j → s.handOn.key i = s.key i)
            ∧ s.handOn = { s with
                keys := s.handOn.keys, fireList := s.handOn.fireList, waitList := [], counters := s.handOn.counters })
          ∧ (∀ (next : WaitEntry) (more : List WaitEntry) (i : Key) (q : Note), rest = next :: more →
              next.channel = .key i → i ≠ j → waits i q → capped i q ≤ room i →
              moved j s.handOn ∧ kicks i q (capped i q) s.handOn
              ∧ (∀ d : Counter, s.handOn.counter d = if d = .lateStrike then lateCount s q
                  else if d = .deferred ∨ d = .heatDrop then min 65535 (s.counter d + 1) else s.counter d)
              ∧ (∀ x, x ≠ i → x ≠ j → s.handOn.key x = s.key x)
              ∧ s.handOn = { s with
                  keys := s.handOn.keys, fireList := s.handOn.fireList, waitList := more
                  counters := s.handOn.counters }))
        ∧ (room j < capped j m → room j < 500 → (∀ x ∈ s.fireList, x.channel ≠ .key j) → ∀ n, firesPending s j n →
          (rest = [] → noneBefore s (.key j) [] → ∃ b, b = { s with waitList := [], counters := b.counters }
            ∧ Counted s b .heatDrop 1 ∧ PromotedFires b s.handOn j n)
          ∧ (∀ (next : WaitEntry) (more : List WaitEntry) (i : Key) (q : Note), rest = next :: more →
              next.channel = .key i → i ≠ j → waits i q → capped i q ≤ room i → noneBefore s (.key j) [.key i] →
              ∃ b, kicks i q (capped i q) b
                ∧ b = { s with keys := b.keys, waitList := more, counters := b.counters }
                ∧ (∀ x, x ≠ i → b.key x = s.key x)
                ∧ (∀ d : Counter, b.counter d = if d = .lateStrike then lateCount s q
                  else if d = .deferred ∨ d = .heatDrop then min 65535 (s.counter d + 1) else s.counter d)
                ∧ PromotedFires b s.handOn j n)))
      ∧ (∀ p : Pedal, head.channel = .pedal p → (s.pedal p).state = .waiting →
          s.handOn = { s.withPedal p { s.pedal p with
              state := .kick, kickEnd := (s.pedal p).current.map (fun c => s.deviceTime + c.kick), waitStart := none
              duty := 255 } with waitList := rest }
          ∧ s.handOn.kickCount = s.tables.settings.kickSlots))

/-- The releases of a held key: HOLD_RELEASE when roll time has reached the release time and device time
the MinHold end; TEST_RELEASE when TestHold has passed; HOLD_LIMIT_EXPIRY on a stopped clock, which
releases a channel in HOLD and only marks one in KICK (sections 3.5, 6.4, 6.6, 6.7, 6.8). -/
def Obligations.HeldKeysAreReleased : Prop :=
  ∀ (s : State) (k : Key), s.power = .running →
    let c := s.key k
    let released := Released c s.deviceTime (s.record k).repeatGap
    (∀ m r e, c.state = .hold → c.current = some m → m.release = some r → reached s.roll.rollTime r = true →
        c.minHoldEnd = some e → e ≤ s.deviceTime →
        exec (.holdRelease k) s = .next (s.withKey k released))
    ∧ (∀ e, c.state = .hold → c.testRelease = some e → e ≤ s.deviceTime →
        exec (.testRelease k) s = .next (s.withKey k released))
    ∧ (∀ w, s.clockStopped = true → c.holdWatch = some ⟨w, false⟩ →
        w + s.tables.settings.holdLimit * 1000 ≤ s.deviceTime →
        (c.state = .hold → exec (.holdLimitExpiry k) s = .next (s.withKey k
          { released with holdReleased := true, current := c.current.map (fun m => { m with release := none }) }))
        ∧ (c.state = .kick → exec (.holdLimitExpiry k) s = .next (s.withKey k { c with holdWatch := some ⟨w, true⟩ })))

/-- GAP_END and DEFER_EXPIRY: the current note goes, by a defer drop in the second, and the pending note
is promoted to ARMED or the channel goes IDLE; a promoted note whose fire time is reached fires at once: its kick
starts, whole or trimmed, or it is dropped for its heat or its FAULTED group, or on a full card it joins the Kick Wait
List with a wait start of its own (sections 6.5, 6.6, 7.2 to 7.4). -/
def Obligations.GapEndAndDeferExpiryMoveOn : Prop :=
  ∀ (s : State) (k : Key), s.power = .running →
    let c := s.key k
    let g := s.tables.settings
    (∀ e, c.state = .release → c.gapEnd = some e → e ≤ s.deviceTime →
        (nothingToFire s k → ∃ t, exec (.gapEnd k) s = .next t ∧ MovesOn s t k s.fireList
          ∧ t = { s with keys := t.keys, fireList := t.fireList })
        ∧ (∀ n, firesPending s k n → ∃ t, exec (.gapEnd k) s = .next t ∧ PromotedFires s t k n))
    ∧ (∀ w, c.state = .waiting → 0 < g.deferLimit → c.waitStart = some w → w + g.deferLimit ≤ s.deviceTime →
        let waiting := s.waitList.filter (fun e => e.channel != .key k)
        (nothingToFire s k →
          ∃ t, exec (.deferExpiry k) s = .next t ∧ Counted s t .deferDrop 1 ∧ MovesOn s t k s.fireList
            ∧ t = { s with keys := t.keys, fireList := t.fireList, waitList := waiting, counters := t.counters })
        ∧ (∀ n, firesPending s k n → ∃ b t, b = { s with waitList := waiting, counters := b.counters }
            ∧ Counted s b .deferDrop 1 ∧ exec (.deferExpiry k) s = .next t ∧ PromotedFires b t k n))

/-- KEY TEST taken in NO ROLL on an IDLE key: DONE first; the velocity clamped to the key's own range, the
kick and lead from it, no fire time; the note fires at once and so kicks, whole or trimmed, waits, or falls to the
heat check or to a FAULTED group, which leaves the key IDLE (sections 5.10, 6.8, 7.3). -/
def Obligations.KeyTestStrikes : Prop :=
  ∀ (s : State) (tag : Tag) (key : Byte) (velocity : BitVec 16) (k : Key), s.power = .running → s.replyCount < 14 →
    s.roll.rollState = .noRoll → key.toNat = k.number → (s.key k).state = .idle →
    (s.record k).vFloor ≤ (s.record k).vMax → 1000 ≤ (s.record k).kickMax →
    let r := s.record k
    let v := max r.vFloor (min r.vMax velocity.toNat)
    let kick := max 500 (min r.kickMax (r.k0 + v * r.kg / 1024))
    let note : Note := ⟨none, none, none, v, kick, r.lag + (r.travel * 10000 + v / 2) / v, false, none, false⟩
    let c : KeyChannel := { s.key k with current := some note, holdReleased := false }
    let replied := s.validFrame.queueReply tag 0x33#8 .done []
    let room := s.tables.settings.heatLimit - c.heat
    (s.faulted (keyGroup k) = false → s.kickCount < s.tables.settings.kickSlots →
        (kick ≤ room →
          exec (.keyTest tag key velocity) s = .next (replied.withKey k (KickedKey c note s.deviceTime kick false false)))
        ∧ (room < kick → 500 ≤ room → exec (.keyTest tag key velocity) s
          = .next ((replied.withKey k (KickedKey c note s.deviceTime room false false)).bump .heatTrim))
        ∧ (room < kick → room < 500 →
          exec (.keyTest tag key velocity) s = .next ((replied.withKey k (IdleKey c)).bump .heatDrop)))
    ∧ (s.faulted (keyGroup k) = false → s.tables.settings.kickSlots ≤ s.kickCount →
        exec (.keyTest tag key velocity) s = .next
          { replied.withKey k { c with state := .waiting, waitStart := some s.deviceTime } with
            waitList := insertWait ⟨.key k, .key r.priority, s.deviceTime⟩ s.waitList })
    ∧ (s.faulted (keyGroup k) = true →
        exec (.keyTest tag key velocity) s = .next ((replied.withKey k (IdleKey c)).bump .faultDrop))

/-! Pedal channels -/

/-- The phases of a pedal channel: PEDAL_FIRE kicks or waits at class PEDAL; PEDAL_KICK_END holds, or
releases a press whose lift time is reached, and hands its slot on to the channels waiting; PEDAL_LIFT releases;
PEDAL_RELEASE_END after 20 ms leaves the channel IDLE or arms the pending press, which kicks or waits at once when its
fire time is reached (section 8.4). -/
def Obligations.PedalChannelPhases : Prop :=
  ∀ (s : State) (p : Pedal), s.power = .running →
    let c := s.pedal p
    let free := s.kickCount < s.tables.settings.kickSlots
    let kicked (d : PedalChannel) (f : Press) : PedalChannel :=
      { d with state := .kick, current := some f, kickEnd := some (s.deviceTime + f.kick), waitStart := none, duty := 255 }
    let released : PedalChannel :=
      { c with state := .release, kickEnd := none, waitStart := none, releaseEnd := some (s.deviceTime + 20000), duty := 0 }
    let lifted (f : Press) : Prop := ∃ t, f.lift = some t ∧ reached s.roll.rollTime t = true
    (∀ e rest f, c.state = .armed → c.current = some f → s.fireList = e :: rest → e.channel = .pedal p →
        reached s.roll.rollTime e.time = true →
        (free → exec (.pedalFire p) s = .next { s.withPedal p (kicked c f) with fireList := rest })
        ∧ (¬free → exec (.pedalFire p) s = .next
            { s.withPedal p { c with state := .waiting, waitStart := some s.deviceTime } with
              fireList := rest, waitList := insertWait ⟨.pedal p, .pedal, s.deviceTime⟩ s.waitList }))
    ∧ (∀ f e, c.state = .kick → c.current = some f → c.kickEnd = some e → e ≤ s.deviceTime →
        let held : PedalChannel := { c with state := .hold, kickEnd := none, duty := (s.pedalRecord p).holdDuty }
        (lifted f → exec (.pedalKickEnd p) s = .next (s.withPedal p released).handOn)
        ∧ (¬lifted f → exec (.pedalKickEnd p) s = .next (s.withPedal p held).handOn)
        ∧ (s.waitList = [] → (lifted f → exec (.pedalKickEnd p) s = .next (s.withPedal p released))
            ∧ (¬lifted f → exec (.pedalKickEnd p) s = .next (s.withPedal p held))))
    ∧ (∀ f, c.state = .hold → c.current = some f → lifted f →
        exec (.pedalLift p) s = .next (s.withPedal p released))
    ∧ (∀ e, c.state = .release → c.releaseEnd = some e → e ≤ s.deviceTime →
        (c.pending = none → exec (.pedalReleaseEnd p) s = .next (s.withPedal p ⟨.idle, none, none, none, none, none, 0⟩))
        ∧ (∀ f, c.pending = some f → reached s.roll.rollTime f.fire = false →
            exec (.pedalReleaseEnd p) s = .next
              { s.withPedal p ⟨.armed, some f, none, none, none, none, 0⟩ with
                fireList := insertFire ⟨.pedal p, f.fire⟩ s.fireList })
        ∧ (∀ f, c.pending = some f → reached s.roll.rollTime f.fire = true →
            (free → exec (.pedalReleaseEnd p) s = .next
              (s.withPedal p (kicked ⟨.armed, some f, none, none, none, none, 0⟩ f)))
            ∧ (¬free → exec (.pedalReleaseEnd p) s = .next
              { s.withPedal p ⟨.waiting, some f, none, none, some s.deviceTime, none, 0⟩ with
                waitList := insertWait ⟨.pedal p, .pedal, s.deviceTime⟩ s.waitList })))

/-! Heat and drive-group faults -/

/-- HEAT_COOLING takes CoolPerMs off every key's heat, down to 0; FAULT CLEAR of a mask below 4096 makes
OK every group it names whose line is inactive, and says FAULT-ACTIVE when one that it names stays
FAULTED under an active line, else DONE (sections 7.3, 7.4). -/
def Obligations.HeatCoolsAndFaultsClear : Prop :=
  ∀ s : State, s.power = .running →
    (s.nextCool ≤ s.deviceTime →
        ∃ t, exec .heatCooling s = .next t
          ∧ (∀ k, t.key k = { s.key k with heat := (s.key k).heat - s.tables.settings.coolPerMs })
          ∧ t = { s with keys := t.keys, nextCool := s.nextCool + 1000 })
    ∧ (∀ (tag : Tag) (mask : BitVec 16), s.replyCount < 14 → mask.toNat < 4096 →
        ∃ t, exec (.faultClear tag mask) s = .next t
          ∧ (∀ g : Group, t.faulted g = (s.faulted g && !(mask.getLsbD g.val && !s.faultLines[g.val])))
          ∧ t = { s.validFrame with
              groupFaulted := t.groupFaulted
              link := { s.validFrame.link with queue := s.link.queue ++ [.reply tag [0x32#8,
                if ∃ g : Group, mask.getLsbD g.val = true ∧ s.faulted g = true ∧ s.faultLines[g.val] = true
                then 0x08#8 else 0x00#8]] } })

/-- The fault lines. A line that is active already does nothing; in a group FAULTED already it counts a
repeat fault; in an OK group it counts a group fault, drops every note of the group as a fault drop,
sends its busy channels to RELEASE, takes the group out of both lists and, in group 11, puts the planned
pedals UP and empties the Capture Set; then the slots it freed are handed on to the channels that wait. Going
inactive changes only the line (sections 6.7, 7.2, 7.4, 8.5). That a fault line of a card off or in reset only
records its level is entry 4's, and that hold-released stands in a swept channel is entry 18's. -/
def Obligations.FaultLinesSweepTheirGroup : Prop :=
  ∀ (s : State) (g : Group),
    exec (.faultLineInactive g) s = .next { s with faultLines := s.faultLines.set g.val false g.isLt }
    ∧ (s.faultLines[g.val] = true → exec (.faultLineActive g) s = .next s)
    ∧ (s.faultLines[g.val] = false → s.power ≠ .running →
        exec (.faultLineActive g) s = .next { s with faultLines := s.faultLines.set g.val true g.isLt })
    ∧ (s.faultLines[g.val] = false → s.power = .running → s.faulted g = true →
        ∃ t, exec (.faultLineActive g) s = .next t ∧ Counted s t .repeatFault 1
          ∧ t = { s with faultLines := s.faultLines.set g.val true g.isLt, counters := t.counters })
    ∧ (s.faultLines[g.val] = false → s.power = .running → s.faulted g = false →
        ∃ u : State, exec (.faultLineActive g) s = .next u.handOn
          ∧ u.faultLines = s.faultLines.set g.val true g.isLt
          ∧ (∀ h : Group, u.faulted h = (s.faulted h || decide (h = g)))
          ∧ (∀ k, u.key k = if keyGroup k = g then FaultedKey (s.key k) s.deviceTime (s.record k).repeatGap else s.key k)
          ∧ (g = pedalGroup → (∀ p, u.pedal p = StoppedPedal (s.pedal p) s.deviceTime)
              ∧ u.pedalUnit = { s.pedalUnit with planned := ⟨false, false, false⟩, capture := [], window := none })
          ∧ (g ≠ pedalGroup → u.pedals = s.pedals ∧ u.pedalUnit = s.pedalUnit)
          ∧ (let stays (c : Channel) : Bool := match c with
                | .pedal _ => decide (g ≠ pedalGroup)
                | .key k => decide (keyGroup k ≠ g)
            u.fireList = s.fireList.filter (fun e => stays e.channel)
              ∧ u.waitList = s.waitList.filter (fun e => stays e.channel))
          ∧ (∀ d : Counter, u.counter d = if d = .groupFault then min 65535 (s.counter .groupFault + 1)
              else if d = .faultDrop then min 65535 (s.counter .faultDrop
                + ((List.finRange 88).map (fun k => if keyGroup k = g ∧ (s.key k).state ≠ .idle then
                    (if (s.key k).current.isSome then 1 else 0) + (if (s.key k).pending.isSome then 1 else 0)
                  else 0)).sum)
              else s.counter d)
          ∧ u = { s with
              faultLines := u.faultLines, groupFaulted := u.groupFaulted, counters := u.counters, keys := u.keys
              pedals := u.pedals, pedalUnit := u.pedalUnit, fireList := u.fireList, waitList := u.waitList }
          ∧ (u.waitList = [] → u.handOn = u)
          ∧ (∀ k, keyGroup k = g → u.handOn.key k = u.key k) ∧ (g = pedalGroup → u.handOn.pedals = u.pedals))

/-! Strike sensing -/

/-- A sense edge and a sense deadline, each with its verdict: ignored on a key without a sensor, stray
without a watch, outlier beyond SenseWindow, a match otherwise, which with AdaptEnable corrects the
learned lag by an eighth of the error toward zero within 0 to 20,000; a watch at its deadline is a miss,
which with AdaptEnable raises the velocity floor, and on an unfitted key only closes (Chapter 9). That a watch is a miss at
its deadline, by R155 and R156, where strike 4 of section 9.9 prints a later edge as its outlier, is entry 39's. -/
def Obligations.SenseVerdicts : Prop :=
  ∀ (s : State) (k : Key), s.power = .running →
    let g := s.tables.settings
    let r := s.record k
    let closed := s.withKey k { s.key k with sense := none }
    (r.senseFitted = false → exec (.senseEdge k) s = .next s)
    ∧ (r.senseFitted = true → (s.key k).sense = none →
        ∃ t, exec (.senseEdge k) s = .next t ∧ Counted s t .senseStray 1 ∧ t = { s with counters := t.counters })
    ∧ (∀ w, r.senseFitted = true → (s.key k).sense = some w →
        let e : Int := (s.deviceTime : Int) - w.expected
        ((g.senseWindow : Int) < |e| →
          ∃ t, exec (.senseEdge k) s = .next t ∧ Counted s t .senseOutlier 1 ∧ t = { closed with counters := t.counters })
        ∧ (|e| ≤ (g.senseWindow : Int) → g.adaptEnable = false → exec (.senseEdge k) s = .next closed)
        ∧ (|e| ≤ (g.senseWindow : Int) → g.adaptEnable = true →
          ∃ t, exec (.senseEdge k) s = .next t ∧ Counted s t .senseAdapted 1
            ∧ ((t.record k).lag : Int)
                = max 0 (min 20000 ((r.lag : Int) + (if 0 ≤ e then e / 8 else -(-e / 8))))
            ∧ t.record k = { r with lag := (t.record k).lag } ∧ (∀ j, j ≠ k → t.record j = s.record j)
            ∧ t = { closed with counters := t.counters, tables := { s.tables with keys := t.tables.keys } }))
    ∧ (∀ w, (s.key k).sense = some w → w.expected + g.senseWindow ≤ s.deviceTime →
        (r.senseFitted = false → exec (.senseDeadline k) s = .next closed)
        ∧ (r.senseFitted = true →
          ∃ t, exec (.senseDeadline k) s = .next t ∧ Counted s t .senseMiss 1
            ∧ t.record k = { r with
                vFloor := if g.adaptEnable then min (r.vFloor + g.vStep) (min g.vFloorMax r.vMax) else r.vFloor }
            ∧ (∀ j, j ≠ k → t.record j = s.record j)
            ∧ t = { closed with counters := t.counters, tables := { s.tables with keys := t.tables.keys } }))

/-! Tables and the settings store -/

/-- A TABLE READ that names a table and starts inside it: the entries from the start index in order, each
as the table holds it, as many as the count asks for, the table has and 283 bytes hold, with their number
in the reply; nothing else happens. One that names no table, asks for no entry or starts outside its table is
refused with RANGE (section 11.3). -/
def Obligations.TableReadReplies : Prop :=
  ∀ (s : State) (tag : Tag) (table start count : Byte), s.power = .running → s.replyCount < 14 →
    let refused : Prop :=
      exec (.tableRead tag table start count) s = .next (s.validFrame.queueReply tag 0x21#8 .range [])
    (tableOfByte table = none → refused) ∧ (count = 0 → refused)
    ∧ (∀ n : TableName, tableOfByte table = some n →
      (start.toNat < n.indices.1 ∨ n.indices.2 < start.toNat → refused)
      ∧ (count ≠ 0 → n.indices.1 ≤ start.toNat → start.toNat ≤ n.indices.2 →
        let entry (i : Nat) := s.tables.readEntry n (start.toNat + i)
        let bytes (c : Nat) := ((List.range c).map entry).flatten
        ∃ c : Nat, 0 < c ∧ c ≤ count.toNat ∧ start.toNat + c ≤ n.indices.2 + 1 ∧ (bytes c).length ≤ 283
          ∧ (c < count.toNat → start.toNat + c ≤ n.indices.2 → 283 < (bytes (c + 1)).length)
          ∧ exec (.tableRead tag table start count) s
              = .next (s.validFrame.queueReply tag 0x21#8 .done (table :: start :: BitVec.ofNat 8 c :: bytes c))))

/-- A TABLE WRITE that the roll state and the channels let through, every field of its entries in its range and coded
right, gives tables, and where those pass the cross checks it is taken: every entry of the run reads back as the bytes
written, every other entry of every table as before, swells and heats come down to their new ceilings, every open watch
stands, and the reply is DONE. But a SETTINGS write lets each watch whose deadline by the new SenseWindow is past reach
it: it closes, and a fitted key's is a miss that counts and, with AdaptEnable as written, raises the key's velocity
floor (sections 4.2, 7.3, 9.2, 9.3, 11.1, 11.2). That a deadline of this very moment is left to SENSE_DEADLINE is entry
19's. -/
def Obligations.TableWriteTaken : Prop :=
  ∀ (s : State) (tag : Tag) (table start count : Byte) (entries : List Byte) (n : TableName),
    s.power = .running → s.replyCount < 14 → tableOfByte table = some n →
    entries.length = runSize table start.toNat count.toNat → n.runFits start.toNat count.toNat = true →
    TakesTable s n →
    (∀ i, i < count.toNat → EntryRight n (start.toNat + i)
      ((entries.drop (runSize table start.toNat i)).take (entrySize table (start.toNat + i)))) →
    ∃ w, s.tables.writeRun table n start.toNat count.toNat entries = some w ∧ (CrossChecks w start.toNat count.toNat n →
    let g := w.settings
    let past (k : Key) : Bool := n == .settings && (match (s.key k).sense with
      | some x => decide (x.expected + g.senseWindow < s.deviceTime)
      | none => false)
    let missed (k : Key) : Bool := past k && (s.record k).senseFitted
    ∃ t, exec (.tableWrite tag table start count entries) s = .next t
      ∧ (∀ i, i < count.toNat → t.tables.readEntry n (start.toNat + i)
          = (entries.drop (runSize table start.toNat i)).take (entrySize table (start.toNat + i)))
      ∧ (∀ i, n.indices.1 ≤ i → i ≤ n.indices.2 → (i < start.toNat ∨ start.toNat + count.toNat ≤ i) →
          t.tables.readEntry n i = s.tables.readEntry n i)
      ∧ (∀ (o : TableName) (i : Nat), o ≠ n → (n = .settings → o ≠ .keys) →
          t.tables.readEntry o i = s.tables.readEntry o i)
      ∧ (t.exprBass = { s.exprBass with swell := t.exprBass.swell }
          ∧ t.exprBass.swell = if n = .expr .bass then min s.exprBass.swell (t.tables.exprBass.swellMax * 256)
            else s.exprBass.swell)
      ∧ (t.exprTreble = { s.exprTreble with swell := t.exprTreble.swell }
          ∧ t.exprTreble.swell = if n = .expr .treble then min s.exprTreble.swell (t.tables.exprTreble.swellMax * 256)
            else s.exprTreble.swell)
      ∧ (∀ k, t.key k = { s.key k with
          heat := if n = .settings then min (s.key k).heat t.tables.settings.heatLimit else (s.key k).heat
          sense := if past k then none else (s.key k).sense })
      ∧ (n = .settings → t.tables.settings = g ∧ ∀ k, t.record k =
          if missed k ∧ g.adaptEnable = true then
            { s.record k with vFloor := min ((s.record k).vFloor + g.vStep) (min g.vFloorMax (s.record k).vMax) }
          else s.record k)
      ∧ (∀ d : Counter, t.counter d = if d = .senseMiss ∧ (∃ k, missed k = true)
          then min 65535 (s.counter .senseMiss + (List.finRange 88).countP missed) else s.counter d)
      ∧ t = { s.validFrame with
          link := { s.validFrame.link with queue := s.link.queue ++ [.reply tag [0x20#8, 0x00#8]] }
          tables := t.tables, exprBass := t.exprBass, exprTreble := t.exprTreble, keys := t.keys
          counters := t.counters })

/-- A TABLE WRITE refused changes no table: UNKNOWN for a table byte or a length of no known form, then RANGE for a run
outside its table, then STATE or BUSY where the roll or a busy channel forbids it, then RANGE where an entry has a field
out of its range or its coding broken, and RANGE where every entry is right and the tables that the run gives fail a
cross check (sections 10.4, 11.1, 11.2). -/
def Obligations.TableWriteRefusals : Prop :=
  ∀ (s : State) (tag : Tag) (table start count : Byte) (entries : List Byte), s.power = .running → s.replyCount < 14 →
    let answers (r : ResultCode) : Prop :=
      exec (.tableWrite tag table start count entries) s = .next (s.validFrame.queueReply tag 0x20#8 r [])
    let playing := s.roll.rollState = .playing ∨ s.roll.rollState = .ending
    let idle := (∀ k, (s.key k).state = .idle) ∧ (∀ p, (s.pedal p).state = .idle)
    let right (n : TableName) (i : Nat) : Prop := EntryRight n (start.toNat + i)
      ((entries.drop (runSize table start.toNat i)).take (entrySize table (start.toNat + i)))
    (10 < table.toNat → answers .unknown)
    ∧ (∀ n, tableOfByte table = some n →
        (entries.length ≠ runSize table start.toNat count.toNat → answers .unknown)
        ∧ (entries.length = runSize table start.toNat count.toNat →
          (count.toNat = 0 ∨ start.toNat < n.indices.1 ∨ n.indices.2 < start.toNat + count.toNat - 1 → answers .range)
          ∧ (n.runFits start.toNat count.toNat = true →
            (∀ m, n = .map m → (s.roll.rollState = .leader ∨ (playing ∧ s.holes.activeSet = some m)) → answers .state)
            ∧ (n = .format → s.roll.rollState = .leader → answers .state)
            ∧ (n = .settings → s.roll.rollState ≠ .noRoll → answers .state)
            ∧ (n = .settings → s.roll.rollState = .noRoll → ¬idle → answers .busy)
            ∧ (TakesTable s n → (∃ i, i < count.toNat ∧ ¬right n i) → answers .range)
            ∧ (TakesTable s n → (∀ i, i < count.toNat → right n i) →
                ∃ w, s.tables.writeRun table n start.toNat count.toNat entries = some w
                  ∧ (¬CrossChecks w start.toNat count.toNat n → answers .range)))))

/-- The store's commands taken: STORE SAVE copies the region's tables and STORE LOCKDOWN starts its
write, both without a reply until the operation completes 40 ms and 10 ms later; its completion stores
what it carried, marks a failed read-back, and replies; protect, unprotect and lock set their flags at
once (section 11.4). That a save whose read-back failed leaves its copy with a failing check is entry 8's. -/
def Obligations.StoreCommandsAndCompletions : Prop :=
  ∀ (s : State) (tag : Tag), s.power = .running →
    (s.replyCount < 14 → ∀ (region : Byte) (r : Region), region.toNat = r.val → s.store.op = none →
        (s.region r).lockdown = false →
        ((s.region r).protectedFlag = false → exec (.storeSave tag region) s = .next { s.validFrame with
          store := { s.store with op := some ⟨.save (s.tables.image r), r, tag, s.deviceTime + 40000⟩ } })
        ∧ (s.store.lock = false → exec (.storeLockdown tag region 0xA5#8) s = .next { s.validFrame with
          store := { s.store with op := some ⟨.lockdown, r, tag, s.deviceTime + 10000⟩ } }))
    ∧ (∀ (o : StoreOp) (good : Bool), s.store.op = some o → o.completes ≤ s.deviceTime →
        (∀ copy, o.kind = .save copy → ∃ t, exec (.storeSaveComplete good) s = .next t
          ∧ t.region o.region = { s.region o.region with content := copy, checkGood := good, storeBad := !good }
          ∧ (∀ r, r ≠ o.region → t.region r = s.region r) ∧ t.store.op = none ∧ t.store.lock = s.store.lock
          ∧ t = { s with store := t.store, link := { s.link with
              queue := s.link.queue ++ [.reply o.tag [0x40#8, if good then 0x00#8 else 0x0A#8]] } })
        ∧ (o.kind = .lockdown → ∃ t, exec (.storeLockdownComplete good) s = .next t
          ∧ t.region o.region = { s.region o.region with lockdown := (s.region o.region).lockdown || good }
          ∧ (∀ r, r ≠ o.region → t.region r = s.region r) ∧ t.store.op = none ∧ t.store.lock = s.store.lock
          ∧ t = { s with store := t.store, link := { s.link with
              queue := s.link.queue ++ [.reply o.tag [0x44#8, if good then 0x00#8 else 0x0A#8]] } }))
    ∧ (s.replyCount < 14 →
        (∀ (mask : Byte) (value : Bool), s.store.lock = false →
          ∃ t, exec (if value then .storeProtect tag mask else .storeUnprotect tag mask) s = .next t
            ∧ (∀ r : Region, t.region r = { s.region r with
                protectedFlag := if mask.getLsbD r.val then value else (s.region r).protectedFlag })
            ∧ t.store.lock = false ∧ t.store.op = s.store.op
            ∧ t = { s.validFrame.queueReply tag (if value then 0x41#8 else 0x42#8) .done [] with store := t.store })
        ∧ (exec (.storeLock tag 0x01#8) s = .next
            { s.validFrame.queueReply tag 0x43#8 .done [] with store := { s.store with lock := true } })
        ∧ (s.setupLock = false → exec (.storeLock tag 0x00#8) s = .next
            { s.validFrame.queueReply tag 0x43#8 .done [] with store := { s.store with lock := false } }))

/-! What every step keeps -/

/-- Every step keeps the counters to 16 bits, the edge history to eight pairs, and the Event Queue to
1024 events in the order of section 2.3 (sections 1.3, 2.3, 10.8). -/
def Obligations.RecordsStayBounded : Prop :=
  ∀ s t : State, (CountersBounded s ∧ ScanRecordsBounded s) → step s = .next t →
    CountersBounded t ∧ ScanRecordsBounded t

/-- Every step keeps the return queue to 14 replies, reservation counted, one WINDOW and one STATE report (sections
10.4, 10.5). -/
def Obligations.ReturnQueueStaysShaped : Prop :=
  ∀ s t : State, ReturnQueueShaped s → step s = .next t → ReturnQueueShaped t

/-- Every step keeps each key's heat within HeatLimit and each swell within its ceiling (sections 4.2, 4.3, 7.3). -/
def Obligations.HeatAndSwellStayWithinLimits : Prop :=
  ∀ s t : State, AccountsBounded s → step s = .next t → AccountsBounded t

/-- Every step keeps the Fire List and the Kick Wait List in step with the channels in ARMED and WAITING, and the Kick
Wait List in grant order (sections 6.2, 7.2). -/
def Obligations.ListsStayMatchedToStates : Prop :=
  ∀ s t : State, (ListsMatchStates s ∧ WaitListOrdered s) → step s = .next t → ListsMatchStates t ∧ WaitListOrdered t

/-- Every step keeps each channel's record in the form its state calls for (sections 6.1, 6.3, 6.6, 8.4). -/
def Obligations.ChannelsStayInForm : Prop :=
  ∀ s t : State, ListsMatchStates s → ChannelsInForm s → step s = .next t → ChannelsInForm t

/-- Every step keeps the kick count within KickSlots, with nobody waiting while a slot is free (section 7.2). -/
def Obligations.KickSlotsAreNeverExceeded : Prop :=
  ∀ s t : State, ListsMatchStates s → SlotsBounded s → step s = .next t → SlotsBounded t

/-- No step starts a kick, a wait or an arming in a FAULTED drive group (section 7.4). -/
def Obligations.FaultedGroupsStayAtRest : Prop :=
  ∀ s t : State, ListsMatchStates s → FaultedGroupsRest s → step s = .next t → FaultedGroupsRest t

/-- Every step keeps every field of the tables in its range and their cross checks, in the working tables and in the
store's images: within a map set no function twice, NR - NL at least 64 and every centre inside NL to NR; the same of
the code columns in FORMAT; the velocity map nondecreasing; every Lead at most PlanLead. And each VFloor at or below
VFloorMax in the working KEYS table, and at or below VMax there and in the store's KEYS images (sections 2.1, 2.5, 4.2,
5.1, 8.1, 9.5, 11.1, 11.2). With the ranges it keeps the run lengths that RollRecordsStayInForm asks for, and VFloor
from 50 and KickMax from 1,000 up, which NoteNumbersByTheirFormulas and KeyTestStrikes ask for. -/
def Obligations.TablesKeepTheirChecks : Prop :=
  ∀ s t : State, (TablesConsistent s ∧ FloorsBounded s) → step s = .next t →
    (TablesConsistent t ∧ FloorsBounded t) ∧ RunsBounded t
      ∧ ∀ k, 50 ≤ (t.record k).vFloor ∧ 1000 ≤ (t.record k).kickMax

/-- Every step keeps the roll's records in the form its state calls for: one to eight tempo segments of ascending origin
and an active set in PLAYING and ENDING, neither otherwise; no event queued outside PLAYING, and in PLAYING every queued
event above the plan line, so that planning finds the next line's events at the head; no captured key while the planned
sostenuto is UP. And with run lengths of at most 8, which TablesKeepTheirChecks keeps, every step that refuses no line
its events keeps the margin of section 2.6, under which every event the next line makes lies above the plan line
(sections 2.2, 2.3, 2.6, 3.3, 3.6, 8.6). What becomes of an event that a line refused twice has left without that margin
is entry 37's. -/
def Obligations.RollRecordsStayInForm : Prop :=
  (∀ s t : State, (RollRecordsInForm s ∧ ScanRecordsBounded s) → step s = .next t → RollRecordsInForm t)
  ∧ (∀ s t : State, (RollRecordsInForm s ∧ RunsBounded s ∧ MarginHolds s) → step s = .next t →
      s.counter .eventOverflow < 65535 → t.counter .eventOverflow ≤ s.counter .eventOverflow → MarginHolds t)
  ∧ (∀ (s : State) (m : MapNo) (samples : List Bool), MarginHolds s → s.roll.rollState = .playing →
      s.holes.activeSet = some m →
      ∀ e ∈ (debounceLine 1 s.tables.maps[m.val].columns.toList s.holes.debounce samples (s.front.newest + 1).toNat).2,
        s.roll.planLine < (e.line : Int))

/-- A region that is locked down keeps its flag, its content and its check through every step, power
failure and reset included, and no operation is ever in flight on it (section 11.4). -/
def Obligations.LockdownIsForEver : Prop :=
  ∀ s t : State, LockdownRespected s → step s = .next t →
    LockdownRespected t
      ∧ ∀ r : Region, (s.region r).lockdown = true →
          (t.region r).lockdown = true ∧ (t.region r).content = (s.region r).content
            ∧ (t.region r).checkGood = (s.region r).checkGood

/-- The state right after power-on meets every invariant above. Its store, blank, is the model's choice, entry 5. -/
def Obligations.ResetMeetsTheInvariants : Prop :=
  CountersBounded State.reset ∧ ScanRecordsBounded State.reset ∧ ReturnQueueShaped State.reset
    ∧ AccountsBounded State.reset ∧ ListsMatchStates State.reset ∧ WaitListOrdered State.reset
    ∧ ChannelsInForm State.reset ∧ RollRecordsInForm State.reset ∧ MarginHolds State.reset ∧ RunsBounded State.reset
    ∧ SlotsBounded State.reset ∧ FaultedGroupsRest State.reset ∧ TablesConsistent State.reset
    ∧ FloorsBounded State.reset ∧ LockdownRespected State.reset
end

