-- ==== Sys2Proof/Laws/State.lean ====
section
/-! SUPPORT. One lemma per field per update of the state, and what the channel and counter accessors read after one. -/

namespace Sys2Proof.Machine

variable (s : State)

/-! bumpBy -/

@[simp] theorem State.bumpBy_power (c : Counter) (n : Nat) : (s.bumpBy c n).power = s.power := rfl
@[simp] theorem State.bumpBy_deviceTime (c : Counter) (n : Nat) : (s.bumpBy c n).deviceTime = s.deviceTime := rfl
@[simp] theorem State.bumpBy_nextCool (c : Counter) (n : Nat) : (s.bumpBy c n).nextCool = s.nextCool := rfl
@[simp] theorem State.bumpBy_freeIndex (c : Counter) (n : Nat) : (s.bumpBy c n).freeIndex = s.freeIndex := rfl
@[simp] theorem State.bumpBy_setupLock (c : Counter) (n : Nat) : (s.bumpBy c n).setupLock = s.setupLock := rfl
@[simp] theorem State.bumpBy_link (c : Counter) (n : Nat) : (s.bumpBy c n).link = s.link := rfl
@[simp] theorem State.bumpBy_front (c : Counter) (n : Nat) : (s.bumpBy c n).front = s.front := rfl
@[simp] theorem State.bumpBy_holes (c : Counter) (n : Nat) : (s.bumpBy c n).holes = s.holes := rfl
@[simp] theorem State.bumpBy_roll (c : Counter) (n : Nat) : (s.bumpBy c n).roll = s.roll := rfl
@[simp] theorem State.bumpBy_exprBass (c : Counter) (n : Nat) : (s.bumpBy c n).exprBass = s.exprBass := rfl
@[simp] theorem State.bumpBy_exprTreble (c : Counter) (n : Nat) : (s.bumpBy c n).exprTreble = s.exprTreble := rfl
@[simp] theorem State.bumpBy_pedalUnit (c : Counter) (n : Nat) : (s.bumpBy c n).pedalUnit = s.pedalUnit := rfl
@[simp] theorem State.bumpBy_keys (c : Counter) (n : Nat) : (s.bumpBy c n).keys = s.keys := rfl
@[simp] theorem State.bumpBy_pedals (c : Counter) (n : Nat) : (s.bumpBy c n).pedals = s.pedals := rfl
@[simp] theorem State.bumpBy_fireList (c : Counter) (n : Nat) : (s.bumpBy c n).fireList = s.fireList := rfl
@[simp] theorem State.bumpBy_waitList (c : Counter) (n : Nat) : (s.bumpBy c n).waitList = s.waitList := rfl
@[simp] theorem State.bumpBy_groupFaulted (c : Counter) (n : Nat) : (s.bumpBy c n).groupFaulted = s.groupFaulted := rfl
@[simp] theorem State.bumpBy_faultLines (c : Counter) (n : Nat) : (s.bumpBy c n).faultLines = s.faultLines := rfl
@[simp] theorem State.bumpBy_tables (c : Counter) (n : Nat) : (s.bumpBy c n).tables = s.tables := rfl
@[simp] theorem State.bumpBy_store (c : Counter) (n : Nat) : (s.bumpBy c n).store = s.store := rfl
@[simp] theorem State.bumpBy_pending (c : Counter) (n : Nat) : (s.bumpBy c n).pending = s.pending := rfl

/-! bump -/

@[simp] theorem State.bump_power (c : Counter) : (s.bump c).power = s.power := rfl
@[simp] theorem State.bump_deviceTime (c : Counter) : (s.bump c).deviceTime = s.deviceTime := rfl
@[simp] theorem State.bump_nextCool (c : Counter) : (s.bump c).nextCool = s.nextCool := rfl
@[simp] theorem State.bump_freeIndex (c : Counter) : (s.bump c).freeIndex = s.freeIndex := rfl
@[simp] theorem State.bump_setupLock (c : Counter) : (s.bump c).setupLock = s.setupLock := rfl
@[simp] theorem State.bump_link (c : Counter) : (s.bump c).link = s.link := rfl
@[simp] theorem State.bump_front (c : Counter) : (s.bump c).front = s.front := rfl
@[simp] theorem State.bump_holes (c : Counter) : (s.bump c).holes = s.holes := rfl
@[simp] theorem State.bump_roll (c : Counter) : (s.bump c).roll = s.roll := rfl
@[simp] theorem State.bump_exprBass (c : Counter) : (s.bump c).exprBass = s.exprBass := rfl
@[simp] theorem State.bump_exprTreble (c : Counter) : (s.bump c).exprTreble = s.exprTreble := rfl
@[simp] theorem State.bump_pedalUnit (c : Counter) : (s.bump c).pedalUnit = s.pedalUnit := rfl
@[simp] theorem State.bump_keys (c : Counter) : (s.bump c).keys = s.keys := rfl
@[simp] theorem State.bump_pedals (c : Counter) : (s.bump c).pedals = s.pedals := rfl
@[simp] theorem State.bump_fireList (c : Counter) : (s.bump c).fireList = s.fireList := rfl
@[simp] theorem State.bump_waitList (c : Counter) : (s.bump c).waitList = s.waitList := rfl
@[simp] theorem State.bump_groupFaulted (c : Counter) : (s.bump c).groupFaulted = s.groupFaulted := rfl
@[simp] theorem State.bump_faultLines (c : Counter) : (s.bump c).faultLines = s.faultLines := rfl
@[simp] theorem State.bump_tables (c : Counter) : (s.bump c).tables = s.tables := rfl
@[simp] theorem State.bump_store (c : Counter) : (s.bump c).store = s.store := rfl
@[simp] theorem State.bump_pending (c : Counter) : (s.bump c).pending = s.pending := rfl

/-! withKey -/

@[simp] theorem State.withKey_power (k : Key) (c : KeyChannel) : (s.withKey k c).power = s.power := rfl
@[simp] theorem State.withKey_deviceTime (k : Key) (c : KeyChannel) : (s.withKey k c).deviceTime = s.deviceTime := rfl
@[simp] theorem State.withKey_nextCool (k : Key) (c : KeyChannel) : (s.withKey k c).nextCool = s.nextCool := rfl
@[simp] theorem State.withKey_freeIndex (k : Key) (c : KeyChannel) : (s.withKey k c).freeIndex = s.freeIndex := rfl
@[simp] theorem State.withKey_setupLock (k : Key) (c : KeyChannel) : (s.withKey k c).setupLock = s.setupLock := rfl
@[simp] theorem State.withKey_link (k : Key) (c : KeyChannel) : (s.withKey k c).link = s.link := rfl
@[simp] theorem State.withKey_counters (k : Key) (c : KeyChannel) : (s.withKey k c).counters = s.counters := rfl
@[simp] theorem State.withKey_front (k : Key) (c : KeyChannel) : (s.withKey k c).front = s.front := rfl
@[simp] theorem State.withKey_holes (k : Key) (c : KeyChannel) : (s.withKey k c).holes = s.holes := rfl
@[simp] theorem State.withKey_roll (k : Key) (c : KeyChannel) : (s.withKey k c).roll = s.roll := rfl
@[simp] theorem State.withKey_exprBass (k : Key) (c : KeyChannel) : (s.withKey k c).exprBass = s.exprBass := rfl
@[simp] theorem State.withKey_exprTreble (k : Key) (c : KeyChannel) : (s.withKey k c).exprTreble = s.exprTreble := rfl
@[simp] theorem State.withKey_pedalUnit (k : Key) (c : KeyChannel) : (s.withKey k c).pedalUnit = s.pedalUnit := rfl
@[simp] theorem State.withKey_pedals (k : Key) (c : KeyChannel) : (s.withKey k c).pedals = s.pedals := rfl
@[simp] theorem State.withKey_fireList (k : Key) (c : KeyChannel) : (s.withKey k c).fireList = s.fireList := rfl
@[simp] theorem State.withKey_waitList (k : Key) (c : KeyChannel) : (s.withKey k c).waitList = s.waitList := rfl
@[simp] theorem State.withKey_groupFaulted (k : Key) (c : KeyChannel) : (s.withKey k c).groupFaulted = s.groupFaulted := rfl
@[simp] theorem State.withKey_faultLines (k : Key) (c : KeyChannel) : (s.withKey k c).faultLines = s.faultLines := rfl
@[simp] theorem State.withKey_tables (k : Key) (c : KeyChannel) : (s.withKey k c).tables = s.tables := rfl
@[simp] theorem State.withKey_store (k : Key) (c : KeyChannel) : (s.withKey k c).store = s.store := rfl
@[simp] theorem State.withKey_pending (k : Key) (c : KeyChannel) : (s.withKey k c).pending = s.pending := rfl

/-! mapKeys -/

@[simp] theorem State.mapKeys_power (f : Key → KeyChannel → KeyChannel) : (s.mapKeys f).power = s.power := by simp only [State.mapKeys]
@[simp] theorem State.mapKeys_deviceTime (f : Key → KeyChannel → KeyChannel) : (s.mapKeys f).deviceTime = s.deviceTime := by simp only [State.mapKeys]
@[simp] theorem State.mapKeys_nextCool (f : Key → KeyChannel → KeyChannel) : (s.mapKeys f).nextCool = s.nextCool := by simp only [State.mapKeys]
@[simp] theorem State.mapKeys_freeIndex (f : Key → KeyChannel → KeyChannel) : (s.mapKeys f).freeIndex = s.freeIndex := by simp only [State.mapKeys]
@[simp] theorem State.mapKeys_setupLock (f : Key → KeyChannel → KeyChannel) : (s.mapKeys f).setupLock = s.setupLock := by simp only [State.mapKeys]
@[simp] theorem State.mapKeys_link (f : Key → KeyChannel → KeyChannel) : (s.mapKeys f).link = s.link := by simp only [State.mapKeys]
@[simp] theorem State.mapKeys_counters (f : Key → KeyChannel → KeyChannel) : (s.mapKeys f).counters = s.counters := by simp only [State.mapKeys]
@[simp] theorem State.mapKeys_front (f : Key → KeyChannel → KeyChannel) : (s.mapKeys f).front = s.front := by simp only [State.mapKeys]
@[simp] theorem State.mapKeys_holes (f : Key → KeyChannel → KeyChannel) : (s.mapKeys f).holes = s.holes := by simp only [State.mapKeys]
@[simp] theorem State.mapKeys_roll (f : Key → KeyChannel → KeyChannel) : (s.mapKeys f).roll = s.roll := by simp only [State.mapKeys]
@[simp] theorem State.mapKeys_exprBass (f : Key → KeyChannel → KeyChannel) : (s.mapKeys f).exprBass = s.exprBass := by simp only [State.mapKeys]
@[simp] theorem State.mapKeys_exprTreble (f : Key → KeyChannel → KeyChannel) : (s.mapKeys f).exprTreble = s.exprTreble := by simp only [State.mapKeys]
@[simp] theorem State.mapKeys_pedalUnit (f : Key → KeyChannel → KeyChannel) : (s.mapKeys f).pedalUnit = s.pedalUnit := by simp only [State.mapKeys]
@[simp] theorem State.mapKeys_pedals (f : Key → KeyChannel → KeyChannel) : (s.mapKeys f).pedals = s.pedals := by simp only [State.mapKeys]
@[simp] theorem State.mapKeys_fireList (f : Key → KeyChannel → KeyChannel) : (s.mapKeys f).fireList = s.fireList := by simp only [State.mapKeys]
@[simp] theorem State.mapKeys_waitList (f : Key → KeyChannel → KeyChannel) : (s.mapKeys f).waitList = s.waitList := by simp only [State.mapKeys]
@[simp] theorem State.mapKeys_groupFaulted (f : Key → KeyChannel → KeyChannel) : (s.mapKeys f).groupFaulted = s.groupFaulted := by simp only [State.mapKeys]
@[simp] theorem State.mapKeys_faultLines (f : Key → KeyChannel → KeyChannel) : (s.mapKeys f).faultLines = s.faultLines := by simp only [State.mapKeys]
@[simp] theorem State.mapKeys_tables (f : Key → KeyChannel → KeyChannel) : (s.mapKeys f).tables = s.tables := by simp only [State.mapKeys]
@[simp] theorem State.mapKeys_store (f : Key → KeyChannel → KeyChannel) : (s.mapKeys f).store = s.store := by simp only [State.mapKeys]
@[simp] theorem State.mapKeys_pending (f : Key → KeyChannel → KeyChannel) : (s.mapKeys f).pending = s.pending := by simp only [State.mapKeys]

/-! withPedal -/

@[simp] theorem State.withPedal_power (p : Pedal) (c : PedalChannel) : (s.withPedal p c).power = s.power := rfl
@[simp] theorem State.withPedal_deviceTime (p : Pedal) (c : PedalChannel) : (s.withPedal p c).deviceTime = s.deviceTime := rfl
@[simp] theorem State.withPedal_nextCool (p : Pedal) (c : PedalChannel) : (s.withPedal p c).nextCool = s.nextCool := rfl
@[simp] theorem State.withPedal_freeIndex (p : Pedal) (c : PedalChannel) : (s.withPedal p c).freeIndex = s.freeIndex := rfl
@[simp] theorem State.withPedal_setupLock (p : Pedal) (c : PedalChannel) : (s.withPedal p c).setupLock = s.setupLock := rfl
@[simp] theorem State.withPedal_link (p : Pedal) (c : PedalChannel) : (s.withPedal p c).link = s.link := rfl
@[simp] theorem State.withPedal_counters (p : Pedal) (c : PedalChannel) : (s.withPedal p c).counters = s.counters := rfl
@[simp] theorem State.withPedal_front (p : Pedal) (c : PedalChannel) : (s.withPedal p c).front = s.front := rfl
@[simp] theorem State.withPedal_holes (p : Pedal) (c : PedalChannel) : (s.withPedal p c).holes = s.holes := rfl
@[simp] theorem State.withPedal_roll (p : Pedal) (c : PedalChannel) : (s.withPedal p c).roll = s.roll := rfl
@[simp] theorem State.withPedal_exprBass (p : Pedal) (c : PedalChannel) : (s.withPedal p c).exprBass = s.exprBass := rfl
@[simp] theorem State.withPedal_exprTreble (p : Pedal) (c : PedalChannel) : (s.withPedal p c).exprTreble = s.exprTreble := rfl
@[simp] theorem State.withPedal_pedalUnit (p : Pedal) (c : PedalChannel) : (s.withPedal p c).pedalUnit = s.pedalUnit := rfl
@[simp] theorem State.withPedal_keys (p : Pedal) (c : PedalChannel) : (s.withPedal p c).keys = s.keys := rfl
@[simp] theorem State.withPedal_fireList (p : Pedal) (c : PedalChannel) : (s.withPedal p c).fireList = s.fireList := rfl
@[simp] theorem State.withPedal_waitList (p : Pedal) (c : PedalChannel) : (s.withPedal p c).waitList = s.waitList := rfl
@[simp] theorem State.withPedal_groupFaulted (p : Pedal) (c : PedalChannel) : (s.withPedal p c).groupFaulted = s.groupFaulted := rfl
@[simp] theorem State.withPedal_faultLines (p : Pedal) (c : PedalChannel) : (s.withPedal p c).faultLines = s.faultLines := rfl
@[simp] theorem State.withPedal_tables (p : Pedal) (c : PedalChannel) : (s.withPedal p c).tables = s.tables := rfl
@[simp] theorem State.withPedal_store (p : Pedal) (c : PedalChannel) : (s.withPedal p c).store = s.store := rfl
@[simp] theorem State.withPedal_pending (p : Pedal) (c : PedalChannel) : (s.withPedal p c).pending = s.pending := rfl

/-! mapPedals -/

@[simp] theorem State.mapPedals_power (f : PedalChannel → PedalChannel) : (s.mapPedals f).power = s.power := rfl
@[simp] theorem State.mapPedals_deviceTime (f : PedalChannel → PedalChannel) : (s.mapPedals f).deviceTime = s.deviceTime := rfl
@[simp] theorem State.mapPedals_nextCool (f : PedalChannel → PedalChannel) : (s.mapPedals f).nextCool = s.nextCool := rfl
@[simp] theorem State.mapPedals_freeIndex (f : PedalChannel → PedalChannel) : (s.mapPedals f).freeIndex = s.freeIndex := rfl
@[simp] theorem State.mapPedals_setupLock (f : PedalChannel → PedalChannel) : (s.mapPedals f).setupLock = s.setupLock := rfl
@[simp] theorem State.mapPedals_link (f : PedalChannel → PedalChannel) : (s.mapPedals f).link = s.link := rfl
@[simp] theorem State.mapPedals_counters (f : PedalChannel → PedalChannel) : (s.mapPedals f).counters = s.counters := rfl
@[simp] theorem State.mapPedals_front (f : PedalChannel → PedalChannel) : (s.mapPedals f).front = s.front := rfl
@[simp] theorem State.mapPedals_holes (f : PedalChannel → PedalChannel) : (s.mapPedals f).holes = s.holes := rfl
@[simp] theorem State.mapPedals_roll (f : PedalChannel → PedalChannel) : (s.mapPedals f).roll = s.roll := rfl
@[simp] theorem State.mapPedals_exprBass (f : PedalChannel → PedalChannel) : (s.mapPedals f).exprBass = s.exprBass := rfl
@[simp] theorem State.mapPedals_exprTreble (f : PedalChannel → PedalChannel) : (s.mapPedals f).exprTreble = s.exprTreble := rfl
@[simp] theorem State.mapPedals_pedalUnit (f : PedalChannel → PedalChannel) : (s.mapPedals f).pedalUnit = s.pedalUnit := rfl
@[simp] theorem State.mapPedals_keys (f : PedalChannel → PedalChannel) : (s.mapPedals f).keys = s.keys := rfl
@[simp] theorem State.mapPedals_fireList (f : PedalChannel → PedalChannel) : (s.mapPedals f).fireList = s.fireList := rfl
@[simp] theorem State.mapPedals_waitList (f : PedalChannel → PedalChannel) : (s.mapPedals f).waitList = s.waitList := rfl
@[simp] theorem State.mapPedals_groupFaulted (f : PedalChannel → PedalChannel) : (s.mapPedals f).groupFaulted = s.groupFaulted := rfl
@[simp] theorem State.mapPedals_faultLines (f : PedalChannel → PedalChannel) : (s.mapPedals f).faultLines = s.faultLines := rfl
@[simp] theorem State.mapPedals_tables (f : PedalChannel → PedalChannel) : (s.mapPedals f).tables = s.tables := rfl
@[simp] theorem State.mapPedals_store (f : PedalChannel → PedalChannel) : (s.mapPedals f).store = s.store := rfl
@[simp] theorem State.mapPedals_pending (f : PedalChannel → PedalChannel) : (s.mapPedals f).pending = s.pending := rfl

/-! withRecord -/

@[simp] theorem State.withRecord_power (k : Key) (r : KeyRecord) : (s.withRecord k r).power = s.power := rfl
@[simp] theorem State.withRecord_deviceTime (k : Key) (r : KeyRecord) : (s.withRecord k r).deviceTime = s.deviceTime := rfl
@[simp] theorem State.withRecord_nextCool (k : Key) (r : KeyRecord) : (s.withRecord k r).nextCool = s.nextCool := rfl
@[simp] theorem State.withRecord_freeIndex (k : Key) (r : KeyRecord) : (s.withRecord k r).freeIndex = s.freeIndex := rfl
@[simp] theorem State.withRecord_setupLock (k : Key) (r : KeyRecord) : (s.withRecord k r).setupLock = s.setupLock := rfl
@[simp] theorem State.withRecord_link (k : Key) (r : KeyRecord) : (s.withRecord k r).link = s.link := rfl
@[simp] theorem State.withRecord_counters (k : Key) (r : KeyRecord) : (s.withRecord k r).counters = s.counters := rfl
@[simp] theorem State.withRecord_front (k : Key) (r : KeyRecord) : (s.withRecord k r).front = s.front := rfl
@[simp] theorem State.withRecord_holes (k : Key) (r : KeyRecord) : (s.withRecord k r).holes = s.holes := rfl
@[simp] theorem State.withRecord_roll (k : Key) (r : KeyRecord) : (s.withRecord k r).roll = s.roll := rfl
@[simp] theorem State.withRecord_exprBass (k : Key) (r : KeyRecord) : (s.withRecord k r).exprBass = s.exprBass := rfl
@[simp] theorem State.withRecord_exprTreble (k : Key) (r : KeyRecord) : (s.withRecord k r).exprTreble = s.exprTreble := rfl
@[simp] theorem State.withRecord_pedalUnit (k : Key) (r : KeyRecord) : (s.withRecord k r).pedalUnit = s.pedalUnit := rfl
@[simp] theorem State.withRecord_keys (k : Key) (r : KeyRecord) : (s.withRecord k r).keys = s.keys := rfl
@[simp] theorem State.withRecord_pedals (k : Key) (r : KeyRecord) : (s.withRecord k r).pedals = s.pedals := rfl
@[simp] theorem State.withRecord_fireList (k : Key) (r : KeyRecord) : (s.withRecord k r).fireList = s.fireList := rfl
@[simp] theorem State.withRecord_waitList (k : Key) (r : KeyRecord) : (s.withRecord k r).waitList = s.waitList := rfl
@[simp] theorem State.withRecord_groupFaulted (k : Key) (r : KeyRecord) : (s.withRecord k r).groupFaulted = s.groupFaulted := rfl
@[simp] theorem State.withRecord_faultLines (k : Key) (r : KeyRecord) : (s.withRecord k r).faultLines = s.faultLines := rfl
@[simp] theorem State.withRecord_store (k : Key) (r : KeyRecord) : (s.withRecord k r).store = s.store := rfl
@[simp] theorem State.withRecord_pending (k : Key) (r : KeyRecord) : (s.withRecord k r).pending = s.pending := rfl

/-! armFire -/

@[simp] theorem State.armFire_power (c : Channel) (t : RollTime) : (s.armFire c t).power = s.power := rfl
@[simp] theorem State.armFire_deviceTime (c : Channel) (t : RollTime) : (s.armFire c t).deviceTime = s.deviceTime := rfl
@[simp] theorem State.armFire_nextCool (c : Channel) (t : RollTime) : (s.armFire c t).nextCool = s.nextCool := rfl
@[simp] theorem State.armFire_freeIndex (c : Channel) (t : RollTime) : (s.armFire c t).freeIndex = s.freeIndex := rfl
@[simp] theorem State.armFire_setupLock (c : Channel) (t : RollTime) : (s.armFire c t).setupLock = s.setupLock := rfl
@[simp] theorem State.armFire_link (c : Channel) (t : RollTime) : (s.armFire c t).link = s.link := rfl
@[simp] theorem State.armFire_counters (c : Channel) (t : RollTime) : (s.armFire c t).counters = s.counters := rfl
@[simp] theorem State.armFire_front (c : Channel) (t : RollTime) : (s.armFire c t).front = s.front := rfl
@[simp] theorem State.armFire_holes (c : Channel) (t : RollTime) : (s.armFire c t).holes = s.holes := rfl
@[simp] theorem State.armFire_roll (c : Channel) (t : RollTime) : (s.armFire c t).roll = s.roll := rfl
@[simp] theorem State.armFire_exprBass (c : Channel) (t : RollTime) : (s.armFire c t).exprBass = s.exprBass := rfl
@[simp] theorem State.armFire_exprTreble (c : Channel) (t : RollTime) : (s.armFire c t).exprTreble = s.exprTreble := rfl
@[simp] theorem State.armFire_pedalUnit (c : Channel) (t : RollTime) : (s.armFire c t).pedalUnit = s.pedalUnit := rfl
@[simp] theorem State.armFire_keys (c : Channel) (t : RollTime) : (s.armFire c t).keys = s.keys := rfl
@[simp] theorem State.armFire_pedals (c : Channel) (t : RollTime) : (s.armFire c t).pedals = s.pedals := rfl
@[simp] theorem State.armFire_waitList (c : Channel) (t : RollTime) : (s.armFire c t).waitList = s.waitList := rfl
@[simp] theorem State.armFire_groupFaulted (c : Channel) (t : RollTime) : (s.armFire c t).groupFaulted = s.groupFaulted := rfl
@[simp] theorem State.armFire_faultLines (c : Channel) (t : RollTime) : (s.armFire c t).faultLines = s.faultLines := rfl
@[simp] theorem State.armFire_tables (c : Channel) (t : RollTime) : (s.armFire c t).tables = s.tables := rfl
@[simp] theorem State.armFire_store (c : Channel) (t : RollTime) : (s.armFire c t).store = s.store := rfl
@[simp] theorem State.armFire_pending (c : Channel) (t : RollTime) : (s.armFire c t).pending = s.pending := rfl

/-! dropFire -/

@[simp] theorem State.dropFire_power (c : Channel) : (s.dropFire c).power = s.power := rfl
@[simp] theorem State.dropFire_deviceTime (c : Channel) : (s.dropFire c).deviceTime = s.deviceTime := rfl
@[simp] theorem State.dropFire_nextCool (c : Channel) : (s.dropFire c).nextCool = s.nextCool := rfl
@[simp] theorem State.dropFire_freeIndex (c : Channel) : (s.dropFire c).freeIndex = s.freeIndex := rfl
@[simp] theorem State.dropFire_setupLock (c : Channel) : (s.dropFire c).setupLock = s.setupLock := rfl
@[simp] theorem State.dropFire_link (c : Channel) : (s.dropFire c).link = s.link := rfl
@[simp] theorem State.dropFire_counters (c : Channel) : (s.dropFire c).counters = s.counters := rfl
@[simp] theorem State.dropFire_front (c : Channel) : (s.dropFire c).front = s.front := rfl
@[simp] theorem State.dropFire_holes (c : Channel) : (s.dropFire c).holes = s.holes := rfl
@[simp] theorem State.dropFire_roll (c : Channel) : (s.dropFire c).roll = s.roll := rfl
@[simp] theorem State.dropFire_exprBass (c : Channel) : (s.dropFire c).exprBass = s.exprBass := rfl
@[simp] theorem State.dropFire_exprTreble (c : Channel) : (s.dropFire c).exprTreble = s.exprTreble := rfl
@[simp] theorem State.dropFire_pedalUnit (c : Channel) : (s.dropFire c).pedalUnit = s.pedalUnit := rfl
@[simp] theorem State.dropFire_keys (c : Channel) : (s.dropFire c).keys = s.keys := rfl
@[simp] theorem State.dropFire_pedals (c : Channel) : (s.dropFire c).pedals = s.pedals := rfl
@[simp] theorem State.dropFire_waitList (c : Channel) : (s.dropFire c).waitList = s.waitList := rfl
@[simp] theorem State.dropFire_groupFaulted (c : Channel) : (s.dropFire c).groupFaulted = s.groupFaulted := rfl
@[simp] theorem State.dropFire_faultLines (c : Channel) : (s.dropFire c).faultLines = s.faultLines := rfl
@[simp] theorem State.dropFire_tables (c : Channel) : (s.dropFire c).tables = s.tables := rfl
@[simp] theorem State.dropFire_store (c : Channel) : (s.dropFire c).store = s.store := rfl
@[simp] theorem State.dropFire_pending (c : Channel) : (s.dropFire c).pending = s.pending := rfl

/-! joinWait -/

@[simp] theorem State.joinWait_power (c : Channel) (w : WaitClass) : (s.joinWait c w).power = s.power := rfl
@[simp] theorem State.joinWait_deviceTime (c : Channel) (w : WaitClass) : (s.joinWait c w).deviceTime = s.deviceTime := rfl
@[simp] theorem State.joinWait_nextCool (c : Channel) (w : WaitClass) : (s.joinWait c w).nextCool = s.nextCool := rfl
@[simp] theorem State.joinWait_freeIndex (c : Channel) (w : WaitClass) : (s.joinWait c w).freeIndex = s.freeIndex := rfl
@[simp] theorem State.joinWait_setupLock (c : Channel) (w : WaitClass) : (s.joinWait c w).setupLock = s.setupLock := rfl
@[simp] theorem State.joinWait_link (c : Channel) (w : WaitClass) : (s.joinWait c w).link = s.link := rfl
@[simp] theorem State.joinWait_counters (c : Channel) (w : WaitClass) : (s.joinWait c w).counters = s.counters := rfl
@[simp] theorem State.joinWait_front (c : Channel) (w : WaitClass) : (s.joinWait c w).front = s.front := rfl
@[simp] theorem State.joinWait_holes (c : Channel) (w : WaitClass) : (s.joinWait c w).holes = s.holes := rfl
@[simp] theorem State.joinWait_roll (c : Channel) (w : WaitClass) : (s.joinWait c w).roll = s.roll := rfl
@[simp] theorem State.joinWait_exprBass (c : Channel) (w : WaitClass) : (s.joinWait c w).exprBass = s.exprBass := rfl
@[simp] theorem State.joinWait_exprTreble (c : Channel) (w : WaitClass) : (s.joinWait c w).exprTreble = s.exprTreble := rfl
@[simp] theorem State.joinWait_pedalUnit (c : Channel) (w : WaitClass) : (s.joinWait c w).pedalUnit = s.pedalUnit := rfl
@[simp] theorem State.joinWait_keys (c : Channel) (w : WaitClass) : (s.joinWait c w).keys = s.keys := rfl
@[simp] theorem State.joinWait_pedals (c : Channel) (w : WaitClass) : (s.joinWait c w).pedals = s.pedals := rfl
@[simp] theorem State.joinWait_fireList (c : Channel) (w : WaitClass) : (s.joinWait c w).fireList = s.fireList := rfl
@[simp] theorem State.joinWait_groupFaulted (c : Channel) (w : WaitClass) : (s.joinWait c w).groupFaulted = s.groupFaulted := rfl
@[simp] theorem State.joinWait_faultLines (c : Channel) (w : WaitClass) : (s.joinWait c w).faultLines = s.faultLines := rfl
@[simp] theorem State.joinWait_tables (c : Channel) (w : WaitClass) : (s.joinWait c w).tables = s.tables := rfl
@[simp] theorem State.joinWait_store (c : Channel) (w : WaitClass) : (s.joinWait c w).store = s.store := rfl
@[simp] theorem State.joinWait_pending (c : Channel) (w : WaitClass) : (s.joinWait c w).pending = s.pending := rfl

/-! dropWait -/

@[simp] theorem State.dropWait_power (c : Channel) : (s.dropWait c).power = s.power := rfl
@[simp] theorem State.dropWait_deviceTime (c : Channel) : (s.dropWait c).deviceTime = s.deviceTime := rfl
@[simp] theorem State.dropWait_nextCool (c : Channel) : (s.dropWait c).nextCool = s.nextCool := rfl
@[simp] theorem State.dropWait_freeIndex (c : Channel) : (s.dropWait c).freeIndex = s.freeIndex := rfl
@[simp] theorem State.dropWait_setupLock (c : Channel) : (s.dropWait c).setupLock = s.setupLock := rfl
@[simp] theorem State.dropWait_link (c : Channel) : (s.dropWait c).link = s.link := rfl
@[simp] theorem State.dropWait_counters (c : Channel) : (s.dropWait c).counters = s.counters := rfl
@[simp] theorem State.dropWait_front (c : Channel) : (s.dropWait c).front = s.front := rfl
@[simp] theorem State.dropWait_holes (c : Channel) : (s.dropWait c).holes = s.holes := rfl
@[simp] theorem State.dropWait_roll (c : Channel) : (s.dropWait c).roll = s.roll := rfl
@[simp] theorem State.dropWait_exprBass (c : Channel) : (s.dropWait c).exprBass = s.exprBass := rfl
@[simp] theorem State.dropWait_exprTreble (c : Channel) : (s.dropWait c).exprTreble = s.exprTreble := rfl
@[simp] theorem State.dropWait_pedalUnit (c : Channel) : (s.dropWait c).pedalUnit = s.pedalUnit := rfl
@[simp] theorem State.dropWait_keys (c : Channel) : (s.dropWait c).keys = s.keys := rfl
@[simp] theorem State.dropWait_pedals (c : Channel) : (s.dropWait c).pedals = s.pedals := rfl
@[simp] theorem State.dropWait_fireList (c : Channel) : (s.dropWait c).fireList = s.fireList := rfl
@[simp] theorem State.dropWait_groupFaulted (c : Channel) : (s.dropWait c).groupFaulted = s.groupFaulted := rfl
@[simp] theorem State.dropWait_faultLines (c : Channel) : (s.dropWait c).faultLines = s.faultLines := rfl
@[simp] theorem State.dropWait_tables (c : Channel) : (s.dropWait c).tables = s.tables := rfl
@[simp] theorem State.dropWait_store (c : Channel) : (s.dropWait c).store = s.store := rfl
@[simp] theorem State.dropWait_pending (c : Channel) : (s.dropWait c).pending = s.pending := rfl

/-! queueReply -/

@[simp] theorem State.queueReply_power (tag : Tag) (code : Byte) (r : ResultCode) (d : List Byte) : (s.queueReply tag code r d).power = s.power := rfl
@[simp] theorem State.queueReply_deviceTime (tag : Tag) (code : Byte) (r : ResultCode) (d : List Byte) : (s.queueReply tag code r d).deviceTime = s.deviceTime := rfl
@[simp] theorem State.queueReply_nextCool (tag : Tag) (code : Byte) (r : ResultCode) (d : List Byte) : (s.queueReply tag code r d).nextCool = s.nextCool := rfl
@[simp] theorem State.queueReply_freeIndex (tag : Tag) (code : Byte) (r : ResultCode) (d : List Byte) : (s.queueReply tag code r d).freeIndex = s.freeIndex := rfl
@[simp] theorem State.queueReply_setupLock (tag : Tag) (code : Byte) (r : ResultCode) (d : List Byte) : (s.queueReply tag code r d).setupLock = s.setupLock := rfl
@[simp] theorem State.queueReply_counters (tag : Tag) (code : Byte) (r : ResultCode) (d : List Byte) : (s.queueReply tag code r d).counters = s.counters := rfl
@[simp] theorem State.queueReply_front (tag : Tag) (code : Byte) (r : ResultCode) (d : List Byte) : (s.queueReply tag code r d).front = s.front := rfl
@[simp] theorem State.queueReply_holes (tag : Tag) (code : Byte) (r : ResultCode) (d : List Byte) : (s.queueReply tag code r d).holes = s.holes := rfl
@[simp] theorem State.queueReply_roll (tag : Tag) (code : Byte) (r : ResultCode) (d : List Byte) : (s.queueReply tag code r d).roll = s.roll := rfl
@[simp] theorem State.queueReply_exprBass (tag : Tag) (code : Byte) (r : ResultCode) (d : List Byte) : (s.queueReply tag code r d).exprBass = s.exprBass := rfl
@[simp] theorem State.queueReply_exprTreble (tag : Tag) (code : Byte) (r : ResultCode) (d : List Byte) : (s.queueReply tag code r d).exprTreble = s.exprTreble := rfl
@[simp] theorem State.queueReply_pedalUnit (tag : Tag) (code : Byte) (r : ResultCode) (d : List Byte) : (s.queueReply tag code r d).pedalUnit = s.pedalUnit := rfl
@[simp] theorem State.queueReply_keys (tag : Tag) (code : Byte) (r : ResultCode) (d : List Byte) : (s.queueReply tag code r d).keys = s.keys := rfl
@[simp] theorem State.queueReply_pedals (tag : Tag) (code : Byte) (r : ResultCode) (d : List Byte) : (s.queueReply tag code r d).pedals = s.pedals := rfl
@[simp] theorem State.queueReply_fireList (tag : Tag) (code : Byte) (r : ResultCode) (d : List Byte) : (s.queueReply tag code r d).fireList = s.fireList := rfl
@[simp] theorem State.queueReply_waitList (tag : Tag) (code : Byte) (r : ResultCode) (d : List Byte) : (s.queueReply tag code r d).waitList = s.waitList := rfl
@[simp] theorem State.queueReply_groupFaulted (tag : Tag) (code : Byte) (r : ResultCode) (d : List Byte) : (s.queueReply tag code r d).groupFaulted = s.groupFaulted := rfl
@[simp] theorem State.queueReply_faultLines (tag : Tag) (code : Byte) (r : ResultCode) (d : List Byte) : (s.queueReply tag code r d).faultLines = s.faultLines := rfl
@[simp] theorem State.queueReply_tables (tag : Tag) (code : Byte) (r : ResultCode) (d : List Byte) : (s.queueReply tag code r d).tables = s.tables := rfl
@[simp] theorem State.queueReply_store (tag : Tag) (code : Byte) (r : ResultCode) (d : List Byte) : (s.queueReply tag code r d).store = s.store := rfl
@[simp] theorem State.queueReply_pending (tag : Tag) (code : Byte) (r : ResultCode) (d : List Byte) : (s.queueReply tag code r d).pending = s.pending := rfl

/-! queueState -/

@[simp] theorem State.queueState_power : (s.queueState).power = s.power := rfl
@[simp] theorem State.queueState_deviceTime : (s.queueState).deviceTime = s.deviceTime := rfl
@[simp] theorem State.queueState_nextCool : (s.queueState).nextCool = s.nextCool := rfl
@[simp] theorem State.queueState_freeIndex : (s.queueState).freeIndex = s.freeIndex := rfl
@[simp] theorem State.queueState_setupLock : (s.queueState).setupLock = s.setupLock := rfl
@[simp] theorem State.queueState_counters : (s.queueState).counters = s.counters := rfl
@[simp] theorem State.queueState_front : (s.queueState).front = s.front := rfl
@[simp] theorem State.queueState_holes : (s.queueState).holes = s.holes := rfl
@[simp] theorem State.queueState_roll : (s.queueState).roll = s.roll := rfl
@[simp] theorem State.queueState_exprBass : (s.queueState).exprBass = s.exprBass := rfl
@[simp] theorem State.queueState_exprTreble : (s.queueState).exprTreble = s.exprTreble := rfl
@[simp] theorem State.queueState_pedalUnit : (s.queueState).pedalUnit = s.pedalUnit := rfl
@[simp] theorem State.queueState_keys : (s.queueState).keys = s.keys := rfl
@[simp] theorem State.queueState_pedals : (s.queueState).pedals = s.pedals := rfl
@[simp] theorem State.queueState_fireList : (s.queueState).fireList = s.fireList := rfl
@[simp] theorem State.queueState_waitList : (s.queueState).waitList = s.waitList := rfl
@[simp] theorem State.queueState_groupFaulted : (s.queueState).groupFaulted = s.groupFaulted := rfl
@[simp] theorem State.queueState_faultLines : (s.queueState).faultLines = s.faultLines := rfl
@[simp] theorem State.queueState_tables : (s.queueState).tables = s.tables := rfl
@[simp] theorem State.queueState_store : (s.queueState).store = s.store := rfl
@[simp] theorem State.queueState_pending : (s.queueState).pending = s.pending := rfl

/-! queueWindow -/

@[simp] theorem State.queueWindow_power (top : Int) : (s.queueWindow top).power = s.power := rfl
@[simp] theorem State.queueWindow_deviceTime (top : Int) : (s.queueWindow top).deviceTime = s.deviceTime := rfl
@[simp] theorem State.queueWindow_nextCool (top : Int) : (s.queueWindow top).nextCool = s.nextCool := rfl
@[simp] theorem State.queueWindow_freeIndex (top : Int) : (s.queueWindow top).freeIndex = s.freeIndex := rfl
@[simp] theorem State.queueWindow_setupLock (top : Int) : (s.queueWindow top).setupLock = s.setupLock := rfl
@[simp] theorem State.queueWindow_counters (top : Int) : (s.queueWindow top).counters = s.counters := rfl
@[simp] theorem State.queueWindow_front (top : Int) : (s.queueWindow top).front = s.front := rfl
@[simp] theorem State.queueWindow_holes (top : Int) : (s.queueWindow top).holes = s.holes := rfl
@[simp] theorem State.queueWindow_roll (top : Int) : (s.queueWindow top).roll = s.roll := rfl
@[simp] theorem State.queueWindow_exprBass (top : Int) : (s.queueWindow top).exprBass = s.exprBass := rfl
@[simp] theorem State.queueWindow_exprTreble (top : Int) : (s.queueWindow top).exprTreble = s.exprTreble := rfl
@[simp] theorem State.queueWindow_pedalUnit (top : Int) : (s.queueWindow top).pedalUnit = s.pedalUnit := rfl
@[simp] theorem State.queueWindow_keys (top : Int) : (s.queueWindow top).keys = s.keys := rfl
@[simp] theorem State.queueWindow_pedals (top : Int) : (s.queueWindow top).pedals = s.pedals := rfl
@[simp] theorem State.queueWindow_fireList (top : Int) : (s.queueWindow top).fireList = s.fireList := rfl
@[simp] theorem State.queueWindow_waitList (top : Int) : (s.queueWindow top).waitList = s.waitList := rfl
@[simp] theorem State.queueWindow_groupFaulted (top : Int) : (s.queueWindow top).groupFaulted = s.groupFaulted := rfl
@[simp] theorem State.queueWindow_faultLines (top : Int) : (s.queueWindow top).faultLines = s.faultLines := rfl
@[simp] theorem State.queueWindow_tables (top : Int) : (s.queueWindow top).tables = s.tables := rfl
@[simp] theorem State.queueWindow_store (top : Int) : (s.queueWindow top).store = s.store := rfl
@[simp] theorem State.queueWindow_pending (top : Int) : (s.queueWindow top).pending = s.pending := rfl

/-! validFrame -/

@[simp] theorem State.validFrame_power : (s.validFrame).power = s.power := rfl
@[simp] theorem State.validFrame_deviceTime : (s.validFrame).deviceTime = s.deviceTime := rfl
@[simp] theorem State.validFrame_nextCool : (s.validFrame).nextCool = s.nextCool := rfl
@[simp] theorem State.validFrame_freeIndex : (s.validFrame).freeIndex = s.freeIndex := rfl
@[simp] theorem State.validFrame_setupLock : (s.validFrame).setupLock = s.setupLock := rfl
@[simp] theorem State.validFrame_counters : (s.validFrame).counters = s.counters := rfl
@[simp] theorem State.validFrame_front : (s.validFrame).front = s.front := rfl
@[simp] theorem State.validFrame_holes : (s.validFrame).holes = s.holes := rfl
@[simp] theorem State.validFrame_exprBass : (s.validFrame).exprBass = s.exprBass := rfl
@[simp] theorem State.validFrame_exprTreble : (s.validFrame).exprTreble = s.exprTreble := rfl
@[simp] theorem State.validFrame_pedalUnit : (s.validFrame).pedalUnit = s.pedalUnit := rfl
@[simp] theorem State.validFrame_keys : (s.validFrame).keys = s.keys := rfl
@[simp] theorem State.validFrame_pedals : (s.validFrame).pedals = s.pedals := rfl
@[simp] theorem State.validFrame_fireList : (s.validFrame).fireList = s.fireList := rfl
@[simp] theorem State.validFrame_waitList : (s.validFrame).waitList = s.waitList := rfl
@[simp] theorem State.validFrame_groupFaulted : (s.validFrame).groupFaulted = s.groupFaulted := rfl
@[simp] theorem State.validFrame_faultLines : (s.validFrame).faultLines = s.faultLines := rfl
@[simp] theorem State.validFrame_tables : (s.validFrame).tables = s.tables := rfl
@[simp] theorem State.validFrame_store : (s.validFrame).store = s.store := rfl
@[simp] theorem State.validFrame_pending : (s.validFrame).pending = s.pending := rfl

/-! Accessors read the same after an update of what they do not read -/

@[simp] theorem State.key_bumpBy (c : Counter) (n : Nat) (i : Key) : (s.bumpBy c n).key i = s.key i := rfl
@[simp] theorem State.pedal_bumpBy (c : Counter) (n : Nat) (i : Pedal) : (s.bumpBy c n).pedal i = s.pedal i := rfl
@[simp] theorem State.record_bumpBy (c : Counter) (n : Nat) (i : Key) : (s.bumpBy c n).record i = s.record i := rfl
@[simp] theorem State.kickCount_bumpBy (c : Counter) (n : Nat) : (s.bumpBy c n).kickCount = s.kickCount := rfl
@[simp] theorem State.faulted_bumpBy (c : Counter) (n : Nat) (g : Group) : (s.bumpBy c n).faulted g = s.faulted g := rfl
@[simp] theorem State.rollActive_bumpBy (c : Counter) (n : Nat) : (s.bumpBy c n).rollActive = s.rollActive := rfl
@[simp] theorem State.clockStopped_bumpBy (c : Counter) (n : Nat) : (s.bumpBy c n).clockStopped = s.clockStopped := rfl
@[simp] theorem State.nextLine_bumpBy (c : Counter) (n : Nat) : (s.bumpBy c n).nextLine = s.nextLine := rfl
@[simp] theorem State.due_bumpBy (c : Counter) (n : Nat) (i : Nat) : (s.bumpBy c n).due i = s.due i := rfl
@[simp] theorem State.planReached_bumpBy (c : Counter) (n : Nat) (i : Nat) : (s.bumpBy c n).planReached i = s.planReached i := rfl
@[simp] theorem State.lineSettled_bumpBy (c : Counter) (n : Nat) (i : Nat) : (s.bumpBy c n).lineSettled i = s.lineSettled i := rfl
@[simp] theorem State.replyCount_bumpBy (c : Counter) (n : Nat) : (s.bumpBy c n).replyCount = s.replyCount := rfl
@[simp] theorem State.key_bump (c : Counter) (i : Key) : (s.bump c).key i = s.key i := rfl
@[simp] theorem State.pedal_bump (c : Counter) (i : Pedal) : (s.bump c).pedal i = s.pedal i := rfl
@[simp] theorem State.record_bump (c : Counter) (i : Key) : (s.bump c).record i = s.record i := rfl
@[simp] theorem State.kickCount_bump (c : Counter) : (s.bump c).kickCount = s.kickCount := rfl
@[simp] theorem State.faulted_bump (c : Counter) (g : Group) : (s.bump c).faulted g = s.faulted g := rfl
@[simp] theorem State.rollActive_bump (c : Counter) : (s.bump c).rollActive = s.rollActive := rfl
@[simp] theorem State.clockStopped_bump (c : Counter) : (s.bump c).clockStopped = s.clockStopped := rfl
@[simp] theorem State.nextLine_bump (c : Counter) : (s.bump c).nextLine = s.nextLine := rfl
@[simp] theorem State.due_bump (c : Counter) (i : Nat) : (s.bump c).due i = s.due i := rfl
@[simp] theorem State.planReached_bump (c : Counter) (i : Nat) : (s.bump c).planReached i = s.planReached i := rfl
@[simp] theorem State.lineSettled_bump (c : Counter) (i : Nat) : (s.bump c).lineSettled i = s.lineSettled i := rfl
@[simp] theorem State.replyCount_bump (c : Counter) : (s.bump c).replyCount = s.replyCount := rfl
@[simp] theorem State.pedal_withKey (k : Key) (c : KeyChannel) (i : Pedal) : (s.withKey k c).pedal i = s.pedal i := rfl
@[simp] theorem State.record_withKey (k : Key) (c : KeyChannel) (i : Key) : (s.withKey k c).record i = s.record i := rfl
@[simp] theorem State.counter_withKey (k : Key) (c : KeyChannel) (i : Counter) : (s.withKey k c).counter i = s.counter i := rfl
@[simp] theorem State.faulted_withKey (k : Key) (c : KeyChannel) (g : Group) : (s.withKey k c).faulted g = s.faulted g := rfl
@[simp] theorem State.rollActive_withKey (k : Key) (c : KeyChannel) : (s.withKey k c).rollActive = s.rollActive := rfl
@[simp] theorem State.clockStopped_withKey (k : Key) (c : KeyChannel) : (s.withKey k c).clockStopped = s.clockStopped := rfl
@[simp] theorem State.nextLine_withKey (k : Key) (c : KeyChannel) : (s.withKey k c).nextLine = s.nextLine := rfl
@[simp] theorem State.due_withKey (k : Key) (c : KeyChannel) (i : Nat) : (s.withKey k c).due i = s.due i := rfl
@[simp] theorem State.planReached_withKey (k : Key) (c : KeyChannel) (i : Nat) : (s.withKey k c).planReached i = s.planReached i := rfl
@[simp] theorem State.lineSettled_withKey (k : Key) (c : KeyChannel) (i : Nat) : (s.withKey k c).lineSettled i = s.lineSettled i := rfl
@[simp] theorem State.replyCount_withKey (k : Key) (c : KeyChannel) : (s.withKey k c).replyCount = s.replyCount := rfl
@[simp] theorem State.pedal_mapKeys (f : Key → KeyChannel → KeyChannel) (i : Pedal) : (s.mapKeys f).pedal i = s.pedal i := by simp only [State.pedal, State.mapKeys]
@[simp] theorem State.record_mapKeys (f : Key → KeyChannel → KeyChannel) (i : Key) : (s.mapKeys f).record i = s.record i := by simp only [State.record, State.mapKeys]
@[simp] theorem State.counter_mapKeys (f : Key → KeyChannel → KeyChannel) (i : Counter) : (s.mapKeys f).counter i = s.counter i := by simp only [State.counter, State.mapKeys]
@[simp] theorem State.faulted_mapKeys (f : Key → KeyChannel → KeyChannel) (g : Group) : (s.mapKeys f).faulted g = s.faulted g := by simp only [State.faulted, State.mapKeys]
@[simp] theorem State.rollActive_mapKeys (f : Key → KeyChannel → KeyChannel) : (s.mapKeys f).rollActive = s.rollActive := by simp only [State.rollActive, State.mapKeys]
@[simp] theorem State.clockStopped_mapKeys (f : Key → KeyChannel → KeyChannel) : (s.mapKeys f).clockStopped = s.clockStopped := by simp only [State.clockStopped, State.clocked, State.mapKeys]
@[simp] theorem State.nextLine_mapKeys (f : Key → KeyChannel → KeyChannel) : (s.mapKeys f).nextLine = s.nextLine := by simp only [State.nextLine, State.mapKeys]
@[simp] theorem State.due_mapKeys (f : Key → KeyChannel → KeyChannel) (i : Nat) : (s.mapKeys f).due i = s.due i := by simp only [State.due, State.mapKeys]
@[simp] theorem State.planReached_mapKeys (f : Key → KeyChannel → KeyChannel) (i : Nat) : (s.mapKeys f).planReached i = s.planReached i := by simp only [State.planReached, State.due, State.mapKeys]
@[simp] theorem State.lineSettled_mapKeys (f : Key → KeyChannel → KeyChannel) (i : Nat) : (s.mapKeys f).lineSettled i = s.lineSettled i := by unfold State.lineSettled State.mapKeys; rfl
@[simp] theorem State.replyCount_mapKeys (f : Key → KeyChannel → KeyChannel) : (s.mapKeys f).replyCount = s.replyCount := by unfold State.replyCount State.mapKeys; rfl
@[simp] theorem State.key_withPedal (p : Pedal) (c : PedalChannel) (i : Key) : (s.withPedal p c).key i = s.key i := rfl
@[simp] theorem State.record_withPedal (p : Pedal) (c : PedalChannel) (i : Key) : (s.withPedal p c).record i = s.record i := rfl
@[simp] theorem State.counter_withPedal (p : Pedal) (c : PedalChannel) (i : Counter) : (s.withPedal p c).counter i = s.counter i := rfl
@[simp] theorem State.faulted_withPedal (p : Pedal) (c : PedalChannel) (g : Group) : (s.withPedal p c).faulted g = s.faulted g := rfl
@[simp] theorem State.rollActive_withPedal (p : Pedal) (c : PedalChannel) : (s.withPedal p c).rollActive = s.rollActive := rfl
@[simp] theorem State.clockStopped_withPedal (p : Pedal) (c : PedalChannel) : (s.withPedal p c).clockStopped = s.clockStopped := rfl
@[simp] theorem State.nextLine_withPedal (p : Pedal) (c : PedalChannel) : (s.withPedal p c).nextLine = s.nextLine := rfl
@[simp] theorem State.due_withPedal (p : Pedal) (c : PedalChannel) (i : Nat) : (s.withPedal p c).due i = s.due i := rfl
@[simp] theorem State.planReached_withPedal (p : Pedal) (c : PedalChannel) (i : Nat) : (s.withPedal p c).planReached i = s.planReached i := rfl
@[simp] theorem State.lineSettled_withPedal (p : Pedal) (c : PedalChannel) (i : Nat) : (s.withPedal p c).lineSettled i = s.lineSettled i := rfl
@[simp] theorem State.replyCount_withPedal (p : Pedal) (c : PedalChannel) : (s.withPedal p c).replyCount = s.replyCount := rfl
@[simp] theorem State.key_mapPedals (f : PedalChannel → PedalChannel) (i : Key) : (s.mapPedals f).key i = s.key i := rfl
@[simp] theorem State.record_mapPedals (f : PedalChannel → PedalChannel) (i : Key) : (s.mapPedals f).record i = s.record i := rfl
@[simp] theorem State.counter_mapPedals (f : PedalChannel → PedalChannel) (i : Counter) : (s.mapPedals f).counter i = s.counter i := rfl
@[simp] theorem State.faulted_mapPedals (f : PedalChannel → PedalChannel) (g : Group) : (s.mapPedals f).faulted g = s.faulted g := rfl
@[simp] theorem State.rollActive_mapPedals (f : PedalChannel → PedalChannel) : (s.mapPedals f).rollActive = s.rollActive := rfl
@[simp] theorem State.clockStopped_mapPedals (f : PedalChannel → PedalChannel) : (s.mapPedals f).clockStopped = s.clockStopped := rfl
@[simp] theorem State.nextLine_mapPedals (f : PedalChannel → PedalChannel) : (s.mapPedals f).nextLine = s.nextLine := rfl
@[simp] theorem State.due_mapPedals (f : PedalChannel → PedalChannel) (i : Nat) : (s.mapPedals f).due i = s.due i := rfl
@[simp] theorem State.planReached_mapPedals (f : PedalChannel → PedalChannel) (i : Nat) : (s.mapPedals f).planReached i = s.planReached i := rfl
@[simp] theorem State.lineSettled_mapPedals (f : PedalChannel → PedalChannel) (i : Nat) : (s.mapPedals f).lineSettled i = s.lineSettled i := rfl
@[simp] theorem State.replyCount_mapPedals (f : PedalChannel → PedalChannel) : (s.mapPedals f).replyCount = s.replyCount := rfl
@[simp] theorem State.key_withRecord (k : Key) (r : KeyRecord) (i : Key) : (s.withRecord k r).key i = s.key i := rfl
@[simp] theorem State.pedal_withRecord (k : Key) (r : KeyRecord) (i : Pedal) : (s.withRecord k r).pedal i = s.pedal i := rfl
@[simp] theorem State.counter_withRecord (k : Key) (r : KeyRecord) (i : Counter) : (s.withRecord k r).counter i = s.counter i := rfl
@[simp] theorem State.kickCount_withRecord (k : Key) (r : KeyRecord) : (s.withRecord k r).kickCount = s.kickCount := rfl
@[simp] theorem State.faulted_withRecord (k : Key) (r : KeyRecord) (g : Group) : (s.withRecord k r).faulted g = s.faulted g := rfl
@[simp] theorem State.rollActive_withRecord (k : Key) (r : KeyRecord) : (s.withRecord k r).rollActive = s.rollActive := rfl
@[simp] theorem State.clockStopped_withRecord (k : Key) (r : KeyRecord) : (s.withRecord k r).clockStopped = s.clockStopped := rfl
@[simp] theorem State.nextLine_withRecord (k : Key) (r : KeyRecord) : (s.withRecord k r).nextLine = s.nextLine := rfl
@[simp] theorem State.lineSettled_withRecord (k : Key) (r : KeyRecord) (i : Nat) : (s.withRecord k r).lineSettled i = s.lineSettled i := rfl
@[simp] theorem State.replyCount_withRecord (k : Key) (r : KeyRecord) : (s.withRecord k r).replyCount = s.replyCount := rfl
@[simp] theorem State.key_armFire (c : Channel) (t : RollTime) (i : Key) : (s.armFire c t).key i = s.key i := rfl
@[simp] theorem State.pedal_armFire (c : Channel) (t : RollTime) (i : Pedal) : (s.armFire c t).pedal i = s.pedal i := rfl
@[simp] theorem State.record_armFire (c : Channel) (t : RollTime) (i : Key) : (s.armFire c t).record i = s.record i := rfl
@[simp] theorem State.counter_armFire (c : Channel) (t : RollTime) (i : Counter) : (s.armFire c t).counter i = s.counter i := rfl
@[simp] theorem State.kickCount_armFire (c : Channel) (t : RollTime) : (s.armFire c t).kickCount = s.kickCount := rfl
@[simp] theorem State.faulted_armFire (c : Channel) (t : RollTime) (g : Group) : (s.armFire c t).faulted g = s.faulted g := rfl
@[simp] theorem State.rollActive_armFire (c : Channel) (t : RollTime) : (s.armFire c t).rollActive = s.rollActive := rfl
@[simp] theorem State.clockStopped_armFire (c : Channel) (t : RollTime) : (s.armFire c t).clockStopped = s.clockStopped := rfl
@[simp] theorem State.nextLine_armFire (c : Channel) (t : RollTime) : (s.armFire c t).nextLine = s.nextLine := rfl
@[simp] theorem State.due_armFire (c : Channel) (t : RollTime) (i : Nat) : (s.armFire c t).due i = s.due i := rfl
@[simp] theorem State.planReached_armFire (c : Channel) (t : RollTime) (i : Nat) : (s.armFire c t).planReached i = s.planReached i := rfl
@[simp] theorem State.lineSettled_armFire (c : Channel) (t : RollTime) (i : Nat) : (s.armFire c t).lineSettled i = s.lineSettled i := rfl
@[simp] theorem State.replyCount_armFire (c : Channel) (t : RollTime) : (s.armFire c t).replyCount = s.replyCount := rfl
@[simp] theorem State.key_dropFire (c : Channel) (i : Key) : (s.dropFire c).key i = s.key i := rfl
@[simp] theorem State.pedal_dropFire (c : Channel) (i : Pedal) : (s.dropFire c).pedal i = s.pedal i := rfl
@[simp] theorem State.record_dropFire (c : Channel) (i : Key) : (s.dropFire c).record i = s.record i := rfl
@[simp] theorem State.counter_dropFire (c : Channel) (i : Counter) : (s.dropFire c).counter i = s.counter i := rfl
@[simp] theorem State.kickCount_dropFire (c : Channel) : (s.dropFire c).kickCount = s.kickCount := rfl
@[simp] theorem State.faulted_dropFire (c : Channel) (g : Group) : (s.dropFire c).faulted g = s.faulted g := rfl
@[simp] theorem State.rollActive_dropFire (c : Channel) : (s.dropFire c).rollActive = s.rollActive := rfl
@[simp] theorem State.clockStopped_dropFire (c : Channel) : (s.dropFire c).clockStopped = s.clockStopped := rfl
@[simp] theorem State.nextLine_dropFire (c : Channel) : (s.dropFire c).nextLine = s.nextLine := rfl
@[simp] theorem State.due_dropFire (c : Channel) (i : Nat) : (s.dropFire c).due i = s.due i := rfl
@[simp] theorem State.planReached_dropFire (c : Channel) (i : Nat) : (s.dropFire c).planReached i = s.planReached i := rfl
@[simp] theorem State.lineSettled_dropFire (c : Channel) (i : Nat) : (s.dropFire c).lineSettled i = s.lineSettled i := rfl
@[simp] theorem State.replyCount_dropFire (c : Channel) : (s.dropFire c).replyCount = s.replyCount := rfl
@[simp] theorem State.key_joinWait (c : Channel) (w : WaitClass) (i : Key) : (s.joinWait c w).key i = s.key i := rfl
@[simp] theorem State.pedal_joinWait (c : Channel) (w : WaitClass) (i : Pedal) : (s.joinWait c w).pedal i = s.pedal i := rfl
@[simp] theorem State.record_joinWait (c : Channel) (w : WaitClass) (i : Key) : (s.joinWait c w).record i = s.record i := rfl
@[simp] theorem State.counter_joinWait (c : Channel) (w : WaitClass) (i : Counter) : (s.joinWait c w).counter i = s.counter i := rfl
@[simp] theorem State.kickCount_joinWait (c : Channel) (w : WaitClass) : (s.joinWait c w).kickCount = s.kickCount := rfl
@[simp] theorem State.faulted_joinWait (c : Channel) (w : WaitClass) (g : Group) : (s.joinWait c w).faulted g = s.faulted g := rfl
@[simp] theorem State.rollActive_joinWait (c : Channel) (w : WaitClass) : (s.joinWait c w).rollActive = s.rollActive := rfl
@[simp] theorem State.clockStopped_joinWait (c : Channel) (w : WaitClass) : (s.joinWait c w).clockStopped = s.clockStopped := rfl
@[simp] theorem State.nextLine_joinWait (c : Channel) (w : WaitClass) : (s.joinWait c w).nextLine = s.nextLine := rfl
@[simp] theorem State.due_joinWait (c : Channel) (w : WaitClass) (i : Nat) : (s.joinWait c w).due i = s.due i := rfl
@[simp] theorem State.planReached_joinWait (c : Channel) (w : WaitClass) (i : Nat) : (s.joinWait c w).planReached i = s.planReached i := rfl
@[simp] theorem State.lineSettled_joinWait (c : Channel) (w : WaitClass) (i : Nat) : (s.joinWait c w).lineSettled i = s.lineSettled i := rfl
@[simp] theorem State.replyCount_joinWait (c : Channel) (w : WaitClass) : (s.joinWait c w).replyCount = s.replyCount := rfl
@[simp] theorem State.key_dropWait (c : Channel) (i : Key) : (s.dropWait c).key i = s.key i := rfl
@[simp] theorem State.pedal_dropWait (c : Channel) (i : Pedal) : (s.dropWait c).pedal i = s.pedal i := rfl
@[simp] theorem State.record_dropWait (c : Channel) (i : Key) : (s.dropWait c).record i = s.record i := rfl
@[simp] theorem State.counter_dropWait (c : Channel) (i : Counter) : (s.dropWait c).counter i = s.counter i := rfl
@[simp] theorem State.kickCount_dropWait (c : Channel) : (s.dropWait c).kickCount = s.kickCount := rfl
@[simp] theorem State.faulted_dropWait (c : Channel) (g : Group) : (s.dropWait c).faulted g = s.faulted g := rfl
@[simp] theorem State.rollActive_dropWait (c : Channel) : (s.dropWait c).rollActive = s.rollActive := rfl
@[simp] theorem State.clockStopped_dropWait (c : Channel) : (s.dropWait c).clockStopped = s.clockStopped := rfl
@[simp] theorem State.nextLine_dropWait (c : Channel) : (s.dropWait c).nextLine = s.nextLine := rfl
@[simp] theorem State.due_dropWait (c : Channel) (i : Nat) : (s.dropWait c).due i = s.due i := rfl
@[simp] theorem State.planReached_dropWait (c : Channel) (i : Nat) : (s.dropWait c).planReached i = s.planReached i := rfl
@[simp] theorem State.lineSettled_dropWait (c : Channel) (i : Nat) : (s.dropWait c).lineSettled i = s.lineSettled i := rfl
@[simp] theorem State.replyCount_dropWait (c : Channel) : (s.dropWait c).replyCount = s.replyCount := rfl
@[simp] theorem State.key_queueReply (tag : Tag) (code : Byte) (r : ResultCode) (d : List Byte) (i : Key) : (s.queueReply tag code r d).key i = s.key i := rfl
@[simp] theorem State.pedal_queueReply (tag : Tag) (code : Byte) (r : ResultCode) (d : List Byte) (i : Pedal) : (s.queueReply tag code r d).pedal i = s.pedal i := rfl
@[simp] theorem State.record_queueReply (tag : Tag) (code : Byte) (r : ResultCode) (d : List Byte) (i : Key) : (s.queueReply tag code r d).record i = s.record i := rfl
@[simp] theorem State.counter_queueReply (tag : Tag) (code : Byte) (r : ResultCode) (d : List Byte) (i : Counter) : (s.queueReply tag code r d).counter i = s.counter i := rfl
@[simp] theorem State.kickCount_queueReply (tag : Tag) (code : Byte) (r : ResultCode) (d : List Byte) : (s.queueReply tag code r d).kickCount = s.kickCount := rfl
@[simp] theorem State.faulted_queueReply (tag : Tag) (code : Byte) (r : ResultCode) (d : List Byte) (g : Group) : (s.queueReply tag code r d).faulted g = s.faulted g := rfl
@[simp] theorem State.rollActive_queueReply (tag : Tag) (code : Byte) (r : ResultCode) (d : List Byte) : (s.queueReply tag code r d).rollActive = s.rollActive := rfl
@[simp] theorem State.clockStopped_queueReply (tag : Tag) (code : Byte) (r : ResultCode) (d : List Byte) : (s.queueReply tag code r d).clockStopped = s.clockStopped := rfl
@[simp] theorem State.nextLine_queueReply (tag : Tag) (code : Byte) (r : ResultCode) (d : List Byte) : (s.queueReply tag code r d).nextLine = s.nextLine := rfl
@[simp] theorem State.due_queueReply (tag : Tag) (code : Byte) (r : ResultCode) (d : List Byte) (i : Nat) : (s.queueReply tag code r d).due i = s.due i := rfl
@[simp] theorem State.planReached_queueReply (tag : Tag) (code : Byte) (r : ResultCode) (d : List Byte) (i : Nat) : (s.queueReply tag code r d).planReached i = s.planReached i := rfl
@[simp] theorem State.lineSettled_queueReply (tag : Tag) (code : Byte) (r : ResultCode) (d : List Byte) (i : Nat) : (s.queueReply tag code r d).lineSettled i = s.lineSettled i := rfl
@[simp] theorem State.key_queueState (i : Key) : (s.queueState).key i = s.key i := rfl
@[simp] theorem State.pedal_queueState (i : Pedal) : (s.queueState).pedal i = s.pedal i := rfl
@[simp] theorem State.record_queueState (i : Key) : (s.queueState).record i = s.record i := rfl
@[simp] theorem State.counter_queueState (i : Counter) : (s.queueState).counter i = s.counter i := rfl
@[simp] theorem State.kickCount_queueState : (s.queueState).kickCount = s.kickCount := rfl
@[simp] theorem State.faulted_queueState (g : Group) : (s.queueState).faulted g = s.faulted g := rfl
@[simp] theorem State.rollActive_queueState : (s.queueState).rollActive = s.rollActive := rfl
@[simp] theorem State.clockStopped_queueState : (s.queueState).clockStopped = s.clockStopped := rfl
@[simp] theorem State.nextLine_queueState : (s.queueState).nextLine = s.nextLine := rfl
@[simp] theorem State.due_queueState (i : Nat) : (s.queueState).due i = s.due i := rfl
@[simp] theorem State.planReached_queueState (i : Nat) : (s.queueState).planReached i = s.planReached i := rfl
@[simp] theorem State.lineSettled_queueState (i : Nat) : (s.queueState).lineSettled i = s.lineSettled i := rfl
@[simp] theorem State.key_queueWindow (top : Int) (i : Key) : (s.queueWindow top).key i = s.key i := rfl
@[simp] theorem State.pedal_queueWindow (top : Int) (i : Pedal) : (s.queueWindow top).pedal i = s.pedal i := rfl
@[simp] theorem State.record_queueWindow (top : Int) (i : Key) : (s.queueWindow top).record i = s.record i := rfl
@[simp] theorem State.counter_queueWindow (top : Int) (i : Counter) : (s.queueWindow top).counter i = s.counter i := rfl
@[simp] theorem State.kickCount_queueWindow (top : Int) : (s.queueWindow top).kickCount = s.kickCount := rfl
@[simp] theorem State.faulted_queueWindow (top : Int) (g : Group) : (s.queueWindow top).faulted g = s.faulted g := rfl
@[simp] theorem State.rollActive_queueWindow (top : Int) : (s.queueWindow top).rollActive = s.rollActive := rfl
@[simp] theorem State.clockStopped_queueWindow (top : Int) : (s.queueWindow top).clockStopped = s.clockStopped := rfl
@[simp] theorem State.nextLine_queueWindow (top : Int) : (s.queueWindow top).nextLine = s.nextLine := rfl
@[simp] theorem State.due_queueWindow (top : Int) (i : Nat) : (s.queueWindow top).due i = s.due i := rfl
@[simp] theorem State.planReached_queueWindow (top : Int) (i : Nat) : (s.queueWindow top).planReached i = s.planReached i := rfl
@[simp] theorem State.lineSettled_queueWindow (top : Int) (i : Nat) : (s.queueWindow top).lineSettled i = s.lineSettled i := rfl
@[simp] theorem State.key_validFrame (i : Key) : (s.validFrame).key i = s.key i := rfl
@[simp] theorem State.pedal_validFrame (i : Pedal) : (s.validFrame).pedal i = s.pedal i := rfl
@[simp] theorem State.record_validFrame (i : Key) : (s.validFrame).record i = s.record i := rfl
@[simp] theorem State.counter_validFrame (i : Counter) : (s.validFrame).counter i = s.counter i := rfl
@[simp] theorem State.kickCount_validFrame : (s.validFrame).kickCount = s.kickCount := rfl
@[simp] theorem State.faulted_validFrame (g : Group) : (s.validFrame).faulted g = s.faulted g := rfl
@[simp] theorem State.lineSettled_validFrame (i : Nat) : (s.validFrame).lineSettled i = s.lineSettled i := rfl

/-! Accessors of what an update changes -/

@[simp] theorem State.key_withKey_self (k : Key) (c : KeyChannel) : (s.withKey k c).key k = c := by
  simp [State.key, State.withKey]

theorem State.key_withKey_ne (k j : Key) (c : KeyChannel) (h : j ≠ k) : (s.withKey k c).key j = s.key j := by
  have h' : k.val ≠ j.val := fun e => h (Fin.ext e.symm)
  simp [State.key, State.withKey, h']

theorem State.key_withKey (k j : Key) (c : KeyChannel) : (s.withKey k c).key j = if j = k then c else s.key j := by
  by_cases h : j = k
  · subst h; simp
  · simp [h, State.key_withKey_ne]

@[simp] theorem State.key_mapKeys (f : Key → KeyChannel → KeyChannel) (k : Key) : (s.mapKeys f).key k = f k (s.key k) := by
  simp [State.key, State.mapKeys]

@[simp] theorem State.pedal_withPedal_self (p : Pedal) (c : PedalChannel) : (s.withPedal p c).pedal p = c := by
  simp [State.pedal, State.withPedal]

theorem State.pedal_withPedal (p q : Pedal) (c : PedalChannel) :
    (s.withPedal p c).pedal q = if q = p then c else s.pedal q := by
  cases p <;> cases q <;> simp [State.pedal, State.withPedal, pedalPlace]

@[simp] theorem State.pedal_mapPedals (f : PedalChannel → PedalChannel) (p : Pedal) :
    (s.mapPedals f).pedal p = f (s.pedal p) := by
  simp [State.pedal, State.mapPedals]

@[simp] theorem State.record_withRecord_self (k : Key) (r : KeyRecord) : (s.withRecord k r).record k = r := by
  simp [State.record, State.withRecord]

theorem State.record_withRecord (k j : Key) (r : KeyRecord) :
    (s.withRecord k r).record j = if j = k then r else s.record j := by
  by_cases h : j = k
  · subst h; simp
  · have h' : k.val ≠ j.val := fun e => h (Fin.ext e.symm)
    simp [State.record, State.withRecord, h, h']

@[simp] theorem State.withRecord_settings (k : Key) (r : KeyRecord) :
    (s.withRecord k r).tables.settings = s.tables.settings := rfl

theorem State.counter_bumpBy (c d : Counter) (n : Nat) :
    (s.bumpBy c n).counter d = if d = c then min Config.counterTop (s.counter c + n) else s.counter d := by
  by_cases h : d = c
  · subst h; simp [State.counter, State.bumpBy]
  · have h' : c.place.val ≠ d.place.val := by
      intro e; apply h; cases c <;> cases d <;> first | rfl | (exfalso; revert e; decide)
    simp [State.counter, State.bumpBy, h, h']

@[simp] theorem State.counter_bumpBy_self (c : Counter) (n : Nat) :
    (s.bumpBy c n).counter c = min Config.counterTop (s.counter c + n) := by
  simp [State.counter_bumpBy]

@[simp] theorem State.withKey_withKey (k : Key) (c d : KeyChannel) : (s.withKey k c).withKey k d = s.withKey k d := by
  simp [State.withKey]

@[simp] theorem State.withPedal_withPedal (p : Pedal) (c d : PedalChannel) :
    (s.withPedal p c).withPedal p d = s.withPedal p d := by
  simp [State.withPedal]

/-- Two states whose key channels read the same hold the same vector of them. -/
theorem State.keys_ext {s t : State} (h : ∀ k, t.key k = s.key k) : t.keys = s.keys :=
  Vector.ext fun i hi => h ⟨i, hi⟩

@[simp] theorem State.withKey_key (k : Key) : s.withKey k (s.key k) = s := by
  have h : (s.withKey k (s.key k)).keys = s.keys :=
    State.keys_ext fun j => by
      by_cases e : j = k
      · subst e; simp
      · simp [State.key_withKey_ne, e]
  show { s with keys := _ } = s
  rw [show s.keys.set k.val (s.key k) k.isLt = s.keys from h]

end Sys2Proof.Machine
end

