-- ==== Sys2Proof/Laws/Frame.lean ====
section
/-! SUPPORT. For each shared operation, once, everything it can do: which fields it leaves alone, and the cases of what it answers. -/

namespace Sys2Proof.Machine

/-! What an operation leaves alone -/

/-- Only channels, their two lists and counters differ. -/
def OnlyChannels (s t : State) : Prop :=
  t = { s with
    keys := t.keys, pedals := t.pedals, fireList := t.fireList, waitList := t.waitList, counters := t.counters }

/-- Only the link's records differ. -/
def OnlyLink (s t : State) : Prop := t = { s with link := t.link }

variable {s t u : State}

theorem OnlyChannels.refl (s : State) : OnlyChannels s s := rfl

theorem OnlyChannels.trans (h : OnlyChannels s t) (h' : OnlyChannels t u) : OnlyChannels s u := by
  unfold OnlyChannels at *; rw [h', h]

theorem OnlyChannels.ite {c : Prop} [Decidable c] (h : OnlyChannels s t) (h' : OnlyChannels s u) :
    OnlyChannels s (if c then t else u) := by split <;> assumption

/-- What a move of channels leaves alone, field by field. -/
theorem OnlyChannels.fields (h : OnlyChannels s t) :
    t.power = s.power ∧ t.deviceTime = s.deviceTime ∧ t.nextCool = s.nextCool ∧ t.freeIndex = s.freeIndex
      ∧ t.setupLock = s.setupLock ∧ t.link = s.link ∧ t.front = s.front ∧ t.holes = s.holes ∧ t.roll = s.roll
      ∧ t.exprBass = s.exprBass ∧ t.exprTreble = s.exprTreble ∧ t.pedalUnit = s.pedalUnit
      ∧ t.groupFaulted = s.groupFaulted ∧ t.faultLines = s.faultLines ∧ t.tables = s.tables ∧ t.store = s.store
      ∧ t.pending = s.pending := by
  rw [h]; simp

theorem OnlyChannels.power (h : OnlyChannels s t) : t.power = s.power := h.fields.1
theorem OnlyChannels.deviceTime (h : OnlyChannels s t) : t.deviceTime = s.deviceTime := h.fields.2.1
theorem OnlyChannels.link (h : OnlyChannels s t) : t.link = s.link := h.fields.2.2.2.2.2.1
theorem OnlyChannels.holes (h : OnlyChannels s t) : t.holes = s.holes := h.fields.2.2.2.2.2.2.2.1
theorem OnlyChannels.roll (h : OnlyChannels s t) : t.roll = s.roll := h.fields.2.2.2.2.2.2.2.2.1
theorem OnlyChannels.pedalUnit (h : OnlyChannels s t) : t.pedalUnit = s.pedalUnit := h.fields.2.2.2.2.2.2.2.2.2.2.2.1
theorem OnlyChannels.groupFaulted (h : OnlyChannels s t) : t.groupFaulted = s.groupFaulted :=
  h.fields.2.2.2.2.2.2.2.2.2.2.2.2.1
theorem OnlyChannels.tables (h : OnlyChannels s t) : t.tables = s.tables := h.fields.2.2.2.2.2.2.2.2.2.2.2.2.2.2.1
theorem OnlyChannels.store (h : OnlyChannels s t) : t.store = s.store := h.fields.2.2.2.2.2.2.2.2.2.2.2.2.2.2.2.1

theorem OnlyChannels.faulted (h : OnlyChannels s t) (g : Group) : t.faulted g = s.faulted g := by
  simp [State.faulted, h.groupFaulted]

theorem OnlyChannels.record (h : OnlyChannels s t) (k : Key) : t.record k = s.record k := by
  simp [State.record, h.tables]

/-! Gates -/

theorem whenRunning_running (f : State → State) (h : s.power = .running) : whenRunning s f = .next (f s) := by
  simp [whenRunning, h]

theorem whenDue_due {due : State → Bool} (f : State → State) (h : s.power = .running) (hd : due s = true) :
    whenDue s due f = .next (f s) := by
  simp [whenDue, whenRunning, h, hd]

/-- A command held back by the gates answers the state it met. -/
theorem whenDue_idle {due : State → Bool} (f : State → State) (hd : due s = false) : whenDue s due f = .next s := by
  by_cases h : s.power = .running <;> simp [whenDue, whenRunning, h, hd]

/-- Whatever a gated command answers is a next state: its effect, or the state itself. -/
theorem whenRunning_cases {f : State → State} (h : whenRunning s f = .next t) :
    (s.power = .running ∧ t = f s) ∨ (s.power ≠ .running ∧ t = s) := by
  by_cases hp : s.power = .running
  · exact .inl ⟨hp, by simpa [whenRunning, hp] using h.symm⟩
  · exact .inr ⟨hp, by simpa [whenRunning, hp] using h.symm⟩

theorem whenDue_cases {due : State → Bool} {f : State → State} (h : whenDue s due f = .next t) :
    (s.power = .running ∧ due s = true ∧ t = f s) ∨ t = s := by
  rcases whenRunning_cases h with ⟨hp, rfl⟩ | ⟨-, rfl⟩
  · by_cases hd : due s = true
    · exact .inl ⟨hp, hd, by simp [hd]⟩
    · exact .inr (by simp [hd])
  · exact .inr rfl

/-! Channel operations leave the rest alone -/

theorem onlyChannels_withKey (s : State) (k : Key) (c : KeyChannel) : OnlyChannels s (s.withKey k c) := rfl
theorem onlyChannels_withPedal (s : State) (p : Pedal) (c : PedalChannel) : OnlyChannels s (s.withPedal p c) := rfl
theorem onlyChannels_mapPedals (s : State) (f : PedalChannel → PedalChannel) : OnlyChannels s (s.mapPedals f) := rfl
theorem onlyChannels_armFire (s : State) (c : Channel) (r : RollTime) : OnlyChannels s (s.armFire c r) := rfl
theorem onlyChannels_dropFire (s : State) (c : Channel) : OnlyChannels s (s.dropFire c) := rfl
theorem onlyChannels_joinWait (s : State) (c : Channel) (w : WaitClass) : OnlyChannels s (s.joinWait c w) := rfl
theorem onlyChannels_dropWait (s : State) (c : Channel) : OnlyChannels s (s.dropWait c) := rfl
theorem onlyChannels_bumpBy (s : State) (c : Counter) (n : Nat) : OnlyChannels s (s.bumpBy c n) := rfl
theorem onlyChannels_bump (s : State) (c : Counter) : OnlyChannels s (s.bump c) := rfl

theorem onlyChannels_mapKeys (s : State) (f : Key → KeyChannel → KeyChannel) : OnlyChannels s (s.mapKeys f) := by
  unfold OnlyChannels State.mapKeys; simp only

theorem onlyChannels_bumpIf (s : State) (b : Bool) (c : Counter) : OnlyChannels s (s.bumpIf b c) := by
  cases b
  · exact OnlyChannels.refl s
  · exact onlyChannels_bump s c

/-- A kick start: the channel's record, the two counters it may move, nothing else. -/
theorem startKick_eq (s : State) (k : Key) (n : Note) (kick : Nat) (fromList : Bool) :
    s.startKick k n kick fromList
      = { s.withKey k ((s.key k).toKick n s.deviceTime kick fromList s.clockStopped) with
          counters := (s.startKick k n kick fromList).counters } := by
  unfold State.startKick State.bumpIf
  split <;> split <;> rfl

theorem onlyChannels_startKick (s : State) (k : Key) (n : Note) (kick : Nat) (b : Bool) :
    OnlyChannels s (s.startKick k n kick b) := by
  rw [startKick_eq]; rfl

/-- What a counter reads after a bump that may not happen. -/
theorem State.counter_bumpIf (s : State) (b : Bool) (c d : Counter) :
    (s.bumpIf b c).counter d
      = if d = c ∧ b = true then min Config.counterTop (s.counter c + 1) else s.counter d := by
  cases b
  · simp [State.bumpIf]
  · by_cases h : d = c
    · subst h; simp [State.bumpIf, State.bump]
    · simp [State.bumpIf, State.bump, h, State.counter_bumpBy]

/-- The counters after a kick start (R92, R121). -/
theorem counter_startKick (s : State) (k : Key) (n : Note) (kick : Nat) (b : Bool) (d : Counter) :
    (s.startKick k n kick b).counter d
      = if d = .lateStrike ∧ lateKick s.roll.rollTime n.fire = true then min Config.counterTop (s.counter .lateStrike + 1)
        else if d = .deferred ∧ b = true then min Config.counterTop (s.counter .deferred + 1) else s.counter d := by
  have e : ∀ c, (s.withKey k ((s.key k).toKick n s.deviceTime kick b s.clockStopped)).counter c = s.counter c :=
    fun _ => rfl
  simp only [State.startKick, State.counter_bumpIf, e]
  by_cases h : d = .lateStrike
  · subst h; simp
  · simp [h]

/-- What a kick start on a grant can do (R106, R125): no note and nothing happens; the kick starts whole
or trimmed; or the heat check refuses it. -/
theorem kickStart_cases (s : State) (k : Key) (b : Bool) :
    ((s.key k).current = none ∧ s.kickStart k b = (false, s))
    ∨ ∃ n, (s.key k).current = some n ∧
      ((min n.kick (s.record k).kickMax ≤ s.tables.settings.heatLimit - (s.key k).heat
          ∧ s.kickStart k b = (true, s.startKick k n (min n.kick (s.record k).kickMax) b))
      ∨ (s.tables.settings.heatLimit - (s.key k).heat < min n.kick (s.record k).kickMax
          ∧ Config.kickFloor ≤ s.tables.settings.heatLimit - (s.key k).heat
          ∧ s.kickStart k b
            = (true, (s.bump .heatTrim).startKick k n (s.tables.settings.heatLimit - (s.key k).heat) b))
      ∨ (s.tables.settings.heatLimit - (s.key k).heat < min n.kick (s.record k).kickMax
          ∧ s.tables.settings.heatLimit - (s.key k).heat < Config.kickFloor
          ∧ s.kickStart k b = (false, s.bump .heatDrop))) := by
  cases hc : (s.key k).current with
  | none => exact .inl ⟨rfl, by simp [State.kickStart, hc]⟩
  | some n =>
    refine .inr ⟨n, rfl, ?_⟩
    by_cases h1 : min n.kick (s.record k).kickMax ≤ s.tables.settings.heatLimit - (s.key k).heat
    · exact .inl ⟨h1, by simp only [State.kickStart, hc, if_pos h1]⟩
    · have h1' := Nat.lt_of_not_le h1
      by_cases h2 : Config.kickFloor ≤ s.tables.settings.heatLimit - (s.key k).heat
      · exact .inr (.inl ⟨h1', h2, by simp only [State.kickStart, hc, if_neg h1, if_pos h2]⟩)
      · exact .inr (.inr ⟨h1', Nat.lt_of_not_le h2, by simp only [State.kickStart, hc, if_neg h1, if_neg h2]⟩)

theorem onlyChannels_kickStart (s : State) (k : Key) (b : Bool) : OnlyChannels s (s.kickStart k b).2 := by
  rcases kickStart_cases s k b with ⟨-, e⟩ | ⟨n, -, ⟨-, e⟩ | ⟨-, -, e⟩ | ⟨-, -, e⟩⟩ <;> rw [e]
  · exact OnlyChannels.refl s
  · exact onlyChannels_startKick ..
  · exact (onlyChannels_bump s _).trans (onlyChannels_startKick ..)
  · exact onlyChannels_bump s _

/-- A kick start touches no other key, no pedal and neither list. -/
theorem kickStart_others (s : State) (k : Key) (b : Bool) :
    (∀ j, j ≠ k → (s.kickStart k b).2.key j = s.key j) ∧ (s.kickStart k b).2.pedals = s.pedals
      ∧ (s.kickStart k b).2.fireList = s.fireList ∧ (s.kickStart k b).2.waitList = s.waitList := by
  rcases kickStart_cases s k b with ⟨-, e⟩ | ⟨n, -, ⟨-, e⟩ | ⟨-, -, e⟩ | ⟨-, -, e⟩⟩ <;> rw [e]
  · simp
  · rw [startKick_eq]; exact ⟨fun j h => State.key_withKey_ne s k j _ h, rfl, rfl, rfl⟩
  · rw [startKick_eq]; exact ⟨fun j h => State.key_withKey_ne _ k j _ h, rfl, rfl, rfl⟩
  · exact ⟨fun _ _ => rfl, rfl, rfl, rfl⟩

/-- A request (R105, R119): a fault drop, a kick start, or a place in the list. -/
theorem attempt_cases (s : State) (k : Key) :
    (s.faulted (keyGroup k) = true ∧ s.attempt k = (false, s.bump .faultDrop))
    ∨ (s.faulted (keyGroup k) = false ∧ s.kickCount < s.tables.settings.kickSlots ∧ s.attempt k = s.kickStart k false)
    ∨ (s.faulted (keyGroup k) = false ∧ s.tables.settings.kickSlots ≤ s.kickCount ∧ s.attempt k = (true, s.wait k)) := by
  unfold State.attempt
  split
  · exact .inl ⟨‹_›, rfl⟩
  · have hf := Bool.not_eq_true _ ▸ ‹¬_ = true›
    split
    · exact .inr (.inl ⟨hf, ‹_›, rfl⟩)
    · exact .inr (.inr ⟨hf, Nat.le_of_not_lt ‹_›, rfl⟩)

theorem onlyChannels_wait (s : State) (k : Key) : OnlyChannels s (s.wait k) := rfl
theorem onlyChannels_goIdle (s : State) (k : Key) : OnlyChannels s (s.goIdle k) := rfl

theorem onlyChannels_attempt (s : State) (k : Key) : OnlyChannels s (s.attempt k).2 := by
  rcases attempt_cases s k with ⟨-, e⟩ | ⟨-, -, e⟩ | ⟨-, -, e⟩ <;> rw [e]
  · exact onlyChannels_bump s _
  · exact onlyChannels_kickStart s k false
  · exact onlyChannels_wait s k

theorem onlyChannels_fireLast (s : State) (k : Key) : OnlyChannels s (s.fireLast k) :=
  OnlyChannels.ite (onlyChannels_attempt s k) ((onlyChannels_attempt s k).trans (onlyChannels_goIdle _ k))

/-- A promotion (R108, R109): the channel goes IDLE, is armed with an entry in the Fire List, or fires. -/
theorem promote_cases (s : State) (k : Key) :
    ((s.key k).pending = none ∧ s.promote k = s.goIdle k)
    ∨ ∃ n, (s.key k).pending = some n ∧
      ((∃ f, n.fire = some f ∧ reached s.roll.rollTime f = false
          ∧ s.promote k = (s.withKey k ((s.key k).promoted n)).armFire (.key k) f)
      ∨ ((∀ f, n.fire = some f → reached s.roll.rollTime f = true)
          ∧ s.promote k = (s.withKey k ((s.key k).promoted n)).fireLast k)) := by
  cases hp : (s.key k).pending with
  | none => exact .inl ⟨rfl, by simp only [State.promote, hp]⟩
  | some n =>
    refine .inr ⟨n, rfl, ?_⟩
    cases hf : n.fire with
    | none => exact .inr ⟨by simp, by simp only [State.promote, hp, hf]⟩
    | some f =>
      by_cases hr : reached s.roll.rollTime f = true
      · exact .inr ⟨by simp [hr], by simp only [State.promote, hp, hf, if_pos hr]⟩
      · exact .inl ⟨f, rfl, by simpa using hr, by simp only [State.promote, hp, hf, if_neg hr]⟩

theorem onlyChannels_promote (s : State) (k : Key) : OnlyChannels s (s.promote k) := by
  rcases promote_cases s k with ⟨-, e⟩ | ⟨n, -, ⟨f, -, -, e⟩ | ⟨-, e⟩⟩ <;> rw [e]
  · exact onlyChannels_goIdle s k
  · rfl
  · exact (onlyChannels_withKey s k _).trans (onlyChannels_fireLast _ k)

theorem onlyChannels_fireKey (s : State) (k : Key) : OnlyChannels s (s.fireKey k) :=
  OnlyChannels.ite (onlyChannels_attempt s k) ((onlyChannels_attempt s k).trans (onlyChannels_promote _ k))

theorem onlyChannels_firePedal (s : State) (p : Pedal) : OnlyChannels s (s.firePedal p) :=
  OnlyChannels.ite rfl rfl

theorem onlyChannels_armPedal (s : State) (p : Pedal) (f : Press) : OnlyChannels s (s.armPedal p f) :=
  OnlyChannels.ite ((onlyChannels_withPedal s p _).trans (onlyChannels_firePedal _ p)) rfl

theorem onlyChannels_handOnLoop : ∀ (n : Nat) (s : State) (ks : List Key), OnlyChannels s (State.handOnLoop n s ks).1
  | 0, s, _ => OnlyChannels.refl s
  | n + 1, s, ks => by
    unfold State.handOnLoop
    split
    · exact OnlyChannels.refl s
    · split
      · have h0 (w : List WaitEntry) : OnlyChannels s { s with waitList := w } := rfl
        split
        · exact (h0 _).trans ((onlyChannels_withPedal _ _ _).trans (onlyChannels_handOnLoop n _ ks))
        · exact (h0 _).trans ((onlyChannels_kickStart _ _ true).trans (onlyChannels_handOnLoop n _ _))
      · exact OnlyChannels.refl s

/-- A fold of steps that each move channels only moves channels only. -/
theorem OnlyChannels.foldl {α : Type} {f : State → α → State} (h : ∀ s a, OnlyChannels s (f s a)) (as : List α)
    (s : State) : OnlyChannels s (as.foldl f s) := by
  induction as generalizing s with
  | nil => exact OnlyChannels.refl s
  | cons a as ih => exact (h s a).trans (ih (f s a))

/-! Requests of one device time -/

theorem onlyChannels_expireWait (s : State) (k : Key) : OnlyChannels s (s.expireWait k) :=
  ((onlyChannels_dropWait s _).trans (onlyChannels_bump _ _)).trans (onlyChannels_promote _ k)

theorem onlyChannels_endPedalRelease (s : State) (p : Pedal) : OnlyChannels s (s.endPedalRelease p) := by
  unfold State.endPedalRelease
  split
  · exact onlyChannels_armPedal ..
  · exact onlyChannels_withPedal ..

/-- What judging a channel can do (R119): nothing without a request; an ARMED channel fires; a pedal's release, a
key's gap or a key's wait ends. -/
theorem judge_cases (s : State) (c : Channel) :
    (s.requestsNow c = false ∧ s.judge c = s)
    ∨ s.requestsNow c = true ∧
      ((∃ p, c = .pedal p ∧ s.firesNow c = true ∧ s.judge c = (s.dropFire c).firePedal p)
      ∨ (∃ k, c = .key k ∧ s.firesNow c = true ∧ s.judge c = (s.dropFire c).fireKey k)
      ∨ (∃ p, c = .pedal p ∧ s.firesNow c = false ∧ s.judge c = s.endPedalRelease p)
      ∨ (∃ k, c = .key k ∧ s.firesNow c = false ∧ s.gapDue k = true ∧ s.judge c = s.promote k)
      ∨ (∃ k, c = .key k ∧ s.firesNow c = false ∧ s.gapDue k = false ∧ s.judge c = s.expireWait k)) := by
  cases hr : s.requestsNow c
  · exact .inl ⟨rfl, by simp [State.judge, hr]⟩
  · refine .inr ⟨rfl, ?_⟩
    cases hf : s.firesNow c <;> cases c with
    | pedal p => simp [State.judge, hr, hf]
    | key k => cases hg : s.gapDue k <;> simp [State.judge, hr, hf, hg]

theorem onlyChannels_judge (s : State) (c : Channel) : OnlyChannels s (s.judge c) := by
  rcases judge_cases s c with ⟨-, e⟩ | ⟨-, ⟨p, -, -, e⟩ | ⟨k, -, -, e⟩ | ⟨p, -, -, e⟩ | ⟨k, -, -, -, e⟩ | ⟨k, -, -, -, e⟩⟩ <;> rw [e]
  · exact OnlyChannels.refl s
  · exact (onlyChannels_dropFire s c).trans (onlyChannels_firePedal _ p)
  · exact (onlyChannels_dropFire s c).trans (onlyChannels_fireKey _ k)
  · exact onlyChannels_endPedalRelease s p
  · exact onlyChannels_promote s k
  · exact onlyChannels_expireWait s k

theorem onlyChannels_judgeUpTo (s : State) (own : List Channel) : OnlyChannels s (s.judgeUpTo own) :=
  OnlyChannels.foldl onlyChannels_judge _ s

/-- Every channel stands once in the order of R119. -/
theorem mem_allChannels (c : Channel) : c ∈ allChannels := by
  unfold allChannels allPedals allKeys
  cases c with
  | pedal p => cases p <;> simp
  | key k => simp [List.mem_finRange]

/-- Without a request of its own a step judges none. -/
@[simp] theorem judgeUpTo_nil (s : State) : s.judgeUpTo [] = s := by
  simp [State.judgeUpTo]

/-- Judging channels that make no request changes nothing. -/
theorem foldl_judge_idle (cs : List Channel) (h : ∀ c ∈ cs, s.requestsNow c = false) : cs.foldl State.judge s = s := by
  induction cs with
  | nil => rfl
  | cons c cs ih =>
    have hc : s.judge c = s := by simp [State.judge, h c (by simp)]
    rw [List.foldl_cons, hc]
    exact ih fun d hd => h d (by simp [hd])

/-- The channels of R119 stand in strictly rising rank. -/
theorem allChannels_sorted : allChannels.Pairwise (fun a b => a.rank < b.rank) := by
  unfold allChannels
  rw [List.pairwise_append, List.pairwise_map, List.pairwise_map]
  refine ⟨by decide, ?_, ?_⟩
  · exact (List.pairwise_lt_finRange 88).imp fun h => Nat.add_lt_add_left h 3
  · intro a ha b hb
    obtain ⟨p, -, rfl⟩ := List.mem_map.mp ha
    obtain ⟨k, -, rfl⟩ := List.mem_map.mp hb
    exact Nat.lt_of_lt_of_le (pedalPlace p).isLt (Nat.le_add_right 3 k.val)

/-- Of channels of strictly rising rank, those up to one of them are those before it and itself. -/
theorem filter_upTo {c : Channel} : ∀ {l : List Channel}, l.Pairwise (fun a b => a.rank < b.rank) → c ∈ l →
    l.filter (fun d => decide (d.rank ≤ c.rank)) = l.filter (fun d => decide (d.rank < c.rank)) ++ [c]
  | x :: xs, hs, hc => by
    rw [List.pairwise_cons] at hs
    rcases List.mem_cons.mp hc with rfl | hm
    · have h1 : xs.filter (fun d => decide (d.rank ≤ c.rank)) = [] :=
        List.filter_eq_nil_iff.mpr fun d hd => by simpa using hs.1 d hd
      have h2 : xs.filter (fun d => decide (d.rank < c.rank)) = [] :=
        List.filter_eq_nil_iff.mpr fun d hd => by simpa using Nat.le_of_lt (hs.1 d hd)
      simp [h1, h2]
    · have h := hs.1 c hm
      simp [h, Nat.le_of_lt h, filter_upTo hs.2 hm]

/-- A step whose one request nobody's request goes before judges that one alone (R119). -/
theorem judgeUpTo_single (s : State) (c : Channel) (h : ∀ d : Channel, d.rank < c.rank → s.requestsNow d = false) :
    s.judgeUpTo [c] = s.judge c := by
  have e : (fun d : Channel => [c].any fun o => decide (d.rank ≤ o.rank)) = fun d => decide (d.rank ≤ c.rank) := by
    funext d; simp
  rw [State.judgeUpTo, e, filter_upTo allChannels_sorted (mem_allChannels c), List.foldl_append,
    foldl_judge_idle _ fun d hd => h d (by simpa using (List.mem_filter.mp hd).2)]
  rfl

/-! Freed slots -/

/-- What a rearmed key's channel becomes (R109): IDLE, or ARMED with an entry in the Fire List. -/
theorem rearm_cases (s : State) (k : Key) :
    ((s.key k).pending = none ∧ s.rearm k = s.goIdle k)
    ∨ ∃ n, (s.key k).pending = some n
        ∧ s.rearm k = (s.withKey k ((s.key k).promoted n)).armFire (.key k) (n.fire.getD s.roll.rollTime) := by
  unfold State.rearm
  cases (s.key k).pending with
  | none => exact .inl ⟨rfl, rfl⟩
  | some n => exact .inr ⟨n, rfl, rfl⟩

theorem onlyChannels_rearm (s : State) (k : Key) : OnlyChannels s (s.rearm k) := by
  rcases rearm_cases s k with ⟨-, e⟩ | ⟨n, -, e⟩ <;> rw [e] <;> rfl

theorem onlyChannels_handOn (s : State) : OnlyChannels s s.handOn :=
  ((onlyChannels_handOnLoop _ s []).trans (OnlyChannels.foldl onlyChannels_rearm _ _)).trans (onlyChannels_judgeUpTo _ _)

/-- With nobody waiting, a freed slot is handed to nobody. -/
theorem handOn_nil (h : s.waitList = []) : s.handOn = s := by
  simp [State.handOn, h, State.handOnLoop]

theorem onlyChannels_enterRelease (s : State) (k : Key) : OnlyChannels s (s.enterRelease k) := rfl

theorem onlyChannels_checkRelease (s : State) (k : Key) : OnlyChannels s (s.checkRelease k) :=
  OnlyChannels.ite rfl rfl

/-! Hold reasons -/

/-- A change of the hold reasons: the roll's two flags, and hold-limit watches. -/
theorem changeHolds_eq (s : State) (op st : Bool) :
    s.changeHolds op st
      = { s with roll := { s.roll with operator := op, starved := st }, keys := (s.changeHolds op st).keys } := by
  unfold State.changeHolds State.startWatches State.dropWatches State.mapKeys
  dsimp only
  split
  · rfl
  · split <;> rfl

/-- Under a change of the hold reasons a key channel keeps everything but its hold-limit watch. -/
theorem changeHolds_key (s : State) (op st : Bool) (k : Key) :
    (s.changeHolds op st).key k = { s.key k with holdWatch := ((s.changeHolds op st).key k).holdWatch } := by
  unfold State.changeHolds
  dsimp only
  split
  · simp only [State.startWatches, State.key_mapKeys]
    split
    · split
      · split <;> rfl
      · rfl
    · rfl
  · split
    · simp only [State.dropWatches, State.key_mapKeys]
      split
      · split <;> rfl
      · rfl
    · rfl

/-- Setting the hold reasons: nothing when they are so already, else the change and a STATE report. -/
theorem setHolds_cases (s : State) (op st : Bool) :
    (op = s.roll.operator ∧ st = s.roll.starved ∧ s.setHolds op st = s)
    ∨ (¬(op = s.roll.operator ∧ st = s.roll.starved) ∧ s.setHolds op st = (s.changeHolds op st).queueState) := by
  unfold State.setHolds
  split
  · rename_i h; exact .inl ⟨h.1, h.2, rfl⟩
  · rename_i h; exact .inr ⟨h, rfl⟩

/-- The end of a starve episode, or nothing. -/
theorem checkEpisode_cases (s : State) :
    (s.checkEpisode = s)
    ∨ (s.roll.starveStart.isSome = true ∧ s.planReached s.nextLine = false
        ∧ s.checkEpisode
          = State.setHolds { s with roll := { s.roll with starveStart := none } } s.roll.operator false) := by
  unfold State.checkEpisode
  split
  · rename_i h; simp only [Bool.and_eq_true, Bool.not_eq_true'] at h; exact .inr ⟨h.1, h.2, rfl⟩
  · exact .inl rfl

/-! Stop -/

/-- Every key after a stop. -/
theorem stopChannels_key (s : State) (k : Key) :
    s.stopChannels.key k = (s.key k).stopped (s.deviceTime + (s.record k).repeatGap) := by
  simp [State.stopChannels, State.key, State.mapPedals, State.mapKeys]

/-- Every pedal after a stop. -/
theorem stopChannels_pedal (s : State) (p : Pedal) : s.stopChannels.pedal p = (s.pedal p).swept s.deviceTime := by
  simp [State.stopChannels, State.pedal, State.mapPedals, State.mapKeys]

/-- Everything but the channels, their lists and the Pedal Unit stands at a stop. -/
theorem stopChannels_eq (s : State) :
    s.stopChannels
      = { s with keys := s.stopChannels.keys, pedals := s.stopChannels.pedals, fireList := [], waitList := []
                 pedalUnit := PedalUnit.fresh } := by
  unfold State.stopChannels State.mapPedals State.mapKeys
  simp only

/-! Frames, replies and the queue -/

theorem onlyLink_queueState (s : State) : OnlyLink s s.queueState := rfl
theorem onlyLink_queueWindow (s : State) (n : Int) : OnlyLink s (s.queueWindow n) := rfl
theorem onlyLink_queueReply (s : State) (tag : Tag) (c : Byte) (r : ResultCode) (d : List Byte) :
    OnlyLink s (s.queueReply tag c r d) := rfl

/-- A CONTROL frame (R166): discarded at 14 replies, else judged on the state the frame has reached, its
reply queued first, then its effect. -/
theorem control_cases (s : State) (tag : Tag) (code : Byte) (judge : State → Verdict) :
    (14 ≤ s.replyCount ∧ s.control tag code judge = s.validFrame.bump .replyOverflow)
    ∨ (s.replyCount < 14 ∧
      ((∃ r, (judge s.validFrame).result = some r ∧ s.control tag code judge
          = (judge s.validFrame).act (s.validFrame.queueReply tag code r (judge s.validFrame).data))
      ∨ ((judge s.validFrame).result = none ∧ s.control tag code judge = (judge s.validFrame).act s.validFrame))) := by
  unfold State.control
  dsimp only
  have hr : s.validFrame.replyCount = s.replyCount := rfl
  simp only [hr, Config.replyLimit]
  by_cases h : 14 ≤ s.replyCount
  · exact .inl ⟨h, by rw [if_pos h]⟩
  · refine .inr ⟨Nat.lt_of_not_le h, ?_⟩
    rw [if_neg h]
    cases (judge s.validFrame).result with
    | none => exact .inr ⟨rfl, rfl⟩
    | some r => exact .inl ⟨r, rfl, rfl⟩

/-- A refused command's whole effect is its reply. -/
theorem control_refuse (s : State) (tag : Tag) (code : Byte) (judge : State → Verdict) (r : ResultCode)
    (hr : s.replyCount < 14) (hj : judge s.validFrame = refuse r) :
    s.control tag code judge = s.validFrame.queueReply tag code r [] := by
  rcases control_cases s tag code judge with ⟨h, -⟩ | ⟨-, ⟨q, hq, e⟩ | ⟨hq, -⟩⟩
  · omega
  · rw [hj] at hq e; cases hq; exact e
  · rw [hj] at hq; cases hq

/-- A command taken: its reply first, then its effect. -/
theorem control_accept (s : State) (tag : Tag) (code : Byte) (judge : State → Verdict) (r : ResultCode)
    (act : State → State) (hr : s.replyCount < 14) (hj : judge s.validFrame = accept r act) :
    s.control tag code judge = act (s.validFrame.queueReply tag code r []) := by
  rcases control_cases s tag code judge with ⟨h, -⟩ | ⟨-, ⟨q, hq, e⟩ | ⟨hq, -⟩⟩
  · omega
  · rw [hj] at hq e; cases hq; exact e
  · rw [hj] at hq; cases hq

/-! Entering PLAYING, power -/

/-- Entering PLAYING moves the link, the Hole Recognizer and the timeline only. -/
theorem enterPlaying_eq (s : State) (f : Nat) (m : MapNo) :
    s.enterPlaying f m
      = { s with link := (s.enterPlaying f m).link, holes := (s.enterPlaying f m).holes, roll := (s.enterPlaying f m).roll } :=
  rfl

/-- A lost operation leaves every region but its own alone, and its own with a failing check (R181). -/
theorem loseOp_region (st : Store) (r : Region) :
    st.loseOp.regions[r.val]
      = { st.regions[r.val] with
          checkGood := st.regions[r.val].checkGood && !(st.op.map (·.region) == some r) } := by
  unfold Store.loseOp
  cases h : st.op with
  | none => simp
  | some o =>
    by_cases e : o.region = r
    · subst e; simp
    · have e' : o.region.val ≠ r.val := fun x => e (Fin.ext x)
      have e'' : (o.region == r) = false := by simpa using e
      simp [e', e'']

end Sys2Proof.Machine
end

