-- ==== Sys2Proof/Laws/Commands.lean ====
section
/-! SUPPORT. What exec of each command is, once its gate is open: the equations the provers cite in place of unfolding a meaning; and what the idle card may post. -/

namespace Sys2Proof.Machine

variable {s : State}

/-! CONTROL frames and SCAN frames, on a running card -/

theorem exec_unknownCommand (hp : s.power = .running) (tag : Tag) (payload : List Byte) :
    exec (.unknownCommand tag payload) s = .next (s.control tag (unknownCode payload) fun _ => refuse .unknown) := by
  simp only [exec, execUnknownCommand, whenRunning, if_pos hp]

theorem exec_rollStart (hp : s.power = .running) (tag line : Tag) (tempo : BitVec 16) (mode : Byte) :
    exec (.rollStart tag line tempo mode) s = .next (s.control tag 0x10#8 (judgeRollStart line tempo mode)) := by
  simp only [exec, execRollStart, whenRunning, if_pos hp]

theorem exec_rollStop (hp : s.power = .running) (tag : Tag) :
    exec (.rollStop tag) s = .next (s.control tag 0x11#8 judgeRollStop) := by
  simp only [exec, execRollStop, whenRunning, if_pos hp]

theorem exec_pause (hp : s.power = .running) (tag : Tag) :
    exec (.pause tag) s = .next (s.control tag 0x12#8 judgePause) := by
  simp only [exec, execPause, whenRunning, if_pos hp]

theorem exec_resume (hp : s.power = .running) (tag : Tag) :
    exec (.resume tag) s = .next (s.control tag 0x13#8 judgeResume) := by
  simp only [exec, execResume, whenRunning, if_pos hp]

theorem exec_tempo (hp : s.power = .running) (tag line : Tag) (tempo : BitVec 16) :
    exec (.tempo tag line tempo) s = .next (s.control tag 0x14#8 (judgeTempo line tempo)) := by
  simp only [exec, execTempo, whenRunning, if_pos hp]

theorem exec_tableWrite (hp : s.power = .running) (tag : Tag) (table start count : Byte) (entries : List Byte) :
    exec (.tableWrite tag table start count entries) s = .next (s.control tag 0x20#8 (judgeTableWrite table start count entries)) := by
  simp only [exec, execTableWrite, whenRunning, if_pos hp]

theorem exec_tableRead (hp : s.power = .running) (tag : Tag) (table start count : Byte) :
    exec (.tableRead tag table start count) s = .next (s.control tag 0x21#8 (judgeTableRead table start count)) := by
  simp only [exec, execTableRead, whenRunning, if_pos hp]

theorem exec_statusQuery (hp : s.power = .running) (tag : Tag) :
    exec (.statusQuery tag) s = .next (s.control tag 0x30#8 judgeStatusQuery) := by
  simp only [exec, execStatusQuery, whenRunning, if_pos hp]

theorem exec_countersRead (hp : s.power = .running) (tag : Tag) :
    exec (.countersRead tag) s = .next (s.control tag 0x31#8 judgeCountersRead) := by
  simp only [exec, execCountersRead, whenRunning, if_pos hp]

theorem exec_faultClear (hp : s.power = .running) (tag : Tag) (mask : BitVec 16) :
    exec (.faultClear tag mask) s = .next (s.control tag 0x32#8 (judgeFaultClear mask)) := by
  simp only [exec, execFaultClear, whenRunning, if_pos hp]

theorem exec_keyTest (hp : s.power = .running) (tag : Tag) (key : Byte) (velocity : BitVec 16) :
    exec (.keyTest tag key velocity) s = .next (s.control tag 0x33#8 (judgeKeyTest key velocity)) := by
  simp only [exec, execKeyTest, whenRunning, if_pos hp]

theorem exec_storeSave (hp : s.power = .running) (tag : Tag) (region : Byte) :
    exec (.storeSave tag region) s = .next (s.control tag 0x40#8 (judgeStoreSave tag region)) := by
  simp only [exec, execStoreSave, whenRunning, if_pos hp]

theorem exec_storeProtect (hp : s.power = .running) (tag : Tag) (mask : Byte) :
    exec (.storeProtect tag mask) s = .next (s.control tag 0x41#8 (judgeProtect mask true)) := by
  simp only [exec, execStoreProtect, whenRunning, if_pos hp]

theorem exec_storeUnprotect (hp : s.power = .running) (tag : Tag) (mask : Byte) :
    exec (.storeUnprotect tag mask) s = .next (s.control tag 0x42#8 (judgeProtect mask false)) := by
  simp only [exec, execStoreUnprotect, whenRunning, if_pos hp]

theorem exec_storeLock (hp : s.power = .running) (tag : Tag) (value : Byte) :
    exec (.storeLock tag value) s = .next (s.control tag 0x43#8 (judgeStoreLock value)) := by
  simp only [exec, execStoreLock, whenRunning, if_pos hp]

theorem exec_storeLockdown (hp : s.power = .running) (tag : Tag) (region confirm : Byte) :
    exec (.storeLockdown tag region confirm) s = .next (s.control tag 0x44#8 (judgeStoreLockdown tag region confirm)) := by
  simp only [exec, execStoreLockdown, whenRunning, if_pos hp]

theorem exec_scanFrame (hp : s.power = .running) (line : Tag) (payload : List Byte) :
    exec (.scanFrame line payload) s = .next (s.validFrame.scan line payload) := by
  simp only [exec, execScanFrame, whenRunning, if_pos hp]

theorem exec_linkReset (hp : s.power = .running) (tag : Tag) :
    exec (.linkReset tag) s = .next (s.linkReset tag) := by
  simp only [exec, execLinkReset, whenRunning, if_pos hp]

theorem exec_headerError (hp : s.power = .running)  :
    exec .headerError s = .next (State.bump { s with link := s.link.rehunt } .headerError) := by
  simp only [exec, execHeaderError, whenRunning, if_pos hp]

theorem exec_payloadError (hp : s.power = .running)  :
    exec .payloadError s = .next (State.bump { s with link := { s.link with receiver := .hunting none } } .payloadError) := by
  simp only [exec, execPayloadError, whenRunning, if_pos hp]

theorem exec_senseEdge (hp : s.power = .running) (k : Key) :
    exec (.senseEdge k) s = .next (if (s.record k).senseFitted then s.judgeEdge k else s) := by
  simp only [exec, execSenseEdge, whenRunning, if_pos hp]

/-! Events of the card's own, when due -/

theorem exec_leaderMaxExpiry (hp : s.power = .running) (hd : s.leaderMaxDue = true) :
    exec .leaderMaxExpiry s = .next (State.enterPlaying { s with holes := { s.holes with code := 0 } } (s.front.newest + 1).toNat s.tables.format.defaultSet) := by
  simp only [exec, execLeaderMaxExpiry, whenDue, whenRunning, if_pos hp, if_pos hd]

theorem exec_returnSend (hp : s.power = .running) (hd : s.sendDue = true) :
    exec .returnSend s = .next (s.sendNext) := by
  simp only [exec, execReturnSend, whenDue, whenRunning, if_pos hp, if_pos hd]

theorem exec_linkAliveExpiry (hp : s.power = .running) (hd : s.aliveDue = true) :
    exec .linkAliveExpiry s = .next ({ s with
      link := { s.link with linkLost := true, aliveStart := none }
      roll := if s.rollActive then { s.roll with abandonStart := some s.deviceTime } else s.roll }) := by
  simp only [exec, execLinkAliveExpiry, whenDue, whenRunning, if_pos hp, if_pos hd]

theorem exec_abandon (hp : s.power = .running) (hd : s.abandonDue = true) :
    exec .abandon s = .next ((s.bump .abandoned).stopRoll) := by
  simp only [exec, execAbandon, whenDue, whenRunning, if_pos hp, if_pos hd]

theorem exec_planLine (hp : s.power = .running) (hd : s.planDue = true) :
    exec .planLine s = .next (s.planNext) := by
  simp only [exec, execPlanLine, whenDue, whenRunning, if_pos hp, if_pos hd]

theorem exec_starveEpisodeStart (hp : s.power = .running) (hd : s.episodeDue = true) :
    exec .starveEpisodeStart s = .next ({ s with roll := { s.roll with starveStart := some s.deviceTime } }) := by
  simp only [exec, execStarveEpisodeStart, whenDue, whenRunning, if_pos hp, if_pos hd]

theorem exec_starveHold (hp : s.power = .running) (hd : s.starveHoldDue = true) :
    exec .starveHold s = .next ((s.bump .starveHold).setHolds s.roll.operator true) := by
  simp only [exec, execStarveHold, whenDue, whenRunning, if_pos hp, if_pos hd]

theorem exec_holdLimitExpiry (k : Key) (hp : s.power = .running) (hd : s.holdLimitDue k = true) :
    exec (.holdLimitExpiry k) s = .next (if (s.key k).state = .hold then s.limitRelease k
      else s.withKey k { s.key k with holdWatch := (s.key k).holdWatch.map HoldWatch.mark }) := by
  simp only [exec, execHoldLimitExpiry, whenDue, whenRunning, if_pos hp, if_pos hd]

theorem exec_rollEnd (hp : s.power = .running) (hd : s.rollEndDue = true) :
    exec .rollEnd s = .next (State.queueState { s.changeHolds false false with
      roll := s.roll.toNoRoll
      holes := s.holes.inactive
      pedalUnit := { s.pedalUnit with capture := [], window := none } }) := by
  simp only [exec, execRollEnd, whenDue, whenRunning, if_pos hp, if_pos hd]

theorem exec_keyFire (k : Key) (hp : s.power = .running) (hd : s.keyFireDue k = true) :
    exec (.keyFire k) s = .next (State.fireKey { s with fireList := s.fireList.drop 1 } k) := by
  simp only [exec, execKeyFire, whenDue, whenRunning, if_pos hp, if_pos hd]

theorem exec_kickEnd (k : Key) (hp : s.power = .running) (hd : s.kickEndDue k = true) :
    exec (.kickEnd k) s = .next ((s.endKick k).handOn) := by
  simp only [exec, execKickEnd, whenDue, whenRunning, if_pos hp, if_pos hd]

theorem exec_deferExpiry (k : Key) (hp : s.power = .running) (hd : s.deferDue k = true) :
    exec (.deferExpiry k) s = .next (s.expireWait k) := by
  simp only [exec, execDeferExpiry, whenDue, whenRunning, if_pos hp, if_pos hd]

theorem exec_holdRelease (k : Key) (hp : s.power = .running) (hd : s.releaseDue k = true) :
    exec (.holdRelease k) s = .next (s.enterRelease k) := by
  simp only [exec, execHoldRelease, whenDue, whenRunning, if_pos hp, if_pos hd]

theorem exec_testRelease (k : Key) (hp : s.power = .running) (hd : s.testReleaseDue k = true) :
    exec (.testRelease k) s = .next (s.enterRelease k) := by
  simp only [exec, execTestRelease, whenDue, whenRunning, if_pos hp, if_pos hd]

theorem exec_gapEnd (k : Key) (hp : s.power = .running) (hd : s.gapDue k = true) :
    exec (.gapEnd k) s = .next (s.promote k) := by
  simp only [exec, execGapEnd, whenDue, whenRunning, if_pos hp, if_pos hd]

theorem exec_pedalFire (p : Pedal) (hp : s.power = .running) (hd : s.pedalFireDue p = true) :
    exec (.pedalFire p) s = .next (State.firePedal { s with fireList := s.fireList.drop 1 } p) := by
  simp only [exec, execPedalFire, whenDue, whenRunning, if_pos hp, if_pos hd]

theorem exec_pedalKickEnd (p : Pedal) (hp : s.power = .running) (hd : s.pedalKickEndDue p = true) :
    exec (.pedalKickEnd p) s = .next ((s.endPedalKick p).handOn) := by
  simp only [exec, execPedalKickEnd, whenDue, whenRunning, if_pos hp, if_pos hd]

theorem exec_pedalLift (p : Pedal) (hp : s.power = .running) (hd : s.pedalLiftDue p = true) :
    exec (.pedalLift p) s = .next (s.releasePedal p) := by
  simp only [exec, execPedalLift, whenDue, whenRunning, if_pos hp, if_pos hd]

theorem exec_pedalReleaseEnd (p : Pedal) (hp : s.power = .running) (hd : s.pedalReleaseDue p = true) :
    exec (.pedalReleaseEnd p) s = .next (s.endPedalRelease p) := by
  simp only [exec, execPedalReleaseEnd, whenDue, whenRunning, if_pos hp, if_pos hd]

theorem exec_heatCooling (hp : s.power = .running) (hd : s.coolDue = true) :
    exec .heatCooling s = .next s.cool := by
  simp only [exec, execHeatCooling, whenDue, whenRunning, if_pos hp, if_pos hd]

theorem exec_senseDeadline (k : Key) (hp : s.power = .running) (hd : s.deadlineDue k = true) :
    exec (.senseDeadline k) s = .next (s.reachDeadline k) := by
  simp only [exec, execSenseDeadline, whenDue, whenRunning, if_pos hp, if_pos hd]

theorem exec_storeSaveComplete (hp : s.power = .running) (good : Bool) {o : StoreOp} {copy : RegionImage}
    (hd : s.saveDue = some (o, copy)) :
    exec (.storeSaveComplete good) s = .next (s.finishSave o copy good) := by
  simp only [exec, execStoreSaveComplete, whenRunning, if_pos hp, hd]

theorem exec_storeLockdownComplete (hp : s.power = .running) (good : Bool) {o : StoreOp}
    (hd : s.lockdownOpDue = some o) :
    exec (.storeLockdownComplete good) s = .next (s.finishLockdown o good) := by
  simp only [exec, execStoreLockdownComplete, whenRunning, if_pos hp, hd]

/-! Power, the reset line and the fault lines -/

theorem exec_powerOn : exec .powerOn s = .next (s.bringUp 0 1000) := rfl

theorem exec_resetLineAsserted (h : s.power ≠ .off) : exec .resetLineAsserted s = .next s.assertReset :=
  congrArg _ (if_neg h)

theorem exec_resetLineReleased (h : s.power ≠ .off) :
    exec .resetLineReleased s = .next (s.bringUp s.deviceTime s.nextCool) :=
  congrArg _ (if_neg h)

theorem exec_faultLineActive (g : Group) (hp : s.power = .running) (h : s.faultLines[g.val] = false) :
    exec (.faultLineActive g) s = .next ((s.setFaultLine g true).raiseFault g) := by
  show Host.Outcome.next _ = _
  rw [if_neg (by simp [h]), if_pos hp]

/-- Every command answers a next state: the card has no fault and refuses nothing. -/
theorem exec_next (c : Instr) (s : State) : ∃ t, exec c s = .next t := by
  cases c <;> exact ⟨_, rfl⟩

/-- Every step answers a next state. -/
theorem step_next (s : State) : ∃ t, step s = .next t := by
  unfold step
  split
  · exact exec_next _ _
  · exact ⟨_, rfl⟩

/-! What the idle card may post -/

/-- An event can happen next exactly when it is due and its requests come before those of the due lines and, unless it
is a kick end, before every other request of this device time (R119). -/
theorem mem_nextEventChoices {i : Instr} :
    i ∈ s.nextEventChoices ↔ i ∈ s.dueEvents
      ∧ s.judgedFirst i (s.lineRequests.filter fun c => !s.requesters.contains c) = true
      ∧ (isKickEnd i = true ∨ s.judgedFirst i s.requesters = true) := by
  simp only [State.nextEventChoices, List.mem_filter, Bool.and_eq_true, Bool.or_eq_true]

/-- An event is judged before some channels, or with them, exactly when some request of its own precedes each of them,
or it makes none (R119). -/
theorem judgedFirst_iff {i : Instr} {cs : List Channel} :
    s.judgedFirst i cs = true ↔ s.requests i = [] ∨ ∀ d ∈ cs, ∃ c ∈ s.requests i, c.rank ≤ d.rank := by
  unfold State.judgedFirst
  cases h : ((s.requests i).map Channel.rank).min? with
  | none =>
    have : s.requests i = [] := by simpa using h
    simp [this]
  | some p =>
    obtain ⟨hm, hle⟩ := List.min?_eq_some_iff.1 h
    obtain ⟨c, hc, rfl⟩ := List.mem_map.1 hm
    simp only [List.all_eq_true, decide_eq_true_eq]
    refine ⟨fun hd => .inr fun d h' => ⟨c, hc, hd d h'⟩, ?_⟩
    rintro (h0 | hd) d h'
    · rw [h0] at hc; cases hc
    · obtain ⟨c', hc', hr⟩ := hd d h'
      exact (hle _ (List.mem_map_of_mem hc')).trans hr

end Sys2Proof.Machine
end

