-- ==== Sys2Proof/Laws/PerInstr.lean ====
section
/-! SUPPORT. A statement made per command: the command code of a CONTROL frame is the first byte of its payload. -/

namespace Sys2Proof.Laws.CommandCode

open Sys2Proof.Machine Sys2Proof.Safety

/-- A command with a command code is carried by a CONTROL frame whose payload starts with that code, or
is empty where the code stands for an empty payload; a command without one is LINK RESET or no CONTROL frame (section 10.4). -/
def Statement (i : Instr) : Prop :=
  match controlCode i with
  | some code => ∃ f, controlFrame i = some f ∧ f.2.headD 0x00#8 = code
  | none => controlFrame i = none ∨ ∃ tag, i = .linkReset tag ∧ controlFrame i = some (tag, [0x50#8])

theorem powerOn : Statement .powerOn := .inl rfl
theorem resetLineAsserted : Statement .resetLineAsserted := .inl rfl
theorem resetLineReleased : Statement .resetLineReleased := .inl rfl
theorem headerError : Statement .headerError := .inl rfl
theorem payloadError : Statement .payloadError := .inl rfl
theorem scanFrame (line : Tag) (payload : List Byte) : Statement (.scanFrame line payload) := .inl rfl
theorem leaderMaxExpiry : Statement .leaderMaxExpiry := .inl rfl
theorem unknownCommand (tag : Tag) (payload : List Byte) : Statement (.unknownCommand tag payload) := ⟨_, rfl, rfl⟩
theorem rollStart (tag : Tag) (line : Tag) (tempo : BitVec 16) (mode : Byte) : Statement (.rollStart tag line tempo mode) := ⟨_, rfl, rfl⟩
theorem rollStop (tag : Tag) : Statement (.rollStop tag) := ⟨_, rfl, rfl⟩
theorem pause (tag : Tag) : Statement (.pause tag) := ⟨_, rfl, rfl⟩
theorem resume (tag : Tag) : Statement (.resume tag) := ⟨_, rfl, rfl⟩
theorem tempo (tag : Tag) (line : Tag) (tempo : BitVec 16) : Statement (.tempo tag line tempo) := ⟨_, rfl, rfl⟩
theorem tableWrite (tag : Tag) (table start count : Byte) (entries : List Byte) : Statement (.tableWrite tag table start count entries) := ⟨_, rfl, rfl⟩
theorem tableRead (tag : Tag) (table start count : Byte) : Statement (.tableRead tag table start count) := ⟨_, rfl, rfl⟩
theorem statusQuery (tag : Tag) : Statement (.statusQuery tag) := ⟨_, rfl, rfl⟩
theorem countersRead (tag : Tag) : Statement (.countersRead tag) := ⟨_, rfl, rfl⟩
theorem faultClear (tag : Tag) (mask : BitVec 16) : Statement (.faultClear tag mask) := ⟨_, rfl, rfl⟩
theorem keyTest (tag : Tag) (key : Byte) (velocity : BitVec 16) : Statement (.keyTest tag key velocity) := ⟨_, rfl, rfl⟩
theorem storeSave (tag : Tag) (region : Byte) : Statement (.storeSave tag region) := ⟨_, rfl, rfl⟩
theorem storeProtect (tag : Tag) (mask : Byte) : Statement (.storeProtect tag mask) := ⟨_, rfl, rfl⟩
theorem storeUnprotect (tag : Tag) (mask : Byte) : Statement (.storeUnprotect tag mask) := ⟨_, rfl, rfl⟩
theorem storeLock (tag : Tag) (value : Byte) : Statement (.storeLock tag value) := ⟨_, rfl, rfl⟩
theorem storeLockdown (tag : Tag) (region confirm : Byte) : Statement (.storeLockdown tag region confirm) := ⟨_, rfl, rfl⟩
theorem linkReset (tag : Tag) : Statement (.linkReset tag) := .inr ⟨tag, rfl, rfl⟩
theorem storeSaveComplete (readBack : Bool) : Statement (.storeSaveComplete readBack) := .inl rfl
theorem storeLockdownComplete (readBack : Bool) : Statement (.storeLockdownComplete readBack) := .inl rfl
theorem returnSend : Statement .returnSend := .inl rfl
theorem linkAliveExpiry : Statement .linkAliveExpiry := .inl rfl
theorem abandon : Statement .abandon := .inl rfl
theorem planLine : Statement .planLine := .inl rfl
theorem starveEpisodeStart : Statement .starveEpisodeStart := .inl rfl
theorem starveHold : Statement .starveHold := .inl rfl
theorem holdLimitExpiry (k : Key) : Statement (.holdLimitExpiry k) := .inl rfl
theorem rollEnd : Statement .rollEnd := .inl rfl
theorem keyFire (k : Key) : Statement (.keyFire k) := .inl rfl
theorem kickEnd (k : Key) : Statement (.kickEnd k) := .inl rfl
theorem deferExpiry (k : Key) : Statement (.deferExpiry k) := .inl rfl
theorem holdRelease (k : Key) : Statement (.holdRelease k) := .inl rfl
theorem testRelease (k : Key) : Statement (.testRelease k) := .inl rfl
theorem gapEnd (k : Key) : Statement (.gapEnd k) := .inl rfl
theorem pedalFire (p : Pedal) : Statement (.pedalFire p) := .inl rfl
theorem pedalKickEnd (p : Pedal) : Statement (.pedalKickEnd p) := .inl rfl
theorem pedalLift (p : Pedal) : Statement (.pedalLift p) := .inl rfl
theorem pedalReleaseEnd (p : Pedal) : Statement (.pedalReleaseEnd p) := .inl rfl
theorem heatCooling : Statement .heatCooling := .inl rfl
theorem faultLineActive (g : Group) : Statement (.faultLineActive g) := .inl rfl
theorem faultLineInactive (g : Group) : Statement (.faultLineInactive g) := .inl rfl
theorem senseEdge (k : Key) : Statement (.senseEdge k) := .inl rfl
theorem senseDeadline (k : Key) : Statement (.senseDeadline k) := .inl rfl
theorem powerFail : Statement .powerFail := .inl rfl

end Sys2Proof.Laws.CommandCode
end

