-- ==== Sys2Proof/Laws/Plan.lean ====
section
/-! SUPPORT. What the operations of one planned line and of the lists leave alone: insertions, KEY and PEDAL events, late notes and presses, cooling, bytes on a lane. -/

namespace Sys2Proof.Machine

/-! Insertions -/

/-- An insertion in the Fire List adds its entry and keeps every other. -/
theorem insertFire_perm (e : FireEntry) : ∀ l : List FireEntry, (insertFire e l).Perm (e :: l)
  | [] => List.Perm.refl _
  | x :: xs => by
    unfold insertFire
    split
    · exact List.Perm.refl _
    · exact ((insertFire_perm e xs).cons x).trans (List.Perm.swap e x xs)

/-- An insertion in the Kick Wait List adds its entry and keeps every other. -/
theorem insertWait_perm (e : WaitEntry) : ∀ l : List WaitEntry, (insertWait e l).Perm (e :: l)
  | [] => List.Perm.refl _
  | x :: xs => by
    unfold insertWait
    split
    · exact List.Perm.refl _
    · exact ((insertWait_perm e xs).cons x).trans (List.Perm.swap e x xs)

/-- An insertion in the Event Queue adds its event and keeps every other. -/
theorem insertEvent_perm (e : HoleEvent) : ∀ q : List HoleEvent, (insertEvent q e).Perm (e :: q)
  | [] => List.Perm.refl _
  | x :: xs => by
    unfold insertEvent
    split
    · exact List.Perm.refl _
    · exact ((insertEvent_perm e xs).cons x).trans (List.Perm.swap e x xs)

/-- A channel's count in the Fire List after an insertion. -/
theorem countP_insertFire (p : FireEntry → Bool) (e : FireEntry) (l : List FireEntry) :
    (insertFire e l).countP p = l.countP p + if p e then 1 else 0 := by
  rw [(insertFire_perm e l).countP_eq, List.countP_cons]

/-- A channel's count in the Kick Wait List after an insertion. -/
theorem countP_insertWait (p : WaitEntry → Bool) (e : WaitEntry) (l : List WaitEntry) :
    (insertWait e l).countP p = l.countP p + if p e then 1 else 0 := by
  rw [(insertWait_perm e l).countP_eq, List.countP_cons]

/-! The Event Queue -/

/-- Events inserted one after another all join the queue, and what stood in it stays. -/
theorem foldl_insertEvent_perm (es q : List HoleEvent) : (es.foldl insertEvent q).Perm (es ++ q) := by
  induction es generalizing q with
  | nil => exact List.Perm.refl q
  | cons e es ih =>
    exact (ih (insertEvent q e)).trans (((insertEvent_perm e q).append_left es).trans List.perm_middle)

/-- What an offer of a line's events can do: with room for all, they all join the queue; otherwise nothing is inserted (R28). -/
theorem offerEvents_cases (q es : List HoleEvent) :
    (q.length + es.length ≤ Config.eventLimit ∧ ∃ q', offerEvents q es = some q' ∧ q'.Perm (es ++ q))
      ∨ (Config.eventLimit < q.length + es.length ∧ offerEvents q es = none) := by
  unfold offerEvents
  by_cases h : q.length + es.length ≤ Config.eventLimit
  · exact .inl ⟨h, _, if_pos h, foldl_insertEvent_perm _ _⟩
  · exact .inr ⟨by omega, if_neg h⟩

/-- An event stays in the queue exactly when its line is still to be planned (R27). -/
@[simp] theorem mem_stillToPlan {plan : Int} {q : List HoleEvent} {e : HoleEvent} :
    e ∈ stillToPlan plan q ↔ e ∈ q ∧ plan < e.line := by
  simp [stillToPlan]

/-- While every queued event lies above the plan line, none leaves (R27, R39). -/
theorem stillToPlan_of_above {plan : Int} {q : List HoleEvent} (h : ∀ e ∈ q, plan < e.line) : stillToPlan plan q = q :=
  List.filter_eq_self.2 fun e he => decide_eq_true (h e he)

/-- What the Event Queue holds once an arrival is processed: in PLAYING its events above the plan line, otherwise all of them. -/
theorem mem_queueToPlan {s : State} {e : HoleEvent} :
    e ∈ s.queueToPlan ↔ e ∈ s.holes.queue ∧ (s.roll.rollState = .playing → s.roll.planLine < e.line) := by
  unfold State.queueToPlan
  split <;> simp_all

/-- A queue whose events all lie above the plan line stands. -/
theorem queueToPlan_of_above {s : State} (h : s.roll.rollState = .playing → ∀ e ∈ s.holes.queue, s.roll.planLine < e.line) :
    s.queueToPlan = s.holes.queue := by
  unfold State.queueToPlan
  split
  · exact stillToPlan_of_above (h ‹_›)
  · rfl

/-- The next line's events and the queue that is left make up the queue (R29). -/
theorem nextEvents_append_rest (s : State) :
    s.nextEvents ++ s.holes.queue.dropWhile (fun e => e.line == s.nextLine) = s.holes.queue :=
  List.takeWhile_append_dropWhile

/-! The KEY events of a planned line -/

theorem onlyChannels_noteOn (s : State) (k : Key) (note : Note) : OnlyChannels s (s.noteOn k note) :=
  OnlyChannels.ite rfl (OnlyChannels.ite rfl (OnlyChannels.ite rfl rfl))

theorem onlyChannels_noteOff (s : State) (k : Key) (t : RollTime) : OnlyChannels s (s.noteOff k t) :=
  OnlyChannels.ite ((onlyChannels_withKey s k _).trans (onlyChannels_checkRelease _ k)) (onlyChannels_withKey s k _)

theorem onlyChannels_planKey (s : State) (n : Nat) (e : HoleEvent) : OnlyChannels s (s.planKey n e) := by
  unfold State.planKey
  split
  · exact OnlyChannels.ite (onlyChannels_noteOn ..) (onlyChannels_noteOff ..)
  · exact OnlyChannels.refl s

theorem onlyChannels_takeKeys (s : State) (n : Nat) (es : List HoleEvent) : OnlyChannels s (s.takeKeys n es) :=
  OnlyChannels.foldl (fun s e => onlyChannels_planKey s n e) es s

theorem onlyChannels_fireLate (s : State) (cs : List Channel) : OnlyChannels s (s.fireLate cs) :=
  onlyChannels_judgeUpTo s _

/-- The KEY events of a line and its late notes move channels, their lists and counters, and nothing else. -/
theorem onlyChannels_planKeys (s : State) (n : Nat) (es : List HoleEvent) : OnlyChannels s (s.planKeys n es) :=
  (onlyChannels_takeKeys s n es).trans (onlyChannels_fireLate _ _)

/-! The PEDAL events of a planned line -/

/-- Only channels, their two lists, counters and the Pedal Unit differ. -/
def OnlyPedalUnit (s t : State) : Prop := OnlyChannels { s with pedalUnit := t.pedalUnit } t

variable {s t u : State}

theorem OnlyPedalUnit.refl (s : State) : OnlyPedalUnit s s := rfl

theorem OnlyPedalUnit.trans (h : OnlyPedalUnit s t) (h' : OnlyPedalUnit t u) : OnlyPedalUnit s u := by
  unfold OnlyPedalUnit OnlyChannels at *; rw [h', h]

theorem OnlyPedalUnit.ite {c : Prop} [Decidable c] (h : OnlyPedalUnit s t) (h' : OnlyPedalUnit s u) :
    OnlyPedalUnit s (if c then t else u) := by split <;> assumption

/-- What moves channels only leaves the Pedal Unit alone too. -/
theorem OnlyChannels.onlyPedalUnit (h : OnlyChannels s t) : OnlyPedalUnit s t := by
  have e : ({ s with pedalUnit := t.pedalUnit } : State) = s := by rw [h.pedalUnit]
  unfold OnlyPedalUnit; rw [e]; exact h

theorem onlyChannels_handPress (s : State) (p : Pedal) (press : Press) : OnlyChannels s (s.handPress p press) :=
  OnlyChannels.ite rfl (OnlyChannels.ite rfl rfl)

theorem onlyChannels_handLift (s : State) (p : Pedal) (t : RollTime) : OnlyChannels s (s.handLift p t) := by
  unfold State.handLift
  dsimp only
  split
  · rfl
  · split
    · rfl
    · rfl
    · exact OnlyChannels.ite rfl rfl
    · exact OnlyChannels.ite (OnlyChannels.ite rfl rfl) rfl
    · rfl

theorem onlyPedalUnit_formCapture (s : State) (n : Nat) : OnlyPedalUnit s (s.formCapture n) := by
  unfold State.formCapture
  exact OnlyPedalUnit.trans (t := { s with pedalUnit := { s.pedalUnit with
    capture := _, window := _ } }) rfl (onlyChannels_mapKeys _ _).onlyPedalUnit

theorem onlyPedalUnit_emptyCapture (s : State) : OnlyPedalUnit s s.emptyCapture := rfl

theorem onlyPedalUnit_applyRollKeys (s : State) (es : List HoleEvent) : OnlyPedalUnit s (s.applyRollKeys es) := rfl

theorem onlyPedalUnit_planPress (s : State) (p : Pedal) (n : Nat) : OnlyPedalUnit s (s.planPress p n) := by
  have h : OnlyPedalUnit s (s.putPlanned p true) := rfl
  refine OnlyPedalUnit.ite rfl (OnlyPedalUnit.ite ?_ ?_)
  · exact (h.trans (onlyChannels_handPress _ p _).onlyPedalUnit).trans (onlyPedalUnit_formCapture _ n)
  · exact h.trans (onlyChannels_handPress _ p _).onlyPedalUnit

theorem onlyPedalUnit_planLift (s : State) (p : Pedal) (n : Nat) : OnlyPedalUnit s (s.planLift p n) := by
  have h : OnlyPedalUnit s (s.putPlanned p false) := rfl
  refine OnlyPedalUnit.ite rfl (OnlyPedalUnit.ite ?_ ?_)
  · exact (h.trans (onlyChannels_handLift _ p _).onlyPedalUnit).trans (onlyPedalUnit_emptyCapture _)
  · exact h.trans (onlyChannels_handLift _ p _).onlyPedalUnit

theorem onlyPedalUnit_planPedal (s : State) (n : Nat) (e : HoleEvent) : OnlyPedalUnit s (s.planPedal n e) := by
  unfold State.planPedal
  split
  · exact OnlyPedalUnit.ite (onlyPedalUnit_planPress ..) (onlyPedalUnit_planLift ..)
  · exact OnlyPedalUnit.refl s

/-- A fold of steps that each move channels and the Pedal Unit only does so only. -/
theorem OnlyPedalUnit.foldl {α : Type} {f : State → α → State} (h : ∀ s a, OnlyPedalUnit s (f s a)) (as : List α)
    (s : State) : OnlyPedalUnit s (as.foldl f s) := by
  induction as generalizing s with
  | nil => exact OnlyPedalUnit.refl s
  | cons a as ih => exact (h s a).trans (ih (f s a))

theorem onlyPedalUnit_closeWindow (s : State) (n : Nat) : OnlyPedalUnit s (s.closeWindow n) := by
  unfold State.closeWindow
  split
  · exact OnlyPedalUnit.ite rfl rfl
  · rfl

/-- The PEDAL events of a line and its late presses move channels, their lists, counters and the Pedal Unit, and nothing else. -/
theorem onlyPedalUnit_planPedals (s : State) (n : Nat) (es : List HoleEvent) : OnlyPedalUnit s (s.planPedals n es) :=
  (((onlyPedalUnit_closeWindow s n).trans (onlyPedalUnit_applyRollKeys _ es)).trans
    (OnlyPedalUnit.foldl (fun s e => onlyPedalUnit_planPedal s n e) es _)).trans (onlyChannels_fireLate _ _).onlyPedalUnit

/-! Cooling -/

@[simp] theorem State.key_cool (s : State) (k : Key) :
    s.cool.key k = { s.key k with heat := (s.key k).heat - s.tables.settings.coolPerMs } := by
  simp [State.cool, State.key, State.mapKeys]

/-- Cooling moves the keys' heat and the next cooling moment only (R126). -/
theorem State.cool_eq (s : State) : s.cool = { s with keys := s.cool.keys, nextCool := s.nextCool + 1000 } := by
  simp only [State.cool, State.mapKeys]

/-! Bytes on a lane -/

@[simp] theorem length_byteBits (b : Byte) : (byteBits b).length = Config.bitsPerByte := by
  simp [byteBits, Config.bitsPerByte]

@[simp] theorem length_laneBits (bs : List Byte) : (laneBits bs).length = bs.length * Config.bitsPerByte := by
  induction bs with
  | nil => rfl
  | cons b bs ih =>
    show (byteBits b ++ laneBits bs).length = _
    rw [List.length_append, length_byteBits, ih, List.length_cons, Nat.succ_mul, Nat.add_comm]

end Sys2Proof.Machine
end

