-- ==== Sys2Proof/Laws/Tables.lean ====
section
/-! SUPPORT. The checks of R178 in the manual's words and as the machine computes them: field ranges, coding, cross checks. -/

namespace Sys2Proof.Machine

open Sys2Proof.Safety

/-! Entries -/

theorem splitFields_eq : ∀ (l : List (Nat × Nat × Nat)) (bs : List Byte), bs.length = (l.map (·.1)).sum →
    splitFields (l.map (·.1)) bs = some (entryNumbers l bs)
  | [], bs, h => by
    obtain rfl : bs = [] := List.eq_nil_of_length_eq_zero (by simpa using h)
    rfl
  | f :: l, bs, h => by
    have hl : bs.length = f.1 + (l.map (·.1)).sum := by simpa using h
    have := splitFields_eq l (bs.drop f.1) (by rw [List.length_drop]; omega)
    simp only [List.map_cons, splitFields]
    rw [if_neg (by omega), this]
    rfl

theorem inRanges_iff : ∀ (l : List (Nat × Nat × Nat)) (vs : List Nat),
    inRanges (l.map (·.2)) vs = true ↔ ∀ x ∈ l.zip vs, within x.1.2.1 x.2 x.1.2.2
  | [], vs => by simp [inRanges]
  | _ :: _, [] => by simp [inRanges]
  | f :: l, v :: vs => by
    have := inRanges_iff l vs
    simp_all [inRanges, within]

/-- An entry of the right length gives its numbers where each lies in its range, and nothing otherwise (R176, R178). -/
theorem entryFields_eq (l : List (Nat × Nat × Nat)) (bs : List Byte) (h : bs.length = (l.map (·.1)).sum) :
    ((∀ x ∈ l.zip (entryNumbers l bs), within x.1.2.1 x.2 x.1.2.2)
        → entryFields (l.map (·.1)) (l.map (·.2)) bs = some (entryNumbers l bs))
      ∧ (¬(∀ x ∈ l.zip (entryNumbers l bs), within x.1.2.1 x.2 x.1.2.2)
        → entryFields (l.map (·.1)) (l.map (·.2)) bs = none) := by
  rw [← inRanges_iff]
  unfold entryFields
  rw [splitFields_eq l bs h]
  exact ⟨fun hr => if_pos hr, fun hr => if_neg hr⟩

/-- A column's function is read exactly from a class and parameters coded right (R176). -/
theorem functionOfCodes_isSome (cls p1 p2 a b c d : Nat) (m : MapNo) (i : Nat) :
    (functionOfCodes cls p1 p2).isSome = true ↔ codedRight (.map m) (i + 1) [a, b, c, d, cls, p1, p2] := by
  unfold functionOfCodes codedRight within
  split
  · split <;> simp_all
  · by_cases h : 1 ≤ p1 ∧ p1 ≤ 88 <;> by_cases h2 : p2 = 0 <;> simp [keyOfNumber, h, h2]
  · have h1 : (halfOfCode p1).isSome = true ↔ p1 ≤ 1 := by rcases p1 with _ | _ | n <;> simp [halfOfCode]
    have h2 : (roleOfCode p2).isSome = true ↔ p2 ≤ 6 := by
      rcases p2 with _ | _ | _ | _ | _ | _ | _ | n <;> simp [roleOfCode]
    rcases hh : halfOfCode p1 with _ | x <;> rcases hr : roleOfCode p2 with _ | y <;> simp_all
  · have h1 : (pedalOfCode p1).isSome = true ↔ p1 ≤ 2 := by rcases p1 with _ | _ | _ | n <;> simp [pedalOfCode]
    by_cases h2 : p2 = 0 <;> simp [h2, h1]
  · split <;> simp_all
  · rename_i h0 h1 h2 h3 h4
    simp only [Option.isSome_none]
    constructor
    · intro h; cases h
    · rintro ((⟨rfl | rfl, _⟩) | ⟨rfl, _⟩ | ⟨rfl, _⟩ | ⟨rfl, _⟩) <;> simp_all

/-- What the reader of a table's entry is handed, for an entry of the right length: its numbers, where it is the coding
alone that can still be wrong; or nothing, where a field is out of its range. -/
theorem entryRight_cases (n : TableName) (i : Nat) (bs : List Byte) {ws : List Nat} {rs : List (Nat × Nat)}
    (hw : (entryLayout n i).map (·.1) = ws) (hr : (entryLayout n i).map (·.2) = rs)
    (h : bs.length = ((entryLayout n i).map (·.1)).sum) :
    (entryFields ws rs bs = some (entryNumbers (entryLayout n i) bs)
        ∧ (∀ x ∈ (entryLayout n i).zip (entryNumbers (entryLayout n i) bs), within x.1.2.1 x.2 x.1.2.2)
        ∧ (EntryRight n i bs ↔ codedRight n i (entryNumbers (entryLayout n i) bs)))
      ∨ (entryFields ws rs bs = none ∧ ¬EntryRight n i bs) := by
  subst hw hr
  by_cases hx : ∀ x ∈ (entryLayout n i).zip (entryNumbers (entryLayout n i) bs), within x.1.2.1 x.2 x.1.2.2
  · exact .inl ⟨(entryFields_eq _ bs h).1 hx, hx, fun he => he.2, fun hc => ⟨hx, hc⟩⟩
  · exact .inr ⟨(entryFields_eq _ bs h).2 hx, fun he => hx he.1⟩

theorem writeHeader_isSome (m : MapSet) (k : MapNo) (bs : List Byte)
    (hl : bs.length = ((entryLayout (.map k) 0).map (·.1)).sum) :
    (m.writeHeader bs).isSome = true ↔ EntryRight (.map k) 0 bs := by
  obtain ⟨he, hx, hE⟩ | ⟨he, hE⟩ := entryRight_cases (.map k) 0 bs (ws := mapHeaderWidths)
    (rs := [(0, 511), (0, 511), (0, 0), (0, 0), (0, 0), (0, 0)]) rfl rfl hl
  · simp [MapSet.writeHeader, he, hE, codedRight, entryLayout, entryNumbers]
  · simp [MapSet.writeHeader, he, hE]

theorem columnOfBytes_isSome (k : MapNo) (i : Nat) (bs : List Byte)
    (hl : bs.length = ((entryLayout (.map k) (i + 1)).map (·.1)).sum) :
    (columnOfBytes bs).isSome = true ↔ EntryRight (.map k) (i + 1) bs := by
  obtain ⟨he, hx, hE⟩ | ⟨he, hE⟩ := entryRight_cases (.map k) (i + 1) bs (ws := columnWidths)
    (rs := [(0, 65535), (1, 15), (1, 8), (1, 8), (0, 4), (0, 255), (0, 255)]) rfl rfl hl
  · rw [hE]
    simp only [columnOfBytes, he, entryLayout, entryNumbers, Option.isSome_map]
    exact functionOfCodes_isSome _ _ _ _ _ _ _ k i
  · simp [columnOfBytes, he, hE]

theorem Format.writeHeader_isSome (f : Format) (bs : List Byte)
    (hl : bs.length = ((entryLayout .format 0).map (·.1)).sum) :
    (f.writeHeader bs).isSome = true ↔ EntryRight .format 0 bs := by
  obtain ⟨he, hx, hE⟩ | ⟨he, hE⟩ := entryRight_cases .format 0 bs (ws := formatWidths)
    (rs := [(0, 511), (0, 511), (0, 65535), (0, 65535), (0, 65535), (0, 65535), (0, 65535), (0, 65535), (1, 15), (4, 64),
      (0, 8000), (0, 3)]) rfl rfl hl
  · have hd : ofBytes ((bs.drop 20).take 1) < 4 := by
      have := hx (((1, 0, 3) : Nat × Nat × Nat), ofBytes ((bs.drop 20).take 1)) (by simp [entryLayout, entryNumbers])
      exact Nat.lt_succ_of_le this.2
    simp [Format.writeHeader, he, hE, codedRight, entryLayout, entryNumbers, mapOfCode, hd]
  · simp [Format.writeHeader, he, hE]

theorem codeEntryOfBytes_isSome (i : Nat) (bs : List Byte)
    (hl : bs.length = ((entryLayout .format (i + 1)).map (·.1)).sum) :
    (codeEntryOfBytes bs).isSome = true ↔ EntryRight .format (i + 1) bs := by
  obtain ⟨b, rfl⟩ : ∃ b, bs = [b] := List.length_eq_one_iff.mp (by simpa [entryLayout] using hl)
  have hb : ofBytes [b] = b.toNat := by simp [ofBytes]
  have hf : b = 0xFF#8 ↔ b.toNat = 255 := ⟨fun h => by rw [h]; rfl, fun h => BitVec.eq_of_toNat_eq (by simpa using h)⟩
  have := b.isLt
  simp only [codeEntryOfBytes, hf, mapOfCode, EntryRight, entryLayout, entryNumbers, codedRight, within, List.take_succ_cons,
    List.take_zero, hb, List.zip_cons_cons, List.zip_nil_right, List.mem_singleton, forall_eq]
  split
  · simp_all
  · by_cases h4 : b.toNat < 4 <;> simp [h4] <;> omega

theorem profileOfBytes_isSome (h : Half) (i : Nat) (bs : List Byte)
    (hl : bs.length = ((entryLayout (.expr h) i).map (·.1)).sum) :
    (profileOfBytes h bs).isSome = true ↔ EntryRight (.expr h) i bs := by
  cases h
  all_goals
    obtain ⟨he, hx, hE⟩ | ⟨he, hE⟩ := entryRight_cases (.expr _) i bs (ws := exprWidths) rfl rfl hl
    all_goals
      unfold profileOfBytes
      simp only []
      erw [he]
      simp [hE, entryLayout, entryNumbers, codedRight]

theorem keyOfBytes_isSome (i : Nat) (bs : List Byte) (hl : bs.length = ((entryLayout .keys i).map (·.1)).sum) :
    (keyOfBytes bs).isSome = true ↔ EntryRight .keys i bs := by
  obtain ⟨he, hx, hE⟩ | ⟨he, hE⟩ := entryRight_cases .keys i bs (ws := keyWidths) rfl rfl hl
  all_goals
    unfold keyOfBytes
    erw [he]
    simp [hE, entryLayout, entryNumbers, codedRight]

theorem pedalOfBytes_isSome (i : Nat) (bs : List Byte) (hl : bs.length = ((entryLayout .pedals i).map (·.1)).sum) :
    (pedalOfBytes bs).isSome = true ↔ EntryRight .pedals i bs := by
  obtain ⟨he, hx, hE⟩ | ⟨he, hE⟩ := entryRight_cases .pedals i bs (ws := pedalWidths) rfl rfl hl
  all_goals
    unfold pedalOfBytes
    erw [he]
    simp [hE, entryLayout, entryNumbers, codedRight]

theorem settingsOfBytes_isSome (i : Nat) (bs : List Byte) (hl : bs.length = ((entryLayout .settings i).map (·.1)).sum) :
    (settingsOfBytes bs).isSome = true ↔ EntryRight .settings i bs := by
  obtain ⟨he, hx, hE⟩ | ⟨he, hE⟩ := entryRight_cases .settings i bs (ws := settingsWidths) rfl rfl hl
  all_goals
    unfold settingsOfBytes
    erw [he]
    simp [hE, entryLayout, entryNumbers, codedRight]

/-- An entry of a table, its index inside the table and its length right, is written exactly where every field lies in
its range and the coding is right (R178, step 3). -/
theorem writeEntry_isSome (t : Tables) (n : TableName) (i : Nat) (bs : List Byte) (hlow : n.indices.1 ≤ i)
    (hhigh : i ≤ n.indices.2) (hl : bs.length = ((entryLayout n i).map (·.1)).sum) :
    (t.writeEntry n i bs).isSome = true ↔ EntryRight n i bs := by
  cases n with
  | map m =>
    cases i with
    | zero => simpa [Tables.writeEntry, MapSet.writeEntry] using writeHeader_isSome _ m bs hl
    | succ i =>
      have hi : i < 128 := by simp [TableName.indices] at hhigh; omega
      simpa [Tables.writeEntry, MapSet.writeEntry, hi] using columnOfBytes_isSome m i bs hl
  | format =>
    cases i with
    | zero => simpa [Tables.writeEntry, Format.writeEntry] using Format.writeHeader_isSome _ bs hl
    | succ i =>
      have hi : i < 64 := by simp [TableName.indices] at hhigh; omega
      simpa [Tables.writeEntry, Format.writeEntry, hi] using codeEntryOfBytes_isSome i bs hl
  | expr h => cases h <;> simpa [Tables.writeEntry] using profileOfBytes_isSome _ i bs hl
  | velocity =>
    have hi : i < 33 := by simp [TableName.indices] at hhigh; omega
    obtain ⟨he, hx, hE⟩ | ⟨he, hE⟩ := entryRight_cases .velocity i bs (ws := [2]) (rs := [(0, 6000)]) rfl rfl hl
    all_goals simp [Tables.writeEntry, hi, he, hE, entryLayout, entryNumbers, codedRight]
  | keys =>
    have hi : i - 1 < 88 := by simp [TableName.indices] at hlow hhigh; omega
    simpa [Tables.writeEntry, hi] using keyOfBytes_isSome i bs hl
  | pedals =>
    have hi : i - 1 < 3 := by simp [TableName.indices] at hlow hhigh; omega
    simpa [Tables.writeEntry, hi] using pedalOfBytes_isSome i bs hl
  | settings => simpa [Tables.writeEntry] using settingsOfBytes_isSome i bs hl

/-- The layout's fields fill an entry of a table (R176). -/
theorem entryLayout_size (b : Byte) (n : TableName) (i : Nat) (h : tableOfByte b = some n) :
    ((entryLayout n i).map (·.1)).sum = entrySize b i := by
  unfold tableOfByte at h
  split at h <;> cases h <;> rename_i hb <;> cases i <;> simp [entrySize, hb, entryLayout]

theorem runSize_succ (b : Byte) (i : Nat) : ∀ count, runSize b i (count + 1) = entrySize b i + runSize b (i + 1) count
  | 0 => by simp [runSize]
  | count + 1 => by
    have := runSize_succ b i count
    rw [runSize, this, runSize, Nat.add_assoc, show i + (count + 1) = i + 1 + count by omega]

/-- A run of entries inside its table is written exactly where every entry is right (R178, step 3). -/
theorem writeRun_isSome (b : Byte) (n : TableName) (h : tableOfByte b = some n) :
    ∀ (count i : Nat) (t : Tables) (bs : List Byte), bs.length = runSize b i count → n.indices.1 ≤ i →
      i + count ≤ n.indices.2 + 1 →
      ((t.writeRun b n i count bs).isSome = true
        ↔ ∀ j, j < count → EntryRight n (i + j) ((bs.drop (runSize b i j)).take (entrySize b (i + j))))
  | 0, i, t, bs, _, _, _ => by simp [Tables.writeRun]
  | count + 1, i, t, bs, hb, hlow, hhigh => by
    rw [runSize_succ] at hb
    have h1 := writeEntry_isSome t n i (bs.take (entrySize b i)) hlow (by omega)
      (by rw [entryLayout_size b n i h, List.length_take]; omega)
    have h2 := fun u => writeRun_isSome b n h count (i + 1) u (bs.drop (entrySize b i))
      (by rw [List.length_drop]; omega) (by omega) (by omega)
    have h3 : (∀ j, j < count + 1 → EntryRight n (i + j) ((bs.drop (runSize b i j)).take (entrySize b (i + j))))
        ↔ EntryRight n i (bs.take (entrySize b i)) ∧ ∀ j, j < count → EntryRight n (i + 1 + j)
            (((bs.drop (entrySize b i)).drop (runSize b (i + 1) j)).take (entrySize b (i + 1 + j))) := by
      constructor
      · intro hj
        refine ⟨by simpa [runSize] using hj 0 (by omega), fun j hl => ?_⟩
        have := hj (j + 1) (by omega)
        rwa [runSize_succ, ← List.drop_drop, show i + (j + 1) = i + 1 + j by omega] at this
      · rintro ⟨h0, hs⟩ j hl
        cases j with
        | zero => simpa [runSize] using h0
        | succ j =>
          have := hs j (by omega)
          rwa [runSize_succ, ← List.drop_drop, show i + (j + 1) = i + 1 + j by omega]
    rw [h3, ← h1, Tables.writeRun]
    cases hw : t.writeEntry n i (bs.take (entrySize b i)) with
    | none => simp
    | some u => simpa using h2 u

/-! Cross checks -/

theorem velocityRises_iff (v : Vector Nat 33) : velocityRises v = true ↔ VelocityChecks v := by
  simp [velocityRises, VelocityChecks]

/-- What a check of every element of a vector's list says. -/
theorem all_toList {α : Type} {n : Nat} (v : Vector α n) (p : α → Bool) :
    v.toList.all p = true ↔ ∀ i : Fin n, p v[i.val] = true := by
  rw [List.all_eq_true]
  constructor
  · intro h i; exact h _ (by simp)
  · intro h x hx
    obtain ⟨i, hi, rfl⟩ := List.getElem_of_mem hx
    simpa using h ⟨i, by simpa using hi⟩

theorem leadsFit_iff (p : Vector PedalRecord 3) (planLead : Nat) : leadsFit p planLead = true ↔ LeadChecks p planLead := by
  rw [leadsFit, all_toList]
  simp [LeadChecks]

theorem Format.crossCheck_iff (f : Format) : f.crossCheck = true ↔ FormatChecks f := by
  rw [Format.crossCheck, Bool.and_eq_true, all_toList]
  simp [FormatChecks]

/-- No function but NONE stands twice in a map set's columns (R21). -/
theorem functions_nodup_iff (v : Vector Column 128) :
    ((v.toList.map (·.function)).filter (· ≠ .nothing)).Nodup
      ↔ ∀ i j : Fin 128, i ≠ j → (v[i.val]).function ≠ .nothing → (v[i.val]).function ≠ (v[j.val]).function := by
  rw [List.Nodup, List.pairwise_filter, List.pairwise_map, List.pairwise_iff_getElem]
  simp only [Vector.length_toList, Vector.getElem_toList, decide_eq_true_eq]
  constructor
  · intro h i j hij hf he
    rcases Nat.lt_or_gt_of_ne (fun h => hij (Fin.ext h)) with hl | hl
    · exact h i j i.isLt j.isLt hl hf (he ▸ hf) he
    · exact h j i j.isLt i.isLt hl (he ▸ hf) hf he.symm
  · intro h i j hi hj hl hf _
    exact h ⟨i, hi⟩ ⟨j, hj⟩ (fun e => by have := congrArg Fin.val e; simp at this; omega) hf

theorem MapSet.crossCheck_iff (m : MapSet) : m.crossCheck = true ↔ MapChecks m := by
  rw [MapSet.crossCheck, Bool.and_eq_true, Bool.and_eq_true, decide_eq_true_iff, functions_nodup_iff, all_toList, MapChecks]
  simp [and_assoc]

/-- The machine's cross checks are those of R178, step 3. -/
theorem Tables.crossCheck_iff (w : Tables) (n : TableName) (start count : Nat) :
    w.crossCheck n start count = true ↔ CrossChecks w start count n := by
  cases n with
  | keys =>
    simp only [Tables.crossCheck, CrossChecks, List.all_eq_true, List.mem_finRange, true_implies, Key.number]
    refine forall_congr' fun k => ?_
    simp only [Bool.or_eq_true, Bool.not_eq_true', Bool.and_eq_false_imp, Bool.and_eq_true, decide_eq_true_eq, decide_eq_false_iff_not]
    tauto
  | settings =>
    rw [Tables.crossCheck, Bool.and_eq_true, all_toList, leadsFit_iff]
    simp [CrossChecks]
  | _ => simp [Tables.crossCheck, CrossChecks, velocityRises_iff, leadsFit_iff, Format.crossCheck_iff, MapSet.crossCheck_iff]

end Sys2Proof.Machine
end

