-- ==== Sys2Proof/Tests/Slice0.lean ====
section
/-! SUPPORT. Small tests: ill-formed commands refused, check values, frames and commands written out from the manual's tables, single steps, and for each statement with hypotheses states that meet them. -/

namespace Sys2Proof.Tests

open Sys2Proof Sys2Proof.Machine Sys2Proof.Safety

set_option maxRecDepth 40000

/-! WellFormed refuses each kind of ill-formed command -/

theorem test_scan_payload_too_long : Instr.WellFormed (.scanFrame 1 (List.replicate 289 0)) = false := by decide
theorem test_unknown_payload_too_long : Instr.WellFormed (.unknownCommand 1 (List.replicate 289 0xFF)) = false := by
  decide
theorem test_unknown_payload_is_known : Instr.WellFormed (.unknownCommand 1 [0x12]) = false := by decide
theorem test_write_no_table : Instr.WellFormed (.tableWrite 1 0x0B 0 0 []) = false := by decide
theorem test_write_wrong_length : Instr.WellFormed (.tableWrite 1 0x07 0 1 [0]) = false := by decide
theorem test_write_too_long : Instr.WellFormed (.tableWrite 1 0x07 0 143 (List.replicate 286 0)) = false := by decide
theorem test_write_fits : Instr.WellFormed (.tableWrite 1 0x07 0 1 [1, 0x2C]) = true := by decide

/-! Check values (R161): the published check values of the text "123456789" under the two generators -/

theorem test_crc16 : crc16 [0x31, 0x32, 0x33, 0x34, 0x35, 0x36, 0x37, 0x38, 0x39] = 0x29B1 := by decide
theorem test_crc8 : crc8 [0x31, 0x32, 0x33, 0x34, 0x35, 0x36, 0x37, 0x38, 0x39] = 0xF4 := by decide

/-! Payloads written out from the table of section 10.4 -/

theorem test_decode_roll_start :
    decodeControl 7 [0x10, 0x00, 0x03, 0xE8, 0x00, 0x50, 0x80] = .rollStart 7 1000 80 0x80 := by decide
theorem test_decode_tempo : decodeControl 7 [0x14, 0x01, 0x00, 0x00, 0x01, 0x2C] = .tempo 7 65536 300 := by decide
theorem test_decode_fault_clear : decodeControl 7 [0x32, 0x08, 0x01] = .faultClear 7 0x801 := by decide
theorem test_decode_key_test : decodeControl 7 [0x33, 60, 0x04, 0x4C] = .keyTest 7 60 1100 := by decide
theorem test_decode_table_read : decodeControl 7 [0x21, 0x08, 1, 12] = .tableRead 7 0x08 1 12 := by decide
theorem test_decode_lockdown : decodeControl 7 [0x44, 0x01, 0xA5] = .storeLockdown 7 1 0xA5 := by decide
theorem test_decode_link_reset : decodeControl 7 [0x50] = .linkReset 7 := by decide
theorem test_decode_short_pause_is_unknown : decodeControl 7 [0x12, 0] = .unknownCommand 7 [0x12, 0] := by decide
theorem test_decode_empty_is_unknown : decodeControl 7 [] = .unknownCommand 7 [] := by decide

/-! States to start from -/

/-- The state a command answers. -/
def after (c : Instr) (s : State) : State :=
  match exec c s with
  | .next t => t
  | _ => s

/-- A card right after power-on. -/
def card : State := State.reset

/-- The same at a device time. -/
def cardAt (now : Nat) : State := { card with deviceTime := now }

/-- With a number of replies waiting. -/
def withReplies (n : Nat) (s : State) : State :=
  { s with link := { s.link with queue := List.replicate n (.reply 1 [0x30, 0x00]) } }

/-- In PLAYING with map set 1 from line 1000 at tempo 80, nothing planned. -/
def playing : State := after (.rollStart 1 1000 80 1) card

/-- In LEADER from line 0. -/
def leader : State := after (.rollStart 1 0 80 0x80) card

/-- Changes of the timeline. -/
def withRoll (f : Timeline → Timeline) (s : State) : State := { s with roll := f s.roll }

/-- Changes of SETTINGS. -/
def withSettings (f : Settings → Settings) (s : State) : State :=
  { s with tables := { s.tables with settings := f s.tables.settings } }

/-- Changes of one key's channel. -/
def withChannel (k : Key) (f : KeyChannel → KeyChannel) (s : State) : State := s.withKey k (f (s.key k))

/-- Changes of one pedal's channel. -/
def withPress (p : Pedal) (f : PedalChannel → PedalChannel) (s : State) : State := s.withPedal p (f (s.pedal p))

/-- Changes of the store. -/
def withStore (f : Store → Store) (s : State) : State := { s with store := f s.store }

/-- The paused card of PLAYING. -/
def paused : State := withRoll (fun r => { r with operator := true }) playing

/-- In ENDING at end line 1000. -/
def ending : State := withRoll (fun r => { r with rollState := .ending, endLine := some 1000, planLine := 1000 }) playing

/-- A roll note with a fire time, a kick of 3,000 microseconds and a lead of 20,000. -/
def note (fire : RollTime) : Note := ⟨some 5, some (fire + 20000#32), some fire, 1000, 3000, 20000, false, none, false⟩

/-- PLAYING with key 0 armed for roll time 0 and first in the Fire List. -/
def armed : State :=
  { withChannel 0 (fun c => { c with state := .armed, current := some (note 0), target := .current }) playing with
    fireList := [⟨.key 0, 0⟩] }

/-- Key 0 in KICK until device time 3,000, at that time. -/
def kicking : State :=
  withChannel 0 (fun c => { c with
    state := .kick, current := some (note 0), appliedKick := some 3000, kickEnd := some 3000, duty := 255 })
    { playing with deviceTime := 3000 }

/-- One kick slot only. -/
def oneSlot : State → State := withSettings fun g => { g with kickSlots := 1 }

/-- Key 0 in HOLD with a release time and a MinHold end just reached. -/
def holding : State :=
  withChannel 0 (fun c => { c with
    state := .hold, current := some { note 0 with release := some 0 }, minHoldEnd := some 0 }) playing

/-- Key 0 in RELEASE with its gap end just reached. -/
def resting : State := withChannel 0 (fun c => { c with state := .release, gapEnd := some 0 }) playing

/-- Key 0 waiting since device time 0, at the default DeferLimit. -/
def waiting : State :=
  { withChannel 0 (fun c => { c with state := .waiting, current := some (note 0), waitStart := some 0 }) playing with
    deviceTime := 15000, waitList := [⟨.key 0, .key 1, 0⟩] }

/-- A fitted sensor on key 59 with an open watch expected at 20,000. -/
def watching : State :=
  withChannel 59 (fun c => { c with sense := some ⟨20000, 0⟩ })
    ((cardAt 20015).withRecord 59 { defaultKey with senseFitted := true })

/-- A press fired at roll time 0. -/
def press : Press := ⟨5, 0, 20000, none⟩

/-- A save of region 0 in flight, completing at 40,000, at a device time. -/
def saving (now : Nat) : State :=
  withStore (fun st => { st with op := some ⟨.save (.map defaultMap), 0, 5, 40000⟩ }) (cardAt now)

/-- A lockdown of region 0 in flight, completing at 10,000, at that time. -/
def lockingDown : State := withStore (fun st => { st with op := some ⟨.lockdown, 0, 5, 10000⟩ }) (cardAt 10000)

/-- Region 0 with its flags changed. -/
def withFlags (f : StoreRegion → StoreRegion) (s : State) : State := s.withRegion 0 (f (s.region 0))

/-- A roll whose next line, 1000, is settled, at its plan moment. -/
def planning : State :=
  withRoll (fun r => { r with schedule := [⟨1000, 120000, 80⟩] })
    { playing with holes := { playing.holes with settled := 1000 } }

/-- The same line holding the end mark. -/
def closing : State := { planning with holes := { planning.holes with queue := [⟨1000, 1, .endMark, .opens⟩] } }

/-- SETTINGS as they are by default but for SenseWindow 1000. -/
def narrow : List Byte := { card.tables.settings with senseWindow := 1000 }.bytes

/-- A channel that is not ARMED with an entry, where no pedal is in RELEASE and no key holds a pending note, requests nothing. -/
theorem not_requests_of_quiet {s : State} (hp : (s.pedal .sustain).state ≠ .release ∧ (s.pedal .soft).state ≠ .release)
    (hq : (s.pedal .sostenuto).state ≠ .release) (hk : ∀ k, (s.key k).pending = none) (d : Channel)
    (hl : ∀ e ∈ s.fireList, e.channel ≠ d) : ¬Requests s d := by
  rintro (⟨-, e, he, hc, -⟩ | ⟨p, f, e, -, h, -⟩ | ⟨k, n, -, h, -⟩)
  · exact hl e he hc
  · cases p
    · exact hp.1 h
    · exact hp.2 h
    · exact hq h
  · have h' := h.1; rw [hk k] at h'; cases h'

/-- With nothing pending, nothing is due behind a key. -/
theorem nothingToFire_of_none {s : State} {k : Key} (h : (s.key k).pending = none) : nothingToFire s k := by
  intro n hn; rw [h] at hn; cases hn

/-- A pending note of roll time 0 fires at roll time 0. -/
theorem firesPending_note {s : State} {k : Key} (h : (s.key k).pending = some (note 0))
    (hr : reached s.roll.rollTime 0 = true) : firesPending s k (note 0) :=
  ⟨h, fun _ hf => Option.some.inj hf ▸ hr⟩

/-- At device time 10 with a reply waiting behind a frame whose last bit ends at a bit time. -/
def sending (ends : Nat) : State :=
  withReplies 1 { cardAt 10 with link := { card.link with sending := some ⟨[], ends⟩ } }

/-- PLAYING held by a starve episode, the plan moment of line 1000 just reached. -/
def starving : State := withRoll (fun r => { r with starveStart := some 0, starved := true, schedule := [⟨1000, 120000, 80⟩] }) playing

/-- Key 0 in HOLD past its MinHold end with a roll note whose release time has not come yet. -/
def holdingOn : State :=
  withChannel 0 (fun c => { c with current := some (note 0), target := .current }) holding

/-- Key 1 waits for key 0's slot, the last one, with a kick of 3,000 and a given heat; key 2 may wait behind it. -/
def lastSlot (heat : Nat) (behind : List WaitEntry) : State :=
  oneSlot { withChannel 2 (fun c => { c with state := .waiting, current := some (note 0) })
      (withChannel 1 (fun c => { c with state := .waiting, current := some (note 0), heat := heat }) playing) with
    waitList := ⟨.key 1, .key 1, 0⟩ :: behind }

/-- PLAYING at a roll time at which line 1000's notes are late already. -/
def tardy : State := withRoll (fun r => { r with rollTime := 145000 }) playing

/-- The same with key 0 armed for roll time 0 and first in the Fire List. -/
def tardyArmed : State := { armed with roll := tardy.roll }

/-- Key 1 armed, its fire time reached, and line 1000, settled, with a note-on of key 0 that is late. -/
def lateLine : State :=
  { tardy with
    keys := (withChannel 1 (fun c => { c with state := .armed, current := some (note 0), target := .current }) tardy).keys
    fireList := [⟨.key 1, 0⟩]
    holes := { tardy.holes with settled := 1000, queue := [⟨1000, 2, .key 0, .opens⟩] } }

/-- Key 1 armed, its fire time reached, key 0 at the end of its gap, and line 1000 with a note-on of key 0 that is late. -/
def lateBehindGap : State := withChannel 0 (fun c => { c with state := .release, gapEnd := some 0 }) lateLine

/-- PLAYING with a second tempo segment from line 1100. -/
def twoTempos : State := withRoll (fun r => { r with schedule := [⟨1000, 145000, 80⟩, ⟨1100, 457500, 160⟩] }) playing

/-- A dark scan line. -/
def darkLine : List Byte := List.replicate 256 0

/-! One step of each family, with values from the manual -/

theorem test_step_takes_the_front : (match step { card with pending := [.pause 3, .resume 4] } with
    | .next t => t.pending
    | _ => []) = [.resume 4] := by decide

theorem test_idle_at_reset_is_a_microsecond : (match step card with
    | .next t => t.deviceTime
    | _ => 0) = 1 := by decide

theorem test_power_on_region_flags : (after .powerOn card).region 3 = ⟨defaultTables.image 3, false, false, true, true⟩ := by
  decide
theorem test_power_fail_takes_power : (after .powerFail card).power = .off := by decide
theorem test_reset_asserted : (after .resetLineAsserted card).power = .inReset := by decide
theorem test_reset_released_keeps_time : (after .resetLineReleased { cardAt 77 with power := .inReset }).deviceTime = 77 := by
  decide

theorem test_header_error_counts : (after .headerError card).counter .headerError = 1 := by decide
theorem test_payload_error_counts : (after .payloadError card).counter .payloadError = 1 := by decide
theorem test_return_send_takes_oldest : (after .returnSend (withReplies 2 card)).link.queue.length = 1 := by decide
theorem test_link_alive_expiry : (after .linkAliveExpiry (cardAt 250000)).link.linkLost = true := by decide
theorem test_unknown_command_reply :
    (after (.unknownCommand 9 [0x99, 1]) card).link.queue = [.reply 9 [0x99, 0x09]] := by decide
theorem test_status_query_length : ((after (.statusQuery 9) card).link.queue.map fun e => match e with
    | .reply _ p => p.length
    | _ => 0) = [27] := by decide
theorem test_counters_read_clears :
    (after (.countersRead 9) (after .headerError card)).counter .headerError = 0 := by decide
theorem test_link_reset_reply : (after (.linkReset 9) playing).link.queue = [.reply 9 [0x50, 0x00]] := by decide

/-- R170: the first WINDOW report of a roll from line 1000 has window top 3047 (0BE7 hex), plan line 999 (03E7 hex). -/
theorem test_roll_start_reports : playing.link.queue.map (fun e => match e with
    | .reply t p => (t, p)
    | .window t p => (t, p)
    | .state t p => (t, p.take 5))
    = [(1, [0x10, 0x00]), (1, [0x02, 0x00, 0x00, 0x03, 0xE7]), (2, [0x00, 0x0B, 0xE7, 0x00, 0x03, 0xE7])] := by decide
/-- Section 3.3: at tempo 80 and 200 lines an inch the line period is 3,125, so line 1000 is due at 120,000 + 25,000. -/
theorem test_roll_start_schedule : playing.roll.schedule = [⟨1000, 145000, 80⟩] := by decide
theorem test_roll_start_auto : leader.roll.rollState = .leader := by decide
theorem test_leader_max_expiry :
    (after .leaderMaxExpiry { leader with holes := { leader.holes with reader := ⟨0, 0, 2400⟩ } }).holes.activeSet = some 0 := by
  decide
theorem test_roll_stop : (after (.rollStop 2) playing).roll.rollState = .noRoll := by decide
theorem test_pause : (after (.pause 2) playing).roll.operator = true := by decide
theorem test_resume : (after (.resume 2) paused).roll.operator = false := by decide
theorem test_tempo_clamped : ((after (.tempo 2 1000 400) playing).roll.schedule.map (·.tempo)) = [300] := by decide
theorem test_starve_episode : (after .starveEpisodeStart
    (withRoll (fun r => { r with schedule := [⟨1000, 120000, 80⟩] }) playing)).roll.starveStart = some 0 := by decide
theorem test_starve_hold : (after .starveHold
    (withRoll (fun r => { r with starveStart := some 0 }) { playing with deviceTime := 40000 })).roll.starved = true := by decide
theorem test_abandon : (after .abandon
    (withRoll (fun r => { r with abandonStart := some 0 }) { playing with deviceTime := 5000000 })).counter .abandoned = 1 := by
  decide
theorem test_roll_end : (after .rollEnd (withRoll (fun r => { r with schedule := [⟨1000, 0, 80⟩] }) ending)).roll.rollState
    = .noRoll := by decide

theorem test_scan_stale_in_no_roll : (after (.scanFrame 5 darkLine) card).counter .staleLine = 1 := by decide
theorem test_scan_width : (after (.scanFrame 1000 [0]) playing).counter .widthMismatch = 1 := by decide
theorem test_scan_overrun : (after (.scanFrame 3048 darkLine) playing).counter .overrun = 1 := by decide
theorem test_plan_line : (after .planLine planning).roll.planLine = 1000 := by decide
theorem test_plan_line_end_mark : (after .planLine closing).roll.rollState = .ending := by decide

/-- R51 and R85 on the default map: level 500 lies 20/32 of the way from V[15] = 2550 to V[16] = 2700, so 2550 + 94 = 2644. -/
theorem test_mapped_velocity : mappedVelocity defaultVelocity 500 = 2644 := by decide
/-- Section 5.12, key 60: travel 46.00 mm at 1000 mm/s flies 46,000 microseconds. -/
theorem test_flight : flight { defaultKey with travel := 4600 } 1000 = 46000 := by decide
/-- Section 4.3: rate 96 at a line period of 3125 moves the swell by 76. -/
theorem test_line_increment : lineIncrement 96 3125 = 76 := by decide

theorem test_key_fire_kicks : ((after (.keyFire 0) armed).key 0).kickEnd = some 3000 := by decide
theorem test_key_fire_heats : ((after (.keyFire 0) armed).key 0).heat = 3000 := by decide
theorem test_kick_end_holds : ((after (.kickEnd 0) kicking).key 0).minHoldEnd = some 8000 := by decide
theorem test_hold_release : ((after (.holdRelease 0) holding).key 0).gapEnd = some 20000 := by decide
theorem test_gap_end_idles : ((after (.gapEnd 0) resting).key 0).state = .idle := by decide
theorem test_defer_expiry : (after (.deferExpiry 0) waiting).counter .deferDrop = 1 := by decide
theorem test_key_test_kicks : ((after (.keyTest 4 60 1100) card).key 59).state = .kick := by decide
theorem test_test_release : ((after (.testRelease 0) (withChannel 0 (fun c => { c with testRelease := some 0 }) holding)).key 0).state
    = .release := by decide
theorem test_hold_limit : ((after (.holdLimitExpiry 0) (withRoll (fun r => { r with operator := true })
    { withChannel 0 (fun c => { c with holdWatch := some ⟨0, false⟩ }) holding with deviceTime := 8000000 })).key 0).holdReleased
    = true := by decide

theorem test_pedal_fire : ((after (.pedalFire .soft) { withPress .soft (fun c => { c with state := .armed, current := some press })
    playing with fireList := [⟨.pedal .soft, 0⟩] }).pedal .soft).kickEnd = some 20000 := by decide
theorem test_pedal_kick_end : ((after (.pedalKickEnd .soft) (withPress .soft
    (fun c => { c with state := .kick, current := some press, kickEnd := some 0 }) playing)).pedal .soft).duty = 60 := by decide
theorem test_pedal_lift : ((after (.pedalLift .soft) (withPress .soft
    (fun c => { c with state := .hold, current := some { press with lift := some 0 } }) playing)).pedal .soft).releaseEnd
    = some 20000 := by decide
theorem test_pedal_release_end : ((after (.pedalReleaseEnd .soft) (withPress .soft
    (fun c => { c with state := .release, releaseEnd := some 0 }) playing)).pedal .soft).state = .idle := by decide

theorem test_heat_cooling : ((after .heatCooling (withChannel 0 (fun c => { c with heat := 100 }) (cardAt 1000))).key 0).heat
    = 40 := by decide
theorem test_fault_line_active : (after (.faultLineActive 0) kicking).counter .faultDrop = 1 := by decide
theorem test_fault_line_inactive : (after (.faultLineInactive 0) (after (.faultLineActive 0) card)).faulted 0 = true := by decide
theorem test_fault_clear :
    (after (.faultClear 3 1) (after (.faultLineInactive 0) (after (.faultLineActive 0) card))).faulted 0 = false := by decide
/-- R154: an error of +15 corrects the lag by +1. -/
theorem test_sense_edge : ((after (.senseEdge 59) watching).record 59).lag = 6001 := by decide
/-- R156: a miss raises the floor by VStep. -/
theorem test_sense_deadline : ((after (.senseDeadline 59) { watching with deviceTime := 32000 }).record 59).vFloor = 325 := by
  decide

theorem test_table_write_velocity : (after (.tableWrite 3 0x07 0 1 [0x00, 0x64]) card).tables.velocity[0] = 100 := by decide
theorem test_table_read_pedals : (after (.tableRead 3 0x09 2 9) card).link.queue
    = [.reply 3 [0x21, 0x00, 0x09, 0x02, 0x02, 0x00, 0x75, 0x30, 0x3A, 0x98, 0x3C, 0x00, 0x4E, 0x20,
        0x00, 0x9C, 0x40, 0x4E, 0x20, 0x50, 0x00, 0x75, 0x30]] := by decide
theorem test_store_save_is_protected : (after (.storeSave 3 0) card).link.queue = [.reply 3 [0x40, 0x05]] := by decide
theorem test_store_save_complete : (after (.storeSaveComplete true) (saving 40000)).link.queue = [.reply 5 [0x40, 0x00]] := by
  decide
theorem test_store_lockdown : ((after (.storeLockdown 3 0 0xA5) card).store.op.map (·.completes)) = some 10000 := by decide
theorem test_store_lockdown_complete : ((after (.storeLockdownComplete true) lockingDown).region 0).lockdown = true := by decide
theorem test_store_unprotect : ((after (.storeUnprotect 3 0x02) card).region 1).protectedFlag = false := by decide
theorem test_store_protect : ((after (.storeProtect 3 0x02) card).region 1).protectedFlag = true := by decide
theorem test_store_lock : (after (.storeLock 3 1) card).store.lock = true := by decide

/-! Orders the manual states, on small cases -/

/-- R161: a byte is a start bit, eight data bits from the least significant, a stop bit. -/
theorem test_byte_bits : byteBits 0xE1 = [false, true, false, false, false, false, true, true, true, true] := by decide
/-- R119: with one slot, the lower of two late keys kicks whichever event came first. -/
theorem test_late_keys_in_order : ((oneSlot tardy).planKeys 1000 [⟨1000, 2, .key 1, .opens⟩, ⟨1000, 3, .key 0, .opens⟩]
    |>.waitList.map (·.channel)) = [.key 1] := by decide
/-- R119: a key whose fire time is reached is judged before a late note of a higher key, and not after it. -/
theorem test_due_key_before_late_key : ((oneSlot tardyArmed).planKeys 1000 [⟨1000, 2, .key 1, .opens⟩]
    |>.waitList.map (·.channel)) = [.key 1] := by decide
/-- R119: a key whose fire time is reached does not go before a late note of a lower key on a line that is due. -/
theorem test_due_key_after_late_line :
    (lateLine.nextEventChoices.filter (· != Instr.returnSend)) = [.planLine] := by decide
/-- R119: nor before a lower key at the end of its gap that such a line gives its late note. -/
theorem test_due_key_after_late_line_of_resting_key :
    (lateBehindGap.nextEventChoices.filter (· != Instr.returnSend)) = [.planLine, .gapEnd 0] := by decide
/-- R93, R101: a note-off without a note to attach to has no effect on a key whose release is due. -/
theorem test_note_off_without_note : ((holding.planKey 1000 ⟨1000, 1, .key 0, .closes⟩).key 0).state = .hold := by decide
/-- R46, R45: line 1101 is governed by the second of two segments. -/
theorem test_due_second_segment : twoTempos.due 1101 = 457500#32 + 1563#32 := by decide
/-- R28: an event dated at the plan line 999 is inserted too, by line 1000. -/
theorem test_event_at_plan_line_inserted :
    (HoleRecognizer.pass { playing.holes with debounce := [⟨false, some ⟨999, 1⟩⟩] }
      [{ defaultColumn with openRun := 2, function := .key 0 }] [true] 1000).map (·.queue) = some [⟨999, 1, .key 0, .opens⟩] := by
  decide
/-- Section 2.3, R27: once the arrival is processed an event dated at the plan line is not in the queue (entry 37). -/
theorem test_event_at_plan_line_leaves :
    stillToPlan 999 [⟨999, 1, .key 0, .opens⟩, ⟨1000, 2, .key 1, .opens⟩] = [⟨1000, 2, .key 1, .opens⟩] := by decide
/-- R119: of a due pedal and a due key the pedal's request comes first. -/
theorem test_pedal_request_first :
    (withPress .soft (fun c => { c with state := .release, releaseEnd := some 0, pending := some press })
      armed).nextEventChoices.filter (· != Instr.returnSend) = [.pedalReleaseEnd .soft] := by decide
/-- R161: a frame follows another back to back, not from the next whole microsecond. -/
theorem test_frames_back_to_back : ((after .returnSend (sending 131)).link.sending.map (·.ends)) = some (131 + 13 * 10) := by
  decide
/-- R126: heat cools at whole multiples of 1,000 microseconds in reset too. -/
theorem test_reset_cools : ((State.advanceInReset (withChannel 0 (fun c => { c with heat := 100 })
    { cardAt 1000 with power := .inReset })).key 0).heat = 40 := by decide

/-! Witnesses: for each statement with hypotheses, states and operands that meet them -/

/-- Running with nothing due, with a byte on the lane, with an event due, and with a lane that falls free within the
microsecond; in reset just before a whole multiple of 1,000 microseconds and on it. -/
theorem witness_IdleMicrosecondMovesTheClocks :
    let r : State := { cardAt 999 with power := .inReset }
    let lane : State := { card with link := { card.link with forwardLane := [0xE1] } }
    card.power = .running ∧ card.pending = [] ∧ card.idleChoices = [] ∧ r.power = .inReset ∧ r.pending = []
      ∧ lane.power = .running ∧ lane.pending = [] ∧ lane.idleChoices.isEmpty = false ∧ lane.link.forwardLane = [0xE1]
      ∧ (Instr.heatCooling ∈ (cardAt 1000).nextEventChoices) ∧ (Instr.heatCooling ∈ (cardAt 1000).dueEvents)
      ∧ ownEventDue (cardAt 1000) .heatCooling = some true ∧ (sending 131).link.forwardLane = []
      ∧ (sending 131).nextEventChoices = [] ∧ (sending 131).sendDue = true
      ∧ r.deviceTime < r.nextCool ∧ { r with deviceTime := 1000 }.nextCool ≤ { r with deviceTime := 1000 }.deviceTime := by
  decide

theorem witness_CommandsWithoutEffect :
    (after .powerFail card).power ≠ .running ∧ isPowerOrLine (.pause 1) = false
      ∧ ownEventDue card (.gapEnd 0) = some false := by decide

theorem witness_PowerOnAndResetReleaseStartTheBlocks :
    (Instr.resetLineReleased = .resetLineReleased ∧ { card with power := Power.inReset }.power ≠ .off) := by decide

theorem witness_PowerOnAndResetReleaseLoadTheStore :
    (∀ r, carriedBy r ((saving 100).region r).content = true) ∧ (saving 100).power ≠ .off := by decide

theorem witness_ResetAssertedAndPowerFailStopTheCard :
    Instr.resetLineAsserted = .resetLineAsserted ∧ (saving 100).power ≠ .off := by decide

/-- The last frame ends in the last bit time of this microsecond; the watch expires at exactly 250 ms; bit 3 of
the second byte of a frame. -/
theorem witness_LinkPortEvents :
    card.power = .running ∧ (sending 131).link.queue = [.reply 1 [0x30, 0x00]]
      ∧ (sending 131).link.sending = some ⟨[], 131⟩ ∧ (⟨[], 131⟩ : Sending).ends < (sending 131).deviceTime * 12 + 12
      ∧ (ReturnEntry.reply 1 [0x30, 0x00]).frame[1]? = some 0x9B#8 ∧ 3 < 8
      ∧ (cardAt 250000).link.aliveStart = some 0 ∧ 0 + 250000 ≤ (cardAt 250000).deviceTime := by decide

theorem witness_ValidFramesRestartTheLinkWatch :
    card.power = .running ∧ exec (.pause 1) card = .next (after (.pause 1) card) ∧ isFrame (.pause 1) = true
      ∧ exec .heatCooling card = .next (after .heatCooling card) ∧ isFrame .heatCooling = false
      ∧ isPowerOrReset .heatCooling = false ∧ Instr.heatCooling ≠ .linkAliveExpiry :=
  ⟨by decide, rfl, by decide, rfl, by decide, by decide, by decide⟩

theorem witness_FullReplyQueueDiscardsCommands :
    (withReplies 14 card).power = .running ∧ isControl (.pause 1) = true ∧ 14 ≤ (withReplies 14 card).replyCount := by decide

/-- The frame of PAUSE with tag 1, its checks worked out by the receiver's own rule of section 10.1. -/
theorem witness_ReceiverReadsEveryFrame :
    (Instr.pause 1).WellFormed = true ∧ (frameOf (.pause 1)).isSome = true
      ∧ receive (.hunting (some 0xE1)) ((frameOf (.pause 1)).getD []) = (.hunting none, [.pause 1]) := by decide

/-- R163, R164: a good header of length 0, and one each with a wrong check, a return-lane kind and length 289 with matching
checks; a payload check other than FFFF hex for the empty payload; a byte that completes no sync word. -/
theorem witness_ReceiverReadsEveryFrame_refused :
    let check (kind l1 l0 : Byte) := crc8 [kind, l1, l0, 0, 0, 7]
    (check 2 0 0 = crc8 [2, 0, 0, 0, 0, 7] ∧ (0 : Byte).toNat * 256 + (0 : Byte).toNat ≤ 288)
      ∧ receive (.hunting none) [0xE1, 0x9B, 2, 0, 0, 0, 0, 7, check 2 0 0] = (.payload 2 0 7 [], [])
      ∧ check 2 0 0 + 1 ≠ check 2 0 0
      ∧ receive (.hunting none) [0xE1, 0x9B, 2, 0, 0, 0, 0, 7, check 2 0 0 + 1]
          = (.header [2, 0, 0, 0, 0, 7, check 2 0 0 + 1], [.headerError])
      ∧ (receive (.hunting none) [0xE1, 0x9B, 0x81, 0, 0, 0, 0, 7, check 0x81 0 0]).2 = [.headerError]
      ∧ (receive (.hunting none) [0xE1, 0x9B, 1, 1, 32, 0, 0, 7, check 1 1 32]).2 = []
      ∧ (receive (.hunting none) [0xE1, 0x9B, 1, 1, 33, 0, 0, 7, check 1 1 33]).2 = [.headerError]
      ∧ 255 * 256 + 254 ≠ (crc16 []).toNat ∧ 255 * 256 + 255 = (crc16 []).toNat
      ∧ receive (.hunting none) [0xE1, 0x9B, 2, 0, 0, 0, 0, 7, check 2 0 0, 255, 254] = (.hunting none, [.payloadError])
      ∧ ¬((some 0xE1 : Option Byte) = some 0xE1 ∧ (0xE1 : Byte) = 0x9B) := by decide

/-- The last reply that fits: 13 waiting. -/
theorem witness_StatusAndCounterQueries :
    (withReplies 13 card).power = .running ∧ (withReplies 13 card).replyCount < 14 ∧ CountersBounded (withReplies 13 card) :=
  ⟨by decide, by decide, by intro c; cases c <;> decide⟩

theorem witness_LinkResetResult : (withReplies 14 playing).power = .running := by decide

theorem witness_RefusalsOnlyReply :
    card.power = .running ∧ card.replyCount < 14 ∧ playing.power = .running ∧ playing.replyCount < 14
      ∧ playing.roll.rollState ≠ .noRoll ∧ card.roll.rollState = .noRoll
      ∧ ((4 : Byte) ≠ 0x80#8 ∧ 4 ≤ (4 : Byte).toNat) ∧ ((0 : Byte).toNat = 0) ∧ 88 < (89 : Byte).toNat
      ∧ leader.roll.rollState = .leader ∧ playing.roll.operator = false ∧ 4096 ≤ (4096 : BitVec 16).toNat
      ∧ 8 ≤ (8 : Byte).toNat ∧ (0 : Byte) ≠ 0xA5#8 ∧ 2 ≤ (2 : Byte).toNat := by decide

theorem witness_RefusalsOnlyReply_busyKey :
    (withChannel 0 (fun c => { c with state := .release }) card).roll.rollState = .noRoll
      ∧ (1 : Byte).toNat = Key.number 0
      ∧ ((withChannel 0 (fun c => { c with state := .release }) card).key 0).state ≠ .idle := by decide

theorem witness_RefusalsOnlyReply_store :
    (saving 1).store.op.isSome = true ∧ (saving 1).replyCount < 14
      ∧ card.store.op = none ∧ (withFlags (fun x => { x with lockdown := true }) card).store.op = none
      ∧ ((withFlags (fun x => { x with lockdown := true }) card).region 0).lockdown = true
      ∧ (card.region 0).lockdown = false ∧ (card.region 0).protectedFlag = true
      ∧ (withStore (fun st => { st with lock := true }) card).store.lock = true
      ∧ (withStore (fun st => { st with lock := true }) card).store.op = none
      ∧ { card with setupLock := true }.setupLock = true := by decide

/-- The last map set; LeaderMax 0 and LeaderMax 2400. -/
theorem witness_RollStartSetsUpTheRoll :
    card.power = .running ∧ card.replyCount < 14 ∧ card.roll.rollState = .noRoll ∧ (3 : Byte).toNat = (3 : MapNo).val
      ∧ card.tables.format.leaderMax ≠ 0
      ∧ { defaultTables with format := { defaultFormat with leaderMax := 0 } }.format.leaderMax = 0 := by decide

theorem witness_RollStopAndAbandonStopTheRoll :
    playing.power = .running ∧ playing.roll.rollState ≠ .noRoll ∧ playing.replyCount < 14
      ∧ (withRoll (fun r => { r with abandonStart := some 0 }) { playing with deviceTime := 5000000 }).roll.abandonStart
          = some 0
      ∧ 0 + playing.tables.settings.abandonTimeout * 1000000 ≤ { playing with deviceTime := 5000000 }.deviceTime := by
  decide

/-- Every case of PAUSE and RESUME; the plan moment of line 1000 just reached and the line unsettled; an episode
whose StarveGrace has just passed. -/
theorem witness_HoldReasonsComeAndGo :
    playing.power = .running ∧ playing.replyCount < 14 ∧ playing.roll.rollState = .playing
      ∧ playing.roll.operator = false ∧ playing.roll.starved = false ∧ paused.roll.operator = true
      ∧ paused.roll.starved = false ∧ ending.roll.rollState = .ending
      ∧ (withRoll (fun r => { r with starved := true }) playing).roll.starved = true
      ∧ (withRoll (fun r => { r with starved := true }) paused).roll.operator = true
      ∧ planning.power = .running ∧ planning.roll.rollState = .playing ∧ planning.roll.starveStart = none
      ∧ ({ planning with holes := { planning.holes with settled := 999 } }).holes.settled < (planning.nextLine : Int)
      ∧ planning.planReached planning.nextLine = true ∧ planning.roll.starved = false
      ∧ 0 + planning.tables.settings.starveGrace * 1000 ≤ { planning with deviceTime := 40000 }.deviceTime := by decide

theorem witness_TempoInLeaderAndNoRoll :
    leader.power = .running ∧ leader.replyCount < 14 ∧ leader.roll.rollState = .leader ∧ card.roll.rollState = .noRoll := by
  decide

/-- A schedule of seven segments and of eight before the effective line; an episode open whose plan moment a TEMPO
leaves reached, and puts in the future. -/
theorem witness_TempoInPlaying :
    let moment (s : State) := s.planReached (s.roll.planLine + 1).toNat
    playing.power = .running ∧ playing.replyCount < 14 ∧ playing.roll.rollState = .playing
      ∧ playing.roll.starveStart = none ∧ -1 ≤ playing.roll.planLine
      ∧ ((List.range 7).map fun i => (⟨1000 + i, 0, 80⟩ : Segment)).length + 1 ≤ 8
      ∧ 8 < ((List.range 8).map fun i => (⟨1000 + i, 0, 80⟩ : Segment)).length + 1
      ∧ starving.roll.starveStart.isSome = true ∧ starving.roll.starved = true ∧ moment starving = true
      ∧ moment (withRoll (fun r => { r with schedule := [⟨1000, 120001, 80⟩] }) starving) = false := by decide

/-- The last line of a segment and the first of the next; the bounds of LPI and tempo. -/
theorem witness_DueTimesAdvance :
    let l := twoTempos.roll.schedule
    l.Pairwise (fun a b => a.origin < b.origin) ∧ (∀ g ∈ l, (1000 < g.origin → 1099 < g.origin) ∧ ¬1100 < g.origin)
      ∧ (l.map (·.origin)) = [1000, 1100] ∧ 50 ≤ 400 ∧ 400 ≤ 400 ∧ 10 ≤ 300 ∧ 300 ≤ 300 := by decide

theorem witness_RollEndReachesNoRoll :
    let s := withRoll (fun r => { r with schedule := [⟨1000, 0, 80⟩] }) ending
    s.power = .running ∧ s.roll.rollState = .ending ∧ s.roll.endLine = some 1000
      ∧ reached s.roll.rollTime (s.due 1000) = true
      ∧ (∀ k, (s.key k).state = .idle) ∧ (∀ p ∈ allPedals, (s.pedal p).state = .idle) := by decide

/-- At the newest line, one above it, at the window top of PLAYING and of LEADER, and one above it. -/
theorem witness_ScanFramesDroppedOrTaken :
    playing.power = .running ∧ card.roll.rollState = .noRoll ∧ playing.roll.rollState ≠ .noRoll
      ∧ [(0 : Byte)].length ≠ 256 ∧ darkLine.length = 256 ∧ ((999 : Tag).toNat : Int) ≤ playing.front.newest
      ∧ playing.front.newest < ((3048 : Tag).toNat : Int) ∧ playing.roll.planLine + 2048 < ((3048 : Tag).toNat : Int)
      ∧ playing.roll.rollState ≠ .leader ∧ playing.holes.activeSet.isSome = true ∧ -1 ≤ playing.front.newest
      ∧ playing.front.newest < ((3047 : Tag).toNat : Int) ∧ ((3047 : Tag).toNat : Int) ≤ playing.roll.planLine + 2048
      ∧ playing.counter .missingLine ≤ 65535 ∧ leader.roll.rollState = .leader
      ∧ starving.roll.starveStart.isSome = true ∧ starving.planReached starving.nextLine = true
      ∧ (withRoll (fun r => { r with schedule := [⟨1000, 120001, 80⟩] }) starving).planReached starving.nextLine = false
      ∧ starving.roll.starved = true ∧ starving.roll.operator = false
      ∧ ((2047 : Tag).toNat : Int) ≤ leader.front.newest + 2048 := by decide

/-- A line whose events fit, and one whose events do not; a gap of one line; a line of ENDING. -/
theorem witness_PlayingLineMakesItsEvents :
    playing.power = .running ∧ playing.roll.rollState = .playing ∧ playing.holes.activeSet = some 1
      ∧ darkLine.length = 256 ∧ ((1000 : Tag).toNat : Int) = playing.front.newest + 1
      ∧ ((1000 : Tag).toNat : Int) ≤ playing.roll.planLine + 2048 ∧ -1 ≤ playing.front.newest
      ∧ (playing.holes.pass [defaultColumn] [false] 1000).isSome = true
      ∧ (HoleRecognizer.pass { playing.holes with
            queue := List.replicate 1024 ⟨1000, 2, .endMark, .opens⟩, debounce := [⟨false, none⟩] }
          [{ defaultColumn with function := .key 0 }] [true] 1000).isNone = true
      ∧ playing.front.newest + 1 < ((1001 : Tag).toNat : Int)
      ∧ ending.roll.rollState = .ending ∧ ending.holes.activeSet = some 1
      ∧ ending.front.newest < ((1001 : Tag).toNat : Int) ∧ ((1001 : Tag).toNat : Int) ≤ ending.roll.planLine + 2048 := by
  decide

/-- The next line; a gap of one line, and one up to the window top; codes 0 and 1, at and below CodeLines; LeaderMax. -/
theorem witness_LeaderLineAndLeaderMax :
    leader.power = .running ∧ leader.roll.rollState = .leader ∧ leader.roll.starveStart = none ∧ darkLine.length = 256
      ∧ ((0 : Tag).toNat : Int) = leader.front.newest + 1 ∧ -1 ≤ leader.front.newest
      ∧ leader.front.newest + 1 < ((1 : Tag).toNat : Int) ∧ ((2047 : Tag).toNat : Int) ≤ leader.front.newest + 2048
      ∧ leader.front.heldSet = some .code ∧ leader.front.heldSamples.length = 6
      ∧ bitsToNat [true, false, false, false, false, false] ≠ 0 ∧ leader.tables.format.codeLines ≤ leader.tables.format.codeLines
      ∧ 1 < leader.tables.format.codeLines ∧ leader.holes.reader.linesRead + 1 < leader.tables.format.leaderMax
      ∧ leader.tables.format.leaderMax
          ≤ { leader with holes := { leader.holes with reader := ⟨0, 0, 2400⟩ } }.holes.reader.linesRead := by decide

/-- Runs one line short of their need and at it; a queue with room for the last event and for none. -/
theorem witness_DebounceAndEventQueue :
    defaultColumn.function = .nothing ∧ { defaultColumn with function := .key 0 }.function ≠ .nothing
      ∧ 1 < { defaultColumn with openRun := 2 }.openRun ∧ { defaultColumn with openRun := 2 }.openRun ≤ 2
      ∧ [defaultColumn].length = [(⟨false, none⟩ : Debounce)].length ∧ [true].length = [(⟨false, none⟩ : Debounce)].length
      ∧ ([⟨4, 1, .endMark, .opens⟩, ⟨4, 2, .key 0, .opens⟩] : List HoleEvent).Pairwise (fun a b => b.before a = false)
      ∧ 2 + 1022 ≤ 1024 ∧ 1024 < 2 + 1023 := by decide

theorem witness_RegistrationKeepsItsClamps : 40 + 64 ≤ 104 ∧ ([(40, 104)] : List (Nat × Nat)) ≠ [] := by decide

/-- The last byte of a payload; an edge history of seven pairs and of eight. -/
theorem witness_PixelsEdgesAndColumns :
    darkLine[255]? = some 0 ∧ (List.replicate 7 (40, 104)).length < 8 ∧ (List.replicate 8 (40, 104)).length = 8 := by decide

theorem witness_PlanLinePlansTheNextLine :
    planning.power = .running ∧ planning.roll.rollState = .playing ∧ -1 ≤ planning.roll.planLine
      ∧ (planning.nextLine : Int) ≤ planning.holes.settled ∧ planning.planReached planning.nextLine = true
      ∧ (⟨1000, 1, .endMark, .opens⟩ : HoleEvent) ∈ closing.holes.queue ∧ closing.nextLine = 1000 := by
  decide

theorem witness_EndMarkClosesTheRoll :
    closing.power = .running ∧ closing.planDue = true ∧ -1 ≤ closing.roll.planLine
      ∧ exec .planLine closing = .next (after .planLine closing)
      ∧ (after .planLine closing).roll.rollState = .ending ∧ closing.faulted pedalGroup = false
      ∧ (note 0).fire.isSome = true ∧ (note 0).release = none :=
  ⟨by decide, by decide, by decide, rfl, by decide, by decide, by decide, by decide⟩

/-- The end mark planned late, with key 0 in HOLD, its MinHold end at a device time: the close's release time is reached already. -/
def closingHeld (minHoldEnd : Nat) : State :=
  withChannel 0 (fun c => { c with state := .hold, current := some (note 0), minHoldEnd := some minHoldEnd, duty := 60 })
    (withRoll (fun r => { r with rollTime := 200000 }) closing)

/-- R102 and R104: a MinHold end just met lets the close release the key at once; one microsecond ahead keeps it in HOLD. -/
theorem witness_EndMarkClosesTheRoll_hold :
    (closingHeld 0).planDue = true ∧ ((closingHeld 0).key 0).holdReleased = false
      ∧ reached (closingHeld 0).roll.rollTime (noteOffTime (closingHeld 0) 0 1000) = true ∧ 0 ≤ (closingHeld 0).deviceTime
      ∧ ¬1 ≤ (closingHeld 1).deviceTime ∧ ((after .planLine (closingHeld 0)).key 0).state = .release
      ∧ ((after .planLine (closingHeld 1)).key 0).state = .hold
      ∧ (after .planLine (closingHeld 0)).roll.rollState = .ending := by decide

/-- R58, R139: the close takes an ARMED pedal that is planned DOWN out of the Fire List, and no other entry. -/
theorem test_close_lifts_armed_pedal :
    let s : State := { withPress .soft (fun c => { c with state := .armed, current := some press }) closing with
      pedalUnit := { closing.pedalUnit with planned := ⟨false, true, false⟩ }
      fireList := [⟨.pedal .soft, 400000⟩, ⟨.key 0, 400001⟩] }
    (after .planLine s).fireList = [⟨.key 0, 400001⟩] ∧ (after .planLine s).pedalUnit.planned = ⟨false, false, false⟩ := by decide

theorem witness_IntensityRule :
    let r : ExprRecord := { ExprRecord.rollStart defaultBass with intensity := 261888 }
    let e : HoleEvent := ⟨1000, 1, .expr .bass .accent, .opens⟩
    r.sfz = false ∧ { r with sfz := true }.sfz = true ∧ r.intensity ≤ 1023 * 256
      ∧ r.accent = false ∧ { r with accent := true }.accent = true
      ∧ (∃ x ∈ [e], x.function = .expr .bass .accent) ∧ (∀ x ∈ [e], x.function = .expr .bass .accent → x.kind = .opens)
      ∧ (∀ x ∈ [e], x.function ≠ .expr .bass .sfz)
      ∧ planning.power = .running ∧ planning.planDue = true ∧ (∃ t, exec .planLine planning = .next t)
      ∧ (ExprRecord.accentedOn { r with lastAccent := some 999 } { defaultBass with accentReach := 3 } 1002 = true)
      ∧ (ExprRecord.accentedOn { r with lastAccent := some 999 } { defaultBass with accentReach := 3 } 1003 = false) :=
  ⟨by decide, by decide, by decide, by decide, by decide, by decide, by decide, by decide, by decide, by decide,
    ⟨_, rfl⟩, by decide, by decide⟩

theorem witness_MappedVelocityNeverFalls :
    VelocityChecks defaultVelocity ∧ 0 ≤ 1023 ∧ 1023 ≤ 1023 ∧ 992 % 32 = 0
      ∧ (∀ j : Fin 33, defaultVelocity[j.val] ≤ 6000) := by unfold VelocityChecks; decide

theorem witness_NoteNumbersByTheirFormulas :
    (card.record 0).vFloor ≤ (card.record 0).vMax ∧ 50 ≤ (card.record 0).vFloor ∧ 1000 ≤ (card.record 0).kickMax
      ∧ card.exprBass.intensity ≤ 1023 * 256 ∧ card.tables.exprBass.softScale ≤ 256 ∧ 50 ≤ 50 ∧ 50 ≤ 6000 := by decide

/-- Each clause: a note that is not late, a FAULTED group, an IDLE key, a busy one, a full one, and the three targets of
a note-off. -/
theorem witness_KeyEventsReachTheirChannel :
    playing.fireList = [] ∧ reached playing.roll.rollTime
        (playing.due 1000 - BitVec.ofNat 32 (playing.noteFor 0 1000).lead) = false ∧
    ((⟨1000, 1, .key 0, .opens⟩ : HoleEvent).function = .key 0)
      ∧ (after (.faultLineActive 0) card).faulted (keyGroup 0) = true ∧ playing.faulted (keyGroup 0) = false
      ∧ (playing.key 0).state = .idle ∧ (armed.key 0).state ≠ .idle ∧ (armed.key 0).pending = none
      ∧ ((withChannel 0 (fun c => { c with pending := some (note 9) }) armed).key 0).pending.isSome = true
      ∧ (armed.key 0).state ≠ .hold ∧ (armed.key 0).target = .current ∧ (armed.key 0).holdReleased = false
      ∧ (armed.key 0).current = some (note 0) ∧ (playing.key 0).target = .nothing
      ∧ ((withChannel 0 (fun c => { c with pending := some (note 9), target := .pending }) armed).key 0).target = .pending
      ∧ (holdingOn.key 0).state = .hold ∧ (holdingOn.key 0).target = .current ∧ (holdingOn.key 0).holdReleased = false
      ∧ (holdingOn.key 0).current = some (note 0) ∧ (holdingOn.key 0).minHoldEnd = some 0 ∧ 0 ≤ holdingOn.deviceTime
      ∧ reached tardy.roll.rollTime (noteOffTime tardy 0 1000) = true
      ∧ reached playing.roll.rollTime (noteOffTime playing 0 1000) = false := by decide

/-- The pedal events' clauses: a press that is not late, a window that closes and one that stays, a FAULTED group 11, and a pedal channel in each
state a press or a lift can meet. -/
theorem witness_PedalEventsReachTheirChannel :
    let held := withPress .soft (fun c => { c with state := .hold, current := some press }) playing
    reached playing.roll.rollTime (playing.due 1000 - BitVec.ofNat 32 (playing.pedalRecord .soft).lead) = false
      ∧ earlier 144999 (playing.due 1000) = true ∧ earlier 145000 (playing.due 1000) = false ∧ playing.pedalUnit.window = none
      ∧ (⟨1000, 1, .pedal .soft, .closes⟩ : HoleEvent).function = .pedal .soft
      ∧ (after (.faultLineActive 11) playing).faulted pedalGroup = true ∧ playing.faulted pedalGroup = false
      ∧ (playing.pedal .soft).state = .idle ∧ (held.pedal .soft).state ≠ .idle ∧ (held.pedal .soft).pending = none
      ∧ ((withPress .soft (fun c => { c with pending := some press }) held).pedal .soft).pending.isSome = true
      ∧ (held.pedal .soft).state = .hold ∧ (held.pedal .soft).current = some press ∧ press.lift = none
      ∧ reached playing.roll.rollTime (playing.due 1000 - BitVec.ofNat 32 (playing.pedalRecord .soft).releaseLead) = false
      ∧ reached tardy.roll.rollTime (tardy.due 1000 - BitVec.ofNat 32 (tardy.pedalRecord .soft).releaseLead) = true
      ∧ ((withPress .soft (fun c => { c with state := .armed, current := some press }) playing).pedal .soft).pending = none
      ∧ (⟨5, 0, 20000, some 0⟩ : Press).lift.isSome = true := by decide

/-- Two fire times half the range apart less one; late notes on keys 0 and 1 and a late press of the soft pedal, with
slots free, with one slot, and with none; and what requests slots: a due key, a due line with a late note, and the end
of a gap once the line has given the key its late note. -/
theorem witness_LateChannelsFireAtOnceInOrder :
    let none' := oneSlot (withPress .sustain (fun c => { c with state := .kick }) tardy)
    ((0x7FFFFFFF : RollTime) - 0).toNat < 2 ^ 31
      ∧ (⟨1000, 1, .key 0, .opens⟩ : HoleEvent).function = .key 0 ∧ (tardy.key 0).state = .idle ∧ (tardy.key 1).state = .idle
      ∧ tardy.faulted (keyGroup 0) = false ∧ tardy.fireList = []
      ∧ reached tardy.roll.rollTime (tardy.due 1000 - BitVec.ofNat 32 (tardy.noteFor 0 1000).lead) = true
      ∧ reached tardy.roll.rollTime (tardy.due 1000 - BitVec.ofNat 32 (tardy.noteFor 1 1000).lead) = true
      ∧ tardy.kickCount < tardy.tables.settings.kickSlots
      ∧ min (tardy.noteFor 0 1000).kick (tardy.record 0).kickMax ≤ tardy.tables.settings.heatLimit - (tardy.key 0).heat
      ∧ (oneSlot tardy).kickCount + 1 = (oneSlot tardy).tables.settings.kickSlots
      ∧ none'.tables.settings.kickSlots ≤ none'.kickCount ∧ (none'.pedal .soft).state = .idle
      ∧ tardy.faulted pedalGroup = false ∧ tardy.pedalUnit.window = none
      ∧ reached tardy.roll.rollTime (tardy.due 1000 - BitVec.ofNat 32 (tardy.pedalRecord .soft).lead) = true
      ∧ (Instr.keyFire 0 ∈ armed.nextEventChoices) ∧ (Instr.keyFire 0 ∈ armed.dueEvents)
      ∧ (Channel.key 0 ∈ armed.requests (.keyFire 0)) ∧ lateLine.planDue = true ∧ Channel.key 0 ∈ lateLine.lateRequests
      ∧ lateBehindGap.planDue = true ∧ (Instr.gapEnd 0 ∈ lateBehindGap.planNext.dueEvents)
      ∧ (Channel.key 0 ∈ lateBehindGap.planNext.requests (.gapEnd 0))
      ∧ (tardyArmed.key 0).state = .armed ∧ (tardyArmed.key 0).current = some (note 0) ∧ (tardyArmed.key 1).state = .idle
      ∧ tardyArmed.fireList = [⟨.key 0, 0⟩] ∧ reached tardyArmed.roll.rollTime 0 = true
      ∧ reached tardyArmed.roll.rollTime (tardyArmed.due 1000 - BitVec.ofNat 32 (tardyArmed.noteFor 1 1000).lead) = true
      ∧ (oneSlot tardyArmed).kickCount + 1 = (oneSlot tardyArmed).tables.settings.kickSlots
      ∧ min (note 0).kick (tardyArmed.record 0).kickMax
          ≤ tardyArmed.tables.settings.heatLimit - (tardyArmed.key 0).heat := by decide

/-- Nobody requests before key 1, or before the soft pedal, with no channel busy, and nobody but key 0 with key 0 armed. -/
theorem witness_LateChannels_noneBefore :
    noneBefore tardy (.key 1) [] ∧ noneBefore tardy (.pedal .soft) [] ∧ noneBefore tardyArmed (.key 1) [.key 0] := by
  refine ⟨?_, ?_, ?_⟩
  · exact fun d _ _ => not_requests_of_quiet (by decide) (by decide) (by decide) d (fun _ h => nomatch h)
  · exact fun d _ _ => not_requests_of_quiet (by decide) (by decide) (by decide) d (fun _ h => nomatch h)
  · refine fun d _ hd => not_requests_of_quiet (by decide) (by decide) (by decide) d (fun e he => ?_)
    have : e = ⟨.key 0, 0⟩ := by simpa [tardyArmed, armed] using he
    subst this; intro h; exact hd (by simp [← h])

/-- A list in grant order and an entry that belongs between its two. -/
theorem witness_LateChannels_grantOrder :
    let l : List WaitEntry := [⟨.pedal .soft, .pedal, 0⟩, ⟨.key 0, .key 2, 0⟩]
    let e : WaitEntry := ⟨.key 1, .key 3, 0⟩
    l.Pairwise GrantsBefore ∧ ∀ x ∈ l, GrantsBefore x e ∨ GrantsBefore e x := by
  simp [GrantsBefore]

/-- Headroom exactly the kick, one less, and one below 500; a full card; a FAULTED group. -/
theorem witness_KeyFireStartsWaitsOrDrops :
    armed.power = .running ∧ (armed.key 0).state = .armed ∧ (armed.key 0).current = some (note 0)
      ∧ armed.fireList = ⟨.key 0, 0⟩ :: [] ∧ reached armed.roll.rollTime 0 = true
      ∧ armed.faulted (keyGroup 0) = false ∧ armed.kickCount < armed.tables.settings.kickSlots
      ∧ min (note 0).kick (armed.record 0).kickMax ≤ armed.tables.settings.heatLimit - 57000
      ∧ armed.tables.settings.heatLimit - 57001 < min (note 0).kick (armed.record 0).kickMax
      ∧ 500 ≤ armed.tables.settings.heatLimit - 59500 ∧ armed.tables.settings.heatLimit - 59501 < 500
      ∧ ¬(oneSlot (withPress .soft (fun c => { c with state := .kick }) armed)).kickCount
          < (oneSlot armed).tables.settings.kickSlots
      ∧ ¬((armed.setFaulted 0 true).faulted (keyGroup 0) = false) := by decide

/-- Nothing pending, and a pending note whose fire time is reached. -/
theorem witness_KeyFire_nothingToFire :
    nothingToFire armed 0 ∧ firesPending (withChannel 0 (fun c => { c with pending := some (note 0) }) armed) 0 (note 0) :=
  ⟨nothingToFire_of_none (by decide), firesPending_note (by decide) (by decide)⟩

theorem witness_KickEndEntersHold :
    kicking.power = .running ∧ (kicking.key 0).state = .kick ∧ (kicking.key 0).kickEnd = some 3000
      ∧ 3000 ≤ kicking.deviceTime ∧ kicking.waitList = []
      ∧ ((kicking.key 0).holdWatch.map (·.expired)) ≠ some true
      ∧ ((withChannel 0 (fun c => { c with holdWatch := some ⟨0, true⟩ }) kicking).key 0).holdWatch.map (·.expired)
          = some true := by decide

/-- A kick's end; one slot free of a full card with key 1, or the soft pedal, at the head: headroom of the kick,
one less, 500, and one less than 500, with nobody behind key 1 and with key 2. -/
theorem witness_KickEndHandsTheSlotOn :
    let limit := (lastSlot 0 []).tables.settings.heatLimit
    let s (room : Nat) := lastSlot (limit - room) []
    let q := oneSlot { withPress .soft (fun c => { c with state := .waiting, current := some press }) playing with
      waitList := [⟨.pedal .soft, .pedal, 0⟩] }
    kicking.power = .running ∧ (kicking.key 0).state = .kick ∧ (kicking.key 0).kickEnd = some 3000 ∧ 3000 ≤ kicking.deviceTime
      ∧ ((kicking.key 0).holdWatch.map (·.expired)) ≠ some true
      ∧ ((withChannel 0 (fun c => { c with holdWatch := some ⟨0, true⟩ }) kicking).key 0).holdWatch.map (·.expired)
          = some true
      ∧ (s 3000).kickCount + 1 = (s 3000).tables.settings.kickSlots
      ∧ ((s 3000).key 1).state = .waiting ∧ ((s 3000).key 1).current = some (note 0) ∧ ((s 3000).key 1).pending = none
      ∧ min (note 0).kick ((s 3000).record 1).kickMax ≤ limit - ((s 3000).key 1).heat
      ∧ limit - ((s 2999).key 1).heat < min (note 0).kick ((s 2999).record 1).kickMax
      ∧ 500 ≤ limit - ((s 500).key 1).heat ∧ limit - ((s 499).key 1).heat < 500
      ∧ (lastSlot (limit - 499) [⟨.key 2, .key 1, 0⟩]).waitList = ⟨.key 1, .key 1, 0⟩ :: ⟨.key 2, .key 1, 0⟩ :: []
      ∧ ((s 499).key 2).state = .waiting ∧ ((s 499).key 2).current = some (note 0) ∧ (2 : Key) ≠ 1
      ∧ min (note 0).kick ((s 499).record 2).kickMax ≤ limit - ((s 499).key 2).heat
      ∧ q.kickCount + 1 = q.tables.settings.kickSlots ∧ (q.pedal .soft).state = .waiting := by decide

/-- Nothing pending behind key 1, and a pending note that fires, with nobody before key 1; an empty Fire List. -/
theorem witness_KickEnd_nothingToFire :
    nothingToFire (lastSlot 0 []) 1 ∧ (lastSlot 0 []).fireList = []
      ∧ (let s := withChannel 1 (fun c => { c with pending := some (note 0) }) (lastSlot 0 [])
        firesPending s 1 (note 0) ∧ noneBefore s (.key 1) [] ∧ s.fireList = []) := by
  refine ⟨nothingToFire_of_none (by decide), by decide, firesPending_note (by decide) (by decide), ?_, by decide⟩
  intro d hd _ h
  rcases h with ⟨-, e, he, -⟩ | ⟨p, f, e, -, h, -⟩ | ⟨k, n, rfl, h, -⟩
  · exact nomatch (show e ∈ ([] : List FireEntry) from he)
  · cases p <;> exact absurd h (by decide)
  · have hk : k = 0 := Fin.ext (by have h' : 3 + k.val < 3 + 1 := hd; show k.val = 0; omega)
    subst hk; exact nomatch (show (none : Option Note) = some n from h.1)

theorem witness_HeldKeysAreReleased :
    holding.power = .running ∧ (holding.key 0).state = .hold
      ∧ (holding.key 0).current = some { note 0 with release := some 0 } ∧ reached holding.roll.rollTime 0 = true
      ∧ (holding.key 0).minHoldEnd = some 0 ∧ 0 ≤ holding.deviceTime
      ∧ ((withChannel 0 (fun c => { c with testRelease := some 0 }) holding).key 0).testRelease = some 0
      ∧ paused.clockStopped = true
      ∧ ((withChannel 0 (fun c => { c with holdWatch := some ⟨0, false⟩ }) holding).key 0).holdWatch = some ⟨0, false⟩
      ∧ 0 + holding.tables.settings.holdLimit * 1000 ≤ { holding with deviceTime := 8000000 }.deviceTime
      ∧ (kicking.key 0).state = .kick := by decide

/-- A due pending note in a FAULTED group, with headroom of the kick, one less, 500 and one less than 500, and on a full card. -/
theorem witness_PromotedFires :
    let full := oneSlot (withPress .soft (fun c => { c with state := .kick }) resting)
    let limit := resting.tables.settings.heatLimit
    (resting.setFaulted 0 true).faulted (keyGroup 0) = true ∧ resting.faulted (keyGroup 0) = false
      ∧ resting.kickCount < resting.tables.settings.kickSlots ∧ ¬full.kickCount < full.tables.settings.kickSlots
      ∧ min (note 0).kick (resting.record 0).kickMax ≤ limit - (limit - 3000)
      ∧ limit - (limit - 2999) < min (note 0).kick (resting.record 0).kickMax
      ∧ 500 ≤ limit - (limit - 500) ∧ limit - (limit - 499) < 500 := by decide

theorem witness_GapEndAndDeferExpiryMoveOn :
    resting.power = .running ∧ (resting.key 0).state = .release ∧ (resting.key 0).gapEnd = some 0
      ∧ 0 ≤ resting.deviceTime
      ∧ ((withChannel 0 (fun c => { c with pending := some (note 0) }) resting).key 0).pending = some (note 0)
      ∧ reached resting.roll.rollTime 0 = true ∧ resting.faulted (keyGroup 0) = false
      ∧ resting.kickCount < resting.tables.settings.kickSlots
      ∧ min (note 0).kick (resting.record 0).kickMax ≤ resting.tables.settings.heatLimit - (resting.key 0).heat
      ∧ (waiting.key 0).state = .waiting ∧ 0 < waiting.tables.settings.deferLimit
      ∧ (waiting.key 0).waitStart = some 0 ∧ 0 + waiting.tables.settings.deferLimit ≤ waiting.deviceTime := by decide

/-- Nothing pending, and a pending note whose fire time is reached, at the end of a gap and of a wait. -/
theorem witness_GapEnd_nothingToFire :
    nothingToFire resting 0 ∧ nothingToFire waiting 0
      ∧ firesPending (withChannel 0 (fun c => { c with pending := some (note 0) }) resting) 0 (note 0)
      ∧ firesPending (withChannel 0 (fun c => { c with pending := some (note 0) }) waiting) 0 (note 0) :=
  ⟨nothingToFire_of_none (by decide), nothingToFire_of_none (by decide),
    firesPending_note (by decide) (by decide), firesPending_note (by decide) (by decide)⟩

theorem witness_KeyTestStrikes :
    card.power = .running ∧ card.replyCount < 14 ∧ card.roll.rollState = .noRoll ∧ (88 : Byte).toNat = Key.number 87
      ∧ (card.key 87).state = .idle ∧ (card.record 87).vFloor ≤ (card.record 87).vMax ∧ 1000 ≤ (card.record 87).kickMax
      ∧ card.faulted (keyGroup 87) = false ∧ card.kickCount < card.tables.settings.kickSlots
      ∧ max 500 (min (card.record 87).kickMax ((card.record 87).k0 + 5200 * (card.record 87).kg / 1024))
          ≤ card.tables.settings.heatLimit - (card.key 87).heat
      ∧ card.tables.settings.heatLimit - 59500 < max 500 (min (card.record 87).kickMax ((card.record 87).k0 + 5200 * (card.record 87).kg / 1024))
      ∧ 500 ≤ card.tables.settings.heatLimit - 59500 ∧ card.tables.settings.heatLimit - 59501 < 500
      ∧ (oneSlot (withPress .soft (fun c => { c with state := .kick }) card)).tables.settings.kickSlots
          ≤ (oneSlot (withPress .soft (fun c => { c with state := .kick }) card)).kickCount
      ∧ (after (.faultLineActive 10) card).faulted (keyGroup 87) = true := by decide

theorem witness_PedalChannelPhases :
    let a := { withPress .soft (fun c => { c with state := .armed, current := some press }) playing with
      fireList := [⟨.pedal .soft, 0⟩] }
    let k := withPress .soft (fun c => { c with state := .kick, current := some press, kickEnd := some 0 }) playing
    let r := withPress .soft (fun c => { c with state := .release, releaseEnd := some 0, pending := some press }) playing
    a.power = .running ∧ (a.pedal .soft).state = .armed ∧ (a.pedal .soft).current = some press
      ∧ reached a.roll.rollTime 0 = true ∧ a.kickCount < a.tables.settings.kickSlots
      ∧ (k.pedal .soft).kickEnd = some 0 ∧ 0 ≤ k.deviceTime ∧ k.waitList = []
      ∧ (r.pedal .soft).releaseEnd = some 0 ∧ (r.pedal .soft).pending = some press
      ∧ reached r.roll.rollTime press.fire = true ∧ reached r.roll.rollTime 1 = false := by decide

theorem witness_HeatCoolsAndFaultsClear :
    (cardAt 1000).power = .running ∧ (cardAt 1000).nextCool ≤ (cardAt 1000).deviceTime ∧ card.replyCount < 14
      ∧ (4095 : BitVec 16).toNat < 4096 := by decide

theorem witness_FaultLinesSweepTheirGroup :
    kicking.faultLines[(11 : Group).val] = false ∧ kicking.power = .running ∧ kicking.faulted 11 = false
      ∧ kicking.waitList = [] ∧ (after (.faultLineActive 11) kicking).faultLines[(11 : Group).val] = true
      ∧ (after (.faultLineInactive 11) (after (.faultLineActive 11) kicking)).faultLines[(11 : Group).val] = false
      ∧ (after (.faultLineInactive 11) (after (.faultLineActive 11) kicking)).faulted 11 = true
      ∧ (after .powerFail kicking).power ≠ .running := by decide

/-- Strike 4 of section 9.9: the watch of key 60 that expects its hammer at 13,023,368, at a device time. -/
def strikeFour (now : Nat) : State :=
  withChannel 59 (fun c => { c with sense := some ⟨13023368, 13000000⟩ })
    ((cardAt now).withRecord 59 { defaultKey with senseFitted := true })

/-- R155, R156, entry 39: the deadline is 13,035,368, and after its miss the edge of 13,038,000 is stray. -/
theorem test_late_edge_after_its_deadline :
    (strikeFour 13035367).deadlineDue 59 = false ∧ (strikeFour 13035368).deadlineDue 59 = true
      ∧ (let t := after (.senseEdge 59) { after (.senseDeadline 59) (strikeFour 13035368) with deviceTime := 13038000 }
        t.counter .senseMiss = 1 ∧ t.counter .senseStray = 1 ∧ t.counter .senseOutlier = 0) := by decide

/-- R152: an edge that finds the watch open past its deadline, without SENSE_DEADLINE before it, is an outlier. -/
theorem test_late_edge_without_its_deadline :
    (after (.senseEdge 59) (strikeFour 13038000)).counter .senseOutlier = 1 := by decide

/-- Errors at SenseWindow, where the edge is a match, and one beyond it; the deadline itself. -/
theorem witness_SenseVerdicts :
    watching.power = .running ∧ (card.record 59).senseFitted = false ∧ (watching.record 59).senseFitted = true
      ∧ (watching.key 59).sense = some ⟨20000, 0⟩ ∧ (card.key 59).sense = none
      ∧ |((32000 : Nat) : Int) - 20000| ≤ (watching.tables.settings.senseWindow : Int)
      ∧ (watching.tables.settings.senseWindow : Int) < |((32001 : Nat) : Int) - 20000|
      ∧ watching.tables.settings.adaptEnable = true
      ∧ 20000 + watching.tables.settings.senseWindow ≤ { watching with deviceTime := 32000 }.deviceTime := by decide

/-- The last entry of KEYS, the one after it and the one before the first; the first table byte that names none. -/
theorem witness_TableReadReplies :
    card.power = .running ∧ card.replyCount < 14 ∧ tableOfByte 0x08 = some .keys ∧ (255 : Byte) ≠ 0
      ∧ TableName.keys.indices.1 ≤ (88 : Byte).toNat ∧ (88 : Byte).toNat ≤ TableName.keys.indices.2
      ∧ TableName.keys.indices.2 < (89 : Byte).toNat ∧ (0 : Byte).toNat < TableName.keys.indices.1
      ∧ tableOfByte 0x0B = none := by decide

/-- The last entry of VELOCITY raised to 6000; SETTINGS with SenseWindow 1000, which puts key 59's deadline of 20,000 +
12,000 at 21,000, in the past at 21,001 and not at 21,000; FORMAT in PLAYING and a map set that is not the active one. -/
theorem witness_TableWriteTaken :
    card.power = .running ∧ card.replyCount < 14 ∧ tableOfByte 0x07 = some .velocity
      ∧ [(0x17 : Byte), 0x70].length = runSize 0x07 (32 : Byte).toNat (1 : Byte).toNat
      ∧ TableName.velocity.runFits (32 : Byte).toNat (1 : Byte).toNat = true
      ∧ (∀ j, j < 1 → EntryRight .velocity (32 + j)
          (([0x17, 0x70] : List Byte).drop (runSize 0x07 32 j) |>.take (entrySize 0x07 (32 + j))))
      ∧ (∃ w, card.tables.writeRun 0x07 .velocity 32 1 [0x17, 0x70] = some w ∧ CrossChecks w 32 1 .velocity)
      ∧ (∀ j, j < 1 → EntryRight .settings (0 + j)
          (narrow.drop (runSize 0x0A 0 j) |>.take (entrySize 0x0A (0 + j))))
      ∧ (card.tables.writeRun 0x07 .velocity 32 1 [0x17, 0x70]).any (fun w => w.crossCheck .velocity 32 1) = true
      ∧ (watching.tables.writeRun 0x0A .settings 0 1 narrow).any
          (fun w => w.crossCheck .settings 0 1 && w.settings.senseWindow == 1000) = true
      ∧ narrow.length = runSize 0x0A 0 1 ∧ 20000 + 1000 < 21001 ∧ ¬20000 + 1000 < 21000
      ∧ (watching.record 59).senseFitted = true ∧ (watching.key 59).sense = some ⟨20000, 0⟩ :=
  ⟨by decide, by decide, by decide, by decide, by decide,
    (writeRun_isSome 0x07 .velocity rfl 1 32 card.tables _ (by decide) (by decide) (by decide)).1 (by decide),
    ⟨_, rfl, (Tables.crossCheck_iff _ .velocity 32 1).1 (by decide)⟩,
    (writeRun_isSome 0x0A .settings rfl 1 0 card.tables _ (by decide) (by decide) (by decide)).1 (by decide),
    by decide, by decide, by decide, by decide, by decide, by decide, by decide⟩

theorem witness_TableWriteTaken_rollStates :
    TakesTable leader .velocity ∧ TakesTable playing .keys ∧ TakesTable playing .format ∧ TakesTable playing (.map 0)
      ∧ TakesTable card (.map 1) ∧ TakesTable watching .settings :=
  ⟨trivial, trivial, by unfold TakesTable; decide, by unfold TakesTable; decide, by unfold TakesTable; decide,
    by decide, by decide, by intro p; cases p <;> decide⟩

/-- R155 and R156: SETTINGS that put an open deadline in the past make it a miss; one that falls now stays open. -/
theorem test_settings_write_passes_deadline :
    (after (.tableWrite 3 0x0A 0 1 narrow) { watching with deviceTime := 21001 }).counter .senseMiss = 1
      ∧ (after (.tableWrite 3 0x0A 0 1 narrow) { watching with deviceTime := 21000 }).counter .senseMiss = 0 := by decide

theorem witness_TableWriteRefusals :
    card.power = .running ∧ card.replyCount < 14 ∧ 10 < (11 : Byte).toNat ∧ tableOfByte 0x00 = some (.map 0)
      ∧ tableOfByte 0x04 = some .format ∧ tableOfByte 0x0A = some .settings
      ∧ ([] : List Byte).length ≠ runSize 0x07 0 1 ∧ ([] : List Byte).length = runSize 0x07 0 (0 : Byte).toNat
      ∧ TableName.velocity.indices.2 < (33 : Byte).toNat + (1 : Byte).toNat - 1
      ∧ TableName.velocity.runFits 0 1 = true ∧ leader.roll.rollState = .leader
      ∧ playing.roll.rollState = .playing ∧ playing.holes.activeSet = some 1
      ∧ ((withChannel 0 (fun c => { c with state := .release }) card).key 0).state ≠ .idle
      ∧ (card.tables.writeRun 0x07 .velocity 0 1 [0x17, 0x71]).isNone = true
      ∧ (card.tables.writeRun 0x07 .velocity 0 1 [0x17, 0x70]).any (fun w => !w.crossCheck .velocity 0 1) = true := by decide

/-- A velocity of 6000 is in its range and breaks the order of the map at its first entry; 6001 is out of its range; a set
number 4 and a nonzero unused parameter byte break the coding. -/
theorem witness_TableWriteRefusals_values :
    EntryRight .velocity 0 [0x17, 0x70] ∧ ¬EntryRight .velocity 0 [0x17, 0x71] ∧ ¬EntryRight .format 1 [4]
      ∧ EntryRight .format 1 [0xFF] ∧ ¬EntryRight (.map 0) 1 [0, 40, 5, 1, 1, 0, 0, 1]
      ∧ EntryRight (.map 0) 1 [0, 40, 5, 1, 1, 1, 88, 0]
      ∧ ∃ w, card.tables.writeRun 0x07 .velocity 0 1 [0x17, 0x70] = some w ∧ ¬CrossChecks w 0 1 .velocity := by
  have h := fun n i bs a b c => writeEntry_isSome card.tables n i bs a b c
  exact ⟨(h _ _ _ (by decide) (by decide) (by decide)).1 (by decide),
    (h _ _ _ (by decide) (by decide) (by decide)).not.1 (by decide),
    (h _ _ _ (by decide) (by decide) (by decide)).not.1 (by decide),
    (h _ _ _ (by decide) (by decide) (by decide)).1 (by decide),
    (h _ _ _ (by decide) (by decide) (by decide)).not.1 (by decide),
    (h _ _ _ (by decide) (by decide) (by decide)).1 (by decide),
    _, rfl, (Tables.crossCheck_iff _ .velocity 0 1).not.1 (by decide)⟩

theorem witness_StoreCommandsAndCompletions :
    card.power = .running ∧ card.replyCount < 14 ∧ (7 : Byte).toNat = (7 : Region).val ∧ card.store.op = none
      ∧ (card.region 7).lockdown = false ∧ card.store.lock = false ∧ card.setupLock = false
      ∧ (withFlags (fun x => { x with protectedFlag := false }) card |>.region 0).protectedFlag = false
      ∧ (saving 40000).store.op = some ⟨.save (.map defaultMap), 0, 5, 40000⟩ ∧ 40000 ≤ (saving 40000).deviceTime
      ∧ lockingDown.store.op = some ⟨.lockdown, 0, 5, 10000⟩ ∧ 10000 ≤ lockingDown.deviceTime := by decide

/-! Every invariant holds of a state that steps -/

theorem witness_RecordsStayBounded : (CountersBounded card ∧ ScanRecordsBounded card) ∧ step card = .next card.idle :=
  ⟨⟨by intro c; cases c <;> decide, by unfold ScanRecordsBounded; decide⟩, rfl⟩

theorem witness_ReturnQueueStaysShaped : ReturnQueueShaped card ∧ step card = .next card.idle :=
  ⟨by unfold ReturnQueueShaped; decide, rfl⟩

theorem witness_HeatAndSwellStayWithinLimits : AccountsBounded card ∧ step card = .next card.idle :=
  ⟨by unfold AccountsBounded; decide, rfl⟩

theorem witness_lists : ListsMatchStates card := by
  intro c
  cases c with
  | pedal p => cases p <;> decide
  | key k => revert k; decide

theorem witness_ListsStayMatchedToStates :
    (ListsMatchStates card ∧ WaitListOrdered card) ∧ step card = .next card.idle :=
  ⟨⟨witness_lists, List.Pairwise.nil, fun _ h => nomatch h⟩, rfl⟩

/-- A roll in PLAYING that steps. -/
theorem witness_RollRecordsStayInForm :
    (RollRecordsInForm playing ∧ ScanRecordsBounded playing) ∧ (RunsBounded playing ∧ MarginHolds playing)
      ∧ step playing = .next playing.idle ∧ playing.counter .eventOverflow < 65535 ∧ playing.roll.rollState = .playing
      ∧ playing.holes.activeSet = some 1 := by
  refine ⟨⟨by unfold RollRecordsInForm; decide, by unfold ScanRecordsBounded; decide⟩,
    ⟨by unfold RunsBounded; decide, ?_⟩, rfl, by decide, by decide, by decide⟩
  refine ⟨fun _ _ => by decide, fun _ => by decide, fun _ => ⟨by decide, by decide, ?_⟩⟩
  intro m i d r _ hd hr
  have : d = ⟨false, none⟩ := by
    have h := List.mem_of_getElem? hd
    exact List.eq_of_mem_replicate (show d ∈ List.replicate 128 ⟨false, none⟩ from h)
  subst this; cases hr

theorem witness_ChannelsStayInForm : ListsMatchStates card ∧ ChannelsInForm card ∧ step card = .next card.idle :=
  ⟨witness_lists, ⟨by decide, by intro p; cases p <;> decide⟩, rfl⟩

theorem witness_KickSlotsAreNeverExceeded : ListsMatchStates card ∧ SlotsBounded card ∧ step card = .next card.idle :=
  ⟨witness_lists, by unfold SlotsBounded; decide, rfl⟩

theorem witness_FaultedGroupsStayAtRest : ListsMatchStates card ∧ FaultedGroupsRest card ∧ step card = .next card.idle :=
  ⟨witness_lists, ⟨by decide, fun _ p => by cases p <;> decide⟩, rfl⟩

/-- The default tables, the erased map set among them, are in their ranges and pass their cross checks. -/
theorem defaults_consistent :
    imageConsistent (.map defaultMap) ∧ imageConsistent (.format defaultFormat)
      ∧ imageConsistent (.expression defaultBass defaultTreble defaultVelocity)
      ∧ imageConsistent (.keys defaultTables.keys) ∧ imageConsistent (.drive defaultTables.pedals defaultTables.settings) := by
  refine ⟨⟨by unfold MapRanges within; decide, (MapSet.crossCheck_iff _).1 (by decide)⟩,
    ⟨by unfold FormatRanges within; decide, (Format.crossCheck_iff _).1 (by decide)⟩,
    ⟨by unfold ExprRanges within; decide, by unfold ExprRanges within; decide, by unfold within; decide,
      (velocityRises_iff _).1 (by decide)⟩,
    fun k => ?_, ⟨by unfold PedalRanges within; decide, by unfold SettingsRanges within; decide, (leadsFit_iff _ _).1 (by decide)⟩⟩
  revert k
  unfold KeyRanges within
  decide

theorem witness_TablesKeepTheirChecks : (TablesConsistent card ∧ FloorsBounded card) ∧ step card = .next card.idle := by
  obtain ⟨hm, hf, he, hk, hd⟩ := defaults_consistent
  refine ⟨⟨⟨?_, ?_, ?_⟩, ?_, by decide, ?_, ?_⟩, rfl⟩
  · intro r; fin_cases r <;> first | exact hm | exact hf | exact he | exact hk | exact hd
  · intro r; fin_cases r <;> first | exact hm | exact hf | exact he | exact hk | exact hd
  · intro o copy h; exact nomatch (show (none : Option StoreOp) = some o from h)
  · unfold floorsFit; decide
  · intro r; fin_cases r <;> first | exact trivial | (show floorsFit _; unfold floorsFit; decide)
  · intro o copy h; exact nomatch (show (none : Option StoreOp) = some o from h)

theorem witness_LockdownIsForEver :
    let s := withFlags (fun x => { x with lockdown := true }) card
    LockdownRespected s ∧ (s.region 0).lockdown = true ∧ step s = .next s.idle := by
  refine ⟨?_, by decide, rfl⟩
  intro o h
  exact nomatch (show (none : Option StoreOp) = some o from h)

end Sys2Proof.Tests
end

section
/-! PROOFS. TEMPO in LEADER and in NO ROLL (R49), from the clamp of a tempo and the judgement of TEMPO by roll state. -/

namespace Sys2Proof.Machine

/-! The clamp of a tempo -/

/-- The clamp is the bound from both sides (R42, R48). -/
theorem clampTempo_eq_max_min (t : Nat) : clampTempo t = max 10 (min 300 t) := by
  unfold clampTempo
  split
  case isTrue hlow => omega
  case isFalse hlow => split <;> omega

/-- A tempo is left as it is exactly where it lies in 10 to 300. -/
theorem clampTempo_eq_self_iff (t : Nat) : clampTempo t = t ↔ ¬(t < 10 ∨ 300 < t) := by
  rw [clampTempo_eq_max_min]
  omega

/-! The judgement of TEMPO by roll state -/

/-- In NO ROLL a TEMPO is refused with STATE, whatever its operands (R49). -/
theorem judgeTempo_noRoll {s : State} (h : s.roll.rollState = .noRoll) (line : Tag) (tempo : BitVec 16) :
    judgeTempo line tempo s = refuse .state := by
  unfold judgeTempo
  rw [h]

/-- In LEADER a TEMPO is taken, whatever its line: CLAMPED outside 10 to 300, and both tempo records follow (R49). -/
theorem judgeTempo_leader {s : State} (h : s.roll.rollState = .leader) (line : Tag) (tempo : BitVec 16) :
    judgeTempo line tempo s
      = accept (if tempo.toNat < 10 ∨ 300 < tempo.toNat then .clamped else .done) fun t =>
          { t with roll := { t.roll with
              startTempo := max 10 (min 300 tempo.toNat), tempo := max 10 (min 300 tempo.toNat) } } := by
  unfold judgeTempo judgeTempoLeader
  simp only [h, clampTempo_eq_self_iff, ite_not]
  simp only [clampTempo_eq_max_min]

/-- Settles O17: the frame leaves the roll state, so the judgement of that state is the one TEMPO meets, and
`control_accept` and `control_refuse` give the effect of a judgement. -/
theorem tempoInLeaderAndNoRoll : Obligations.TempoInLeaderAndNoRoll := by
  intro s tag line tempo hpower hreplies
  have hframe : s.validFrame.roll.rollState = s.roll.rollState := rfl
  rw [exec_tempo hpower]
  constructor
  · intro hleader
    rw [control_accept s tag _ _ _ _ hreplies (judgeTempo_leader (hframe.trans hleader) line tempo)]
  · intro hnoRoll
    rw [control_refuse s tag _ _ _ hreplies (judgeTempo_noRoll (hframe.trans hnoRoll) line tempo)]

end Sys2Proof.Machine
end

section
/-! PROOFS. The Expression Unit (R68 to R75): the events of a line on a record, the computation of a record, and the
frame of line planning that leaves both computed records standing. -/

namespace Sys2Proof.Machine

open Sys2Proof.Safety

/-! The events of a line on a record (R68) -/

theorem roleState_setRole (r : ExprRecord) (role role' : Role) (isOpen : Bool) :
    roleState (r.setRole role isOpen) role' = if role = role' then isOpen else roleState r role' := by
  cases role <;> cases role' <;> rfl

/-- A function state set leaves the computed fields as they are. -/
theorem setRole_computed (r : ExprRecord) (role : Role) (isOpen : Bool) :
    (r.setRole role isOpen).base = r.base ∧ (r.setRole role isOpen).swell = r.swell
      ∧ (r.setRole role isOpen).intensity = r.intensity ∧ (r.setRole role isOpen).lastAccent = r.lastAccent := by
  cases role <;> exact ⟨rfl, rfl, rfl, rfl⟩

theorem applyEvents_concat (r : ExprRecord) (h : Half) (es : List HoleEvent) (e : HoleEvent) :
    r.applyEvents h (es ++ [e]) = (r.applyEvents h es).applyEvents h [e] :=
  List.foldl_append

/-- One event sets the role it names in this half, or does nothing to this half's record. -/
theorem applyEvents_singleton_cases (r : ExprRecord) (h : Half) (e : HoleEvent) :
    (∃ role, e.function = .expr h role ∧ r.applyEvents h [e] = r.setRole role (e.kind == .opens))
    ∨ ((∀ role, e.function ≠ .expr h role) ∧ r.applyEvents h [e] = r) := by
  cases hf : e.function with
  | expr h' role =>
    by_cases hh : h' = h
    · subst hh
      exact .inl ⟨role, rfl, by simp [ExprRecord.applyEvents, hf]⟩
    · exact .inr ⟨by simp [hh], by simp [ExprRecord.applyEvents, hf, hh]⟩
  | _ => exact .inr ⟨nofun, by simp [ExprRecord.applyEvents, hf]⟩

theorem applyEvents_computed (r : ExprRecord) (h : Half) (es : List HoleEvent) :
    (r.applyEvents h es).base = r.base ∧ (r.applyEvents h es).swell = r.swell
      ∧ (r.applyEvents h es).intensity = r.intensity ∧ (r.applyEvents h es).lastAccent = r.lastAccent := by
  induction es using List.reverseRecOn with
  | nil => exact ⟨rfl, rfl, rfl, rfl⟩
  | append_singleton es e ih =>
    rw [applyEvents_concat]
    rcases applyEvents_singleton_cases (r.applyEvents h es) h e with ⟨role, -, heq⟩ | ⟨-, heq⟩ <;> rw [heq]
    · simpa only [setRole_computed] using ih
    · exact ih

/-- The last event decides the role it names; every other role is as the events before it left it. -/
theorem roleState_applyEvents_concat (r : ExprRecord) (h : Half) (es : List HoleEvent) (e : HoleEvent) (role : Role) :
    roleState (r.applyEvents h (es ++ [e])) role
      = if e.function = .expr h role then decide (e.kind = .opens) else roleState (r.applyEvents h es) role := by
  rw [applyEvents_concat]
  rcases applyEvents_singleton_cases (r.applyEvents h es) h e with ⟨named, hf, heq⟩ | ⟨hf, heq⟩
  · simp [heq, roleState_setRole, hf, beq_eq_decide]
  · rw [heq, if_neg (hf role)]

theorem roleState_applyEvents_of_unnamed {r : ExprRecord} {h : Half} {role : Role} {es : List HoleEvent}
    (hes : ∀ e ∈ es, e.function ≠ .expr h role) : roleState (r.applyEvents h es) role = roleState r role := by
  induction es using List.reverseRecOn with
  | nil => rfl
  | append_singleton es e ih =>
    rw [roleState_applyEvents_concat, if_neg (hes e (by simp))]
    exact ih fun x hx => hes x (List.mem_append_left _ hx)

theorem roleState_applyEvents_of_named {r : ExprRecord} {h : Half} {role : Role} {es : List HoleEvent} {kind : EventKind}
    (hes : ∃ e ∈ es, e.function = .expr h role) (hkind : ∀ e ∈ es, e.function = .expr h role → e.kind = kind) :
    roleState (r.applyEvents h es) role = decide (kind = .opens) := by
  induction es using List.reverseRecOn with
  | nil => simp at hes
  | append_singleton es e ih =>
    rw [roleState_applyEvents_concat]
    split
    case isTrue hlast => rw [hkind e (by simp) hlast]
    case isFalse hlast =>
      obtain ⟨x, hx, hf⟩ := hes
      have hx' : x ∈ es := by
        rcases List.mem_append.mp hx with hx | hx
        · exact hx
        · exact absurd (List.mem_singleton.mp hx ▸ hf) hlast
      exact ih ⟨x, hx', hf⟩ fun y hy => hkind y (List.mem_append_left _ hy)

/-! The computation of a record (R69 to R75) -/

theorem step_val (r : ExprRecord) :
    r.step.val = (if r.step1 then 1 else 0) + 2 * (if r.step2 then 1 else 0) + 4 * (if r.step4 then 1 else 0) := by
  unfold ExprRecord.step
  cases r.step1 <;> cases r.step2 <;> cases r.step4 <;> rfl

/-- The swell in whole numbers: the motion of the rule in force, clamped from both sides (R71). -/
theorem nextSwell_eq_clamp (p : ExprProfile) (period : Nat) (r : ExprRecord) :
    (nextSwell p period r : Int)
      = max 0 (min ((p.swellMax : Int) * 256)
          (if r.fast then r.swell + lineIncrement p.rateFast period
            else if r.cresc then r.swell + lineIncrement p.rateSlow period
            else r.swell - lineIncrement p.rateDecay period)) := by
  unfold nextSwell
  split
  case isTrue hfast => omega
  case isFalse hfast => split <;> omega

theorem slew_eq_target {inc target i : Nat} (h : ((target : Int) - i).natAbs ≤ inc) : slew inc target i = target := by
  unfold slew
  split
  case isTrue hup => rw [if_pos (by omega)]
  case isFalse hdown => rw [if_pos (by omega)]

theorem slew_up {inc target i : Nat} (h : inc < ((target : Int) - i).natAbs) (hup : i < target) :
    slew inc target i = i + inc := by
  rw [slew, if_pos hup.le, if_neg (by omega)]

theorem slew_down {inc target i : Nat} (h : inc < ((target : Int) - i).natAbs) (hdown : target < i) :
    slew inc target i + inc = i := by
  rw [slew, if_neg hdown.not_ge, if_neg (by omega)]
  omega

/-- The slew never passes the larger of the target and the place it starts from (R73). -/
theorem slew_le_max (inc target i : Nat) : slew inc target i ≤ max target i := by
  unfold slew
  split
  case isTrue hup => split <;> omega
  case isFalse hdown => split <;> omega

theorem accentedOn_iff (r : ExprRecord) (p : ExprProfile) (n : Nat) :
    r.accentedOn p n = true ↔ ∃ a, r.lastAccent = some a ∧ (n : Int) - p.accentReach ≤ a := by
  unfold ExprRecord.accentedOn
  cases r.lastAccent with
  | none => simp
  | some a =>
    simp only [decide_eq_true_eq, Option.some.injEq, exists_eq_left']
    omega

/-- The target of a computed line (R72). -/
def ExprRecord.target (q : ExprRecord) : Nat := min (q.base * 256 + q.swell) (1023 * 256)

section Compute

variable (r : ExprRecord) (p : ExprProfile) (period n : Nat)

@[simp] theorem compute_base : (r.compute p period n).base = p.stepTable[r.step.val] := rfl

@[simp] theorem compute_swell : (r.compute p period n).swell = nextSwell p period r := rfl

theorem compute_intensity_sfz (h : r.sfz = true) :
    (r.compute p period n).intensity = (r.compute p period n).target :=
  if_pos h

theorem compute_intensity_slew (h : r.sfz = false) :
    (r.compute p period n).intensity
      = slew (lineIncrement p.slewRate period) (r.compute p period n).target r.intensity :=
  if_neg (by simp [h])

theorem compute_lastAccent_accent (h : r.accent = true) : (r.compute p period n).lastAccent = some n :=
  if_pos h

theorem compute_lastAccent_noAccent (h : r.accent = false) : (r.compute p period n).lastAccent = r.lastAccent :=
  if_neg (by simp [h])

/-- The intensity stays within the scale, since the target does (R72, R73). -/
theorem compute_intensity_le (h : r.intensity ≤ 1023 * 256) : (r.compute p period n).intensity ≤ 1023 * 256 := by
  have htarget : (r.compute p period n).target ≤ 1023 * 256 := Nat.min_le_right ..
  cases hsfz : r.sfz with
  | true => rwa [compute_intensity_sfz r p period n hsfz]
  | false =>
    rw [compute_intensity_slew r p period n hsfz]
    exact (slew_le_max ..).trans (max_le htarget h)

theorem roleState_compute (role : Role) : roleState (r.compute p period n) role = roleState r role := by
  cases role <;> rfl

end Compute

/-! What the planning of a line moves after the expression records -/

/-- Only the link, the counters, the Event Queue's and the roll's records, the Pedal Unit, the channels and their two
lists differ: what planning a line moves beside the expression records (R50, R58). -/
def OnlyPlanned (s t : State) : Prop :=
  t = { s with
    link := t.link, counters := t.counters, holes := t.holes, roll := t.roll, pedalUnit := t.pedalUnit
    keys := t.keys, pedals := t.pedals, fireList := t.fireList, waitList := t.waitList }

section Frame

variable {s t u : State}

theorem OnlyPlanned.refl (s : State) : OnlyPlanned s s := rfl

theorem OnlyPlanned.trans (h : OnlyPlanned s t) (h' : OnlyPlanned t u) : OnlyPlanned s u := by
  unfold OnlyPlanned at *; rw [h', h]

theorem OnlyPlanned.ite {c : Prop} [Decidable c] (h : OnlyPlanned s t) (h' : OnlyPlanned s u) :
    OnlyPlanned s (if c then t else u) := by split <;> assumption

theorem OnlyPlanned.foldl {α : Type} {f : State → α → State} (h : ∀ s a, OnlyPlanned s (f s a)) (as : List α)
    (s : State) : OnlyPlanned s (as.foldl f s) := by
  induction as generalizing s with
  | nil => exact OnlyPlanned.refl s
  | cons a as ih => exact (h s a).trans (ih (f s a))

theorem OnlyPlanned.exprBass (h : OnlyPlanned s t) : t.exprBass = s.exprBass := by rw [h]

theorem OnlyPlanned.exprTreble (h : OnlyPlanned s t) : t.exprTreble = s.exprTreble := by rw [h]

theorem OnlyChannels.onlyPlanned (h : OnlyChannels s t) : OnlyPlanned s t := by
  unfold OnlyChannels at h; unfold OnlyPlanned; rw [h]

theorem OnlyPedalUnit.onlyPlanned (h : OnlyPedalUnit s t) : OnlyPlanned s t := by
  unfold OnlyPedalUnit OnlyChannels at h; unfold OnlyPlanned; rw [h]

theorem OnlyLink.onlyPlanned (h : OnlyLink s t) : OnlyPlanned s t := by
  unfold OnlyLink at h; unfold OnlyPlanned; rw [h]

end Frame

/-! The advance of the plan line, and ENDING -/

theorem onlyPlanned_changeHolds (s : State) (op st : Bool) : OnlyPlanned s (s.changeHolds op st) := by
  rw [changeHolds_eq]; rfl

theorem onlyPlanned_setHolds (s : State) (op st : Bool) : OnlyPlanned s (s.setHolds op st) := by
  rcases setHolds_cases s op st with ⟨-, -, heq⟩ | ⟨-, heq⟩ <;> rw [heq]
  · exact OnlyPlanned.refl s
  · exact (onlyPlanned_changeHolds s op st).trans (onlyLink_queueState _).onlyPlanned

theorem onlyPlanned_checkEpisode (s : State) : OnlyPlanned s s.checkEpisode := by
  have hroll (r : Timeline) : OnlyPlanned s { s with roll := r } := rfl
  rcases checkEpisode_cases s with heq | ⟨-, -, heq⟩ <;> rw [heq]
  · exact OnlyPlanned.refl s
  · exact (hroll _).trans (onlyPlanned_setHolds _ _ _)

theorem onlyPlanned_advancePlan (s : State) (n : Nat) : OnlyPlanned s (s.advancePlan n) := by
  have hepisode (r : Timeline) : OnlyPlanned s (State.checkEpisode { s with roll := r }) :=
    OnlyPlanned.trans (t := { s with roll := r }) rfl (onlyPlanned_checkEpisode _)
  exact OnlyPlanned.ite ((hepisode _).trans (onlyLink_queueWindow _ _).onlyPlanned) (hepisode _)

theorem onlyPedalUnit_closeKey (s : State) (k : Key) (n : Nat) : OnlyPedalUnit s (s.closeKey k n) := by
  have hclose {c : Prop} [Decidable c] (q : KeyChannel) (r : PedalUnit) :
      OnlyPedalUnit s (if c then { s.withKey k q with pedalUnit := r } else s.withKey k q) := OnlyPedalUnit.ite rfl rfl
  exact OnlyPedalUnit.ite ((hclose _ _).trans (onlyChannels_checkRelease _ k).onlyPedalUnit) (hclose _ _)

/-- The close of the roll moves channels, their lists, counters and the Pedal Unit only (R58, R102, R145). -/
theorem onlyPedalUnit_closeChannels (s : State) (n : Nat) :
    OnlyPedalUnit s (allPedals.foldl (fun q p => if q.pedalUnit.planned.get p then q.planLift p n else q)
      (allKeys.foldl (fun q k => q.closeKey k n) s)) :=
  (OnlyPedalUnit.foldl (fun q k => onlyPedalUnit_closeKey q k n) _ s).trans
    (OnlyPedalUnit.foldl (fun q p => OnlyPedalUnit.ite (onlyPedalUnit_planLift q p n) (OnlyPedalUnit.refl q)) _ _)

theorem onlyPlanned_enterEnding (s : State) (n : Nat) : OnlyPlanned s (s.enterEnding n) := by
  have hending (t : State) (h : HoleRecognizer) (r : Timeline) :
      OnlyPlanned t (State.queueState { t with holes := h, roll := r }) := rfl
  unfold State.enterEnding
  exact ((onlyPlanned_changeHolds s _ _).trans (hending _ _ _)).trans (onlyPedalUnit_closeChannels _ n).onlyPlanned

/-- The units that take a line after its expression is computed, and the advance of the plan line (R67). -/
theorem onlyPlanned_units (s : State) (n : Nat) (es : List HoleEvent) :
    OnlyPlanned s (((s.planPedals n es).planKeys n es).advancePlan n) :=
  ((onlyPedalUnit_planPedals s n es).onlyPlanned.trans (onlyChannels_planKeys _ n es).onlyPlanned).trans
    (onlyPlanned_advancePlan _ n)

/-- Once both records are computed, nothing that planning the line still does moves them (R67). -/
theorem onlyPlanned_planNext (s : State) : OnlyPlanned (s.planExpression s.nextLine s.nextEvents) s.planNext := by
  have hunits (h : HoleRecognizer) := OnlyPlanned.trans
    (s := s.planExpression s.nextLine s.nextEvents)
    (t := State.planExpression { s with holes := h } s.nextLine s.nextEvents)
    rfl (onlyPlanned_units _ s.nextLine s.nextEvents)
  exact OnlyPlanned.ite ((hunits _).trans (onlyPlanned_enterEnding _ _)) (hunits _)

/-! The obligations -/

/-- Settles O30: the computation by `slew_eq_target`, `slew_up` and `slew_down`, the events by their last one, and
PLAN_LINE by the frame that planning keeps after both records are computed. -/
theorem intensityRule : Obligations.IntensityRule := by
  refine ⟨fun r p period n => ?_, fun r h es => ?_, fun s t hpower hdue hexec => ?_⟩
  · refine ⟨compute_base r p period n, step_val r, compute_intensity_sfz r p period n, fun hsfz hnear => ?_, fun hsfz hfar => ?_,
      compute_intensity_le r p period n, compute_lastAccent_accent r p period n, compute_lastAccent_noAccent r p period n,
      accentedOn_iff _ p n, roleState_compute r p period n⟩
    · rw [compute_intensity_slew r p period n hsfz]
      exact slew_eq_target hnear
    · rw [compute_intensity_slew r p period n hsfz]
      exact ⟨slew_up hfar, slew_down hfar⟩
  · obtain ⟨hbase, hswell, hintensity, haccent⟩ := applyEvents_computed r h es
    exact ⟨hbase, hswell, hintensity, haccent, fun role => ⟨roleState_applyEvents_of_unnamed,
      fun _ => roleState_applyEvents_of_named, fun e => roleState_applyEvents_concat r h es e role⟩⟩
  · obtain rfl : s.planNext = t := by simpa [exec_planLine hpower hdue] using hexec
    exact ⟨(onlyPlanned_planNext s).exprBass, (onlyPlanned_planNext s).exprTreble⟩

/-- Settles O29: the computed swell is `nextSwell`, which is the rule's motion clamped. -/
theorem swellRule : Obligations.SwellRule := fun r p period n => by
  rw [compute_swell]
  exact nextSwell_eq_clamp p period r

end Sys2Proof.Machine
end

section
/-! PROOFS. The mapped velocity (R85): straight-line interpolation between two entries, and the map's segments. -/

namespace Sys2Proof.Machine

open Sys2Proof.Safety

/-! Interpolation between two entries, in 32 steps rounded half up -/

/-- The value `f` 32nds of the way from one entry to the next, rounded half up (R85). -/
def interpolate (lo hi f : Nat) : Nat := lo + ((hi - lo) * f + 16) / 32

/-- At f = 0 only the rounding's half is left, and it is lost in the division. -/
@[simp] theorem interpolate_zero (lo hi : Nat) : interpolate lo hi 0 = lo := by
  simp [interpolate]

theorem le_interpolate (lo hi f : Nat) : lo ≤ interpolate lo hi f :=
  Nat.le_add_right ..

/-- Rounding half up does not carry the result past the upper entry: a part of the step is at most the whole of it. -/
theorem interpolate_le {lo hi f : Nat} (hlohi : lo ≤ hi) (hf : f ≤ 32) : interpolate lo hi f ≤ hi := by
  have hpart : (hi - lo) * f ≤ (hi - lo) * 32 := Nat.mul_le_mul_left _ hf
  unfold interpolate
  omega

theorem interpolate_mono (lo hi : Nat) {f g : Nat} (hfg : f ≤ g) : interpolate lo hi f ≤ interpolate lo hi g := by
  unfold interpolate
  gcongr

/-! The segments of the velocity map -/

/-- The segment of the velocity map a note level falls in, by the number of its lower entry (R85). -/
def velocitySegment (level : Nat) : Fin 32 := ⟨level / 32 % 32, Nat.mod_lt _ (by decide)⟩

theorem velocitySegment_mono {a b : Nat} (hab : a ≤ b) (hb : b ≤ 1023) : velocitySegment a ≤ velocitySegment b := by
  simp only [velocitySegment, Fin.mk_le_mk]
  omega

/-- Within one segment the higher level lies further along it. -/
theorem mod_le_of_velocitySegment_eq {a b : Nat} (hab : a ≤ b) (hb : b ≤ 1023)
    (hseg : velocitySegment a = velocitySegment b) :
    a % 32 ≤ b % 32 := by
  simp only [velocitySegment, Fin.mk.injEq] at hseg
  omega

/-- A level up to 1023 is interpolated between the two entries of its segment. -/
theorem mappedVelocity_eq_interpolate (v : Vector Nat 33) {level : Nat} (h : level ≤ 1023) :
    mappedVelocity v level
      = interpolate (v[(velocitySegment level).val]'(by omega)) (v[(velocitySegment level).val + 1]'(by omega))
          (level % 32) := by
  have hidx : min 31 (level / 32) = level / 32 % 32 := by omega
  have hrest : level - 32 * (level / 32 % 32) = level % 32 := by omega
  simp only [mappedVelocity, interpolate, velocitySegment, hidx, hrest]

/-- Neighbours that never fall make the whole map nondecreasing. -/
theorem velocityChecks_monotone {v : Vector Nat 33} (hv : VelocityChecks v) : Monotone fun j : Fin 33 => v[j.val] :=
  Fin.monotone_iff_le_succ.mpr hv

/-! The mapped velocity and the entries it stands between -/

theorem lower_le_mappedVelocity (v : Vector Nat 33) {level : Nat} (h : level ≤ 1023) :
    v[(velocitySegment level).val]'(by omega) ≤ mappedVelocity v level := by
  rw [mappedVelocity_eq_interpolate v h]
  exact le_interpolate ..

theorem mappedVelocity_le_upper {v : Vector Nat 33} (hv : VelocityChecks v) {level : Nat} (h : level ≤ 1023) :
    mappedVelocity v level ≤ v[(velocitySegment level).val + 1]'(by omega) := by
  rw [mappedVelocity_eq_interpolate v h]
  exact interpolate_le (hv (velocitySegment level)) (Nat.mod_lt _ (by decide)).le

/-- At f = 0 the level stands on the lower entry itself. -/
theorem mappedVelocity_eq_lower (v : Vector Nat 33) {level : Nat} (h : level ≤ 1023) (hf : level % 32 = 0) :
    mappedVelocity v level = v[(velocitySegment level).val]'(by omega) := by
  rw [mappedVelocity_eq_interpolate v h, hf, interpolate_zero]

/-- A higher level never maps to a lower velocity: within a segment by the interpolation, and from one segment to a
later one because an entry at or between the two separates them. -/
theorem mappedVelocity_mono {v : Vector Nat 33} (hv : VelocityChecks v) {a b : Nat} (hab : a ≤ b) (hb : b ≤ 1023) :
    mappedVelocity v a ≤ mappedVelocity v b := by
  have ha : a ≤ 1023 := hab.trans hb
  rcases (velocitySegment_mono hab hb).eq_or_lt with hsame | hlater
  · rw [mappedVelocity_eq_interpolate v ha, mappedVelocity_eq_interpolate v hb]
    simp only [hsame]
    exact interpolate_mono _ _ (mod_le_of_velocitySegment_eq hab hb hsame)
  · calc mappedVelocity v a
        ≤ v[(velocitySegment a).val + 1]'(by omega) := mappedVelocity_le_upper hv ha
      _ ≤ v[(velocitySegment b).val]'(by omega) :=
          velocityChecks_monotone hv (a := (velocitySegment a).succ) (b := (velocitySegment b).castSucc) hlater
      _ ≤ mappedVelocity v b := lower_le_mappedVelocity v hb

/-- Settles O31: the interpolation's equation, its bounds by the segment's two entries, and `mappedVelocity_mono`. -/
theorem mappedVelocityNeverFalls : Obligations.MappedVelocityNeverFalls := by
  intro v a b hv hab hb i
  have hupper := mappedVelocity_le_upper hv hb
  exact ⟨mappedVelocity_mono hv hab hb, lower_le_mappedVelocity v hb, hupper,
    fun hmax => hupper.trans (hmax i.succ), mappedVelocity_eq_lower v hb, mappedVelocity_eq_interpolate v hb⟩

end Sys2Proof.Machine
end

section
/-! PROOFS. What one step of the card can do, said once: the effects of the commands, of the commands a CONTROL frame
carries, and of the idle card. Every invariant is a case analysis over these. -/

namespace Sys2Proof.Machine

open Sys2Proof.Safety

/-- What a CONTROL frame that is answered does after its reply is queued: u is the state with the frame counted as valid
and the reply in the queue (R166 to R168). -/
inductive Answered (u : State) : State → Prop
  | nothing : Answered u u
  | rollStart (line tempo : Nat) (m : MapMode) (h : u.roll.rollState = .noRoll) :
      Answered u (u.startRoll line (clampTempo tempo) m)
  | rollStop (h : u.rollActive = true) : Answered u u.stopRoll
  | pause (h : u.clocked = true) : Answered u (u.setHolds true u.roll.starved)
  | resume (h : u.roll.operator = true) : Answered u (u.setHolds false u.roll.starved)
  | tempoLeader (tempo : Nat) (h : u.roll.rollState = .leader) :
      Answered u { u with roll := { u.roll with startTempo := clampTempo tempo, tempo := clampTempo tempo } }
  | tempoPlaying (e tempo now : Nat) (h : u.clocked = true) (he : u.roll.planLine < e ∨ e = u.nextLine)
      (hl : (u.schedule e tempo).length ≤ 8) :
      Answered u (State.checkEpisode { u with roll := { u.roll with schedule := u.schedule e tempo, tempo := now } })
  | tableWrite (table start count : Byte) (entries : List Byte) (n : TableName) (w : Tables)
      (ht : tableOfByte table = some n) (hlen : entries.length = runSize table start.toNat count.toNat)
      (hfits : n.runFits start.toNat count.toNat = true) (hbar : u.tableBar n = none)
      (hw : u.tables.writeRun table n start.toNat count.toNat entries = some w)
      (hc : w.crossCheck n start.toNat count.toNat = true) :
      Answered u (State.afterWrite { u with tables := w } n)
  | statusQuery : Answered u { u with link := { u.link with linkLost := false } }
  | countersRead : Answered u { u with counters := Vector.replicate 26 0 }
  | faultClear (mask : BitVec 16) : Answered u (u.clearFaults mask)
  | keyTest (k : Key) (velocity : Nat) (hroll : u.rollActive = false) (h : (u.key k).state = .idle) :
      Answered u (State.fireLast (u.withKey k { u.key k with
        current := some (testNote (u.record k) velocity), holdReleased := false }) k)
  | storeProtect (mask : Byte) (value : Bool) : Answered u (u.setProtected mask value)
  | storeLock (value : Bool) : Answered u (u.setLock value)

/-- What one step does, but for the queue of commands: the effect of a command, or what the idle card does (entry 2). -/
inductive Effect (s : State) : State → Prop
  | same : Effect s s
  | powerOn : Effect s (s.bringUp 0 1000)
  | resetReleased : Effect s (s.bringUp s.deviceTime s.nextCool)
  | resetAsserted : Effect s s.assertReset
  | powerFail : Effect s
      { State.powered 0 1000 s.freeIndex s.setupLock s.faultLines defaultTables s.store.loseOp s.pending with power := .off }
  | headerError : Effect s (State.bump { s with link := s.link.rehunt } .headerError)
  | payloadError : Effect s (State.bump { s with link := { s.link with receiver := .hunting none } } .payloadError)
  | frameCounted (c : Counter) : Effect s (s.validFrame.bump c)
  | arrived (n : Nat) (px : List Nat) (h : s.roll.rollState ≠ .noRoll) (hnew : s.front.newest < n)
      (htop : (n : Int) ≤ s.windowTop) : Effect s (s.validFrame.arrive n px)
  | answered (tag : Tag) (code : Byte) (r : ResultCode) (data : List Byte) (h : s.replyCount < 14) {t : State}
      (ht : Answered (s.validFrame.queueReply tag code r data) t) : Effect s t
  | opStarted (kind : StoreOpKind) (r : Region) (tag : Tag) (time : Nat) (h : s.replyCount < 14) (hop : s.store.op = none)
      (hr : (s.region r).lockdown = false) (hk : ∀ copy, kind = .save copy → copy = s.tables.image r) :
      Effect s (s.validFrame.startOp kind r tag time)
  | linkReset (tag : Tag) : Effect s (s.linkReset tag)
  | leaderMax (hd : s.leaderMaxDue = true) :
      Effect s (State.enterPlaying { s with holes := { s.holes with code := 0 } } (s.front.newest + 1).toNat
        s.tables.format.defaultSet)
  | saveComplete (good : Bool) (o : StoreOp) (copy : RegionImage) (hd : s.saveDue = some (o, copy)) :
      Effect s (s.finishSave o copy good)
  | lockdownComplete (good : Bool) (o : StoreOp) (hd : s.lockdownOpDue = some o) : Effect s (s.finishLockdown o good)
  | returnSend : Effect s s.sendNext
  | linkAliveExpiry : Effect s { s with
      link := { s.link with linkLost := true, aliveStart := none }
      roll := if s.rollActive then { s.roll with abandonStart := some s.deviceTime } else s.roll }
  | abandon (hd : s.abandonDue = true) : Effect s (s.bump .abandoned).stopRoll
  | planLine (hd : s.planDue = true) : Effect s s.planNext
  | starveEpisodeStart (hd : s.episodeDue = true) :
      Effect s { s with roll := { s.roll with starveStart := some s.deviceTime } }
  | starveHold (hd : s.starveHoldDue = true) : Effect s ((s.bump .starveHold).setHolds s.roll.operator true)
  | limitRelease (k : Key) (h : (s.key k).state = .hold) : Effect s (s.limitRelease k)
  | limitMark (k : Key) (h : (s.key k).state = .kick) :
      Effect s (s.withKey k { s.key k with holdWatch := (s.key k).holdWatch.map HoldWatch.mark })
  | rollEnd (hd : s.rollEndDue = true) : Effect s (State.queueState { s.changeHolds false false with
      roll := s.roll.toNoRoll
      holes := s.holes.inactive
      pedalUnit := { s.pedalUnit with capture := [], window := none } })
  | keyFire (k : Key) (hd : s.keyFireDue k = true) : Effect s (State.fireKey { s with fireList := s.fireList.drop 1 } k)
  | kickEnd (k : Key) (h : (s.key k).state = .kick) : Effect s (s.endKick k).handOn
  | deferExpiry (k : Key) (h : (s.key k).state = .waiting) : Effect s (s.expireWait k)
  | released (k : Key) (h : (s.key k).state = .hold) : Effect s (s.enterRelease k)
  | gapEnd (k : Key) (h : (s.key k).state = .release) : Effect s (s.promote k)
  | pedalFire (p : Pedal) (hd : s.pedalFireDue p = true) :
      Effect s (State.firePedal { s with fireList := s.fireList.drop 1 } p)
  | pedalKickEnd (p : Pedal) (h : (s.pedal p).state = .kick) : Effect s (s.endPedalKick p).handOn
  | pedalLift (p : Pedal) (h : (s.pedal p).state = .hold) : Effect s (s.releasePedal p)
  | pedalReleaseEnd (p : Pedal) (h : (s.pedal p).state = .release) : Effect s (s.endPedalRelease p)
  | heatCooling : Effect s s.cool
  | faultLine (g : Group) (active : Bool) : Effect s (s.setFaultLine g active)
  | faultRaised (g : Group) : Effect s ((s.setFaultLine g true).raiseFault g)
  | senseEdge (k : Key) : Effect s (s.judgeEdge k)
  | senseDeadline (k : Key) : Effect s (s.reachDeadline k)
  | byteTaken (i : Nat) : Effect s { s.takeByte with freeIndex := i }
  | posted (queue : List Instr) (i : Nat) : Effect s { s with pending := queue, freeIndex := i }
  | advanced : Effect s s.advance
  | advancedInReset : Effect s s.advanceInReset

/-- What a valid frame does (R164 to R168, R175). -/
inductive FrameEffect (s : State) : State → Prop
  | counted (c : Counter) : FrameEffect s (s.validFrame.bump c)
  | arrived (n : Nat) (px : List Nat) (h : s.roll.rollState ≠ .noRoll) (hnew : s.front.newest < n)
      (htop : (n : Int) ≤ s.windowTop) : FrameEffect s (s.validFrame.arrive n px)
  | answered (tag : Tag) (code : Byte) (r : ResultCode) (data : List Byte) (h : s.replyCount < 14) {t : State}
      (ht : Answered (s.validFrame.queueReply tag code r data) t) : FrameEffect s t
  | opStarted (kind : StoreOpKind) (r : Region) (tag : Tag) (time : Nat) (h : s.replyCount < 14) (hop : s.store.op = none)
      (hr : (s.region r).lockdown = false) (hk : ∀ copy, kind = .save copy → copy = s.tables.image r) :
      FrameEffect s (s.validFrame.startOp kind r tag time)
  | linkReset (tag : Tag) : FrameEffect s (s.linkReset tag)

variable {s t : State}

theorem FrameEffect.effect (h : FrameEffect s t) : Effect s t := by
  cases h with
  | counted c => exact .frameCounted c
  | arrived n px h hnew htop => exact .arrived n px h hnew htop
  | answered tag code r data h ht => exact .answered tag code r data h ht
  | opStarted kind r tag time h hop hr hk => exact .opStarted kind r tag time h hop hr hk
  | linkReset tag => exact .linkReset tag

/-! CONTROL frames -/

/-- A CONTROL frame is counted as valid and discarded, or answered, given what its judgement can answer. -/
theorem FrameEffect.ofControl {tag : Tag} {code : Byte} {judge : State → Verdict}
    (h : ∀ r, (judge s.validFrame).result = some r →
      Answered (s.validFrame.queueReply tag code r (judge s.validFrame).data)
        ((judge s.validFrame).act (s.validFrame.queueReply tag code r (judge s.validFrame).data)))
    (hnone : (judge s.validFrame).result = none → s.replyCount < 14 → FrameEffect s ((judge s.validFrame).act s.validFrame)) :
    FrameEffect s (s.control tag code judge) := by
  rcases control_cases s tag code judge with ⟨-, e⟩ | ⟨hr, ⟨r, hres, e⟩ | ⟨hres, e⟩⟩ <;> rw [e]
  · exact .counted .replyOverflow
  · exact .answered tag code r _ hr (h r hres)
  · exact hnone hres hr

/-- A CONTROL frame whose judgement always answers. -/
theorem FrameEffect.ofAnswer {tag : Tag} {code : Byte} {judge : State → Verdict} {r : ResultCode} {act : State → State}
    (hj : judge s.validFrame = accept r act)
    (h : Answered (s.validFrame.queueReply tag code r []) (act (s.validFrame.queueReply tag code r []))) :
    FrameEffect s (s.control tag code judge) := by
  refine .ofControl (fun q hq => ?_) fun hnone _ => ?_
  · rw [hj] at hq ⊢; cases hq; exact h
  · rw [hj] at hnone; cases hnone

/-- A CONTROL frame whose judgement refuses. -/
theorem FrameEffect.ofRefusal {tag : Tag} {code : Byte} {judge : State → Verdict} {r : ResultCode}
    (hj : judge s.validFrame = refuse r) : FrameEffect s (s.control tag code judge) :=
  .ofAnswer (act := id) hj .nothing

theorem frameEffect_rollStart (tag line : Tag) (tempo : BitVec 16) (mode : Byte) :
    FrameEffect s (s.control tag 0x10#8 (judgeRollStart line tempo mode)) := by
  by_cases hactive : s.validFrame.rollActive = true
  · exact .ofRefusal (r := .state) (by simp only [judgeRollStart, if_pos hactive])
  · cases hmode : mapModeOfByte mode with
    | none => exact .ofRefusal (r := .range) (by simp only [judgeRollStart, if_neg hactive, hmode])
    | some m =>
      refine .ofAnswer (by simp only [judgeRollStart, if_neg hactive, hmode]; rfl) ?_
      exact .rollStart _ _ m (by simpa [State.rollActive] using hactive)

theorem frameEffect_tempo (tag line : Tag) (tempo : BitVec 16) :
    FrameEffect s (s.control tag 0x14#8 (judgeTempo line tempo)) := by
  have hplays (hc : s.validFrame.clocked = true)
      (hj : judgeTempo line tempo s.validFrame = judgeTempoPlaying line.toNat tempo.toNat s.validFrame) :
      FrameEffect s (s.control tag 0x14#8 (judgeTempo line tempo)) := by
    by_cases hlen : Config.segmentLimit < (s.validFrame.schedule
        (if (line.toNat : Int) ≤ s.validFrame.roll.planLine then s.validFrame.nextLine else line.toNat)
        (clampTempo tempo.toNat)).length
    · exact .ofRefusal (r := .busy) (hj.trans (by simp only [judgeTempoPlaying, if_pos hlen]))
    · refine .ofAnswer (hj.trans (by simp only [judgeTempoPlaying, if_neg hlen]; rfl)) ?_
      refine .tempoPlaying _ _ _ hc ?_ (Nat.le_of_not_lt hlen)
      split
      · exact .inr rfl
      · exact .inl (Int.lt_of_not_ge ‹_›)
  cases hroll : s.roll.rollState with
  | noRoll => exact .ofRefusal (judgeTempo_noRoll hroll line tempo)
  | leader =>
    refine .ofAnswer
      (by simp only [judgeTempo, judgeTempoLeader, show s.validFrame.roll.rollState = .leader from hroll]; rfl) ?_
    exact .tempoLeader tempo.toNat hroll
  | playing =>
    exact hplays (by simp [State.clocked, show s.validFrame.roll.rollState = .playing from hroll])
      (by simp only [judgeTempo, show s.validFrame.roll.rollState = .playing from hroll])
  | ending =>
    exact hplays (by simp [State.clocked, show s.validFrame.roll.rollState = .ending from hroll])
      (by simp only [judgeTempo, show s.validFrame.roll.rollState = .ending from hroll])

theorem frameEffect_tableWrite (tag : Tag) (table start count : Byte) (entries : List Byte) :
    FrameEffect s (s.control tag 0x20#8 (judgeTableWrite table start count entries)) := by
  cases ht : tableOfByte table with
  | none => exact .ofRefusal (r := .unknown) (by simp only [judgeTableWrite, ht])
  | some n =>
    by_cases hlen : entries.length ≠ runSize table start.toNat count.toNat
    · exact .ofRefusal (r := .unknown) (by simp only [judgeTableWrite, ht, if_pos hlen])
    by_cases hfits : (!n.runFits start.toNat count.toNat) = true
    · exact .ofRefusal (r := .range) (by simp only [judgeTableWrite, ht, if_neg hlen, if_pos hfits])
    cases hbar : s.validFrame.tableBar n with
    | some r => exact .ofRefusal (r := r) (by simp only [judgeTableWrite, ht, if_neg hlen, if_neg hfits, hbar])
    | none =>
      cases hw : s.validFrame.tables.writeRun table n start.toNat count.toNat entries with
      | none =>
        exact .ofRefusal (r := .range) (by simp only [judgeTableWrite, ht, if_neg hlen, if_neg hfits, hbar, hw])
      | some w =>
        by_cases hc : w.crossCheck n start.toNat count.toNat = true
        · refine .ofAnswer (by simp only [judgeTableWrite, ht, if_neg hlen, if_neg hfits, hbar, hw, if_pos hc]; rfl) ?_
          exact .tableWrite table start count entries n w ht (not_not.1 hlen) (by simpa using hfits) hbar hw hc
        · exact .ofRefusal (r := .range)
            (by simp only [judgeTableWrite, ht, if_neg hlen, if_neg hfits, hbar, hw, if_neg hc])

theorem frameEffect_tableRead (tag : Tag) (table start count : Byte) :
    FrameEffect s (s.control tag 0x21#8 (judgeTableRead table start count)) := by
  have hact : (judgeTableRead table start count s.validFrame).act = id
      ∧ (judgeTableRead table start count s.validFrame).result ≠ none := by
    unfold judgeTableRead
    split
    · exact ⟨rfl, nofun⟩
    · split
      · exact ⟨rfl, nofun⟩
      · exact ⟨rfl, nofun⟩
  refine .ofControl (fun r _ => ?_) fun hnone _ => absurd hnone hact.2
  rw [hact.1]
  exact .nothing

theorem frameEffect_faultClear (tag : Tag) (mask : BitVec 16) :
    FrameEffect s (s.control tag 0x32#8 (judgeFaultClear mask)) := by
  by_cases hm : 4096 ≤ mask.toNat
  · exact .ofRefusal (r := .range) (by simp only [judgeFaultClear, if_pos hm])
  · exact .ofAnswer (by simp only [judgeFaultClear, if_neg hm]; rfl) (.faultClear mask)

theorem frameEffect_keyTest (tag : Tag) (key : Byte) (velocity : BitVec 16) :
    FrameEffect s (s.control tag 0x33#8 (judgeKeyTest key velocity)) := by
  by_cases hactive : s.validFrame.rollActive = true
  · exact .ofRefusal (r := .state) (by simp only [judgeKeyTest, if_pos hactive])
  cases hk : keyOfNumber key.toNat with
  | none => exact .ofRefusal (r := .range) (by simp only [judgeKeyTest, if_neg hactive, hk])
  | some k =>
    by_cases hidle : (s.validFrame.key k).state ≠ .idle
    · exact .ofRefusal (r := .busy) (by simp only [judgeKeyTest, if_neg hactive, hk, if_pos hidle])
    · refine .ofAnswer (by simp only [judgeKeyTest, if_neg hactive, hk, if_neg hidle]; rfl) ?_
      exact .keyTest k velocity.toNat (by simpa using hactive) (not_not.1 hidle)

theorem frameEffect_storeSave (tag : Tag) (region : Byte) : FrameEffect s (s.control tag 0x40#8 (judgeStoreSave tag region)) := by
  cases hr : regionOfByte region with
  | none => exact .ofRefusal (r := .range) (by simp only [judgeStoreSave, hr])
  | some r =>
    by_cases hop : s.validFrame.store.op.isSome = true
    · exact .ofRefusal (r := .busy) (by simp only [judgeStoreSave, hr, if_pos hop])
    by_cases hlock : (s.validFrame.region r).lockdown = true
    · exact .ofRefusal (r := .lockedDown) (by simp only [judgeStoreSave, hr, if_neg hop, if_pos hlock])
    by_cases hprot : (s.validFrame.region r).protectedFlag = true
    · exact .ofRefusal (r := .isProtected) (by simp only [judgeStoreSave, hr, if_neg hop, if_neg hlock, if_pos hprot])
    have hj : judgeStoreSave tag region s.validFrame
        = ⟨none, [], fun t => t.startOp (.save (t.tables.image r)) r tag Config.saveTime⟩ := by
      simp only [judgeStoreSave, hr, if_neg hop, if_neg hlock, if_neg hprot]
    refine .ofControl (fun q hq => ?_) fun _ hcount => ?_
    · rw [hj] at hq; cases hq
    · rw [hj]
      refine .opStarted _ r tag _ hcount (by simpa using hop) ((Bool.not_eq_true _).mp hlock) fun copy hcopy => ?_
      cases hcopy; rfl

theorem frameEffect_storeLockdown (tag : Tag) (region confirm : Byte) :
    FrameEffect s (s.control tag 0x44#8 (judgeStoreLockdown tag region confirm)) := by
  cases hr : regionOfByte region with
  | none => exact .ofRefusal (r := .range) (by simp only [judgeStoreLockdown, hr])
  | some r =>
    by_cases hconf : confirm ≠ 0xA5#8
    · exact .ofRefusal (r := .range) (by simp only [judgeStoreLockdown, hr, if_pos hconf])
    by_cases hop : s.validFrame.store.op.isSome = true
    · exact .ofRefusal (r := .busy) (by simp only [judgeStoreLockdown, hr, if_neg hconf, if_pos hop])
    by_cases hlk : s.validFrame.store.lock = true
    · exact .ofRefusal (r := .locked) (by simp only [judgeStoreLockdown, hr, if_neg hconf, if_neg hop, if_pos hlk])
    by_cases hlock : (s.validFrame.region r).lockdown = true
    · exact .ofRefusal (r := .lockedDown)
        (by simp only [judgeStoreLockdown, hr, if_neg hconf, if_neg hop, if_neg hlk, if_pos hlock])
    have hj : judgeStoreLockdown tag region confirm s.validFrame
        = ⟨none, [], fun t => t.startOp .lockdown r tag Config.lockdownTime⟩ := by
      simp only [judgeStoreLockdown, hr, if_neg hconf, if_neg hop, if_neg hlk, if_neg hlock]
    refine .ofControl (fun q hq => ?_) fun _ hcount => ?_
    · rw [hj] at hq; cases hq
    · rw [hj]
      exact .opStarted _ r tag _ hcount (by simpa using hop) ((Bool.not_eq_true _).mp hlock) nofun

theorem frameEffect_storeLock (tag : Tag) (value : Byte) : FrameEffect s (s.control tag 0x43#8 (judgeStoreLock value)) := by
  by_cases h1 : value = 0x01#8
  · refine .ofAnswer (by simp only [judgeStoreLock, if_pos h1]; rfl) ?_
    exact .storeLock true
  by_cases h0 : value = 0x00#8
  · by_cases hpin : s.validFrame.setupLock = true
    · exact .ofRefusal (r := .locked) (by simp only [judgeStoreLock, if_neg h1, if_pos h0, if_pos hpin])
    · refine .ofAnswer (by simp only [judgeStoreLock, if_neg h1, if_pos h0, if_neg hpin]; rfl) ?_
      exact .storeLock false
  · exact .ofRefusal (r := .range) (by simp only [judgeStoreLock, if_neg h1, if_neg h0])

theorem frameEffect_protect (tag : Tag) (code mask : Byte) (value : Bool) :
    FrameEffect s (s.control tag code (judgeProtect mask value)) := by
  by_cases hlk : s.validFrame.store.lock = true
  · exact .ofRefusal (r := .locked) (by simp only [judgeProtect, if_pos hlk])
  · refine .ofAnswer (by simp only [judgeProtect, if_neg hlk]; rfl) ?_
    exact .storeProtect mask value

theorem frameEffect_rollStop (tag : Tag) : FrameEffect s (s.control tag 0x11#8 judgeRollStop) := by
  by_cases hactive : s.validFrame.rollActive = true
  · refine .ofAnswer (by simp only [judgeRollStop, if_pos hactive]; rfl) ?_
    exact .rollStop hactive
  · exact .ofRefusal (r := .state) (by simp only [judgeRollStop, if_neg hactive])

theorem frameEffect_pause (tag : Tag) : FrameEffect s (s.control tag 0x12#8 judgePause) := by
  by_cases hc : s.validFrame.clocked = true
  · refine .ofAnswer (by simp only [judgePause, if_pos hc]; rfl) ?_
    exact .pause hc
  · exact .ofRefusal (r := .state) (by simp only [judgePause, if_neg hc])

theorem frameEffect_resume (tag : Tag) : FrameEffect s (s.control tag 0x13#8 judgeResume) := by
  by_cases ho : s.validFrame.roll.operator = true
  · refine .ofAnswer (by simp only [judgeResume, if_pos ho]; rfl) ?_
    exact .resume ho
  · exact .ofRefusal (r := .state) (by simp only [judgeResume, if_neg ho])

theorem frameEffect_statusQuery (tag : Tag) : FrameEffect s (s.control tag 0x30#8 judgeStatusQuery) :=
  .ofControl (fun _ _ => .statusQuery) fun h => nomatch h

theorem frameEffect_countersRead (tag : Tag) : FrameEffect s (s.control tag 0x31#8 judgeCountersRead) :=
  .ofControl (fun _ _ => .countersRead) fun h => nomatch h

/-! SCAN frames -/

theorem frameEffect_scan (line : Tag) (payload : List Byte) : FrameEffect s (s.validFrame.scan line payload) := by
  unfold State.scan
  split
  · exact .counted _
  case isFalse hroll =>
    split
    · exact .counted _
    split
    · exact .counted _
    case isFalse hnew =>
      split
      · exact .counted _
      case isFalse htop =>
        exact .arrived _ _ hroll (Int.lt_of_not_ge hnew) (Int.le_of_not_gt htop)

/-! Every command, and every step -/

/-- A command behind the power gate has its effect or none. -/
theorem Effect.ofRunning {f : State → State} (h : whenRunning s f = .next t) (hf : s.power = .running → Effect s (f s)) :
    Effect s t := by
  rcases whenRunning_cases h with ⟨hp, rfl⟩ | ⟨-, rfl⟩
  · exact hf hp
  · exact .same

/-- An event of the card's own has its effect when it is due, and none otherwise. -/
theorem Effect.ofDue {due : State → Bool} {f : State → State} (h : whenDue s due f = .next t)
    (hf : due s = true → Effect s (f s)) : Effect s t := by
  rcases whenDue_cases h with ⟨-, hd, rfl⟩ | rfl
  · exact hf hd
  · exact .same

/-- The channel that a due event names is in the phase the event ends. -/
theorem state_of_due {a b : ChannelState} {c : Bool} (h : (a == b && c) = true) : a = b := by
  simp only [Bool.and_eq_true, beq_iff_eq] at h
  exact h.1

/-- A valid frame acts behind the power gate only, and has a frame's effect there. -/
theorem exec_frame (s : State) {c : Instr} (hc : isFrame c = true) :
    ∃ u, exec c s = .next (if s.power = .running then u else s) ∧ FrameEffect s u := by
  cases c with
  | scanFrame line payload => exact ⟨_, rfl, frameEffect_scan line payload⟩
  | unknownCommand tag payload => exact ⟨_, rfl, FrameEffect.ofRefusal rfl⟩
  | rollStart tag line tempo mode => exact ⟨_, rfl, frameEffect_rollStart ..⟩
  | rollStop tag => exact ⟨_, rfl, frameEffect_rollStop tag⟩
  | pause tag => exact ⟨_, rfl, frameEffect_pause tag⟩
  | resume tag => exact ⟨_, rfl, frameEffect_resume tag⟩
  | tempo tag line tempo => exact ⟨_, rfl, frameEffect_tempo ..⟩
  | tableWrite tag table start count entries => exact ⟨_, rfl, frameEffect_tableWrite ..⟩
  | tableRead tag table start count => exact ⟨_, rfl, frameEffect_tableRead ..⟩
  | statusQuery tag => exact ⟨_, rfl, frameEffect_statusQuery tag⟩
  | countersRead tag => exact ⟨_, rfl, frameEffect_countersRead tag⟩
  | faultClear tag mask => exact ⟨_, rfl, frameEffect_faultClear tag mask⟩
  | keyTest tag key velocity => exact ⟨_, rfl, frameEffect_keyTest ..⟩
  | storeSave tag region => exact ⟨_, rfl, frameEffect_storeSave tag region⟩
  | storeProtect tag mask => exact ⟨_, rfl, frameEffect_protect ..⟩
  | storeUnprotect tag mask => exact ⟨_, rfl, frameEffect_protect ..⟩
  | storeLock tag value => exact ⟨_, rfl, frameEffect_storeLock tag value⟩
  | storeLockdown tag region confirm => exact ⟨_, rfl, frameEffect_storeLockdown ..⟩
  | linkReset tag => exact ⟨_, rfl, .linkReset tag⟩
  | _ => cases hc

theorem effect_exec (c : Instr) (h : exec c s = .next t) : Effect s t := by
  by_cases hframe : isFrame c = true
  · obtain ⟨u, he, hu⟩ := exec_frame s hframe
    cases he.symm.trans h
    split
    · exact hu.effect
    · exact .same
  cases c with
    dsimp only [exec, execPowerOn, execResetLineAsserted, execResetLineReleased, execHeaderError,
      execPayloadError, execLeaderMaxExpiry, execStoreSaveComplete, execStoreLockdownComplete, execReturnSend,
      execLinkAliveExpiry, execAbandon, execPlanLine, execStarveEpisodeStart, execStarveHold,
      execHoldLimitExpiry, execRollEnd, execKeyFire, execKickEnd, execDeferExpiry, execHoldRelease,
      execTestRelease, execGapEnd, execPedalFire, execPedalKickEnd, execPedalLift, execPedalReleaseEnd,
      execHeatCooling, execFaultLineActive, execFaultLineInactive, execSenseEdge, execSenseDeadline,
      execPowerFail] at h
  | powerOn => cases h; exact .powerOn
  | resetLineAsserted =>
    cases h
    split
    · exact .same
    · exact .resetAsserted
  | resetLineReleased =>
    cases h
    split
    · exact .same
    · exact .resetReleased
  | powerFail => cases h; exact .powerFail
  | headerError => exact .ofRunning h fun _ => .headerError
  | payloadError => exact .ofRunning h fun _ => .payloadError
  | leaderMaxExpiry => exact .ofDue h .leaderMax
  | storeSaveComplete good =>
    refine .ofRunning h fun _ => ?_
    cases hd : s.saveDue with
    | none => exact .same
    | some o => exact .saveComplete good o.1 o.2 hd
  | storeLockdownComplete good =>
    refine .ofRunning h fun _ => ?_
    cases hd : s.lockdownOpDue with
    | none => exact .same
    | some o => exact .lockdownComplete good o hd
  | returnSend => exact .ofDue h fun _ => .returnSend
  | linkAliveExpiry => exact .ofDue h fun _ => .linkAliveExpiry
  | abandon => exact .ofDue h .abandon
  | planLine => exact .ofDue h .planLine
  | starveEpisodeStart => exact .ofDue h .starveEpisodeStart
  | starveHold => exact .ofDue h .starveHold
  | holdLimitExpiry k =>
    refine .ofDue h fun hd => ?_
    split
    · exact .limitRelease k ‹_›
    case isFalse hnot =>
      refine .limitMark k ?_
      simp only [State.holdLimitDue, Bool.and_eq_true, Bool.or_eq_true, beq_iff_eq] at hd
      exact hd.1.1.resolve_right hnot
  | rollEnd => exact .ofDue h .rollEnd
  | keyFire k => exact .ofDue h (.keyFire k)
  | kickEnd k => exact .ofDue h fun hd => .kickEnd k (state_of_due hd)
  | deferExpiry k =>
    refine .ofDue h fun hd => .deferExpiry k ?_
    simp only [State.deferDue, Bool.and_eq_true, beq_iff_eq] at hd
    exact hd.1.1
  | holdRelease k =>
    refine .ofDue h fun hd => .released k ?_
    simp only [State.releaseDue, Bool.and_eq_true, beq_iff_eq] at hd
    exact hd.1.1
  | testRelease k => exact .ofDue h fun hd => .released k (state_of_due hd)
  | gapEnd k => exact .ofDue h fun hd => .gapEnd k (state_of_due hd)
  | pedalFire p => exact .ofDue h (.pedalFire p)
  | pedalKickEnd p => exact .ofDue h fun hd => .pedalKickEnd p (state_of_due hd)
  | pedalLift p => exact .ofDue h fun hd => .pedalLift p (state_of_due hd)
  | pedalReleaseEnd p => exact .ofDue h fun hd => .pedalReleaseEnd p (state_of_due hd)
  | heatCooling => exact .ofDue h fun _ => .heatCooling
  | faultLineActive g =>
    cases h
    split
    · exact .same
    · split
      · exact .faultRaised g
      · exact .faultLine g true
  | faultLineInactive g => cases h; exact .faultLine g false
  | senseEdge k =>
    refine .ofRunning h fun _ => ?_
    split
    · exact .senseEdge k
    · exact .same
  | senseDeadline k => exact .ofDue h fun _ => .senseDeadline k
  | _ => exact absurd rfl hframe

/-- What can happen on an empty queue: a byte is taken or an event posted. -/
theorem idleChoices_cases {u : State} (h : u ∈ s.idleChoices) :
    u = s.takeByte ∨ ∃ i, u = s.post i := by
  have hposted {is : List Instr} (h : u ∈ is.map s.post) : ∃ i, u = s.post i := by
    obtain ⟨i, -, rfl⟩ := List.mem_map.1 h
    exact ⟨i, rfl⟩
  unfold State.idleChoices at h
  generalize s.nextEventChoices = es at h
  dsimp only at h
  split_ifs at h
  · exact .inr (hposted h)
  · exact .inr (hposted h)
  · exact .inr (hposted h)
  · rcases List.mem_append.1 h with h | h
    · exact .inl (List.mem_singleton.1 h)
    · exact .inr (hposted h)

theorem effect_idleChoice {u : State} (h : u ∈ s.idleChoices) (i : Nat) : Effect s { u with freeIndex := i } := by
  rcases idleChoices_cases h with rfl | ⟨c, rfl⟩
  · exact .byteTaken i
  · exact .posted [c] i

theorem effect_idle (s : State) : Effect s s.idle := by
  unfold State.idle
  split
  · exact .same
  · exact .advancedInReset
  · split
    · exact .advanced
    case h_2 u hc => exact effect_idleChoice (u := u) (by rw [hc]; simp) u.freeIndex
    case h_3 us hnil hone =>
      have hpos : 0 < s.idleChoices.length := List.length_pos_iff.2 hnil
      have hlt := Nat.mod_lt (Config.tieBreak s.freeIndex) hpos
      rw [List.getElem?_eq_getElem hlt]
      exact effect_idleChoice (List.getElem_mem hlt) _

/-- One step has one of the effects, on the state with what is left of the queue. -/
theorem step_effect (h : step s = .next t) : ∃ queue, Effect { s with pending := queue } t := by
  unfold step at h
  split at h
  case h_1 c rest hq => exact ⟨rest, effect_exec c h⟩
  case h_2 hq => cases h; exact ⟨s.pending, effect_idle s⟩

end Sys2Proof.Machine
end

section
/-! PROOFS. The invariants of the drive channels (R98, R119, R120, R129, and the form of each record) said channel by
channel, so that one traversal of the operations serves all of them. A channel that an operation has taken out of both
lists, and has not given its new phase yet, is `loose`: it has no entry in either. -/

namespace Sys2Proof.Machine

open Sys2Proof.Safety

variable {s t u : State}

/-! The words -/

/-- A channel's drive group (R128). -/
def Channel.group : Channel → Group
  | .pedal _ => pedalGroup
  | .key k => keyGroup k

/-- The entries a channel has in the Fire List. -/
def fireEntries (s : State) (c : Channel) : Nat := s.fireList.countP fun e => e.channel == c

/-- The entries a channel has in the Kick Wait List. -/
def waitEntries (s : State) (c : Channel) : Nat := s.waitList.countP fun e => e.channel == c

/-- A channel has no pending note or press. -/
def nothingPends (s : State) : Channel → Prop
  | .key k => (s.key k).pending = none
  | .pedal p => (s.pedal p).pending = none

/-- The timers and the drive of a key channel fit its state. -/
def KeyTimed (c : KeyChannel) : Prop :=
  (c.kickEnd.isSome = true ↔ c.state = .kick) ∧ (c.gapEnd.isSome = true ↔ c.state = .release)
    ∧ (c.state = .kick → c.duty = 255) ∧ (c.state ≠ .kick → c.state ≠ .hold → c.duty = 0)

/-- The drive of a pedal channel fits its state. -/
def PedalTimed (c : PedalChannel) : Prop :=
  (c.state = .kick → c.duty = 255) ∧ (c.state ≠ .kick → c.state ≠ .hold → c.duty = 0)

/-- A channel's timers and drive fit its state. -/
def channelTimed (s : State) : Channel → Prop
  | .key k => KeyTimed (s.key k)
  | .pedal p => PedalTimed (s.pedal p)

/-- A channel that is IDLE holds no note and no press. -/
def idleEmpty (s : State) : Channel → Prop
  | .key k => (s.key k).state = .idle →
      (s.key k).current = none ∧ (s.key k).pending = none ∧ (s.key k).target = .nothing
  | .pedal p => (s.pedal p).state = .idle → (s.pedal p).current = none ∧ (s.pedal p).pending = none

/-- A channel of a FAULTED group is at rest (R129). -/
def atRest (s : State) (c : Channel) : Prop :=
  channelState s c = .idle ∨ (channelState s c = .release ∧ nothingPends s c)

/-- Which of the invariants are being kept. `fed`: nobody waits while a slot is free. -/
structure Claims where
  order : Prop
  form : Prop
  slots : Prop
  fed : Prop
  rest : Prop

/-- The same claims without the one that nobody waits while a slot is free, which a freed slot suspends (R121). -/
def Claims.unfed (F : Claims) : Claims := { F with fed := False }

/-- What is kept of one channel, with the channels of a list loose. -/
structure ChannelKept (F : Claims) (L : List Channel) (s : State) (c : Channel) : Prop where
  fire : fireEntries s c = if c ∉ L ∧ channelState s c = .armed then 1 else 0
  wait : waitEntries s c = if c ∉ L ∧ channelState s c = .waiting then 1 else 0
  loose : c ∈ L → channelState s c ≠ .kick
  timed : F.form → channelTimed s c
  empty : F.form → c ∉ L → idleEmpty s c
  rest : F.rest → s.faulted c.group = true → c ∉ L → atRest s c

/-- What is kept of the whole card, with the channels of a list loose. -/
structure Kept (F : Claims) (L : List Channel) (s : State) : Prop where
  each : ∀ c, ChannelKept F L s c
  order : F.order → WaitListOrdered s
  slots : F.slots → s.kickCount ≤ s.tables.settings.kickSlots
  fed : F.fed → s.kickCount < s.tables.settings.kickSlots → s.waitList = []

variable {F : Claims} {L L' : List Channel} {c : Channel}

theorem Kept.unfed (h : Kept F L s) : Kept F.unfed L s :=
  ⟨fun c => ⟨(h.each c).fire, (h.each c).wait, (h.each c).loose, (h.each c).timed, (h.each c).empty, (h.each c).rest⟩,
    h.order, h.slots, False.elim⟩

/-- Once nobody waits beside a free slot the suspended claim holds again. -/
theorem Kept.refed (h : Kept F.unfed L s) (hfed : s.kickCount < s.tables.settings.kickSlots → s.waitList = []) :
    Kept F L s :=
  ⟨fun c => ⟨(h.each c).fire, (h.each c).wait, (h.each c).loose, (h.each c).timed, (h.each c).empty, (h.each c).rest⟩,
    h.order, h.slots, fun _ => hfed⟩

theorem Kept.congr (h : Kept F L s) (e : ∀ d, d ∈ L' ↔ d ∈ L) : Kept F L' s := by
  refine ⟨fun d => ?_, h.order, h.slots, h.fed⟩
  have hd := h.each d
  exact ⟨by simpa only [e] using hd.fire, by simpa only [e] using hd.wait, fun m => hd.loose ((e d).1 m), hd.timed,
    fun f m => hd.empty f fun n => m ((e d).2 n), fun f b m => hd.rest f b fun n => m ((e d).2 n)⟩

/-! Nothing of the drives changes -/

/-- The channels, their lists, the groups and KickSlots are the same. -/
structure SameDrives (s t : State) : Prop where
  keys : t.keys = s.keys
  pedals : t.pedals = s.pedals
  fireList : t.fireList = s.fireList
  waitList : t.waitList = s.waitList
  groups : t.groupFaulted = s.groupFaulted
  kickSlots : t.tables.settings.kickSlots = s.tables.settings.kickSlots

theorem SameDrives.trans (h : SameDrives s t) (h' : SameDrives t u) : SameDrives s u :=
  ⟨h'.keys.trans h.keys, h'.pedals.trans h.pedals, h'.fireList.trans h.fireList, h'.waitList.trans h.waitList,
    h'.groups.trans h.groups, h'.kickSlots.trans h.kickSlots⟩

theorem ChannelKept.same (h : ChannelKept F L s c) (e : SameDrives s t) : ChannelKept F L t c := by
  have hkey (k : Key) : t.key k = s.key k := by simp only [State.key, e.keys]
  have hped (p : Pedal) : t.pedal p = s.pedal p := by simp only [State.pedal, e.pedals]
  have hfault (g : Group) : t.faulted g = s.faulted g := by simp only [State.faulted, e.groups]
  have hfire : fireEntries t c = fireEntries s c := by simp only [fireEntries, e.fireList]
  have hwait : waitEntries t c = waitEntries s c := by simp only [waitEntries, e.waitList]
  obtain ⟨h1, h2, h3, h4, h5, h6⟩ := h
  cases c with
  | key k => constructor <;> simpa only [channelState, channelTimed, idleEmpty, atRest, nothingPends, hkey, hfault, hfire, hwait]
  | pedal p => constructor <;> simpa only [channelState, channelTimed, idleEmpty, atRest, nothingPends, hped, hfault, hfire, hwait]

theorem Kept.same (h : Kept F L s) (e : SameDrives s t) : Kept F L t := by
  have hcount : t.kickCount = s.kickCount := by simp only [State.kickCount, State.key, State.pedal, e.keys, e.pedals]
  refine ⟨fun c => (h.each c).same e, fun f => ?_, fun f => ?_, fun f hlt => ?_⟩
  · simpa only [WaitListOrdered, e.waitList] using h.order f
  · rw [hcount, e.kickSlots]; exact h.slots f
  · rw [e.waitList]; rw [hcount, e.kickSlots] at hlt; exact h.fed f hlt

/-! The kick count, channel by channel -/

theorem kickCount_eq (s : State) : s.kickCount = allChannels.countP fun c => channelState s c == .kick := by
  unfold State.kickCount allChannels
  rw [List.countP_append, List.countP_map, List.countP_map, Nat.add_comm]
  rfl

theorem rank_injective {c d : Channel} (h : c.rank = d.rank) : c = d := by
  cases c with
  | pedal p =>
    cases d with
    | pedal q => cases p <;> cases q <;> first | rfl | exact absurd h (by decide)
    | key k =>
      have := (pedalPlace p).isLt
      simp only [Channel.rank] at h
      omega
  | key k =>
    cases d with
    | pedal q =>
      have := (pedalPlace q).isLt
      simp only [Channel.rank] at h
      omega
    | key j =>
      simp only [Channel.rank] at h
      exact congrArg Channel.key (Fin.ext (by omega))

theorem allChannels_nodup : allChannels.Nodup :=
  allChannels_sorted.imp fun h e => absurd h (by rw [e]; exact Nat.lt_irrefl _)

/-- Two counts over a list without repeats differ only by what one member adds. -/
theorem countP_change {α : Type} [DecidableEq α] {p q : α → Bool} {a : α} {l : List α} (hn : l.Nodup) (ha : a ∈ l)
    (h : ∀ b, b ≠ a → q b = p b) :
    l.countP q + (if p a then 1 else 0) = l.countP p + (if q a then 1 else 0) := by
  induction l with
  | nil => cases ha
  | cons b l ih =>
    rw [List.nodup_cons] at hn
    rw [List.countP_cons, List.countP_cons]
    by_cases e : b = a
    · subst e
      have : l.countP q = l.countP p := List.countP_congr fun d hd => by
        rw [h d fun e => hn.1 (e ▸ hd)]
      omega
    · have := ih hn.2 ((List.mem_cons.1 ha).resolve_left (Ne.symm e))
      rw [h b e]
      omega

/-! One channel changes -/

/-- Of the channels and the two lists only what belongs to one channel differs; so do neither the groups nor KickSlots. -/
structure ChangesOnly (c : Channel) (s t : State) : Prop where
  keys : ∀ k, Channel.key k ≠ c → t.key k = s.key k
  pedals : ∀ p, Channel.pedal p ≠ c → t.pedal p = s.pedal p
  fire : ∀ d, d ≠ c → fireEntries t d = fireEntries s d
  wait : ∀ d, d ≠ c → waitEntries t d = waitEntries s d
  groups : t.groupFaulted = s.groupFaulted
  kickSlots : t.tables.settings.kickSlots = s.tables.settings.kickSlots

theorem ChangesOnly.trans (h : ChangesOnly c s t) (h' : ChangesOnly c t u) : ChangesOnly c s u :=
  ⟨fun k e => (h'.keys k e).trans (h.keys k e), fun p e => (h'.pedals p e).trans (h.pedals p e),
    fun d e => (h'.fire d e).trans (h.fire d e), fun d e => (h'.wait d e).trans (h.wait d e),
    h'.groups.trans h.groups, h'.kickSlots.trans h.kickSlots⟩

theorem changesOnly_withKey (s : State) (k : Key) (r : KeyChannel) : ChangesOnly (.key k) s (s.withKey k r) :=
  ⟨fun j h => State.key_withKey_ne s k j r fun e => h (congrArg _ e), fun _ _ => rfl, fun _ _ => rfl, fun _ _ => rfl, rfl, rfl⟩

theorem changesOnly_withPedal (s : State) (p : Pedal) (r : PedalChannel) :
    ChangesOnly (.pedal p) s (s.withPedal p r) :=
  ⟨fun _ _ => rfl, fun q h => by rw [State.pedal_withPedal, if_neg fun e => h (congrArg _ e)], fun _ _ => rfl,
    fun _ _ => rfl, rfl, rfl⟩

theorem fireEntries_armFire (s : State) (c : Channel) (r : RollTime) (d : Channel) :
    fireEntries (s.armFire c r) d = fireEntries s d + if c = d then 1 else 0 := by
  simp [fireEntries, State.armFire, countP_insertFire]

theorem waitEntries_joinWait (s : State) (c : Channel) (w : WaitClass) (d : Channel) :
    waitEntries (s.joinWait c w) d = waitEntries s d + if c = d then 1 else 0 := by
  simp [waitEntries, State.joinWait, countP_insertWait]

theorem changesOnly_armFire (s : State) (c : Channel) (r : RollTime) : ChangesOnly c s (s.armFire c r) :=
  ⟨fun _ _ => rfl, fun _ _ => rfl, fun d h => by rw [fireEntries_armFire, if_neg (Ne.symm h), Nat.add_zero],
    fun _ _ => rfl, rfl, rfl⟩

theorem changesOnly_joinWait (s : State) (c : Channel) (w : WaitClass) : ChangesOnly c s (s.joinWait c w) :=
  ⟨fun _ _ => rfl, fun _ _ => rfl, fun _ _ => rfl,
    fun d h => by rw [waitEntries_joinWait, if_neg (Ne.symm h), Nat.add_zero], rfl, rfl⟩

theorem fireEntries_dropFire (s : State) (c : Channel) : fireEntries (s.dropFire c) c = 0 := by
  simp [fireEntries, State.dropFire, List.countP_filter, List.countP_eq_zero]

theorem waitEntries_dropWait (s : State) (c : Channel) : waitEntries (s.dropWait c) c = 0 := by
  simp [waitEntries, State.dropWait, List.countP_filter, List.countP_eq_zero]

theorem changesOnly_dropFire (s : State) (c : Channel) : ChangesOnly c s (s.dropFire c) := by
  refine ⟨fun _ _ => rfl, fun _ _ => rfl, fun d h => ?_, fun _ _ => rfl, rfl, rfl⟩
  simp only [fireEntries, State.dropFire, List.countP_filter]
  refine List.countP_congr fun e _ => ?_
  by_cases he : e.channel = d <;> simp [he, h]

theorem changesOnly_dropWait (s : State) (c : Channel) : ChangesOnly c s (s.dropWait c) := by
  refine ⟨fun _ _ => rfl, fun _ _ => rfl, fun _ _ => rfl, fun d h => ?_, rfl, rfl⟩
  simp only [waitEntries, State.dropWait, List.countP_filter]
  refine List.countP_congr fun e _ => ?_
  by_cases he : e.channel = d <;> simp [he, h]

/-- The head of the Fire List taken out: its channel alone loses an entry. -/
theorem changesOnly_fireHead {e : FireEntry} {es : List FireEntry} (h : s.fireList = e :: es) :
    ChangesOnly e.channel s { s with fireList := es } := by
  refine ⟨fun _ _ => rfl, fun _ _ => rfl, fun d hd => ?_, fun _ _ => rfl, rfl, rfl⟩
  simp [fireEntries, h, Ne.symm hd]

/-- The head of the Kick Wait List taken out: its channel alone loses an entry. -/
theorem changesOnly_waitHead {e : WaitEntry} {es : List WaitEntry} (h : s.waitList = e :: es) :
    ChangesOnly e.channel s { s with waitList := es } := by
  refine ⟨fun _ _ => rfl, fun _ _ => rfl, fun _ _ => rfl, fun d hd => ?_, rfl, rfl⟩
  simp [waitEntries, h, Ne.symm hd]

theorem changesOnly_startKick (s : State) (k : Key) (n : Note) (kick : Nat) (b : Bool) :
    ChangesOnly (.key k) s (s.startKick k n kick b) := by
  rw [startKick_eq]
  exact (changesOnly_withKey s k _).trans ⟨fun _ _ => rfl, fun _ _ => rfl, fun _ _ => rfl, fun _ _ => rfl, rfl, rfl⟩

/-- A channel that does not change has its state, its form and its rest as before. -/
theorem ChangesOnly.other (h : ChangesOnly c s t) {d : Channel} (hd : d ≠ c) :
    channelState t d = channelState s d ∧ (channelTimed t d ↔ channelTimed s d) ∧ (idleEmpty t d ↔ idleEmpty s d)
      ∧ (nothingPends t d ↔ nothingPends s d) := by
  cases d with
  | key k => simp only [channelState, channelTimed, idleEmpty, nothingPends, h.keys k hd, and_self, iff_self]
  | pedal p => simp only [channelState, channelTimed, idleEmpty, nothingPends, h.pedals p hd, and_self, iff_self]

theorem ChangesOnly.faulted (h : ChangesOnly c s t) (g : Group) : t.faulted g = s.faulted g := by
  simp only [State.faulted, h.groups]

/-- What is kept of a channel stays when another one changes, loose or not. -/
theorem ChannelKept.other {d : Channel} (h : ChannelKept F L s d) (hc : ChangesOnly c s t) (hd : d ≠ c)
    (hL : d ∈ L' ↔ d ∈ L) : ChannelKept F L' t d := by
  obtain ⟨hstate, htimed, hempty, hpends⟩ := hc.other hd
  exact ⟨by rw [hc.fire d hd, hstate, h.fire]; simp only [hL], by rw [hc.wait d hd, hstate, h.wait]; simp only [hL],
    fun m => hstate ▸ h.loose (hL.1 m), fun f => htimed.2 (h.timed f),
    fun f m => hempty.2 (h.empty f fun x => m (hL.2 x)),
    fun f b m => by
      rw [hc.faulted] at b
      simpa only [atRest, hstate, hpends] using h.rest f b fun x => m (hL.2 x)⟩

theorem ChangesOnly.kickCount (h : ChangesOnly c s t) :
    t.kickCount + (if channelState s c = .kick then 1 else 0)
      = s.kickCount + (if channelState t c = .kick then 1 else 0) := by
  rw [kickCount_eq, kickCount_eq]
  have := countP_change (p := fun d => channelState s d == .kick) (q := fun d => channelState t d == .kick)
    allChannels_nodup (mem_allChannels c) fun d hd => by rw [(h.other hd).1]
  simpa only [beq_iff_eq] using this

/-- One channel changes and no kick starts or ends: what is kept is kept when it is of that channel and of the order of
the Kick Wait List. -/
theorem Kept.change (h : Kept F L s) (hc : ChangesOnly c s t) (hL : ∀ d, d ≠ c → (d ∈ L' ↔ d ∈ L))
    (hs : channelState s c ≠ .kick) (ht : channelState t c ≠ .kick) (hown : ChannelKept F L' t c)
    (horder : F.order → WaitListOrdered t)
    (hfed : s.kickCount < s.tables.settings.kickSlots → s.waitList = [] → t.waitList = []) : Kept F L' t := by
  have hcount : t.kickCount = s.kickCount := by
    have := hc.kickCount
    rwa [if_neg hs, if_neg ht, Nat.add_zero, Nat.add_zero] at this
  refine ⟨fun d => ?_, horder, fun f => ?_, fun f hlt => ?_⟩
  · by_cases hd : d = c
    · exact hd ▸ hown
    · exact (h.each d).other hc hd (hL d hd)
  · rw [hcount, hc.kickSlots]
    exact h.slots f
  · rw [hcount, hc.kickSlots] at hlt
    exact hfed hlt (h.fed f hlt)

/-- A kick starts in a free slot. -/
theorem Kept.kick (h : Kept F L s) (hc : ChangesOnly c s t) (hL : ∀ d, d ≠ c → (d ∈ L' ↔ d ∈ L))
    (hfree : s.kickCount < s.tables.settings.kickSlots) (hs : channelState s c ≠ .kick)
    (ht : channelState t c = .kick) (hown : ChannelKept F L' t c) (hwait : t.waitList = s.waitList) : Kept F L' t := by
  have hcount : t.kickCount = s.kickCount + 1 := by
    have := hc.kickCount
    rwa [if_neg hs, if_pos ht, Nat.add_zero] at this
  refine ⟨fun d => ?_, fun f => ?_, fun _ => ?_, fun f hlt => ?_⟩
  · by_cases hd : d = c
    · exact hd ▸ hown
    · exact (h.each d).other hc hd (hL d hd)
  · simpa only [WaitListOrdered, hwait] using h.order f
  · rw [hcount, hc.kickSlots]
    exact hfree
  · rw [hwait]
    exact h.fed f hfree

/-- A kick ends: its slot is free, and perhaps somebody waits for it. -/
theorem Kept.unkick (h : Kept F L s) (hc : ChangesOnly c s t) (hL : ∀ d, d ≠ c → (d ∈ L' ↔ d ∈ L))
    (ht : channelState t c ≠ .kick) (hown : ChannelKept F L' t c) (hwait : t.waitList = s.waitList) :
    Kept F.unfed L' t := by
  have hcount : t.kickCount ≤ s.kickCount := by
    have := hc.kickCount
    rw [if_neg ht, Nat.add_zero] at this
    omega
  refine ⟨fun d => ?_, fun f => ?_, fun f => ?_, False.elim⟩
  · have hd : ChannelKept F L' t d := by
      by_cases hd : d = c
      · exact hd ▸ hown
      · exact (h.each d).other hc hd (hL d hd)
    exact ⟨hd.fire, hd.wait, hd.loose, hd.timed, hd.empty, hd.rest⟩
  · simpa only [WaitListOrdered, hwait] using h.order f
  · rw [hc.kickSlots]
    exact hcount.trans (h.slots f)

/-! The order of the Kick Wait List -/

theorem before_iff_grantsBefore (a b : WaitEntry) : a.before b = true ↔ GrantsBefore a b := by
  unfold WaitEntry.before GrantsBefore
  cases a.cls <;> cases b.cls <;> simp

theorem grantsBefore_trans {a b e : WaitEntry} (h : GrantsBefore a b) (h' : GrantsBefore b e) : GrantsBefore a e := by
  unfold GrantsBefore at *
  cases ha : a.cls <;> cases hb : b.cls <;> cases he : e.cls <;> simp only [ha, hb, he] at h h' ⊢ <;> omega

/-- Of two entries of different channels one is granted before the other (R120). -/
theorem grantsBefore_total {a b : WaitEntry} (hne : a.channel ≠ b.channel) (h : ¬GrantsBefore a b) :
    GrantsBefore b a := by
  have hr : a.channel.rank ≠ b.channel.rank := fun e => hne (rank_injective e)
  unfold GrantsBefore at *
  cases ha : a.cls <;> cases hb : b.cls <;> simp only [ha, hb, not_true_eq_false] at h ⊢ <;> omega

theorem insertWait_sorted {e : WaitEntry} : ∀ {l : List WaitEntry}, l.Pairwise GrantsBefore →
    (∀ x ∈ l, x.channel ≠ e.channel) → (insertWait e l).Pairwise GrantsBefore
  | [], _, _ => by simp [insertWait]
  | x :: xs, hs, hne => by
    rw [List.pairwise_cons] at hs
    unfold insertWait
    split
    case isTrue hb =>
      have hex := (before_iff_grantsBefore e x).1 hb
      refine List.pairwise_cons.2 ⟨fun y hy => ?_, List.pairwise_cons.2 hs⟩
      rcases List.mem_cons.1 hy with rfl | hy
      · exact hex
      · exact grantsBefore_trans hex (hs.1 y hy)
    case isFalse hb =>
      have hxe : GrantsBefore x e :=
        grantsBefore_total (hne x (by simp)).symm fun h => hb ((before_iff_grantsBefore e x).2 h)
      refine List.pairwise_cons.2 ⟨fun y hy => ?_, insertWait_sorted hs.2 fun y hy => hne y (by simp [hy])⟩
      rcases List.mem_cons.1 ((insertWait_perm e xs).mem_iff.1 hy) with rfl | hy
      · exact hxe
      · exact hs.1 y hy

theorem waitEntries_eq_zero {s : State} {c : Channel} (h : waitEntries s c = 0) : ∀ e ∈ s.waitList, e.channel ≠ c := by
  simpa [waitEntries, List.countP_eq_zero] using h

/-- A channel without an entry joins the Kick Wait List at its place, in a class of its own kind (R119, R120). -/
theorem waitListOrdered_joinWait (h : WaitListOrdered s) (hz : waitEntries s c = 0) {w : WaitClass}
    (hw : w = .pedal ↔ ∃ p, c = .pedal p) : WaitListOrdered (s.joinWait c w) := by
  refine ⟨insertWait_sorted h.1 (waitEntries_eq_zero hz), fun e he => ?_⟩
  rcases List.mem_cons.1 ((insertWait_perm _ _).mem_iff.1 he) with rfl | he
  · exact hw
  · exact h.2 e he

/-- Entries that leave the Kick Wait List leave the others in order. -/
theorem waitListOrdered_sublist (h : WaitListOrdered s) (hl : t.waitList.Sublist s.waitList) : WaitListOrdered t :=
  ⟨h.1.sublist hl, fun e he => h.2 e (hl.subset he)⟩

end Sys2Proof.Machine
end

section
/-! PROOFS. The operations of one channel keep what is kept: a loose channel kicks, waits, is armed or goes IDLE; firing,
promotion and judgement are made of these (R105, R108, R109, R119, R121, R123, R141 to R143). -/

namespace Sys2Proof.Machine

open Sys2Proof.Safety

variable {s t u : State} {F : Claims} {L : List Channel} {c : Channel} {k : Key} {p : Pedal}

/-! A channel leaves both lists -/

theorem mem_cons_other {c d : Channel} (h : d ≠ c) : d ∈ c :: L ↔ d ∈ L := by simp [h]

theorem mem_other_cons {c d : Channel} (h : d ≠ c) : d ∈ L ↔ d ∈ c :: L := by simp [h]

/-- A channel that is not kicking is loose once it has no entry in either list. -/
theorem Kept.loosen (h : Kept F L s) (hc : ChangesOnly c s t) (hs : channelState s c ≠ .kick)
    (hstate : channelState t c = channelState s c) (htimed : channelTimed t c ↔ channelTimed s c)
    (hfire : fireEntries t c = 0) (hwait : waitEntries t c = 0) (hsub : t.waitList.Sublist s.waitList) :
    Kept F (c :: L) t := by
  have ht : channelState t c ≠ .kick := hstate ▸ hs
  refine h.change hc (fun d => mem_cons_other) hs ht ?_ (fun f => waitListOrdered_sublist (h.order f) hsub)
    fun _ he => List.sublist_nil.1 (he ▸ hsub)
  exact ⟨by simp [hfire], by simp [hwait], fun _ => ht, fun f => htimed.2 ((h.each c).timed f),
    fun _ m => absurd (List.mem_cons_self ..) m, fun _ _ m => absurd (List.mem_cons_self ..) m⟩

/-- A channel that stands in neither list is loose as it is. -/
theorem Kept.loose_of_unlisted (h : Kept F L s) (ha : channelState s c ≠ .armed) (hw : channelState s c ≠ .waiting)
    (hk : channelState s c ≠ .kick) : Kept F (c :: L) s := by
  have hid : ChangesOnly c s s :=
    ⟨fun _ _ => rfl, fun _ _ => rfl, fun _ _ => rfl, fun _ _ => rfl, rfl, rfl⟩
  exact h.loosen hid hk rfl Iff.rfl (by rw [(h.each c).fire]; simp [ha]) (by rw [(h.each c).wait]; simp [hw])
    (List.Sublist.refl _)

/-- An ARMED channel taken out of the Fire List is loose. -/
theorem Kept.dropFire (h : Kept F L s) (ha : channelState s c = .armed) : Kept F (c :: L) (s.dropFire c) := by
  refine h.loosen (changesOnly_dropFire s c) (by simp [ha]) (by cases c <;> rfl) (by cases c <;> rfl)
    (fireEntries_dropFire s c) ?_ (List.Sublist.refl _)
  show waitEntries s c = 0
  rw [(h.each c).wait, ha]
  simp

/-- A WAITING channel taken out of the Kick Wait List is loose. -/
theorem Kept.dropWait (h : Kept F L s) (ha : channelState s c = .waiting) : Kept F (c :: L) (s.dropWait c) := by
  refine h.loosen (changesOnly_dropWait s c) (by simp [ha]) (by cases c <;> rfl) (by cases c <;> rfl) ?_
    (waitEntries_dropWait s c) List.filter_sublist
  show fireEntries s c = 0
  rw [(h.each c).fire, ha]
  simp

/-- The channel at the head of the Fire List is ARMED, not loose, and loose once its entry is gone. -/
theorem Kept.dropFireHead {e : FireEntry} {es : List FireEntry} (h : Kept F L s) (hl : s.fireList = e :: es)
    (ha : channelState s e.channel = .armed) : Kept F (e.channel :: L) { s with fireList := es } := by
  have hone := (h.each e.channel).fire
  have hsplit : fireEntries s e.channel = fireEntries { s with fireList := es } e.channel + 1 := by
    simp [fireEntries, hl]
  have hzero : fireEntries { s with fireList := es } e.channel = 0 := by
    split at hone <;> omega
  refine h.loosen (changesOnly_fireHead hl) (by simp [ha]) (by cases e.channel <;> rfl) (by cases e.channel <;> rfl)
    hzero ?_ (List.Sublist.refl _)
  show waitEntries s e.channel = 0
  rw [(h.each _).wait, ha]
  simp

/-- The channel at the head of the Kick Wait List is WAITING and not loose. -/
theorem Kept.waitHead {e : WaitEntry} {es : List WaitEntry} (h : Kept F L s) (hl : s.waitList = e :: es) :
    e.channel ∉ L ∧ channelState s e.channel = .waiting := by
  have hone := (h.each e.channel).wait
  have hsplit : waitEntries s e.channel = waitEntries { s with waitList := es } e.channel + 1 := by
    simp [waitEntries, hl]
  split at hone
  · assumption
  · omega

/-- It is loose once its entry is gone. -/
theorem Kept.dropWaitHead {e : WaitEntry} {es : List WaitEntry} (h : Kept F L s) (hl : s.waitList = e :: es) :
    Kept F (e.channel :: L) { s with waitList := es } := by
  have hone := (h.each e.channel).wait
  have ha := (h.waitHead hl).2
  have hsplit : waitEntries s e.channel = waitEntries { s with waitList := es } e.channel + 1 := by
    simp [waitEntries, hl]
  have hzero : waitEntries { s with waitList := es } e.channel = 0 := by
    split at hone <;> omega
  refine h.loosen (changesOnly_waitHead hl) (by simp [ha]) (by cases e.channel <;> rfl) (by cases e.channel <;> rfl)
    ?_ hzero (by rw [hl]; exact List.sublist_cons_self _ _)
  show fireEntries s e.channel = 0
  rw [(h.each _).fire, ha]
  simp

/-! What a loose channel is given -/

theorem Kept.bump (h : Kept F L s) (n : Counter) : Kept F L (s.bump n) := h.same ⟨rfl, rfl, rfl, rfl, rfl, rfl⟩

/-- A loose channel has no entry in either list. -/
theorem Kept.loose_entries (h : Kept F (c :: L) s) : fireEntries s c = 0 ∧ waitEntries s c = 0 :=
  ⟨by rw [(h.each c).fire]; simp, by rw [(h.each c).wait]; simp⟩

/-- A loose channel whose record alone changes stays loose. -/
theorem Kept.restate (h : Kept F (c :: L) s) (hc : ChangesOnly c s t) (ht : channelState t c ≠ .kick)
    (htimed : F.form → channelTimed t c) (hfire : t.fireList = s.fireList) (hwait : t.waitList = s.waitList) :
    Kept F (c :: L) t := by
  refine h.change hc (fun d _ => Iff.rfl) ((h.each c).loose (by simp)) ht ?_
    (fun f => waitListOrdered_sublist (h.order f) (by rw [hwait])) fun _ he => hwait.trans he
  have hf : fireEntries t c = fireEntries s c := by simp only [fireEntries, hfire]
  have hw : waitEntries t c = waitEntries s c := by simp only [waitEntries, hwait]
  exact ⟨by rw [hf, h.loose_entries.1]; simp, by rw [hw, h.loose_entries.2]; simp, fun _ => ht, htimed,
    fun _ m => absurd (List.mem_cons_self ..) m, fun _ _ m => absurd (List.mem_cons_self ..) m⟩

/-- A loose channel that comes to rest, in neither list, is settled. -/
theorem Kept.settle (h : Kept F (c :: L) s) (hL : c ∉ L) (hc : ChangesOnly c s t) (ht : channelState t c ≠ .kick)
    (ha : channelState t c ≠ .armed) (hw : channelState t c ≠ .waiting)
    (htimed : F.form → channelTimed t c) (hempty : F.form → idleEmpty t c) (hrest : F.rest → atRest t c)
    (hfire : t.fireList = s.fireList) (hwait : t.waitList = s.waitList) : Kept F L t := by
  refine h.change hc (fun d => mem_other_cons) ((h.each c).loose (by simp)) ht ?_
    (fun f => waitListOrdered_sublist (h.order f) (by rw [hwait])) fun _ he => hwait.trans he
  have hf : fireEntries t c = fireEntries s c := by simp only [fireEntries, hfire]
  have hw' : waitEntries t c = waitEntries s c := by simp only [waitEntries, hwait]
  exact ⟨by rw [hf, h.loose_entries.1]; simp [ha], by rw [hw', h.loose_entries.2]; simp [hw], fun m => absurd m hL,
    htimed, fun f _ => hempty f, fun f _ _ => hrest f⟩

/-- A loose channel that has become ARMED is settled by an entry in the Fire List. -/
theorem Kept.armFire (h : Kept F (c :: L) s) (hL : c ∉ L) (ha : channelState s c = .armed)
    (hok : F.rest → s.faulted c.group = false) (r : RollTime) : Kept F L (s.armFire c r) := by
  have hstate : channelState (s.armFire c r) c = channelState s c := by cases c <;> rfl
  refine h.change (changesOnly_armFire s c r) (fun d => mem_other_cons) (by simp [ha]) (by simp [hstate, ha]) ?_
    h.order fun _ he => he
  refine ⟨?_, ?_, fun m => absurd m hL, ?_, ?_, fun f b => ?_⟩
  · rw [fireEntries_armFire, h.loose_entries.1]; simp [hstate, ha, hL]
  · show waitEntries s c = _
    rw [h.loose_entries.2]; simp [hstate, ha]
  · have := (h.each c).timed
    cases c <;> exact this
  · intro _ _
    cases c <;> intro hi <;> rw [channelState] at ha <;> cases ha.symm.trans hi
  · exact absurd ((hok f).symm.trans b) (by simp)

/-- A loose channel that has become WAITING is settled by an entry in the Kick Wait List of a full card. -/
theorem Kept.joinWait (h : Kept F (c :: L) s) (hL : c ∉ L) (ha : channelState s c = .waiting)
    (hok : F.rest → s.faulted c.group = false) (hfull : s.tables.settings.kickSlots ≤ s.kickCount) {w : WaitClass}
    (hw : w = .pedal ↔ ∃ p, c = .pedal p) : Kept F L (s.joinWait c w) := by
  have hstate : channelState (s.joinWait c w) c = channelState s c := by cases c <;> rfl
  refine h.change (changesOnly_joinWait s c w) (fun d => mem_other_cons) (by simp [ha]) (by simp [hstate, ha]) ?_
    (fun f => waitListOrdered_joinWait (h.order f) h.loose_entries.2 hw) fun hlt => by omega
  refine ⟨?_, ?_, fun m => absurd m hL, ?_, ?_, fun f b => ?_⟩
  · show fireEntries s c = _
    rw [h.loose_entries.1]; simp [hstate, ha]
  · rw [waitEntries_joinWait, h.loose_entries.2]; simp [hstate, ha, hL]
  · have := (h.each c).timed
    cases c <;> exact this
  · intro _ _
    cases c <;> intro hi <;> rw [channelState] at ha <;> cases ha.symm.trans hi
  · exact absurd ((hok f).symm.trans b) (by simp)

/-- A loose channel that starts its kick in a free slot is settled. -/
theorem Kept.startLoose (h : Kept F (c :: L) s) (hL : c ∉ L) (hc : ChangesOnly c s t)
    (hfree : s.kickCount < s.tables.settings.kickSlots) (ht : channelState t c = .kick)
    (hok : F.rest → s.faulted c.group = false) (htimed : F.form → channelTimed t c)
    (hfire : t.fireList = s.fireList) (hwait : t.waitList = s.waitList) : Kept F L t := by
  refine h.kick hc (fun d => mem_other_cons) hfree ((h.each c).loose (by simp)) ht ?_ hwait
  have hf : fireEntries t c = fireEntries s c := by simp only [fireEntries, hfire]
  have hw' : waitEntries t c = waitEntries s c := by simp only [waitEntries, hwait]
  refine ⟨by rw [hf, h.loose_entries.1]; simp [ht], by rw [hw', h.loose_entries.2]; simp [ht], fun m => absurd m hL,
    htimed, ?_, fun f b => ?_⟩
  · intro _ _
    cases c <;> intro hi <;> rw [channelState] at ht <;> cases ht.symm.trans hi
  · rw [hc.faulted] at b
    exact absurd ((hok f).symm.trans b) (by simp)

/-! Key channels -/

/-- A key channel before its kick: it fires from ARMED or WAITING, a test note from IDLE. -/
def mayFire (s : State) (k : Key) : Prop :=
  (s.key k).state = .idle ∨ (s.key k).state = .armed ∨ (s.key k).state = .waiting

theorem Kept.startKick (h : Kept F (.key k :: L) s) (hL : Channel.key k ∉ L) (hk : mayFire s k)
    (hok : F.rest → s.faulted (keyGroup k) = false) (hfree : s.kickCount < s.tables.settings.kickSlots)
    (n : Note) (kick : Nat) (b : Bool) : Kept F L (s.startKick k n kick b) := by
  have hkey : (s.startKick k n kick b).key k
      = (s.key k).toKick n s.deviceTime kick b s.clockStopped := by
    rw [startKick_eq]; exact State.key_withKey_self ..
  have hlists : (s.startKick k n kick b).fireList = s.fireList ∧ (s.startKick k n kick b).waitList = s.waitList := by
    rw [startKick_eq]; exact ⟨rfl, rfl⟩
  have hstate : channelState (s.startKick k n kick b) (.key k) = .kick := by rw [channelState, hkey]; rfl
  refine h.startLoose hL (changesOnly_startKick ..) hfree hstate hok (fun f => ?_) hlists.1 hlists.2
  obtain ⟨-, hgap, -, -⟩ := (h.each (.key k)).timed f
  rw [channelTimed, hkey]
  refine ⟨by simp [KeyChannel.toKick], ?_, fun _ => rfl, fun hn => absurd rfl hn⟩
  have hnr : (s.key k).state ≠ .release := by rcases hk with e | e | e <;> simp [e]
  have hgap' : (s.key k).gapEnd.isSome = false := by simpa [hnr] using hgap
  simp [KeyChannel.toKick, hgap']

theorem Kept.waitKey (h : Kept F (.key k :: L) s) (hL : Channel.key k ∉ L) (hk : mayFire s k)
    (hok : F.rest → s.faulted (keyGroup k) = false) (hfull : s.tables.settings.kickSlots ≤ s.kickCount) :
    Kept F L (s.wait k) := by
  have hkey : (s.withKey k { s.key k with state := .waiting, waitStart := some s.deviceTime }).key k
      = { s.key k with state := .waiting, waitStart := some s.deviceTime } := State.key_withKey_self ..
  have hstate : channelState (s.withKey k { s.key k with state := .waiting, waitStart := some s.deviceTime }) (.key k)
      = .waiting := by rw [channelState, hkey]
  have hc := changesOnly_withKey s k { s.key k with state := .waiting, waitStart := some s.deviceTime }
  have hloose := h.restate hc (by rw [hstate]; simp) (fun f => ?_) rfl rfl
  · refine hloose.joinWait hL hstate hok ?_ (by simp)
    have hcount := hc.kickCount
    rw [if_neg ((h.each _).loose (by simp)), if_neg (by rw [hstate]; simp)] at hcount
    simpa using hfull.trans_eq hcount.symm
  · obtain ⟨hkick, hgap, -, hduty⟩ := (h.each (.key k)).timed f
    rw [channelTimed, hkey]
    rcases hk with e | e | e <;> simp_all [KeyTimed]

theorem Kept.goIdle (h : Kept F (.key k :: L) s) (hL : Channel.key k ∉ L) : Kept F L (s.goIdle k) := by
  have hkey : (s.goIdle k).key k = (s.key k).toIdle := State.key_withKey_self ..
  have hstate : channelState (s.goIdle k) (.key k) = .idle := by rw [channelState, hkey]; rfl
  refine h.settle hL (changesOnly_withKey ..) (by simp [hstate]) (by simp [hstate]) (by simp [hstate]) (fun _ => ?_)
    (fun _ => ?_) (fun _ => .inl hstate) rfl rfl
  · rw [channelTimed, hkey]
    simp [KeyTimed, KeyChannel.toIdle, KeyChannel.fresh]
  · rw [idleEmpty, hkey]
    exact fun _ => ⟨rfl, rfl, rfl⟩

/-- A loose key channel with its pending note promoted is loose, in ARMED (R109). -/
theorem Kept.promoted (h : Kept F (.key k :: L) s) (n : Note) :
    Kept F (.key k :: L) (s.withKey k ((s.key k).promoted n))
      ∧ ((s.withKey k ((s.key k).promoted n)).key k).state = .armed := by
  have hkey : (s.withKey k ((s.key k).promoted n)).key k = (s.key k).promoted n := State.key_withKey_self ..
  have hstate : ((s.withKey k ((s.key k).promoted n)).key k).state = .armed := by rw [hkey]; rfl
  refine ⟨h.restate (changesOnly_withKey ..) ?_ (fun _ => ?_) rfl rfl, hstate⟩
  · rw [channelState, hstate]; simp
  · rw [channelTimed, hkey]
    simp [KeyTimed, KeyChannel.promoted, KeyChannel.toIdle, KeyChannel.fresh]

/-- A kick start on a grant settles its channel, or leaves it loose and its record as it was. -/
theorem Kept.kickStart (h : Kept F (.key k :: L) s) (hL : Channel.key k ∉ L) (hk : mayFire s k)
    (hok : F.rest → s.faulted (keyGroup k) = false) (hfree : s.kickCount < s.tables.settings.kickSlots) (b : Bool) :
    ((s.kickStart k b).1 = true → Kept F L (s.kickStart k b).2)
      ∧ ((s.kickStart k b).1 = false →
          Kept F (.key k :: L) (s.kickStart k b).2 ∧ (s.kickStart k b).2.key k = s.key k) := by
  rcases kickStart_cases s k b with ⟨-, e⟩ | ⟨n, -, ⟨-, e⟩ | ⟨-, -, e⟩ | ⟨-, -, e⟩⟩ <;> rw [e]
  · exact ⟨nofun, fun _ => ⟨h, rfl⟩⟩
  · exact ⟨fun _ => h.startKick hL hk hok hfree n _ b, nofun⟩
  · exact ⟨fun _ => (h.bump .heatTrim).startKick hL hk hok hfree n _ b, nofun⟩
  · exact ⟨nofun, fun _ => ⟨h.bump .heatDrop, rfl⟩⟩

/-- A request settles its channel, or drops its note and leaves it loose with its record as it was. -/
theorem Kept.attempt (h : Kept F (.key k :: L) s) (hL : Channel.key k ∉ L) (hk : mayFire s k) :
    ((s.attempt k).1 = true → Kept F L (s.attempt k).2)
      ∧ ((s.attempt k).1 = false → Kept F (.key k :: L) (s.attempt k).2 ∧ (s.attempt k).2.key k = s.key k) := by
  rcases attempt_cases s k with ⟨-, e⟩ | ⟨hok, hfree, e⟩ | ⟨hok, hfull, e⟩ <;> rw [e]
  · exact ⟨nofun, fun _ => ⟨h.bump .faultDrop, rfl⟩⟩
  · exact h.kickStart hL hk (fun _ => hok) hfree false
  · exact ⟨fun _ => h.waitKey hL hk (fun _ => hok) hfull, nofun⟩

theorem Kept.fireLast (h : Kept F (.key k :: L) s) (hL : Channel.key k ∉ L) (hk : mayFire s k) :
    Kept F L (s.fireLast k) := by
  obtain ⟨htaken, hdropped⟩ := h.attempt hL hk
  unfold State.fireLast
  dsimp only
  split
  · exact htaken ‹_›
  · exact (hdropped (Bool.eq_false_of_not_eq_true ‹_›)).1.goIdle hL

/-- A loose channel of an OK group, or with nothing pending, moves on. -/
theorem Kept.promote (h : Kept F (.key k :: L) s) (hL : Channel.key k ∉ L)
    (hok : F.rest → s.faulted (keyGroup k) = true → (s.key k).pending = none) : Kept F L (s.promote k) := by
  rcases promote_cases s k with ⟨-, e⟩ | ⟨n, hn, ⟨f, -, -, e⟩ | ⟨-, e⟩⟩ <;> rw [e]
  · exact h.goIdle hL
  · refine (h.promoted n).1.armFire hL (h.promoted n).2 (fun hr => Bool.eq_false_of_not_eq_true fun hf => ?_) f
    exact absurd ((hok hr hf).symm.trans hn) nofun
  · exact (h.promoted n).1.fireLast hL (.inr (.inl (h.promoted n).2))

theorem Kept.rearm (h : Kept F (.key k :: L) s) (hL : Channel.key k ∉ L)
    (hok : F.rest → s.faulted (keyGroup k) = false) : Kept F L (s.rearm k) := by
  rcases rearm_cases s k with ⟨-, e⟩ | ⟨n, -, e⟩ <;> rw [e]
  · exact h.goIdle hL
  · exact (h.promoted n).1.armFire hL (h.promoted n).2 hok _

theorem Kept.fireKey (h : Kept F (.key k :: L) s) (hL : Channel.key k ∉ L) (hk : mayFire s k)
    (hok : F.rest → s.faulted (keyGroup k) = true → (s.key k).pending = none) : Kept F L (s.fireKey k) := by
  obtain ⟨htaken, hdropped⟩ := h.attempt hL hk
  unfold State.fireKey
  dsimp only
  split
  · exact htaken ‹_›
  · obtain ⟨hloose, hkey⟩ := hdropped (Bool.eq_false_of_not_eq_true ‹_›)
    refine hloose.promote hL ?_
    rw [hkey, (onlyChannels_attempt s k).faulted]
    exact hok

/-- A settled channel that is neither IDLE nor in RELEASE belongs to an OK group. -/
theorem Kept.group_ok (h : Kept F L s) (hL : c ∉ L) (hi : channelState s c ≠ .idle) (hr : channelState s c ≠ .release)
    (f : F.rest) : s.faulted c.group = false := by
  refine Bool.eq_false_of_not_eq_true fun b => ?_
  rcases (h.each c).rest f b hL with e | ⟨e, -⟩
  · exact hi e
  · exact hr e

theorem Kept.expireWait (h : Kept F [] s) (hw : (s.key k).state = .waiting) : Kept F [] (s.expireWait k) := by
  have hok := h.group_ok (c := .key k) (by simp) (by simp [channelState, hw]) (by simp [channelState, hw])
  refine ((h.dropWait (c := .key k) hw).bump .deferDrop).promote (by simp) fun f b => ?_
  exact absurd ((hok f).symm.trans b) (by simp)

/-- The end of a repeat gap (R108, R109). -/
theorem Kept.endGap (h : Kept F [] s) (hr : (s.key k).state = .release) : Kept F [] (s.promote k) := by
  refine (h.loose_of_unlisted (c := .key k) ?_ ?_ ?_).promote (by simp) fun f b => ?_
  all_goals try simp [channelState, hr]
  rcases (h.each (.key k)).rest f b (by simp) with e | ⟨-, e⟩
  · rw [channelState, hr] at e; cases e
  · exact e

/-! Pedal channels -/

/-- A pedal channel before its kick. -/
def pedalMayFire (s : State) (p : Pedal) : Prop := (s.pedal p).state = .armed ∨ (s.pedal p).state = .waiting

theorem Kept.startPedal (h : Kept F (.pedal p :: L) s) (hL : Channel.pedal p ∉ L)
    (hok : F.rest → s.faulted pedalGroup = false) (hfree : s.kickCount < s.tables.settings.kickSlots) :
    Kept F L (s.startPedal p) := by
  have hped : (s.startPedal p).pedal p = (s.pedal p).toKick s.deviceTime := State.pedal_withPedal_self ..
  refine h.startLoose hL (changesOnly_withPedal ..) hfree (by rw [channelState, hped]; rfl) hok (fun _ => ?_) rfl rfl
  rw [channelTimed, hped]
  exact ⟨fun _ => rfl, fun hn => absurd rfl hn⟩

theorem Kept.firePedal (h : Kept F (.pedal p :: L) s) (hL : Channel.pedal p ∉ L) (hp : pedalMayFire s p)
    (hok : F.rest → s.faulted pedalGroup = false) : Kept F L (s.firePedal p) := by
  unfold State.firePedal
  split
  · exact h.startPedal hL hok ‹_›
  case isFalse hfull =>
    have hc := changesOnly_withPedal s p { s.pedal p with state := .waiting, waitStart := some s.deviceTime }
    have hped : (s.withPedal p { s.pedal p with state := .waiting, waitStart := some s.deviceTime }).pedal p
        = { s.pedal p with state := .waiting, waitStart := some s.deviceTime } := State.pedal_withPedal_self ..
    have hstate : channelState (s.withPedal p { s.pedal p with state := .waiting, waitStart := some s.deviceTime })
        (.pedal p) = .waiting := by rw [channelState, hped]
    refine (h.restate hc (by simp [hstate]) (fun f => ?_) rfl rfl).joinWait hL hstate hok ?_ (by simp)
    · have htimed := (h.each (.pedal p)).timed f
      rw [channelTimed, hped]
      rw [channelTimed] at htimed
      rcases hp with e | e <;> simp_all [PedalTimed]
    · have hcount := hc.kickCount
      rw [if_neg ((h.each _).loose (by simp)), if_neg (by rw [hstate]; simp)] at hcount
      simpa using (Nat.le_of_not_lt hfull).trans_eq hcount.symm

/-- A loose pedal channel takes a press as its current one (R138, R143). -/
theorem Kept.pressed (h : Kept F (.pedal p :: L) s) (press : Press) :
    Kept F (.pedal p :: L) (s.withPedal p { PedalChannel.fresh with state := .armed, current := some press })
      ∧ ((s.withPedal p { PedalChannel.fresh with state := .armed, current := some press }).pedal p).state = .armed := by
  have hped : (s.withPedal p { PedalChannel.fresh with state := .armed, current := some press }).pedal p
      = { PedalChannel.fresh with state := .armed, current := some press } := State.pedal_withPedal_self ..
  refine ⟨h.restate (changesOnly_withPedal ..) ?_ (fun _ => ?_) rfl rfl, by rw [hped]⟩
  · rw [channelState, hped]; simp
  · rw [channelTimed, hped]; simp [PedalTimed, PedalChannel.fresh]

/-- A loose pedal channel goes IDLE. -/
theorem Kept.liftPedal (h : Kept F (.pedal p :: L) s) (hL : Channel.pedal p ∉ L) :
    Kept F L (s.withPedal p PedalChannel.fresh) := by
  have hped : (s.withPedal p PedalChannel.fresh).pedal p = PedalChannel.fresh := State.pedal_withPedal_self ..
  have hstate : channelState (s.withPedal p PedalChannel.fresh) (.pedal p) = .idle := by rw [channelState, hped]; rfl
  refine h.settle hL (changesOnly_withPedal ..) (by simp [hstate]) (by simp [hstate]) (by simp [hstate]) (fun _ => ?_)
    (fun _ => ?_) (fun _ => .inl hstate) rfl rfl
  · rw [channelTimed, hped]; simp [PedalTimed, PedalChannel.fresh]
  · rw [idleEmpty, hped]; exact fun _ => ⟨rfl, rfl⟩

theorem Kept.armPedal (h : Kept F (.pedal p :: L) s) (hL : Channel.pedal p ∉ L)
    (hok : F.rest → s.faulted pedalGroup = false) (press : Press) : Kept F L (s.armPedal p press) := by
  obtain ⟨hloose, harmed⟩ := h.pressed press
  unfold State.armPedal
  dsimp only
  split
  · exact hloose.firePedal hL (.inl harmed) hok
  · exact hloose.armFire hL harmed hok _

theorem Kept.endPedalRelease (h : Kept F [] s) (hr : (s.pedal p).state = .release) : Kept F [] (s.endPedalRelease p) := by
  have hloose : Kept F [.pedal p] s :=
    h.loose_of_unlisted (by simp [channelState, hr]) (by simp [channelState, hr]) (by simp [channelState, hr])
  unfold State.endPedalRelease
  split
  case h_1 press hpend =>
    refine hloose.armPedal (by simp) (fun f => Bool.eq_false_of_not_eq_true fun b => ?_) press
    rcases (h.each (.pedal p)).rest f b (by simp) with e | ⟨-, e⟩
    · rw [channelState, hr] at e; cases e
    · rw [nothingPends, hpend] at e; cases e
  · exact hloose.liftPedal (by simp)

/-! The requests of one device time -/

theorem state_of_firesNow (h : s.firesNow c = true) : channelState s c = .armed := by
  unfold State.firesNow at h
  rw [Bool.and_eq_true] at h
  cases c <;> exact eq_of_beq h.1

/-- A channel that fires from ARMED, its entry out of the Fire List (R98, R105, R141). -/
theorem Kept.fireArmedKey (h : Kept F [] s) (ha : (s.key k).state = .armed)
    (hloose : Kept F [.key k] t) (hkey : t.key k = s.key k) (hfault : t.faulted (keyGroup k) = s.faulted (keyGroup k)) :
    Kept F [] (t.fireKey k) := by
  have hok := h.group_ok (c := .key k) (by simp) (by simp [channelState, ha]) (by simp [channelState, ha])
  refine hloose.fireKey (by simp) (.inr (.inl (by rw [hkey]; exact ha))) fun f b => ?_
  rw [hfault] at b
  exact absurd ((hok f).symm.trans b) (by simp)

theorem Kept.fireArmedPedal (h : Kept F [] s) (ha : (s.pedal p).state = .armed)
    (hloose : Kept F [.pedal p] t) (hped : t.pedal p = s.pedal p) (hfault : t.faulted pedalGroup = s.faulted pedalGroup) :
    Kept F [] (t.firePedal p) := by
  have hok := h.group_ok (c := .pedal p) (by simp) (by simp [channelState, ha]) (by simp [channelState, ha])
  exact hloose.firePedal (by simp) (.inl (by rw [hped]; exact ha)) fun f => hfault.trans (hok f)

theorem Kept.judge (h : Kept F [] s) (c : Channel) : Kept F [] (s.judge c) := by
  rcases judge_cases s c with ⟨-, e⟩ | ⟨hreq, ⟨p, rfl, hf, e⟩ | ⟨k, rfl, hf, e⟩ | ⟨p, rfl, hf, e⟩
    | ⟨k, rfl, hf, hg, e⟩ | ⟨k, rfl, hf, hg, e⟩⟩ <;> rw [e]
  · exact h
  · have ha := state_of_firesNow hf
    exact h.fireArmedPedal ha (h.dropFire ha) rfl rfl
  · have ha := state_of_firesNow hf
    exact h.fireArmedKey ha (h.dropFire ha) rfl rfl
  · simp only [State.requestsNow, hf, Bool.false_or, Bool.and_eq_true] at hreq
    exact h.endPedalRelease (state_of_due hreq.1)
  · exact h.endGap (state_of_due hg)
  · simp only [State.requestsNow, hf, hg, Bool.false_or, Bool.and_eq_true, State.deferDue, beq_iff_eq] at hreq
    exact h.expireWait hreq.1.1.1

theorem Kept.judges (h : Kept F [] s) (cs : List Channel) : Kept F [] (cs.foldl State.judge s) := by
  induction cs generalizing s with
  | nil => exact h
  | cons c cs ih => exact ih (h.judge c)

theorem Kept.judgeUpTo (h : Kept F [] s) (own : List Channel) : Kept F [] (s.judgeUpTo own) := h.judges _

/-! Freed slots (R121) -/

/-- Grants to the heads of the Kick Wait List: the keys whose notes the heat check refused are left loose, none of them
in a FAULTED group, and nobody waits beside a free slot any more. -/
theorem Kept.handOnLoop : ∀ (n : Nat) {s : State} {ks : List Key}, s.waitList.length ≤ n →
    Kept F.unfed (ks.map .key) s → (∀ k ∈ ks, F.rest → s.faulted (keyGroup k) = false) →
    Kept F ((State.handOnLoop n s ks).2.map .key) (State.handOnLoop n s ks).1
      ∧ ∀ k ∈ (State.handOnLoop n s ks).2, F.rest → s.faulted (keyGroup k) = false
  | 0, s, ks, hn, h, hks => ⟨h.refed fun _ => List.eq_nil_of_length_eq_zero (Nat.le_zero.1 hn), hks⟩
  | n + 1, s, ks, hn, h, hks => by
    unfold State.handOnLoop
    split
    case h_1 hnil => exact ⟨h.refed fun _ => hnil, hks⟩
    case h_2 e rest hcons =>
      split
      case isFalse hfull => exact ⟨h.refed fun hlt => absurd hlt hfull, hks⟩
      case isTrue hfree =>
        have hlen : rest.length ≤ n := by rw [hcons, List.length_cons] at hn; omega
        obtain ⟨hnot, hstate⟩ := h.waitHead hcons
        have hloose := h.dropWaitHead hcons
        have hok (f : F.rest) := h.group_ok hnot (by simp [hstate]) (by simp [hstate]) f
        cases hc : e.channel with
        | pedal p =>
          rw [hc] at hloose hnot hok
          have hkept := hloose.startPedal hnot hok hfree
          exact Kept.handOnLoop n hlen hkept hks
        | key k =>
          rw [hc] at hloose hnot hok hstate
          have hmay : mayFire { s with waitList := rest } k := .inr (.inr hstate)
          obtain ⟨htaken, hrefused⟩ := hloose.kickStart hnot hmay hok hfree true
          have hsame := onlyChannels_kickStart { s with waitList := rest } k true
          have hlen' : (State.kickStart { s with waitList := rest } k true).2.waitList.length ≤ n := by
            rw [(kickStart_others { s with waitList := rest } k true).2.2.2]; exact hlen
          cases hr : (State.kickStart { s with waitList := rest } k true).1 with
          | true =>
            have := Kept.handOnLoop n hlen' (htaken hr) fun j hj => by rw [hsame.faulted]; exact hks j hj
            simp only [hr, if_true]
            exact ⟨this.1, fun j hj f => (hsame.faulted _).symm.trans (this.2 j hj f)⟩
          | false =>
            have := Kept.handOnLoop n (ks := k :: ks) hlen' (hrefused hr).1 fun j hj => by
              rw [hsame.faulted]
              rcases List.mem_cons.1 hj with rfl | hj
              · exact hok
              · exact hks j hj
            simp only [hr, Bool.false_eq_true, if_false]
            exact ⟨this.1, fun j hj f => (hsame.faulted _).symm.trans (this.2 j hj f)⟩

/-- Loose keys of OK groups are rearmed one after another. -/
theorem Kept.rearms : ∀ {ks : List Key} {s : State}, ks.Nodup → Kept F (ks.map .key) s →
    (∀ k ∈ ks, F.rest → s.faulted (keyGroup k) = false) → Kept F [] (ks.foldl State.rearm s)
  | [], _, _, h, _ => h
  | k :: ks, s, hn, h, hok => by
    rw [List.nodup_cons] at hn
    have hk := Kept.rearm (L := ks.map .key) h (by simpa using hn.1) (hok k (by simp))
    exact Kept.rearms (ks := ks) (s := s.rearm k) hn.2 hk fun j hj => by
      rw [(onlyChannels_rearm s k).faulted]; exact hok j (by simp [hj])

/-- Freed slots handed on: everything is settled, and nobody waits beside a free slot (R119, R121). -/
theorem Kept.handOn (h : Kept F.unfed [] s) : Kept F [] s.handOn := by
  obtain ⟨hloop, hok⟩ := Kept.handOnLoop (ks := []) s.waitList.length (le_refl _) h (by simp)
  unfold State.handOn
  dsimp only
  refine Kept.judgeUpTo (Kept.rearms ?_ (hloop.congr fun d => ?_) fun k hk => ?_) _
  · exact (List.nodup_finRange 88).filter _
  · simp [allKeys]
  · rw [(onlyChannels_handOnLoop _ s []).faulted]
    exact hok k (by simpa [allKeys] using hk)

end Sys2Proof.Machine
end

section
/-! PROOFS. What the arrival of a line, the hold reasons and a TABLE WRITE leave alone. -/

namespace Sys2Proof.Machine

open Sys2Proof.Safety

variable {s t u : State}

/-! An arrival -/

/-- Only the paper's records, the timeline, the link and the counters differ: what lines do, taken or filled. -/
def OnlyPaper (s t : State) : Prop :=
  t = { s with link := t.link, counters := t.counters, front := t.front, holes := t.holes, roll := t.roll }

theorem OnlyPaper.refl (s : State) : OnlyPaper s s := rfl

theorem OnlyPaper.trans (h : OnlyPaper s t) (h' : OnlyPaper t u) : OnlyPaper s u := by
  unfold OnlyPaper at *; rw [h', h]

theorem OnlyPaper.ite {c : Prop} [Decidable c] (h : OnlyPaper s t) (h' : OnlyPaper s u) :
    OnlyPaper s (if c then t else u) := by split <;> assumption

theorem OnlyPaper.tables (h : OnlyPaper s t) : t.tables = s.tables := by rw [h]
theorem OnlyPaper.keys (h : OnlyPaper s t) : t.keys = s.keys := by rw [h]
theorem OnlyPaper.store (h : OnlyPaper s t) : t.store = s.store := by rw [h]

theorem onlyPaper_bump (s : State) (c : Counter) : OnlyPaper s (s.bump c) := rfl

theorem onlyPaper_bumpIf (s : State) (b : Bool) (c : Counter) : OnlyPaper s (s.bumpIf b c) :=
  OnlyPaper.ite (onlyPaper_bump s c) rfl

theorem onlyPaper_hold (s : State) (n : Nat) (set : ColumnSet) (xs : List Bool) : OnlyPaper s (s.hold n set xs) := rfl

theorem onlyPaper_endLeader (s : State) (n : Nat) : OnlyPaper s (s.endLeader n) := by
  unfold State.endLeader
  exact OnlyPaper.ite rfl (OnlyPaper.ite rfl rfl)

theorem onlyPaper_playLine (s : State) (m : MapNo) (xs : List Bool) (n : Nat) : OnlyPaper s (s.playLine m xs n) := by
  unfold State.playLine
  dsimp only
  split
  · rfl
  · split <;> rfl

theorem onlyPaper_recognize (s : State) (set : ColumnSet) (xs : List Bool) (n : Nat) :
    OnlyPaper s (s.recognize set xs n) := by
  unfold State.recognize
  split
  · refine OnlyPaper.trans ?_ (onlyPaper_endLeader _ n)
    rfl
  · exact onlyPaper_playLine ..
  · rfl
  · exact onlyPaper_hold ..

theorem onlyPaper_fillLine (s : State) (n : Nat) : OnlyPaper s (s.fillLine n) := by
  unfold State.fillLine
  split
  · exact (onlyPaper_bump s _).trans (onlyPaper_recognize ..)
  · rfl

theorem onlyPaper_fillLines (n count : Nat) (s : State) : OnlyPaper s (s.fillLines n count) := by
  induction count generalizing s n with
  | zero => rfl
  | succ count ih => exact (onlyPaper_fillLine s n).trans (ih _ _)

theorem onlyPaper_trackEdges (s : State) (px : List Nat) : OnlyPaper s (s.trackEdges px) := by
  unfold State.trackEdges
  split <;> rfl

theorem onlyPaper_takeLine (s : State) (n : Nat) (px : List Nat) : OnlyPaper s (s.takeLine n px) := by
  unfold State.takeLine
  split
  · rfl
  · exact (onlyPaper_trackEdges s px).trans
      ((onlyPaper_bumpIf _ _ _).trans ((onlyPaper_bumpIf _ _ _).trans (onlyPaper_recognize ..)))

/-- The lines of an arrival before the starve episode is checked. -/
def State.lines (s : State) (n : Nat) (px : List Nat) : State :=
  (s.fillLines (s.front.newest + 1).toNat (n - (s.front.newest + 1).toNat)).takeLine n px

theorem onlyPaper_lines (s : State) (n : Nat) (px : List Nat) : OnlyPaper s (s.lines n px) :=
  (onlyPaper_fillLines _ _ s).trans (onlyPaper_takeLine ..)

/-- An arrival is its lines, the settled line and the queue moved, and the episode's check (R7, R27, R31, R52). -/
theorem arrive_eq (s : State) (n : Nat) (px : List Nat) :
    s.arrive n px = State.checkEpisode { s.lines n px with
      holes := { (s.lines n px).holes with
        settled := (s.lines n px).front.newest - 8, queue := (s.lines n px).queueToPlan } } := rfl

/-! Hold reasons -/

/-- Only the timeline, the link and hold-limit watches differ: what a change of the hold reasons does. -/
def OnlyHolds (s t : State) : Prop :=
  t = { s with link := t.link, roll := t.roll, keys := t.keys }
    ∧ ∀ k, t.key k = { s.key k with holdWatch := (t.key k).holdWatch }

theorem OnlyHolds.refl (s : State) : OnlyHolds s s := ⟨rfl, fun _ => rfl⟩

theorem OnlyHolds.trans (h : OnlyHolds s t) (h' : OnlyHolds t u) : OnlyHolds s u := by
  refine ⟨?_, fun k => ?_⟩
  · rw [h'.1, h.1]
  · rw [h'.2 k, h.2 k]

theorem onlyHolds_of_link (h : OnlyLink s t) : OnlyHolds s t := by
  unfold OnlyLink at h
  rw [h]
  exact ⟨rfl, fun _ => rfl⟩

theorem onlyHolds_changeHolds (s : State) (op st : Bool) : OnlyHolds s (s.changeHolds op st) := by
  refine ⟨?_, changeHolds_key s op st⟩
  rw [changeHolds_eq]

theorem onlyHolds_setHolds (s : State) (op st : Bool) : OnlyHolds s (s.setHolds op st) := by
  rcases setHolds_cases s op st with ⟨-, -, e⟩ | ⟨-, e⟩ <;> rw [e]
  · exact OnlyHolds.refl s
  · exact (onlyHolds_changeHolds s op st).trans (onlyHolds_of_link (onlyLink_queueState _))

theorem onlyHolds_checkEpisode (s : State) : OnlyHolds s s.checkEpisode := by
  rcases checkEpisode_cases s with e | ⟨-, -, e⟩ <;> rw [e]
  · exact OnlyHolds.refl s
  · exact OnlyHolds.trans (t := { s with roll := { s.roll with starveStart := none } }) ⟨rfl, fun _ => rfl⟩
      (onlyHolds_setHolds _ _ _)

theorem onlyHolds_advancePlan (s : State) (n : Nat) : OnlyHolds s (s.advancePlan n) := by
  unfold State.advancePlan
  dsimp only
  split
  · refine OnlyHolds.trans (OnlyHolds.trans ?_ (onlyHolds_checkEpisode _)) (onlyHolds_of_link (onlyLink_queueWindow _ _))
    exact ⟨rfl, fun _ => rfl⟩
  · refine OnlyHolds.trans ?_ (onlyHolds_checkEpisode _)
    exact ⟨rfl, fun _ => rfl⟩

/-! A TABLE WRITE -/

/-- Of the tables only the one a name names differs. -/
def OnlyTable : TableName → Tables → Tables → Prop
  | .map _, t, w => w = { t with maps := w.maps }
  | .format, t, w => w = { t with format := w.format }
  | .expr .bass, t, w => w = { t with exprBass := w.exprBass }
  | .expr .treble, t, w => w = { t with exprTreble := w.exprTreble }
  | .velocity, t, w => w = { t with velocity := w.velocity }
  | .keys, t, w => w = { t with keys := w.keys }
  | .pedals, t, w => w = { t with pedals := w.pedals }
  | .settings, t, w => w = { t with settings := w.settings }

theorem OnlyTable.refl (n : TableName) (t : Tables) : OnlyTable n t t := by
  unfold OnlyTable; split <;> rfl

theorem OnlyTable.trans {n : TableName} {t w x : Tables} (h : OnlyTable n t w) (h' : OnlyTable n w x) :
    OnlyTable n t x := by
  unfold OnlyTable at *; split at h <;> (dsimp only at h' ⊢; rw [h', h])

theorem onlyTable_writeEntry {t w : Tables} {n : TableName} {i : Nat} {bs : List Byte}
    (h : t.writeEntry n i bs = some w) : OnlyTable n t w := by
  unfold Tables.writeEntry at h
  split at h
  · obtain ⟨x, -, rfl⟩ := Option.map_eq_some_iff.1 h; rfl
  · obtain ⟨x, -, rfl⟩ := Option.map_eq_some_iff.1 h; rfl
  · obtain ⟨x, -, rfl⟩ := Option.map_eq_some_iff.1 h; rfl
  · obtain ⟨x, -, rfl⟩ := Option.map_eq_some_iff.1 h; rfl
  · split at h
    · split at h
      · cases h; rfl
      · cases h
    · cases h
  · split at h
    · obtain ⟨x, -, rfl⟩ := Option.map_eq_some_iff.1 h; rfl
    · cases h
  · split at h
    · obtain ⟨x, -, rfl⟩ := Option.map_eq_some_iff.1 h; rfl
    · cases h
  · obtain ⟨x, -, rfl⟩ := Option.map_eq_some_iff.1 h; rfl

/-- A run of entries is written one entry after another. -/
theorem writeRun_succ {t w : Tables} {b : Byte} {n : TableName} {i count : Nat} {bs : List Byte}
    (h : t.writeRun b n i (count + 1) bs = some w) :
    ∃ x, t.writeEntry n i (bs.take (entrySize b i)) = some x
      ∧ x.writeRun b n (i + 1) count (bs.drop (entrySize b i)) = some w := by
  rw [Tables.writeRun] at h
  exact Option.bind_eq_some_iff.1 h

theorem onlyTable_writeRun {b : Byte} {n : TableName} {w : Tables} {count i : Nat} {t : Tables} {bs : List Byte}
    (h : t.writeRun b n i count bs = some w) : OnlyTable n t w := by
  induction count generalizing t i bs with
  | zero => cases h; exact OnlyTable.refl n _
  | succ count ih =>
    obtain ⟨x, hx, hw⟩ := writeRun_succ h
    exact (onlyTable_writeEntry hx).trans (ih hw)

/-- No write but one to SETTINGS moves a setting. -/
theorem OnlyTable.settings {n : TableName} {t w : Tables} (h : OnlyTable n t w) (hn : n ≠ .settings) :
    w.settings = t.settings := by
  cases n with
  | settings => exact absurd rfl hn
  | expr half => cases half <;> (rw [OnlyTable] at h; rw [h])
  | map m => rw [OnlyTable] at h; rw [h]
  | format => rw [OnlyTable] at h; rw [h]
  | velocity => rw [OnlyTable] at h; rw [h]
  | keys => rw [OnlyTable] at h; rw [h]
  | pedals => rw [OnlyTable] at h; rw [h]

/-! Power, stops and resets -/

theorem stopChannels_validFrame (s : State) :
    s.validFrame.stopChannels = { s.stopChannels with link := s.validFrame.link, roll := s.validFrame.roll } := by
  unfold State.stopChannels State.mapPedals State.mapKeys State.validFrame
  rfl

/-- Beside a stop's effects only records of the blocks and the link differ. -/
def OnlyStopped (s t : State) : Prop :=
  t = { s.stopChannels with
    link := t.link, counters := t.counters, front := t.front, holes := t.holes, roll := t.roll
    exprBass := t.exprBass, exprTreble := t.exprTreble, pedalUnit := t.pedalUnit }

theorem onlyStopped_stopRoll (s : State) : OnlyStopped s s.stopRoll := by
  unfold OnlyStopped State.stopRoll
  generalize s.stopChannels = x
  rfl

/-- A reset of the link leaves the channels as a stop does, and the tables and the store as they are (R175). -/
theorem onlyStopped_linkReset (s : State) (tag : Tag) : OnlyStopped s (s.linkReset tag) := by
  unfold OnlyStopped State.linkReset State.stopRoll
  dsimp only
  rw [stopChannels_validFrame]
  generalize s.stopChannels = x
  split <;> rfl

end Sys2Proof.Machine
end

section
/-! PROOFS. Every effect of a step keeps what is kept of the drive channels (O53 to O56). -/

namespace Sys2Proof.Machine

open Sys2Proof.Safety

variable {s t u : State} {F : Claims} {c : Channel} {k : Key} {p : Pedal}

/-! Records that differ in what nothing asks about -/

/-- Two key channels alike in state, timers and drive, the second holding no note that the first does not. -/
structure KeyAlike (c d : KeyChannel) : Prop where
  state : d.state = c.state
  kickEnd : d.kickEnd.isSome = c.kickEnd.isSome
  gapEnd : d.gapEnd.isSome = c.gapEnd.isSome
  duty : d.duty = c.duty
  current : c.current = none → d.current = none
  pending : c.pending = none → d.pending = none
  target : c.state = .idle → c.target = .nothing → d.target = .nothing

theorem KeyAlike.refl (c : KeyChannel) : KeyAlike c c := ⟨rfl, rfl, rfl, rfl, id, id, fun _ => id⟩

theorem KeyAlike.trans {a b c : KeyChannel} (h : KeyAlike a b) (h' : KeyAlike b c) : KeyAlike a c :=
  ⟨h'.state.trans h.state, h'.kickEnd.trans h.kickEnd, h'.gapEnd.trans h.gapEnd, h'.duty.trans h.duty,
    fun e => h'.current (h.current e), fun e => h'.pending (h.pending e),
    fun e f => h'.target (h.state.trans e) (h.target e f)⟩

/-- The channels are alike, their lists the same and no other group FAULTED. -/
structure DrivesAlike (s t : State) : Prop where
  keys : ∀ k, KeyAlike (s.key k) (t.key k)
  pedals : t.pedals = s.pedals
  fireList : t.fireList = s.fireList
  waitList : t.waitList = s.waitList
  groups : ∀ g, t.faulted g = true → s.faulted g = true
  kickSlots : t.tables.settings.kickSlots = s.tables.settings.kickSlots

theorem DrivesAlike.pedal (e : DrivesAlike s t) (p : Pedal) : t.pedal p = s.pedal p := by
  simp only [State.pedal, e.pedals]

theorem DrivesAlike.channelState (e : DrivesAlike s t) (c : Channel) : channelState t c = channelState s c := by
  cases c with
  | key k => exact (e.keys k).state
  | pedal p => rw [Safety.channelState, Safety.channelState, e.pedal]

theorem ChannelKept.alike (h : ChannelKept F [] s c) (e : DrivesAlike s t) : ChannelKept F [] t c := by
  have hfire : fireEntries t c = fireEntries s c := by simp only [fireEntries, e.fireList]
  have hwait : waitEntries t c = waitEntries s c := by simp only [waitEntries, e.waitList]
  refine ⟨by rw [hfire, e.channelState]; exact h.fire, by rw [hwait, e.channelState]; exact h.wait, nofun, fun f => ?_,
    fun f m => ?_, fun f b m => ?_⟩
  · have ht := h.timed f
    cases c with
    | key k =>
      have hk := e.keys k
      simpa only [channelTimed, KeyTimed, hk.state, hk.kickEnd, hk.gapEnd, hk.duty] using ht
    | pedal p => simpa only [channelTimed, e.pedal] using ht
  · have hi := h.empty f m
    cases c with
    | key k =>
      have hk := e.keys k
      intro hs
      rw [hk.state] at hs
      obtain ⟨h1, h2, h3⟩ := hi hs
      exact ⟨hk.current h1, hk.pending h2, hk.target hs h3⟩
    | pedal p => simpa only [idleEmpty, e.pedal] using hi
  · have hr := h.rest f (e.groups _ b) m
    unfold atRest at *
    rw [e.channelState]
    cases c with
    | key k => exact hr.imp id fun x => ⟨x.1, (e.keys k).pending x.2⟩
    | pedal p => simpa only [nothingPends, e.pedal] using hr

theorem Kept.alike (h : Kept F [] s) (e : DrivesAlike s t) : Kept F [] t := by
  have hcount : t.kickCount = s.kickCount := by simp only [kickCount_eq, e.channelState]
  refine ⟨fun c => (h.each c).alike e, fun f => ?_, fun f => ?_, fun f hlt => ?_⟩
  · simpa only [WaitListOrdered, e.waitList] using h.order f
  · rw [hcount, e.kickSlots]; exact h.slots f
  · rw [e.waitList]; rw [hcount, e.kickSlots] at hlt; exact h.fed f hlt

/-- One key channel changed to one alike. -/
theorem drivesAlike_withKey {r : KeyChannel} (h : KeyAlike (s.key k) r) : DrivesAlike s (s.withKey k r) := by
  refine ⟨fun j => ?_, rfl, rfl, rfl, fun _ => id, rfl⟩
  rw [State.key_withKey]
  split
  · subst j; exact h
  · exact KeyAlike.refl _

theorem drivesAlike_mapKeys {f : Key → KeyChannel → KeyChannel} (h : ∀ k, KeyAlike (s.key k) (f k (s.key k))) :
    DrivesAlike s (s.mapKeys f) :=
  ⟨fun k => by rw [State.key_mapKeys]; exact h k, by simp, by simp, by simp, fun g => by simp [State.faulted], by simp⟩

/-- Changes of the hold reasons move hold-limit watches only. -/
theorem OnlyHolds.drivesAlike (h : OnlyHolds s t) : DrivesAlike s t := by
  obtain ⟨he, hk⟩ := h
  refine ⟨fun k => ?_, by rw [he], by rw [he], by rw [he], fun g => ?_, by rw [he]⟩
  · rw [hk k]; exact ⟨rfl, rfl, rfl, rfl, id, id, fun _ => id⟩
  · rw [he]; exact id

theorem OnlyPaper.sameDrives (h : OnlyPaper s t) : SameDrives s t := by
  rw [h]; exact ⟨rfl, rfl, rfl, rfl, rfl, rfl⟩

/-! A channel between two phases that stand in neither list -/

/-- A channel of no list, not kicking before or after, whose timers fit and which is not IDLE after. -/
theorem Kept.reshape (h : Kept F [] s) (hc : ChangesOnly c s t) (hs : channelState s c = .hold)
    (ht : channelState t c = .release) (htimed : F.form → channelTimed t c) (hfire : t.fireList = s.fireList)
    (hwait : t.waitList = s.waitList) : Kept F [] t := by
  have hf : fireEntries t c = fireEntries s c := by simp only [fireEntries, hfire]
  have hw : waitEntries t c = waitEntries s c := by simp only [waitEntries, hwait]
  refine h.change hc (fun _ _ => Iff.rfl) (by simp [hs]) (by simp [ht]) ?_
    (fun f => waitListOrdered_sublist (h.order f) (by rw [hwait])) fun _ he => hwait.trans he
  refine ⟨by rw [hf, (h.each c).fire]; simp [hs, ht], by rw [hw, (h.each c).wait]; simp [hs, ht], nofun, htimed, ?_,
    fun f b => ?_⟩
  · intro _ _
    cases c <;> intro hi <;> rw [channelState] at ht <;> cases ht.symm.trans hi
  · rw [hc.faulted] at b
    exact absurd ((h.group_ok (by simp) (by simp [hs]) (by simp [hs]) f).symm.trans b) (by simp)

theorem Kept.enterRelease (h : Kept F [] s) (hs : (s.key k).state = .hold) : Kept F [] (s.enterRelease k) := by
  have hkey : (s.enterRelease k).key k = (s.key k).toRelease (s.deviceTime + (s.record k).repeatGap) :=
    State.key_withKey_self ..
  refine h.reshape (changesOnly_withKey ..) hs (by rw [channelState, hkey]; rfl) (fun _ => ?_) rfl rfl
  rw [channelTimed, hkey]
  simp [KeyTimed, KeyChannel.toRelease]

theorem Kept.checkRelease (h : Kept F [] s) : Kept F [] (s.checkRelease k) := by
  unfold State.checkRelease
  split
  case isTrue hd =>
    simp only [State.releaseDue, Bool.and_eq_true, beq_iff_eq] at hd
    exact h.enterRelease hd.1.1
  · exact h

theorem Kept.limitRelease (h : Kept F [] s) (hs : (s.key k).state = .hold) : Kept F [] (s.limitRelease k) :=
  (h.enterRelease hs).alike (drivesAlike_withKey ⟨rfl, rfl, rfl, rfl, fun e => by rw [e]; rfl, id, fun _ => id⟩)

theorem Kept.releasePedal (h : Kept F [] s) (hs : (s.pedal p).state = .hold) : Kept F [] (s.releasePedal p) := by
  have hped : (s.releasePedal p).pedal p = (s.pedal p).toRelease s.deviceTime := State.pedal_withPedal_self ..
  refine h.reshape (changesOnly_withPedal ..) hs (by rw [channelState, hped]; rfl) (fun _ => ?_) rfl rfl
  rw [channelTimed, hped]
  simp [PedalTimed, PedalChannel.toRelease]

/-! Kick ends -/

/-- A channel leaves KICK for HOLD or RELEASE: its slot is free. -/
theorem Kept.leaveKick (h : Kept F [] s) (hc : ChangesOnly c s t) (hs : channelState s c = .kick)
    (ht : channelState t c = .hold ∨ channelState t c = .release) (htimed : F.form → channelTimed t c)
    (hfire : t.fireList = s.fireList) (hwait : t.waitList = s.waitList) : Kept F.unfed [] t := by
  have hf : fireEntries t c = fireEntries s c := by simp only [fireEntries, hfire]
  have hw : waitEntries t c = waitEntries s c := by simp only [waitEntries, hwait]
  have hne {x : ChannelState} (h1 : x ≠ .hold) (h2 : x ≠ .release) : channelState t c ≠ x := by
    rcases ht with e | e <;> rw [e]
    · exact h1.symm
    · exact h2.symm
  refine h.unkick hc (fun _ _ => Iff.rfl) (hne nofun nofun) ⟨?_, ?_, nofun, htimed, ?_, fun f b => ?_⟩ hwait
  · rw [hf, (h.each c).fire]; simp [hs, hne (x := .armed) nofun nofun]
  · rw [hw, (h.each c).wait]; simp [hs, hne (x := .waiting) nofun nofun]
  · intro _ _
    have hi := hne (x := .idle) nofun nofun
    cases c <;> exact fun e => absurd e hi
  · rw [hc.faulted] at b
    exact absurd ((h.group_ok (by simp) (by simp [hs]) (by simp [hs]) f).symm.trans b) (by simp)

theorem Kept.endKick (h : Kept F [] s) (hs : (s.key k).state = .kick) : Kept F.unfed [] (s.endKick k) := by
  unfold State.endKick
  split
  · have hkey : (s.limitRelease k).key k = { (s.key k).toRelease (s.deviceTime + (s.record k).repeatGap) with
        holdReleased := true, current := (s.key k).current.map Note.unreleased } := by
      simp [State.limitRelease, State.enterRelease, KeyChannel.toRelease]
    refine h.leaveKick ((changesOnly_withKey s k _).trans (changesOnly_withKey _ k _)) hs (.inr ?_) (fun _ => ?_) rfl rfl
    · show ((s.limitRelease k).key k).state = .release
      rw [hkey]; rfl
    · show KeyTimed ((s.limitRelease k).key k)
      rw [hkey]; simp [KeyTimed, KeyChannel.toRelease]
  · have hkey : (s.withKey k ((s.key k).toHold s.deviceTime s.tables.settings.minHold (s.record k).holdDuty)).key k
        = (s.key k).toHold s.deviceTime s.tables.settings.minHold (s.record k).holdDuty := State.key_withKey_self ..
    refine h.leaveKick (changesOnly_withKey s k _) hs (.inl ?_) (fun f => ?_) rfl rfl
    · rw [channelState, hkey]; rfl
    · obtain ⟨-, hgap, -, -⟩ := (h.each (.key k)).timed f
      rw [channelTimed, hkey]
      have hgap' : (s.key k).gapEnd.isSome = false := by simpa [hs] using hgap
      simp [KeyTimed, KeyChannel.toHold, hgap']

theorem Kept.endPedalKick (h : Kept F [] s) (hs : (s.pedal p).state = .kick) : Kept F.unfed [] (s.endPedalKick p) := by
  unfold State.endPedalKick
  split
  · have hped : (s.releasePedal p).pedal p = (s.pedal p).toRelease s.deviceTime := State.pedal_withPedal_self ..
    refine h.leaveKick (changesOnly_withPedal s p _) hs (.inr ?_) (fun _ => ?_) rfl rfl
    · rw [channelState, hped]; rfl
    · rw [channelTimed, hped]; simp [PedalTimed, PedalChannel.toRelease]
  · have hped : (s.withPedal p { s.pedal p with state := .hold, kickEnd := none, duty := (s.pedalRecord p).holdDuty }).pedal p
        = { s.pedal p with state := .hold, kickEnd := none, duty := (s.pedalRecord p).holdDuty } :=
      State.pedal_withPedal_self ..
    refine h.leaveKick (changesOnly_withPedal s p _) hs (.inl ?_) (fun _ => ?_) rfl rfl
    · rw [channelState, hped]
    · rw [channelTimed, hped]; simp [PedalTimed]

/-! Notes and presses handed to their channels -/

/-- A channel that keeps its state takes something pending, in an OK group. -/
theorem Kept.revise (h : Kept F [] s) (hc : ChangesOnly c s t) (hstate : channelState t c = channelState s c)
    (htimed : channelTimed t c ↔ channelTimed s c) (hi : channelState s c ≠ .idle)
    (hrest : F.rest → s.faulted c.group = true → atRest t c) (hfire : t.fireList = s.fireList)
    (hwait : t.waitList = s.waitList) : Kept F [] t := by
  have hf : fireEntries t c = fireEntries s c := by simp only [fireEntries, hfire]
  have hw : waitEntries t c = waitEntries s c := by simp only [waitEntries, hwait]
  have hcount : t.kickCount = s.kickCount := by
    have := hc.kickCount
    rw [hstate] at this
    omega
  have hown : ChannelKept F [] t c := by
    refine ⟨by rw [hf, hstate]; exact (h.each c).fire, by rw [hw, hstate]; exact (h.each c).wait, nofun,
      fun f => htimed.2 ((h.each c).timed f), fun _ _ => ?_, fun f b _ => hrest f (by rwa [hc.faulted] at b)⟩
    have ht : channelState t c ≠ .idle := hstate ▸ hi
    cases c <;> exact fun e => absurd e ht
  refine ⟨fun d => ?_, fun f => ?_, fun f => ?_, fun f hlt => ?_⟩
  · by_cases hd : d = c
    · exact hd ▸ hown
    · exact (h.each d).other hc hd Iff.rfl
  · simpa only [WaitListOrdered, hwait] using h.order f
  · rw [hcount, hc.kickSlots]; exact h.slots f
  · rw [hwait]; rw [hcount, hc.kickSlots] at hlt; exact h.fed f hlt

/-- A note-on (R99, R100). -/
theorem Kept.noteOn (h : Kept F [] s) (k : Key) (note : Note) : Kept F [] (s.noteOn k note) := by
  have hdropped : DrivesAlike s (s.withKey k { s.key k with target := .nothing }) :=
    drivesAlike_withKey ⟨rfl, rfl, rfl, rfl, id, id, fun _ _ => rfl⟩
  unfold State.noteOn
  dsimp only
  split
  · exact (h.alike hdropped).bump _
  case isFalse hok =>
    have hok' : s.faulted (keyGroup k) = false := Bool.eq_false_of_not_eq_true hok
    split
    case isTrue hidle =>
      have hloose := h.loose_of_unlisted (c := .key k) (by simp [channelState, hidle]) (by simp [channelState, hidle])
        (by simp [channelState, hidle])
      have hkey : (s.withKey k { s.key k with state := .armed, current := some note, target := .current, holdReleased := false }).key k
          = { s.key k with state := .armed, current := some note, target := .current, holdReleased := false } :=
        State.key_withKey_self ..
      have harmed := hloose.restate
        (changesOnly_withKey s k { s.key k with state := .armed, current := some note, target := .current, holdReleased := false })
        (by rw [channelState, hkey]; simp) (fun f => ?_) rfl rfl
      · exact harmed.armFire (by simp) (by rw [channelState, hkey]) (fun _ => hok') _
      · have htimed := (h.each (.key k)).timed f
        rw [channelTimed, hkey]
        simp_all [channelTimed, KeyTimed]
    case isFalse hbusy =>
      split
      · have hkey : (s.withKey k { s.key k with pending := some note, target := .pending }).key k
            = { s.key k with pending := some note, target := .pending } := State.key_withKey_self ..
        refine h.revise (c := .key k) (changesOnly_withKey ..) (by rw [channelState, hkey]; rfl)
          (by rw [channelTimed, hkey]; rfl) hbusy (fun _ b => absurd (hok'.symm.trans b) (by simp)) rfl rfl
      · exact (h.alike hdropped).bump _

theorem keyAlike_changeNamed (c : KeyChannel) (f : Note → Note) : KeyAlike c (c.changeNamed f) := by
  unfold KeyChannel.changeNamed
  split
  · exact ⟨rfl, rfl, rfl, rfl, id, fun e => by rw [e]; rfl, fun _ => id⟩
  · split
    · exact KeyAlike.refl c
    · exact ⟨rfl, rfl, rfl, rfl, fun e => by rw [e]; rfl, id, fun _ => id⟩
  · exact KeyAlike.refl c

/-- A note-off (R101, R104). -/
theorem Kept.noteOff (h : Kept F [] s) (k : Key) (r : RollTime) : Kept F [] (s.noteOff k r) := by
  have hnamed := h.alike (drivesAlike_withKey (keyAlike_changeNamed (s.key k) fun n => s.catchNote k { n with release := some r }))
  unfold State.noteOff
  dsimp only
  split
  · exact hnamed.checkRelease
  · exact hnamed

theorem Kept.planKey (h : Kept F [] s) (n : Nat) (e : HoleEvent) : Kept F [] (s.planKey n e) := by
  unfold State.planKey
  split
  · split
    · exact h.noteOn ..
    · exact h.noteOff ..
  · exact h

/-- What is kept of any state a fold passes through. -/
theorem Kept.foldl {α : Type} {f : State → α → State} (hf : ∀ {s : State} (a : α), Kept F [] s → Kept F [] (f s a))
    (as : List α) (h : Kept F [] s) : Kept F [] (as.foldl f s) := by
  induction as generalizing s with
  | nil => exact h
  | cons a as ih => exact ih (hf a h)

theorem Kept.planKeys (h : Kept F [] s) (n : Nat) (es : List HoleEvent) : Kept F [] (s.planKeys n es) :=
  (Kept.foldl (fun e h => h.planKey n e) es h).judgeUpTo _

/-- A press (R138). -/
theorem Kept.handPress (h : Kept F [] s) (hok : s.faulted pedalGroup = false) (p : Pedal) (press : Press) :
    Kept F [] (s.handPress p press) := by
  unfold State.handPress
  dsimp only
  split
  case isTrue hidle =>
    obtain ⟨hloose, harmed⟩ := (h.loose_of_unlisted (c := .pedal p) (by simp [channelState, hidle])
      (by simp [channelState, hidle]) (by simp [channelState, hidle])).pressed press
    exact hloose.armFire (by simp) harmed (fun _ => hok) _
  case isFalse hbusy =>
    split
    · have hped : (s.withPedal p { s.pedal p with pending := some press }).pedal p
          = { s.pedal p with pending := some press } := State.pedal_withPedal_self ..
      exact h.revise (c := .pedal p) (changesOnly_withPedal ..) (by rw [channelState, hped]; rfl)
        (by rw [channelTimed, hped]; rfl) hbusy (fun _ b => absurd (hok.symm.trans b) (by simp)) rfl rfl
    · exact h

/-- A pedal channel's press changed in KICK or HOLD. -/
theorem Kept.repress (h : Kept F [] s) {c : PedalChannel} (hstate : c.state = (s.pedal p).state)
    (hduty : c.duty = (s.pedal p).duty) (hi : (s.pedal p).state ≠ .idle)
    (hpend : (s.pedal p).pending = none → c.pending = none) : Kept F [] (s.withPedal p c) := by
  have hped : (s.withPedal p c).pedal p = c := State.pedal_withPedal_self ..
  refine h.revise (c := .pedal p) (changesOnly_withPedal ..) (by rw [channelState, hped]; exact hstate) ?_ hi
    (fun f b => ?_) rfl rfl
  · simp only [channelTimed, hped, PedalTimed, hstate, hduty]
  · rcases (h.each (.pedal p)).rest f b (by simp) with e | ⟨e, e'⟩
    · exact absurd e hi
    · exact .inr ⟨by rw [channelState, hped, hstate]; exact e, by rw [nothingPends, hped]; exact hpend e'⟩

/-- A lift (R139). -/
theorem Kept.handLift (h : Kept F [] s) (p : Pedal) (r : RollTime) : Kept F [] (s.handLift p r) := by
  unfold State.handLift
  dsimp only
  split
  · by_cases hi : (s.pedal p).state = .idle
    · have hloose := h.loose_of_unlisted (c := .pedal p) (by simp [channelState, hi]) (by simp [channelState, hi])
        (by simp [channelState, hi])
      have hped : (s.withPedal p { s.pedal p with pending := none }).pedal p = { s.pedal p with pending := none } :=
        State.pedal_withPedal_self ..
      have hstate : channelState (s.withPedal p { s.pedal p with pending := none }) (.pedal p) = .idle := by
        rw [channelState, hped]; exact hi
      refine hloose.settle (by simp) (changesOnly_withPedal ..) (by simp [hstate]) (by simp [hstate]) (by simp [hstate])
        (fun f => ?_) (fun f => ?_) (fun _ => .inl hstate) rfl rfl
      · rw [channelTimed, hped]; exact (h.each (.pedal p)).timed f
      · rw [idleEmpty, hped]; exact fun e => ⟨((h.each (.pedal p)).empty f (by simp) e).1, rfl⟩
    · exact h.repress rfl rfl hi fun _ => rfl
  · split
    case h_1 ha => exact (h.dropFire (c := .pedal p) ha).liftPedal (by simp)
    case h_2 hw => exact (h.dropWait (c := .pedal p) hw).liftPedal (by simp)
    case h_3 press hk _ =>
      split
      · exact h.repress rfl rfl (by rw [hk]; simp) id
      · exact h
    case h_4 press hk _ =>
      split
      · have hstored := h.repress (p := p) (c := { s.pedal p with current := some { press with lift := some r } })
          rfl rfl (by rw [hk]; simp) id
        split
        · exact hstored.releasePedal (by rw [State.pedal_withPedal_self]; exact hk)
        · exact hstored
      · exact h
    case h_5 => exact h

theorem Kept.formCapture (h : Kept F [] s) (n : Nat) : Kept F [] (s.formCapture n) := by
  unfold State.formCapture
  dsimp only
  refine Kept.alike ?_ (drivesAlike_mapKeys fun k => ?_)
  · exact h.same ⟨rfl, rfl, rfl, rfl, rfl, rfl⟩
  split
  · exact keyAlike_changeNamed _ _
  · exact KeyAlike.refl _

theorem Kept.planPress (h : Kept F [] s) (p : Pedal) (n : Nat) : Kept F [] (s.planPress p n) := by
  unfold State.planPress
  split
  · exact h
  case isFalse hok =>
    have hput : Kept F [] (s.putPlanned p true) := h.same ⟨rfl, rfl, rfl, rfl, rfl, rfl⟩
    have hpress := hput.handPress (Bool.eq_false_of_not_eq_true hok) p
      ⟨n, rollSub (s.due n) (s.pedalRecord p).lead, (s.pedalRecord p).kick, none⟩
    dsimp only
    split
    · exact hpress.formCapture n
    · exact hpress

theorem Kept.planLift (h : Kept F [] s) (p : Pedal) (n : Nat) : Kept F [] (s.planLift p n) := by
  unfold State.planLift
  split
  · exact h
  · have hput : Kept F [] (s.putPlanned p false) := h.same ⟨rfl, rfl, rfl, rfl, rfl, rfl⟩
    have hlift := hput.handLift p (rollSub (s.due n) (s.pedalRecord p).releaseLead)
    dsimp only
    split
    · exact hlift.same ⟨rfl, rfl, rfl, rfl, rfl, rfl⟩
    · exact hlift

theorem Kept.planPedal (h : Kept F [] s) (n : Nat) (e : HoleEvent) : Kept F [] (s.planPedal n e) := by
  unfold State.planPedal
  split
  · split
    · exact h.planPress ..
    · exact h.planLift ..
  · exact h

theorem sameDrives_closeWindow (s : State) (n : Nat) : SameDrives s (s.closeWindow n) := by
  unfold State.closeWindow
  split
  · split <;> exact ⟨rfl, rfl, rfl, rfl, rfl, rfl⟩
  · exact ⟨rfl, rfl, rfl, rfl, rfl, rfl⟩

theorem Kept.planPedals (h : Kept F [] s) (n : Nat) (es : List HoleEvent) : Kept F [] (s.planPedals n es) := by
  refine Kept.judgeUpTo (Kept.foldl (fun e h => h.planPedal n e) es ?_) _
  exact h.same ((sameDrives_closeWindow s n).trans ⟨rfl, rfl, rfl, rfl, rfl, rfl⟩)

/-! The close of the roll and the planned line -/

theorem Kept.closeKey (h : Kept F [] s) (k : Key) (n : Nat) : Kept F [] (s.closeKey k n) := by
  have hnotes (f : Note → Note) : Kept F [] (s.withKey k { s.key k with
      current := if (s.key k).holdReleased then (s.key k).current else (s.key k).current.map f
      pending := (s.key k).pending.map f }) :=
    h.alike (drivesAlike_withKey ⟨rfl, rfl, rfl, rfl, fun e => by simp [e], fun e => by simp [e], fun _ => id⟩)
  have hroll {u : State} (hu : Kept F [] u) (b : Bool) : Kept F [] (if b then
      { u with pedalUnit := { u.pedalUnit with rollKeys := u.pedalUnit.rollKeys.set k.val false k.isLt } } else u) := by
    split
    · exact hu.same ⟨rfl, rfl, rfl, rfl, rfl, rfl⟩
    · exact hu
  unfold State.closeKey
  dsimp only
  split
  · exact (hroll (hnotes _) _).checkRelease
  · exact hroll (hnotes _) _

theorem Kept.enterEnding (h : Kept F [] s) (n : Nat) : Kept F [] (s.enterEnding n) := by
  unfold State.enterEnding
  refine Kept.foldl (fun p h => ?_) allPedals (Kept.foldl (fun k h => h.closeKey k n) allKeys ?_)
  · split
    · exact h.planLift ..
    · exact h
  · exact (h.alike (onlyHolds_changeHolds s s.roll.operator false).drivesAlike).same ⟨rfl, rfl, rfl, rfl, rfl, rfl⟩

theorem Kept.planNext (h : Kept F [] s) : Kept F [] s.planNext := by
  have hqueue : SameDrives s (State.planExpression { s with holes := { s.holes with
      queue := s.holes.queue.dropWhile fun e => e.line == s.nextLine } } s.nextLine s.nextEvents) :=
    ⟨rfl, rfl, rfl, rfl, rfl, rfl⟩
  have hplanned := (((h.same hqueue).planPedals s.nextLine s.nextEvents).planKeys s.nextLine s.nextEvents).alike
    (onlyHolds_advancePlan _ s.nextLine).drivesAlike
  unfold State.planNext
  dsimp only
  split
  · exact hplanned.enterEnding _
  · exact hplanned

/-! Every channel at rest -/

/-- With both lists empty and every channel at rest everything is kept that the records' form allows. -/
theorem Kept.allAtRest (hfire : t.fireList = []) (hwait : t.waitList = []) (hrest : ∀ c, atRest t c)
    (hform : F.form → ∀ c, channelTimed t c ∧ idleEmpty t c) : Kept F [] t := by
  have hstate (c : Channel) : channelState t c ≠ .armed ∧ channelState t c ≠ .waiting ∧ channelState t c ≠ .kick := by
    rcases hrest c with e | ⟨e, -⟩ <;> simp [e]
  have hcount : t.kickCount = 0 := by
    rw [kickCount_eq, List.countP_eq_zero]
    exact fun c _ => by simpa using (hstate c).2.2
  refine ⟨fun c => ?_, fun _ => ?_, fun _ => by omega, fun _ _ => hwait⟩
  · exact ⟨by simp [fireEntries, hfire, hstate c], by simp [waitEntries, hwait, hstate c], nofun,
      fun f => (hform f c).1, fun f _ => (hform f c).2, fun _ _ _ => hrest c⟩
  · rw [WaitListOrdered, hwait]; exact ⟨List.Pairwise.nil, nofun⟩

/-- With every channel as after power-on. -/
theorem Kept.allFresh (hfire : t.fireList = []) (hwait : t.waitList = [])
    (hkeys : ∀ k, ∃ heat, t.key k = { KeyChannel.fresh with heat := heat }) (hpedals : ∀ p, t.pedal p = PedalChannel.fresh) :
    Kept F [] t := by
  refine Kept.allAtRest hfire hwait (fun c => .inl ?_) fun _ c => ?_
  · cases c with
    | key k => obtain ⟨heat, e⟩ := hkeys k; rw [channelState, e]; rfl
    | pedal p => rw [channelState, hpedals p]; rfl
  · cases c with
    | key k =>
      obtain ⟨heat, e⟩ := hkeys k
      rw [channelTimed, idleEmpty, e]
      simp [KeyTimed, KeyChannel.fresh]
    | pedal p => rw [channelTimed, idleEmpty, hpedals p]; simp [PedalTimed, PedalChannel.fresh]

theorem key_powered (now next i : Nat) (b : Bool) (fl : Vector Bool 12) (w : Tables) (st : Store) (q : List Instr) (k : Key) :
    (State.powered now next i b fl w st q).key k = KeyChannel.fresh := by
  simp [State.key, State.powered]

theorem pedal_powered (now next i : Nat) (b : Bool) (fl : Vector Bool 12) (w : Tables) (st : Store) (q : List Instr)
    (p : Pedal) : (State.powered now next i b fl w st q).pedal p = PedalChannel.fresh := by
  simp [State.pedal, State.powered]

theorem Kept.bringUp (now next : Nat) : Kept F [] (s.bringUp now next) :=
  Kept.allFresh rfl rfl (fun _ => ⟨0, key_powered ..⟩) fun _ => pedal_powered ..

theorem Kept.assertReset : Kept F [] s.assertReset := by
  have hkey (k : Key) : s.assertReset.key k = { KeyChannel.fresh with heat := (s.key k).heat } := by
    simp [State.assertReset, State.key, State.mapKeys, State.mapPedals]
  have hped (p : Pedal) : s.assertReset.pedal p = PedalChannel.fresh := by
    simp [State.assertReset, State.pedal, State.mapKeys, State.mapPedals]
  exact Kept.allFresh rfl rfl (fun k => ⟨_, hkey k⟩) hped

/-- A key channel after a sweep is IDLE as it was, or in RELEASE with nothing pending. -/
theorem swept_cases (c : KeyChannel) (e : Nat) :
    (c.state = .idle ∧ c.swept e = c) ∨ ((c.swept e).state = .release ∧ (c.swept e).pending = none ∧
      (KeyTimed c → KeyTimed (c.swept e))) := by
  cases h : c.state with
  | idle => exact .inl ⟨rfl, by simp [KeyChannel.swept, h]⟩
  | release =>
    exact .inr ⟨by simp [KeyChannel.swept, h], by simp [KeyChannel.swept, h],
      fun ht => by simp_all [KeyTimed, KeyChannel.swept]⟩
  | _ =>
    exact .inr ⟨by simp [KeyChannel.swept, h, KeyChannel.toRelease], by simp [KeyChannel.swept, h],
      fun _ => by simp [KeyTimed, KeyChannel.swept, h, KeyChannel.toRelease]⟩

theorem sweptPedal_cases (c : PedalChannel) (now : Nat) :
    (c.state = .idle ∧ c.swept now = c) ∨ ((c.swept now).state = .release ∧ (c.swept now).pending = none ∧
      (PedalTimed c → PedalTimed (c.swept now))) := by
  cases h : c.state with
  | idle => exact .inl ⟨rfl, by simp [PedalChannel.swept, h]⟩
  | release =>
    exact .inr ⟨by simp [PedalChannel.swept, h], by simp [PedalChannel.swept, h],
      fun ht => by simp_all [PedalTimed, PedalChannel.swept]⟩
  | _ =>
    exact .inr ⟨by simp [PedalChannel.swept, h, PedalChannel.toRelease], by simp [PedalChannel.swept, h],
      fun _ => by simp [PedalTimed, PedalChannel.swept, h, PedalChannel.toRelease]⟩

theorem Kept.stopChannels (h : Kept F [] s) : Kept F [] s.stopChannels := by
  refine Kept.allAtRest rfl rfl (fun c => ?_) fun f c => ?_
  · cases c with
    | key k =>
      rw [atRest, channelState, nothingPends, stopChannels_key]
      rcases swept_cases (s.key k) (s.deviceTime + (s.record k).repeatGap) with ⟨h1, h2⟩ | ⟨h1, h2, -⟩
      · exact .inl (by simp only [KeyChannel.stopped, h2]; exact h1)
      · exact .inr ⟨h1, h2⟩
    | pedal p =>
      rw [atRest, channelState, nothingPends, stopChannels_pedal]
      rcases sweptPedal_cases (s.pedal p) s.deviceTime with ⟨h1, h2⟩ | ⟨h1, h2, -⟩
      · exact .inl (by rw [h2]; exact h1)
      · exact .inr ⟨h1, h2⟩
  · have htimed := (h.each c).timed f
    have hempty := (h.each c).empty f (by simp)
    cases c with
    | key k =>
      rw [channelTimed, idleEmpty, stopChannels_key]
      rcases swept_cases (s.key k) (s.deviceTime + (s.record k).repeatGap) with ⟨h1, h2⟩ | ⟨h1, h2, h3⟩
      · simp only [KeyChannel.stopped, h2]
        exact ⟨htimed, fun e => ⟨(hempty e).1, (hempty e).2.1, trivial⟩⟩
      · exact ⟨h3 htimed, fun e => by cases h1.symm.trans e⟩
    | pedal p =>
      rw [channelTimed, idleEmpty, stopChannels_pedal]
      rcases sweptPedal_cases (s.pedal p) s.deviceTime with ⟨h1, h2⟩ | ⟨h1, h2, h3⟩
      · rw [h2]; exact ⟨htimed, hempty⟩
      · exact ⟨h3 htimed, fun e => by cases h1.symm.trans e⟩

theorem OnlyStopped.sameDrives (h : OnlyStopped s t) : SameDrives s.stopChannels t := by
  unfold OnlyStopped at h
  generalize s.stopChannels = x at *
  rw [h]; exact ⟨rfl, rfl, rfl, rfl, rfl, rfl⟩

theorem Kept.stopped (h : Kept F [] s) (ht : OnlyStopped s t) : Kept F [] t := h.stopChannels.same ht.sameDrives

/-! A group's fault -/

/-- The records of a group's channels after its sweep (R110, R129, R144). -/
theorem sweepGroup_channels (s : State) (g : Group) :
    (∀ k, (s.sweepGroup g).key k
        = if keyGroup k = g then (s.key k).swept (s.deviceTime + (s.record k).repeatGap) else s.key k)
      ∧ (∀ p, (s.sweepGroup g).pedal p = if g = pedalGroup then (s.pedal p).swept s.deviceTime else s.pedal p) := by
  have hkeys (k : Key) : (((s.bumpBy .faultDrop (s.faultDrops g)).mapKeys fun k c =>
      if keyGroup k = g then c.swept (s.deviceTime + (s.record k).repeatGap) else c)).key k
        = if keyGroup k = g then (s.key k).swept (s.deviceTime + (s.record k).repeatGap) else s.key k := by
    rw [State.key_mapKeys]; rfl
  unfold State.sweepGroup
  dsimp only
  split
  · refine ⟨hkeys, fun p => ?_⟩
    exact State.pedal_mapPedals ..
  · exact ⟨hkeys, fun p => rfl⟩

/-- What a sweep leaves of the two lists and of the other records. -/
theorem sweepGroup_rest (s : State) (g : Group) :
    (s.sweepGroup g).fireList = s.fireList.filter (fun e => !e.channel.inGroup g)
      ∧ (s.sweepGroup g).waitList = s.waitList.filter (fun e => !e.channel.inGroup g)
      ∧ (s.sweepGroup g).groupFaulted = s.groupFaulted ∧ (s.sweepGroup g).tables = s.tables := by
  unfold State.sweepGroup
  generalize hx : (s.bumpBy .faultDrop (s.faultDrops g)).mapKeys _ = x
  have hlists : x.fireList = s.fireList ∧ x.waitList = s.waitList ∧ x.groupFaulted = s.groupFaulted
      ∧ x.tables = s.tables := by
    rw [← hx]; simp
  obtain ⟨h1, h2, h3, h4⟩ := hlists
  rw [← h1, ← h2, ← h3, ← h4]
  split <;> exact ⟨rfl, rfl, rfl, rfl⟩

theorem inGroup_iff (c : Channel) (g : Group) : c.inGroup g = true ↔ c.group = g := by
  cases c <;> exact beq_iff_eq.trans eq_comm

/-- A channel of a swept group is at rest; one of another group is as before. -/
theorem sweepGroup_state (s : State) (g : Group) (c : Channel) :
    (c.group = g → atRest (s.sweepGroup g) c)
      ∧ (c.group ≠ g → channelState (s.sweepGroup g) c = channelState s c
          ∧ (channelTimed (s.sweepGroup g) c ↔ channelTimed s c) ∧ (idleEmpty (s.sweepGroup g) c ↔ idleEmpty s c)
          ∧ (nothingPends (s.sweepGroup g) c ↔ nothingPends s c)) := by
  obtain ⟨hkeys, hpedals⟩ := sweepGroup_channels s g
  cases c with
  | key k =>
    refine ⟨fun hg => ?_, fun hg => ?_⟩
    · have e := hkeys k
      rw [if_pos (show keyGroup k = g from hg)] at e
      rw [atRest, channelState, nothingPends, e]
      rcases swept_cases (s.key k) (s.deviceTime + (s.record k).repeatGap) with ⟨h1, h2⟩ | ⟨h1, h2, -⟩
      · exact .inl (by rw [h2]; exact h1)
      · exact .inr ⟨h1, h2⟩
    · have e := hkeys k
      rw [if_neg (show keyGroup k ≠ g from hg)] at e
      simp only [channelState, channelTimed, idleEmpty, nothingPends, e, and_self, iff_self]
  | pedal p =>
    refine ⟨fun hg => ?_, fun hg => ?_⟩
    · have e := hpedals p
      rw [if_pos (show g = pedalGroup from hg.symm)] at e
      rw [atRest, channelState, nothingPends, e]
      rcases sweptPedal_cases (s.pedal p) s.deviceTime with ⟨h1, h2⟩ | ⟨h1, h2, -⟩
      · exact .inl (by rw [h2]; exact h1)
      · exact .inr ⟨h1, h2⟩
    · have e := hpedals p
      rw [if_neg (show g ≠ pedalGroup from Ne.symm hg)] at e
      simp only [channelState, channelTimed, idleEmpty, nothingPends, e, and_self, iff_self]

/-- A sweep keeps the form of the channels it moves. -/
theorem sweepGroup_form (s : State) (g : Group) (c : Channel) (htimed : channelTimed s c) (hempty : idleEmpty s c) :
    channelTimed (s.sweepGroup g) c ∧ idleEmpty (s.sweepGroup g) c := by
  obtain ⟨hkeys, hpedals⟩ := sweepGroup_channels s g
  by_cases hg : c.group = g
  · cases c with
    | key k =>
      have e := hkeys k
      rw [if_pos (show keyGroup k = g from hg)] at e
      rw [channelTimed, idleEmpty, e]
      rcases swept_cases (s.key k) (s.deviceTime + (s.record k).repeatGap) with ⟨h1, h2⟩ | ⟨h1, h2, h3⟩
      · rw [h2]; exact ⟨htimed, hempty⟩
      · exact ⟨h3 htimed, fun x => by cases h1.symm.trans x⟩
    | pedal p =>
      have e := hpedals p
      rw [if_pos (show g = pedalGroup from hg.symm)] at e
      rw [channelTimed, idleEmpty, e]
      rcases sweptPedal_cases (s.pedal p) s.deviceTime with ⟨h1, h2⟩ | ⟨h1, h2, h3⟩
      · rw [h2]; exact ⟨htimed, hempty⟩
      · exact ⟨h3 htimed, fun x => by cases h1.symm.trans x⟩
  · obtain ⟨-, ht, hi, -⟩ := (sweepGroup_state s g c).2 hg
    exact ⟨ht.2 htimed, hi.2 hempty⟩

/-- After the sweep of a group that has become FAULTED the slots it freed are still to be handed on. -/
theorem Kept.sweep (h : Kept F [] s) (g : Group) :
    Kept F.unfed [] (((s.setFaulted g true).bump .groupFault).sweepGroup g) := by
  have hu : SameDrives s { (s.setFaulted g true).bump .groupFault with groupFaulted := s.groupFaulted } :=
    ⟨rfl, rfl, rfl, rfl, rfl, rfl⟩
  have hfault (j : Group) (hj : j ≠ g) : ((s.setFaulted g true).bump .groupFault).faulted j = s.faulted j := by
    have : g.val ≠ j.val := fun e => hj (Fin.ext e.symm)
    simp [State.faulted, State.setFaulted, this]
  generalize hx : (s.setFaulted g true).bump .groupFault = x at *
  have hstate (c : Channel) : channelState x c = channelState s c := by rw [← hx]; cases c <;> rfl
  have htimed (c : Channel) : channelTimed x c ↔ channelTimed s c := by rw [← hx]; cases c <;> rfl
  have hempty (c : Channel) : idleEmpty x c ↔ idleEmpty s c := by rw [← hx]; cases c <;> rfl
  have hpends (c : Channel) : nothingPends x c ↔ nothingPends s c := by rw [← hx]; cases c <;> rfl
  have hlists : x.fireList = s.fireList ∧ x.waitList = s.waitList ∧ x.tables = s.tables := by
    rw [← hx]; exact ⟨rfl, rfl, rfl⟩
  obtain ⟨hfire, hwait, hgroups, htables⟩ := sweepGroup_rest x g
  have hrested {c : Channel} (hc : c.group = g) :
      channelState (x.sweepGroup g) c ≠ .armed ∧ channelState (x.sweepGroup g) c ≠ .waiting
        ∧ channelState (x.sweepGroup g) c ≠ .kick := by
    rcases (sweepGroup_state x g c).1 hc with e | ⟨e, -⟩ <;> simp [e]
  have hgroup {c d : Channel} (e : d = c) : d.inGroup g = c.inGroup g := by rw [e]
  refine ⟨fun c => ⟨?_, ?_, nofun, fun f => ?_, fun f m => ?_, fun f b _ => ?_⟩, fun f => ?_, fun f => ?_, False.elim⟩
  · have hcount : fireEntries (x.sweepGroup g) c = if c.group = g then 0 else fireEntries s c := by
      simp only [fireEntries, hfire, hlists.1, List.countP_filter]
      split
      case isTrue hc =>
        refine List.countP_eq_zero.2 fun e _ => ?_
        have := (inGroup_iff c g).2 hc
        simp only [Bool.and_eq_true, beq_iff_eq, Bool.not_eq_true', not_and]
        rintro rfl; simp [this]
      case isFalse hc =>
        refine List.countP_congr fun e _ => ?_
        have hn : c.inGroup g = false := Bool.eq_false_of_not_eq_true fun x => hc ((inGroup_iff c g).1 x)
        simp only [Bool.and_eq_true, beq_iff_eq, Bool.not_eq_true']
        exact ⟨fun h => h.1, fun h => ⟨h, by rw [h, hn]⟩⟩
    rw [hcount]
    split
    · simp [(hrested ‹_›).1]
    case isFalse hc =>
      rw [((sweepGroup_state x g c).2 hc).1, hstate]
      exact (h.each c).fire
  · have hcount : waitEntries (x.sweepGroup g) c = if c.group = g then 0 else waitEntries s c := by
      simp only [waitEntries, hwait, hlists.2.1, List.countP_filter]
      split
      case isTrue hc =>
        refine List.countP_eq_zero.2 fun e _ => ?_
        have := (inGroup_iff c g).2 hc
        simp only [Bool.and_eq_true, beq_iff_eq, Bool.not_eq_true', not_and]
        rintro rfl; simp [this]
      case isFalse hc =>
        refine List.countP_congr fun e _ => ?_
        have hn : c.inGroup g = false := Bool.eq_false_of_not_eq_true fun x => hc ((inGroup_iff c g).1 x)
        simp only [Bool.and_eq_true, beq_iff_eq, Bool.not_eq_true']
        exact ⟨fun h => h.1, fun h => ⟨h, by rw [h, hn]⟩⟩
    rw [hcount]
    split
    · simp [(hrested ‹_›).2.1]
    case isFalse hc =>
      rw [((sweepGroup_state x g c).2 hc).1, hstate]
      exact (h.each c).wait
  · exact (sweepGroup_form x g c ((htimed c).2 ((h.each c).timed f)) ((hempty c).2 ((h.each c).empty f (by simp)))).1
  · exact (sweepGroup_form x g c ((htimed c).2 ((h.each c).timed f)) ((hempty c).2 ((h.each c).empty f m))).2
  · by_cases hc : c.group = g
    · exact (sweepGroup_state x g c).1 hc
    · obtain ⟨e1, -, -, e2⟩ := (sweepGroup_state x g c).2 hc
      have hb : s.faulted c.group = true := by
        rw [← hfault _ hc]
        simpa only [State.faulted, hgroups] using b
      have hr := (h.each c).rest f hb (by simp)
      rw [atRest] at hr ⊢
      rwa [e1, hstate, e2, hpends]
  · refine waitListOrdered_sublist (h.order f) ?_
    rw [hwait, hlists.2.1]
    exact List.filter_sublist
  · have hle : (x.sweepGroup g).kickCount ≤ s.kickCount := by
      rw [kickCount_eq, kickCount_eq]
      refine List.countP_mono_left fun c _ hk => ?_
      have hk' : channelState (x.sweepGroup g) c = .kick := by simpa using hk
      have hc : c.group ≠ g := fun hc => (hrested hc).2.2 hk'
      rw [((sweepGroup_state x g c).2 hc).1, hstate] at hk'
      simpa using hk'
    rw [htables, hlists.2.2]
    exact hle.trans (h.slots f)

theorem Kept.raiseFault (h : Kept F [] s) (g : Group) : Kept F [] (s.raiseFault g) := by
  unfold State.raiseFault
  split
  · exact h.bump _
  · exact (h.sweep g).handOn

end Sys2Proof.Machine
end

section
/-! PROOFS. The four invariants of the drive channels, O53 to O56, from the effects of a step. -/

namespace Sys2Proof.Machine

open Sys2Proof.Safety

variable {s t u : State} {F : Claims} {c : Channel} {k : Key} {p : Pedal}

/-! Sense watches -/

theorem drivesAlike_closeSense (s : State) (k : Key) : DrivesAlike s (s.closeSense k) :=
  drivesAlike_withKey ⟨rfl, rfl, rfl, rfl, id, id, fun _ => id⟩

theorem sameDrives_senseMatch (s : State) (k : Key) (e : Int) : SameDrives s (s.senseMatch k e) := by
  unfold State.senseMatch
  split <;> exact ⟨rfl, rfl, rfl, rfl, rfl, rfl⟩

theorem sameDrives_senseMiss (s : State) (k : Key) : SameDrives s (s.senseMiss k) := by
  unfold State.senseMiss
  dsimp only
  split <;> exact ⟨rfl, rfl, rfl, rfl, rfl, rfl⟩

theorem Kept.judgeEdge (h : Kept F [] s) (k : Key) : Kept F [] (s.judgeEdge k) := by
  unfold State.judgeEdge
  split
  · exact h.bump _
  · dsimp only
    split
    · exact (h.alike (drivesAlike_closeSense s k)).bump _
    · exact (h.alike (drivesAlike_closeSense s k)).same (sameDrives_senseMatch ..)

theorem Kept.reachDeadline (h : Kept F [] s) (k : Key) : Kept F [] (s.reachDeadline k) := by
  unfold State.reachDeadline
  split
  · exact (h.alike (drivesAlike_closeSense s k)).same (sameDrives_senseMiss ..)
  · exact h.alike (drivesAlike_closeSense s k)

theorem Kept.passDeadlines (h : Kept F [] s) : Kept F [] s.passDeadlines := by
  refine Kept.foldl (fun k h => ?_) allKeys h
  split
  · exact h.reachDeadline k
  · exact h

/-! A TABLE WRITE -/

theorem allIdle_iff (s : State) : s.allIdle = true ↔ ∀ c, channelState s c = .idle := by
  unfold State.allIdle
  simp only [Bool.and_eq_true, List.all_eq_true, beq_iff_eq]
  refine ⟨fun h c => ?_, fun h => ⟨fun k _ => h (.key k), fun p _ => h (.pedal p)⟩⟩
  cases c with
  | key k => exact h.1 k (List.mem_finRange k)
  | pedal p => exact h.2 p (by cases p <;> simp [allPedals])

/-- While every channel is IDLE both lists are empty. -/
theorem Kept.lists_nil (h : Kept F [] s) (hi : ∀ c, channelState s c = .idle) : s.fireList = [] ∧ s.waitList = [] := by
  refine ⟨List.eq_nil_iff_forall_not_mem.2 fun e he => ?_, List.eq_nil_iff_forall_not_mem.2 fun e he => ?_⟩
  · have := (h.each e.channel).fire
    rw [hi, if_neg (by simp), fireEntries, List.countP_eq_zero] at this
    simpa using this e he
  · have := (h.each e.channel).wait
    rw [hi, if_neg (by simp), waitEntries, List.countP_eq_zero] at this
    simpa using this e he

/-- With every channel IDLE everything is kept, whatever becomes of the tables. -/
theorem Kept.retabled (h : Kept F [] s) (hi : ∀ c, channelState s c = .idle) (w : Tables) :
    Kept F [] { s with tables := w } := by
  obtain ⟨hfire, hwait⟩ := h.lists_nil hi
  refine Kept.allAtRest hfire hwait (fun c => .inl (hi c)) fun f c => ?_
  have hform : channelTimed s c ∧ idleEmpty s c := ⟨(h.each c).timed f, (h.each c).empty f (by simp)⟩
  cases c <;> exact hform

theorem Kept.afterWrite {n : TableName} {w : Tables} (h : Kept F [] s) (hbar : s.tableBar n = none)
    (hw : OnlyTable n s.tables w) : Kept F [] (State.afterWrite { s with tables := w } n) := by
  by_cases hn : n = .settings
  · subst hn
    have hi : s.allIdle = true := by
      by_contra hni
      simp only [State.tableBar, if_neg hni] at hbar
      split at hbar <;> cases hbar
    refine ((h.retabled ((allIdle_iff s).1 hi) w).alike (drivesAlike_mapKeys fun k => ?_)).passDeadlines
    exact ⟨rfl, rfl, rfl, rfl, id, id, fun _ => id⟩
  · have hsame : SameDrives s { s with tables := w } :=
      ⟨rfl, rfl, rfl, rfl, rfl, congrArg Settings.kickSlots (hw.settings hn)⟩
    refine h.same (hsame.trans ?_)
    unfold State.afterWrite
    split <;> first | exact absurd rfl hn | exact ⟨rfl, rfl, rfl, rfl, rfl, rfl⟩

/-! The effects -/

theorem Kept.answered (h : Kept F [] s) (ht : Answered s t) : Kept F [] t := by
  cases ht with
  | nothing => exact h
  | rollStart line tempo m _ =>
    refine h.same ?_
    unfold State.startRoll
    split
    · exact ⟨rfl, rfl, rfl, rfl, rfl, rfl⟩
    · dsimp only
      split <;> exact ⟨rfl, rfl, rfl, rfl, rfl, rfl⟩
  | rollStop _ => exact h.stopped (onlyStopped_stopRoll s)
  | pause _ => exact h.alike (onlyHolds_setHolds ..).drivesAlike
  | resume _ => exact h.alike (onlyHolds_setHolds ..).drivesAlike
  | tempoLeader tempo _ => exact h.same ⟨rfl, rfl, rfl, rfl, rfl, rfl⟩
  | tempoPlaying e tempo now _ _ _ =>
    refine Kept.alike (h.same ?_) (onlyHolds_checkEpisode _).drivesAlike
    exact ⟨rfl, rfl, rfl, rfl, rfl, rfl⟩
  | tableWrite table start count entries n w _ _ _ hbar hw _ => exact h.afterWrite hbar (onlyTable_writeRun hw)
  | statusQuery => exact h.same ⟨rfl, rfl, rfl, rfl, rfl, rfl⟩
  | countersRead => exact h.same ⟨rfl, rfl, rfl, rfl, rfl, rfl⟩
  | faultClear mask =>
    refine h.alike ⟨fun _ => KeyAlike.refl _, rfl, rfl, rfl, fun g => ?_, rfl⟩
    simp only [State.clearFaults, State.faulted, Vector.getElem_ofFn, Bool.and_eq_true]
    exact And.left
  | keyTest k velocity _ hidle =>
    have hloose := h.loose_of_unlisted (c := .key k) (by simp [channelState, hidle]) (by simp [channelState, hidle])
      (by simp [channelState, hidle])
    have hkey : (s.withKey k { s.key k with current := some (testNote (s.record k) velocity), holdReleased := false }).key k
        = { s.key k with current := some (testNote (s.record k) velocity), holdReleased := false } :=
      State.key_withKey_self ..
    refine (hloose.restate (changesOnly_withKey s k _) ?_ (fun f => ?_) rfl rfl).fireLast (by simp) (.inl ?_)
    · rw [channelState, hkey]; simp [hidle]
    · rw [channelTimed, hkey]; exact (h.each (.key k)).timed f
    · rw [hkey]; exact hidle
  | storeProtect mask value => exact h.same ⟨rfl, rfl, rfl, rfl, rfl, rfl⟩
  | storeLock value => exact h.same ⟨rfl, rfl, rfl, rfl, rfl, rfl⟩

theorem sameDrives_takeByte (s : State) : SameDrives s s.takeByte := by
  unfold State.takeByte
  split <;> exact ⟨rfl, rfl, rfl, rfl, rfl, rfl⟩

theorem sameDrives_sendNext (s : State) : SameDrives s s.sendNext := by
  unfold State.sendNext
  split <;> exact ⟨rfl, rfl, rfl, rfl, rfl, rfl⟩

theorem Kept.cool (h : Kept F [] s) : Kept F [] s.cool := by
  refine h.alike ⟨fun k => ?_, ?_, ?_, ?_, fun g => ?_, ?_⟩
  · rw [State.key_cool]; exact ⟨rfl, rfl, rfl, rfl, id, id, fun _ => id⟩
  all_goals rw [State.cool_eq]
  exact id

/-- The head of the Fire List is the channel that a fire event names. -/
theorem fireList_of_due {e : Channel} {l : List FireEntry} {now : RollTime}
    (h : (match l with
      | x :: _ => x.channel == e && reached now x.time
      | [] => false) = true) : ∃ x xs, l = x :: xs ∧ x.channel = e := by
  cases l with
  | nil => cases h
  | cons x xs => exact ⟨x, xs, rfl, by simpa using (Bool.and_eq_true_iff.1 h).1⟩

theorem Kept.keyFire (h : Kept F [] s) (hd : s.keyFireDue k = true) :
    Kept F [] (State.fireKey { s with fireList := s.fireList.drop 1 } k) := by
  simp only [State.keyFireDue, Bool.and_eq_true, beq_iff_eq] at hd
  obtain ⟨x, xs, hl, hx⟩ := fireList_of_due hd.2
  have hloose := h.dropFireHead hl (by rw [hx]; exact hd.1)
  rw [hl]
  rw [hx] at hloose
  exact h.fireArmedKey hd.1 hloose rfl rfl

theorem Kept.pedalFire (h : Kept F [] s) (hd : s.pedalFireDue p = true) :
    Kept F [] (State.firePedal { s with fireList := s.fireList.drop 1 } p) := by
  simp only [State.pedalFireDue, Bool.and_eq_true, beq_iff_eq] at hd
  obtain ⟨x, xs, hl, hx⟩ := fireList_of_due hd.2
  have hloose := h.dropFireHead hl (by rw [hx]; exact hd.1)
  rw [hl]
  rw [hx] at hloose
  exact h.fireArmedPedal hd.1 hloose rfl rfl

theorem Kept.effect (h : Kept F [] s) (ht : Effect s t) : Kept F [] t := by
  have hframe : Kept F [] s.validFrame := h.same ⟨rfl, rfl, rfl, rfl, rfl, rfl⟩
  cases ht with
  | same => exact h
  | powerOn => exact Kept.bringUp 0 1000
  | resetReleased => exact Kept.bringUp s.deviceTime s.nextCool
  | resetAsserted => exact Kept.assertReset
  | powerFail =>
    have hon : Kept F [] (State.powered 0 1000 s.freeIndex s.setupLock s.faultLines defaultTables s.store.loseOp s.pending) :=
      Kept.allFresh rfl rfl (fun _ => ⟨0, key_powered ..⟩) fun _ => pedal_powered ..
    exact hon.same ⟨rfl, rfl, rfl, rfl, rfl, rfl⟩
  | headerError => exact h.same ⟨rfl, rfl, rfl, rfl, rfl, rfl⟩
  | payloadError => exact h.same ⟨rfl, rfl, rfl, rfl, rfl, rfl⟩
  | frameCounted c => exact hframe.bump c
  | arrived n px _ _ _ =>
    rw [arrive_eq]
    refine Kept.alike ((hframe.same (onlyPaper_lines _ n px).sameDrives).same ?_) (onlyHolds_checkEpisode _).drivesAlike
    exact ⟨rfl, rfl, rfl, rfl, rfl, rfl⟩
  | answered tag code r data _ ht =>
    refine Kept.answered ?_ ht
    exact hframe.same ⟨rfl, rfl, rfl, rfl, rfl, rfl⟩
  | opStarted kind r tag time _ _ _ _ => exact hframe.same ⟨rfl, rfl, rfl, rfl, rfl, rfl⟩
  | linkReset tag => exact h.stopped (onlyStopped_linkReset s tag)
  | leaderMax _ => exact h.same ⟨rfl, rfl, rfl, rfl, rfl, rfl⟩
  | saveComplete good o copy _ => exact h.same ⟨rfl, rfl, rfl, rfl, rfl, rfl⟩
  | lockdownComplete good o _ => exact h.same ⟨rfl, rfl, rfl, rfl, rfl, rfl⟩
  | returnSend => exact h.same (sameDrives_sendNext s)
  | linkAliveExpiry => exact h.same ⟨rfl, rfl, rfl, rfl, rfl, rfl⟩
  | abandon _ => exact (h.bump .abandoned).stopped (onlyStopped_stopRoll _)
  | planLine _ => exact h.planNext
  | starveEpisodeStart _ => exact h.same ⟨rfl, rfl, rfl, rfl, rfl, rfl⟩
  | starveHold _ => exact (h.bump .starveHold).alike (onlyHolds_setHolds ..).drivesAlike
  | limitRelease k hs => exact h.limitRelease hs
  | limitMark k _ => exact h.alike (drivesAlike_withKey ⟨rfl, rfl, rfl, rfl, id, id, fun _ => id⟩)
  | rollEnd _ => exact (h.alike (onlyHolds_changeHolds s false false).drivesAlike).same ⟨rfl, rfl, rfl, rfl, rfl, rfl⟩
  | keyFire k hd => exact h.keyFire hd
  | kickEnd k hs => exact (h.endKick hs).handOn
  | deferExpiry k hs => exact h.expireWait hs
  | released k hs => exact h.enterRelease hs
  | gapEnd k hs => exact h.endGap hs
  | pedalFire p hd => exact h.pedalFire hd
  | pedalKickEnd p hs => exact (h.endPedalKick hs).handOn
  | pedalLift p hs => exact h.releasePedal hs
  | pedalReleaseEnd p hs => exact h.endPedalRelease hs
  | heatCooling => exact h.cool
  | faultLine g active => exact h.same ⟨rfl, rfl, rfl, rfl, rfl, rfl⟩
  | faultRaised g =>
    refine Kept.raiseFault ?_ g
    exact h.same ⟨rfl, rfl, rfl, rfl, rfl, rfl⟩
  | senseEdge k => exact h.judgeEdge k
  | senseDeadline k => exact h.reachDeadline k
  | byteTaken i => exact (h.same (sameDrives_takeByte s)).same ⟨rfl, rfl, rfl, rfl, rfl, rfl⟩
  | posted queue i => exact h.same ⟨rfl, rfl, rfl, rfl, rfl, rfl⟩
  | advanced =>
    refine h.same ?_
    unfold State.advance
    exact ⟨rfl, rfl, rfl, rfl, rfl, rfl⟩
  | advancedInReset =>
    have hcooled : Kept F [] (if s.coolDue then s.cool else s) := by
      split
      · exact h.cool
      · exact h
    exact hcooled.same ⟨rfl, rfl, rfl, rfl, rfl, rfl⟩

/-- Every step keeps what is kept of the drive channels. -/
theorem Kept.step (h : Kept F [] s) (hstep : step s = .next t) : Kept F [] t := by
  obtain ⟨queue, he⟩ := step_effect hstep
  refine Kept.effect ?_ he
  exact h.same ⟨rfl, rfl, rfl, rfl, rfl, rfl⟩

/-! The obligations -/

/-- Exactly one of the claims, with the lists' match. -/
def noClaims : Claims := ⟨False, False, False, False, False⟩

theorem Kept.listsMatch (h : Kept F [] s) : ListsMatchStates s := fun c => by
  have hc := h.each c
  exact ⟨by simpa [fireEntries] using hc.fire, by simpa [waitEntries] using hc.wait⟩

theorem kept_of (hm : ListsMatchStates s) (ho : F.order → WaitListOrdered s) (hf : F.form → ChannelsInForm s)
    (hs : F.slots ∨ F.fed → SlotsBounded s) (hr : F.rest → FaultedGroupsRest s) : Kept F [] s := by
  refine ⟨fun c => ⟨by simpa [fireEntries] using (hm c).1, by simpa [waitEntries] using (hm c).2, nofun, fun f => ?_,
    fun f _ => ?_, fun f b _ => ?_⟩, ho, fun f => (hs (.inl f)).1, fun f => (hs (.inr f)).2⟩
  · obtain ⟨hkeys, hpedals⟩ := hf f
    cases c with
    | key k => exact (hkeys k).2
    | pedal p => exact (hpedals p).2
  · obtain ⟨hkeys, hpedals⟩ := hf f
    cases c with
    | key k => exact (hkeys k).1
    | pedal p => exact (hpedals p).1
  · obtain ⟨hkeys, hpedals⟩ := hr f
    cases c with
    | key k => exact hkeys k b
    | pedal p => exact hpedals b p

theorem Kept.channelsInForm (h : Kept F [] s) (f : F.form) : ChannelsInForm s :=
  ⟨fun k => ⟨(h.each (.key k)).empty f (by simp), (h.each (.key k)).timed f⟩,
    fun p => ⟨(h.each (.pedal p)).empty f (by simp), (h.each (.pedal p)).timed f⟩⟩

theorem Kept.faultedGroupsRest (h : Kept F [] s) (f : F.rest) : FaultedGroupsRest s :=
  ⟨fun k b => (h.each (.key k)).rest f b (by simp), fun b p => (h.each (.pedal p)).rest f b (by simp)⟩

/-- Settles O53, by cases on the effect of the step. -/
theorem listsStayMatchedToStates : Obligations.ListsStayMatchedToStates := by
  intro s t ⟨hm, ho⟩ hstep
  have h : Kept { noClaims with order := True } [] s := kept_of hm (fun _ => ho) nofun (by simp [noClaims]) nofun
  exact ⟨(h.step hstep).listsMatch, (h.step hstep).order trivial⟩

/-- Settles O54, by cases on the effect of the step. -/
theorem channelsStayInForm : Obligations.ChannelsStayInForm := by
  intro s t hm hf hstep
  have h : Kept { noClaims with form := True } [] s := kept_of hm nofun (fun _ => hf) (by simp [noClaims]) nofun
  exact (h.step hstep).channelsInForm trivial

/-- Settles O55, by cases on the effect of the step. -/
theorem kickSlotsAreNeverExceeded : Obligations.KickSlotsAreNeverExceeded := by
  intro s t hm hs hstep
  have h : Kept { noClaims with slots := True, fed := True } [] s := kept_of hm nofun nofun (fun _ => hs) nofun
  exact ⟨(h.step hstep).slots trivial, (h.step hstep).fed trivial⟩

/-- Settles O56, by cases on the effect of the step. -/
theorem faultedGroupsStayAtRest : Obligations.FaultedGroupsStayAtRest := by
  intro s t hm hr hstep
  have h : Kept { noClaims with rest := True } [] s := kept_of hm nofun nofun (by simp [noClaims]) fun _ => hr
  exact (h.step hstep).faultedGroupsRest trivial

end Sys2Proof.Machine
end

section
/-! PROOFS. What every operation but power does to the counters and to the keys' heat: a counter stays a 16-bit count
(R174), and heat that is within HeatLimit stays within it (R125, R127). -/

namespace Sys2Proof.Machine

open Sys2Proof.Safety

variable {s t u : State}

/-- No counter rises above 65,535, and heat that is within HeatLimit everywhere stays so. -/
structure Tame (s t : State) : Prop where
  counters : ∀ c, t.counter c ≤ max 65535 (s.counter c)
  heat : (∀ k, (s.key k).heat ≤ s.tables.settings.heatLimit) → ∀ k, (t.key k).heat ≤ t.tables.settings.heatLimit

theorem Tame.trans (h : Tame s t) (h' : Tame t u) : Tame s u :=
  ⟨fun c => (h'.counters c).trans (by have := h.counters c; omega), fun hs => h'.heat (h.heat hs)⟩

theorem Tame.ite {b : Prop} [Decidable b] (h : Tame s t) (h' : Tame s u) : Tame s (if b then t else u) := by
  split <;> assumption

theorem Tame.foldl {α : Type} {f : State → α → State} (h : ∀ s a, Tame s (f s a)) (as : List α) (s : State) :
    Tame s (as.foldl f s) := by
  induction as generalizing s with
  | nil => exact ⟨fun _ => le_max_right _ _, id⟩
  | cons a as ih => exact (h s a).trans (ih (f s a))

/-! The moves they are made of -/

/-- Counters, key channels and HeatLimit stand. -/
theorem tame_same (hc : t.counters = s.counters) (hk : t.keys = s.keys)
    (hl : t.tables.settings.heatLimit = s.tables.settings.heatLimit) : Tame s t := by
  refine ⟨fun c => ?_, fun h k => ?_⟩
  · simp only [State.counter, hc]; exact le_max_right _ _
  · rw [hl]; simpa only [State.key, hk] using h k

theorem Tame.refl (s : State) : Tame s s := tame_same rfl rfl rfl

/-- Counters and HeatLimit stand and no key is hotter. -/
theorem tame_keys (hc : t.counters = s.counters) (hk : ∀ k, (t.key k).heat ≤ (s.key k).heat)
    (hl : t.tables.settings.heatLimit = s.tables.settings.heatLimit) : Tame s t :=
  ⟨fun c => by simp only [State.counter, hc]; exact le_max_right _ _, fun h k => by rw [hl]; exact (hk k).trans (h k)⟩

theorem tame_withKey {k : Key} {c : KeyChannel} (h : c.heat = (s.key k).heat) : Tame s (s.withKey k c) := by
  refine tame_keys rfl (fun j => ?_) rfl
  rw [State.key_withKey]
  split
  · subst j; exact h.le
  · exact le_refl _

theorem tame_armFire (s : State) (c : Channel) (r : RollTime) : Tame s (s.armFire c r) := tame_same rfl rfl rfl

theorem tame_joinWait (s : State) (c : Channel) (w : WaitClass) : Tame s (s.joinWait c w) := tame_same rfl rfl rfl

theorem tame_bumpBy (s : State) (c : Counter) (n : Nat) : Tame s (s.bumpBy c n) := by
  refine ⟨fun d => ?_, id⟩
  rw [State.counter_bumpBy]
  split
  · exact (Nat.min_le_left _ _).trans (le_max_left _ _)
  · exact le_max_right _ _

theorem tame_bump (s : State) (c : Counter) : Tame s (s.bump c) := tame_bumpBy s c 1

theorem tame_bumpIf (s : State) (b : Bool) (c : Counter) : Tame s (s.bumpIf b c) :=
  Tame.ite (tame_bump s c) (Tame.refl s)

/-- A kick within the headroom. -/
theorem tame_startKick (s : State) (k : Key) (n : Note) (kick : Nat) (b : Bool)
    (h : kick ≤ s.tables.settings.heatLimit - (s.key k).heat) : Tame s (s.startKick k n kick b) := by
  refine Tame.trans (t := s.withKey k ((s.key k).toKick n s.deviceTime kick b s.clockStopped)) ?_
    ((tame_bumpIf _ _ _).trans (tame_bumpIf _ _ _))
  refine ⟨fun _ => le_max_right _ _, fun hs j => ?_⟩
  rw [State.key_withKey]
  split
  · have hk := hs k
    show (s.key k).heat + kick ≤ s.tables.settings.heatLimit
    omega
  · exact hs j

theorem tame_kickStart (s : State) (k : Key) (b : Bool) : Tame s (s.kickStart k b).2 := by
  rcases kickStart_cases s k b with ⟨-, e⟩ | ⟨n, -, ⟨h, e⟩ | ⟨-, -, e⟩ | ⟨-, -, e⟩⟩ <;> rw [e]
  · exact Tame.refl s
  · exact tame_startKick s k n _ b h
  · exact (tame_bump s .heatTrim).trans (tame_startKick (s.bump .heatTrim) k n _ b (le_refl _))
  · exact tame_bump s .heatDrop

/-! Channels -/

theorem tame_attempt (s : State) (k : Key) : Tame s (s.attempt k).2 := by
  rcases attempt_cases s k with ⟨-, e⟩ | ⟨-, -, e⟩ | ⟨-, -, e⟩ <;> rw [e]
  · exact tame_bump s _
  · exact tame_kickStart s k false
  · refine Tame.trans ?_ (tame_joinWait _ _ _)
    exact tame_withKey rfl

theorem tame_goIdle (s : State) (k : Key) : Tame s (s.goIdle k) := tame_withKey rfl

theorem tame_fireLast (s : State) (k : Key) : Tame s (s.fireLast k) :=
  Tame.ite (tame_attempt s k) ((tame_attempt s k).trans (tame_goIdle _ k))

theorem tame_promote (s : State) (k : Key) : Tame s (s.promote k) := by
  rcases promote_cases s k with ⟨-, e⟩ | ⟨n, -, ⟨f, -, -, e⟩ | ⟨-, e⟩⟩ <;> rw [e]
  · exact tame_goIdle s k
  · refine Tame.trans ?_ (tame_armFire _ _ _)
    exact tame_withKey rfl
  · refine Tame.trans ?_ (tame_fireLast _ k)
    exact tame_withKey rfl

theorem tame_fireKey (s : State) (k : Key) : Tame s (s.fireKey k) :=
  Tame.ite (tame_attempt s k) ((tame_attempt s k).trans (tame_promote _ k))

theorem tame_expireWait (s : State) (k : Key) : Tame s (s.expireWait k) :=
  ((tame_same rfl rfl rfl : Tame s (s.dropWait (.key k))).trans (tame_bump _ _)).trans (tame_promote _ k)

theorem tame_rearm (s : State) (k : Key) : Tame s (s.rearm k) := by
  rcases rearm_cases s k with ⟨-, e⟩ | ⟨n, -, e⟩ <;> rw [e]
  · exact tame_goIdle s k
  · refine Tame.trans ?_ (tame_armFire _ _ _)
    exact tame_withKey rfl

theorem tame_firePedal (s : State) (p : Pedal) : Tame s (s.firePedal p) :=
  Tame.ite (tame_same rfl rfl rfl) (tame_same rfl rfl rfl)

theorem tame_armPedal (s : State) (p : Pedal) (f : Press) : Tame s (s.armPedal p f) :=
  Tame.ite ((tame_same rfl rfl rfl : Tame s (s.withPedal p _)).trans (tame_firePedal _ p)) (tame_same rfl rfl rfl)

theorem tame_endPedalRelease (s : State) (p : Pedal) : Tame s (s.endPedalRelease p) := by
  unfold State.endPedalRelease
  split
  · exact tame_armPedal ..
  · exact tame_same rfl rfl rfl

theorem tame_judge (s : State) (c : Channel) : Tame s (s.judge c) := by
  have hdrop : Tame s (s.dropFire c) := tame_same rfl rfl rfl
  rcases judge_cases s c with ⟨-, e⟩ | ⟨-, ⟨p, -, -, e⟩ | ⟨k, -, -, e⟩ | ⟨p, -, -, e⟩ | ⟨k, -, -, -, e⟩ | ⟨k, -, -, -, e⟩⟩ <;> rw [e]
  · exact Tame.refl s
  · exact hdrop.trans (tame_firePedal _ p)
  · exact hdrop.trans (tame_fireKey _ k)
  · exact tame_endPedalRelease s p
  · exact tame_promote s k
  · exact tame_expireWait s k

theorem tame_judgeUpTo (s : State) (own : List Channel) : Tame s (s.judgeUpTo own) := Tame.foldl tame_judge _ s

theorem tame_handOnLoop : ∀ (n : Nat) (s : State) (ks : List Key), Tame s (State.handOnLoop n s ks).1
  | 0, s, _ => Tame.refl s
  | n + 1, s, ks => by
    have hrest (w : List WaitEntry) : Tame s { s with waitList := w } := tame_same rfl rfl rfl
    unfold State.handOnLoop
    split
    · exact Tame.refl s
    · split
      · split
        · refine Tame.trans ?_ (tame_handOnLoop n _ ks)
          exact tame_same rfl rfl rfl
        · exact (hrest _).trans ((tame_kickStart _ _ true).trans (tame_handOnLoop n _ _))
      · exact Tame.refl s

theorem tame_handOn (s : State) : Tame s s.handOn :=
  ((tame_handOnLoop _ s []).trans (Tame.foldl tame_rearm _ _)).trans (tame_judgeUpTo _ _)

theorem tame_enterRelease (s : State) (k : Key) : Tame s (s.enterRelease k) := tame_withKey rfl

theorem tame_checkRelease (s : State) (k : Key) : Tame s (s.checkRelease k) :=
  Tame.ite (tame_enterRelease s k) (Tame.refl s)

theorem tame_limitRelease (s : State) (k : Key) : Tame s (s.limitRelease k) :=
  (tame_enterRelease s k).trans (tame_withKey rfl)

theorem tame_endKick (s : State) (k : Key) : Tame s (s.endKick k) :=
  Tame.ite (tame_limitRelease s k) (tame_withKey rfl)

theorem tame_endPedalKick (s : State) (p : Pedal) : Tame s (s.endPedalKick p) :=
  Tame.ite (tame_same rfl rfl rfl) (tame_same rfl rfl rfl)

/-! Hold reasons, stops and faults -/

theorem OnlyHolds.tame (h : OnlyHolds s t) : Tame s t := by
  refine tame_keys ?_ (fun k => ?_) ?_
  · rw [h.1]
  · rw [h.2 k]
  · rw [h.1]

theorem heat_swept (c : KeyChannel) (e : Nat) : (c.swept e).heat = c.heat := by
  unfold KeyChannel.swept
  split <;> rfl

theorem tame_stopChannels (s : State) : Tame s s.stopChannels := by
  refine tame_keys (by rw [stopChannels_eq]) (fun k => ?_) (by rw [stopChannels_eq])
  rw [stopChannels_key]
  exact (heat_swept _ _).le

theorem tame_stopRoll (s : State) : Tame s s.stopRoll := by
  refine (tame_stopChannels s).trans ?_
  unfold State.stopRoll
  generalize s.stopChannels = x
  exact tame_same rfl rfl rfl

theorem tame_sweepGroup (s : State) (g : Group) : Tame s (s.sweepGroup g) := by
  have hcount : (s.sweepGroup g).counters = (s.bumpBy .faultDrop (s.faultDrops g)).counters := by
    unfold State.sweepGroup
    dsimp only
    split <;> simp
  refine (tame_bumpBy s .faultDrop (s.faultDrops g)).trans (tame_keys hcount (fun k => ?_) ?_)
  · rw [(sweepGroup_channels s g).1 k]
    split
    · exact (heat_swept _ _).le
    · exact le_refl _
  · rw [(sweepGroup_rest s g).2.2.2]; rfl

theorem tame_raiseFault (s : State) (g : Group) : Tame s (s.raiseFault g) := by
  refine Tame.ite (tame_bump s _) (Tame.trans ?_ (tame_handOn _))
  refine Tame.trans ?_ (tame_sweepGroup _ g)
  exact (tame_same rfl rfl rfl : Tame s (s.setFaulted g true)).trans (tame_bump _ _)

/-! The planned line -/

theorem tame_noteOn (s : State) (k : Key) (note : Note) : Tame s (s.noteOn k note) := by
  unfold State.noteOn
  refine Tame.ite ?_ (Tame.ite ?_ (Tame.ite ?_ ?_))
  · refine Tame.trans ?_ (tame_bump _ _)
    exact tame_withKey rfl
  · refine Tame.trans ?_ (tame_armFire _ _ _)
    exact tame_withKey rfl
  · exact tame_withKey rfl
  · refine Tame.trans ?_ (tame_bump _ _)
    exact tame_withKey rfl

theorem heat_changeNamed (c : KeyChannel) (f : Note → Note) : (c.changeNamed f).heat = c.heat := by
  unfold KeyChannel.changeNamed
  split
  · rfl
  · split <;> rfl
  · rfl

theorem tame_noteOff (s : State) (k : Key) (r : RollTime) : Tame s (s.noteOff k r) := by
  have hnamed (f : Note → Note) : Tame s (s.withKey k ((s.key k).changeNamed f)) := tame_withKey (heat_changeNamed _ f)
  exact Tame.ite ((hnamed _).trans (tame_checkRelease _ k)) (hnamed _)

theorem tame_planKey (s : State) (n : Nat) (e : HoleEvent) : Tame s (s.planKey n e) := by
  unfold State.planKey
  split
  · exact Tame.ite (tame_noteOn ..) (tame_noteOff ..)
  · exact Tame.refl s

theorem tame_planKeys (s : State) (n : Nat) (es : List HoleEvent) : Tame s (s.planKeys n es) :=
  (Tame.foldl (fun s e => tame_planKey s n e) es s).trans (tame_judgeUpTo _ _)

theorem tame_handPress (s : State) (p : Pedal) (press : Press) : Tame s (s.handPress p press) :=
  Tame.ite (tame_same rfl rfl rfl) (Tame.ite (tame_same rfl rfl rfl) (Tame.refl s))

theorem tame_handLift (s : State) (p : Pedal) (r : RollTime) : Tame s (s.handLift p r) := by
  unfold State.handLift
  dsimp only
  split
  · exact tame_same rfl rfl rfl
  · split
    · exact tame_same rfl rfl rfl
    · exact tame_same rfl rfl rfl
    · exact Tame.ite (tame_same rfl rfl rfl) (Tame.refl s)
    · exact Tame.ite (Tame.ite (tame_same rfl rfl rfl) (tame_same rfl rfl rfl)) (Tame.refl s)
    · exact Tame.refl s

theorem tame_formCapture (s : State) (n : Nat) : Tame s (s.formCapture n) := by
  unfold State.formCapture
  refine tame_keys (by simp) (fun k => ?_) (by simp)
  rw [State.key_mapKeys]
  split
  · exact (heat_changeNamed _ _).le
  · exact le_refl _

theorem tame_planPress (s : State) (p : Pedal) (n : Nat) : Tame s (s.planPress p n) := by
  have h (press : Press) : Tame s ((s.putPlanned p true).handPress p press) :=
    (tame_same rfl rfl rfl : Tame s (s.putPlanned p true)).trans (tame_handPress _ p _)
  exact Tame.ite (Tame.refl s) (Tame.ite ((h _).trans (tame_formCapture _ n)) (h _))

theorem tame_planLift (s : State) (p : Pedal) (n : Nat) : Tame s (s.planLift p n) := by
  have h (r : RollTime) : Tame s ((s.putPlanned p false).handLift p r) :=
    (tame_same rfl rfl rfl : Tame s (s.putPlanned p false)).trans (tame_handLift _ p _)
  exact Tame.ite (Tame.refl s) (Tame.ite ((h _).trans (tame_same rfl rfl rfl)) (h _))

theorem tame_planPedal (s : State) (n : Nat) (e : HoleEvent) : Tame s (s.planPedal n e) := by
  unfold State.planPedal
  split
  · exact Tame.ite (tame_planPress ..) (tame_planLift ..)
  · exact Tame.refl s

theorem tame_closeWindow (s : State) (n : Nat) : Tame s (s.closeWindow n) := by
  unfold State.closeWindow
  split
  · exact Tame.ite (tame_same rfl rfl rfl) (Tame.refl s)
  · exact Tame.refl s

theorem tame_planPedals (s : State) (n : Nat) (es : List HoleEvent) : Tame s (s.planPedals n es) := by
  refine Tame.trans (Tame.trans ?_ (Tame.foldl (fun s e => tame_planPedal s n e) es _)) (tame_judgeUpTo _ _)
  exact (tame_closeWindow s n).trans (tame_same rfl rfl rfl)

theorem tame_closeKey (s : State) (k : Key) (n : Nat) : Tame s (s.closeKey k n) := by
  have hnotes (f : Note → Note) : Tame s (s.withKey k { s.key k with
      current := if (s.key k).holdReleased then (s.key k).current else (s.key k).current.map f
      pending := (s.key k).pending.map f }) := tame_withKey rfl
  have hroll {u : State} (hu : Tame s u) (b : Bool) : Tame s (if b then
      { u with pedalUnit := { u.pedalUnit with rollKeys := u.pedalUnit.rollKeys.set k.val false k.isLt } } else u) :=
    Tame.ite (hu.trans (tame_same rfl rfl rfl)) hu
  unfold State.closeKey
  dsimp only
  split
  · exact (hroll (hnotes _) _).trans (tame_checkRelease _ k)
  · exact hroll (hnotes _) _

theorem tame_enterEnding (s : State) (n : Nat) : Tame s (s.enterEnding n) := by
  unfold State.enterEnding
  refine Tame.trans (Tame.trans (Tame.trans (onlyHolds_changeHolds s s.roll.operator false).tame ?_)
    (Tame.foldl (fun q k => tame_closeKey q k n) allKeys _)) (Tame.foldl (fun q p => ?_) allPedals _)
  · exact tame_same rfl rfl rfl
  · exact Tame.ite (tame_planLift q p n) (Tame.refl q)

theorem tame_planNext (s : State) : Tame s s.planNext := by
  have hqueue : Tame s (State.planExpression { s with holes := { s.holes with
      queue := s.holes.queue.dropWhile fun e => e.line == s.nextLine } } s.nextLine s.nextEvents) := tame_same rfl rfl rfl
  have hline := ((hqueue.trans (tame_planPedals _ s.nextLine s.nextEvents)).trans
    (tame_planKeys _ s.nextLine s.nextEvents)).trans (onlyHolds_advancePlan _ s.nextLine).tame
  unfold State.planNext
  dsimp only
  split
  · exact hline.trans (tame_enterEnding _ _)
  · exact hline

/-! Lines -/

theorem tame_endLeader (s : State) (n : Nat) : Tame s (s.endLeader n) := by
  unfold State.endLeader
  exact Tame.ite (tame_same rfl rfl rfl) (Tame.ite (tame_same rfl rfl rfl) (Tame.refl s))

theorem tame_playLine (s : State) (m : MapNo) (xs : List Bool) (n : Nat) : Tame s (s.playLine m xs n) := by
  unfold State.playLine
  dsimp only
  split
  · exact tame_same rfl rfl rfl
  · refine (tame_bump s .eventOverflow).trans ?_
    split <;> exact tame_same rfl rfl rfl

theorem tame_recognize (s : State) (set : ColumnSet) (xs : List Bool) (n : Nat) : Tame s (s.recognize set xs n) := by
  unfold State.recognize
  split
  · refine Tame.trans ?_ (tame_endLeader _ n)
    exact tame_same rfl rfl rfl
  · exact tame_playLine ..
  · exact Tame.refl s
  · exact tame_same rfl rfl rfl

theorem tame_fillLine (s : State) (n : Nat) : Tame s (s.fillLine n) := by
  unfold State.fillLine
  split
  · exact (tame_bump s _).trans (tame_recognize ..)
  · exact Tame.refl s

theorem tame_fillLines (n count : Nat) (s : State) : Tame s (s.fillLines n count) := by
  induction count generalizing s n with
  | zero => exact Tame.refl s
  | succ count ih => exact (tame_fillLine s n).trans (ih _ _)

theorem tame_trackEdges (s : State) (px : List Nat) : Tame s (s.trackEdges px) := by
  unfold State.trackEdges
  split
  · exact tame_same rfl rfl rfl
  · exact tame_bump s _

theorem tame_takeLine (s : State) (n : Nat) (px : List Nat) : Tame s (s.takeLine n px) := by
  unfold State.takeLine
  split
  · exact Tame.refl s
  · exact (tame_trackEdges s px).trans ((tame_bumpIf _ _ _).trans ((tame_bumpIf _ _ _).trans (tame_recognize ..)))

theorem tame_lines (s : State) (n : Nat) (px : List Nat) : Tame s (s.lines n px) :=
  (tame_fillLines _ _ s).trans (tame_takeLine ..)

theorem tame_arrive (s : State) (n : Nat) (px : List Nat) : Tame s (s.arrive n px) := by
  rw [arrive_eq]
  refine Tame.trans ((tame_lines s n px).trans ?_) (onlyHolds_checkEpisode _).tame
  exact tame_same rfl rfl rfl

/-! Sense watches -/

theorem tame_senseMatch (s : State) (k : Key) (e : Int) : Tame s (s.senseMatch k e) :=
  Tame.ite ((tame_same rfl rfl rfl : Tame s (s.withRecord k _)).trans (tame_bump _ _)) (Tame.refl s)

theorem tame_senseMiss (s : State) (k : Key) : Tame s (s.senseMiss k) :=
  (tame_bump s _).trans (Tame.ite (tame_same rfl rfl rfl) (Tame.refl _))

theorem tame_closeSense (s : State) (k : Key) : Tame s (s.closeSense k) := tame_withKey rfl

theorem tame_judgeEdge (s : State) (k : Key) : Tame s (s.judgeEdge k) := by
  unfold State.judgeEdge
  split
  · exact tame_bump s _
  · exact Tame.ite ((tame_closeSense s k).trans (tame_bump _ _)) ((tame_closeSense s k).trans (tame_senseMatch ..))

theorem tame_reachDeadline (s : State) (k : Key) : Tame s (s.reachDeadline k) :=
  Tame.ite ((tame_closeSense s k).trans (tame_senseMiss _ k)) (tame_closeSense s k)

theorem tame_passDeadlines (s : State) : Tame s s.passDeadlines :=
  Tame.foldl (fun t k => Tame.ite (tame_reachDeadline t k) (Tame.refl t)) allKeys s

/-! Power, the link and the tables -/

/-- The state after power-on, or with no power. -/
theorem tame_powered {now next i : Nat} {b : Bool} {fl : Vector Bool 12} {w : Tables} {st : Store} {q : List Instr} :
    Tame s (State.powered now next i b fl w st q) := by
  refine ⟨fun c => ?_, fun _ k => ?_⟩
  · simp [State.counter, State.powered]
  · rw [key_powered]; exact Nat.zero_le _

theorem tame_assertReset (s : State) : Tame s s.assertReset := by
  refine tame_keys (by simp [State.assertReset]) (fun k => ?_) (by simp [State.assertReset])
  simp [State.assertReset, State.key, State.mapKeys, State.mapPedals]

/-- Counters cleared, channels as a stop leaves them. -/
theorem tame_linkReset (s : State) (tag : Tag) : Tame s (s.linkReset tag) := by
  have hreset := onlyStopped_linkReset s tag
  have hcount : (s.linkReset tag).counters = Vector.replicate 26 0 := rfl
  have hkey (k : Key) : (s.linkReset tag).key k = s.stopChannels.key k := by
    unfold State.key; rw [hreset]
  have hlimit : (s.linkReset tag).tables = s.tables := by
    rw [hreset, stopChannels_eq]
  refine ⟨fun c => ?_, fun h k => ?_⟩
  · simp [State.counter, hcount]
  · rw [hkey, stopChannels_key, hlimit]
    exact (heat_swept _ _).le.trans (h k)

theorem tame_afterWrite {n : TableName} {w : Tables} (hw : OnlyTable n s.tables w) :
    Tame s (State.afterWrite { s with tables := w } n) := by
  by_cases hn : n = .settings
  · subst hn
    refine Tame.trans ?_ (tame_passDeadlines _)
    refine ⟨fun c => ?_, fun _ k => ?_⟩
    · rw [State.counter_mapKeys]; exact le_max_right _ _
    · rw [State.key_mapKeys, State.mapKeys_tables]; exact Nat.min_le_right _ _
  · have hlimit : Tame s { s with tables := w } := tame_same rfl rfl (congrArg Settings.heatLimit (hw.settings hn))
    refine hlimit.trans ?_
    unfold State.afterWrite
    split <;> first | exact absurd rfl hn | exact tame_same rfl rfl rfl

/-! The effects -/

theorem Answered.tame (h : Answered s t) : Tame s t := by
  cases h with
  | nothing => exact Tame.refl s
  | rollStart line tempo m _ =>
    unfold State.startRoll
    split
    · exact tame_same rfl rfl rfl
    · exact Tame.ite (tame_same rfl rfl rfl) (tame_same rfl rfl rfl)
  | rollStop _ => exact tame_stopRoll s
  | pause _ => exact (onlyHolds_setHolds ..).tame
  | resume _ => exact (onlyHolds_setHolds ..).tame
  | tempoLeader tempo _ => exact tame_same rfl rfl rfl
  | tempoPlaying e tempo now _ _ _ =>
    refine Tame.trans ?_ (onlyHolds_checkEpisode _).tame
    exact tame_same rfl rfl rfl
  | tableWrite table start count entries n w _ _ _ _ hw _ => exact tame_afterWrite (onlyTable_writeRun hw)
  | statusQuery => exact tame_same rfl rfl rfl
  | countersRead =>
    refine ⟨fun c => ?_, id⟩
    simp [State.counter]
  | faultClear mask => exact tame_same rfl rfl rfl
  | keyTest k velocity _ _ =>
    refine Tame.trans ?_ (tame_fireLast _ k)
    exact tame_withKey rfl
  | storeProtect mask value => exact tame_same rfl rfl rfl
  | storeLock value => exact tame_same rfl rfl rfl

theorem tame_cool (s : State) : Tame s s.cool := by
  refine tame_keys ?_ (fun k => ?_) ?_
  · rw [State.cool_eq]
  · rw [State.key_cool]; exact Nat.sub_le _ _
  · rw [State.cool_eq]

theorem Effect.tame (h : Effect s t) : Tame s t := by
  have hframe : Tame s s.validFrame := tame_same rfl rfl rfl
  cases h with
  | same => exact Tame.refl s
  | powerOn => exact tame_powered
  | resetReleased => exact tame_powered
  | resetAsserted => exact tame_assertReset s
  | powerFail =>
    have hoff : Tame s (State.powered 0 1000 s.freeIndex s.setupLock s.faultLines defaultTables s.store.loseOp s.pending) :=
      tame_powered
    exact hoff.trans (tame_same rfl rfl rfl)
  | headerError =>
    refine Tame.trans ?_ (tame_bump _ _)
    exact tame_same rfl rfl rfl
  | payloadError =>
    refine Tame.trans ?_ (tame_bump _ _)
    exact tame_same rfl rfl rfl
  | frameCounted c => exact hframe.trans (tame_bump _ c)
  | arrived n px _ _ _ => exact hframe.trans (tame_arrive _ n px)
  | answered tag code r data _ ht =>
    refine Tame.trans ?_ ht.tame
    exact tame_same rfl rfl rfl
  | opStarted kind r tag time _ _ _ _ => exact tame_same rfl rfl rfl
  | linkReset tag => exact tame_linkReset s tag
  | leaderMax _ => exact tame_same rfl rfl rfl
  | saveComplete good o copy _ => exact tame_same rfl rfl rfl
  | lockdownComplete good o _ => exact tame_same rfl rfl rfl
  | returnSend =>
    unfold State.sendNext
    split <;> exact tame_same rfl rfl rfl
  | linkAliveExpiry => exact tame_same rfl rfl rfl
  | abandon _ => exact (tame_bump s _).trans (tame_stopRoll _)
  | planLine _ => exact tame_planNext s
  | starveEpisodeStart _ => exact tame_same rfl rfl rfl
  | starveHold _ => exact (tame_bump s _).trans (onlyHolds_setHolds ..).tame
  | limitRelease k _ => exact tame_limitRelease s k
  | limitMark k _ => exact tame_withKey rfl
  | rollEnd _ => exact (onlyHolds_changeHolds s false false).tame.trans (tame_same rfl rfl rfl)
  | keyFire k _ =>
    refine Tame.trans ?_ (tame_fireKey _ k)
    exact tame_same rfl rfl rfl
  | kickEnd k _ => exact (tame_endKick s k).trans (tame_handOn _)
  | deferExpiry k _ => exact tame_expireWait s k
  | released k _ => exact tame_enterRelease s k
  | gapEnd k _ => exact tame_promote s k
  | pedalFire p _ =>
    refine Tame.trans ?_ (tame_firePedal _ p)
    exact tame_same rfl rfl rfl
  | pedalKickEnd p _ => exact (tame_endPedalKick s p).trans (tame_handOn _)
  | pedalLift p _ => exact tame_same rfl rfl rfl
  | pedalReleaseEnd p _ => exact tame_endPedalRelease s p
  | heatCooling => exact tame_cool s
  | faultLine g active => exact tame_same rfl rfl rfl
  | faultRaised g =>
    refine Tame.trans ?_ (tame_raiseFault _ g)
    exact tame_same rfl rfl rfl
  | senseEdge k => exact tame_judgeEdge s k
  | senseDeadline k => exact tame_reachDeadline s k
  | byteTaken i =>
    unfold State.takeByte
    split <;> exact tame_same rfl rfl rfl
  | posted queue i => exact tame_same rfl rfl rfl
  | advanced => exact tame_same rfl rfl rfl
  | advancedInReset =>
    have hcooled : Tame s (if s.coolDue then s.cool else s) := Tame.ite (tame_cool s) (Tame.refl s)
    exact hcooled.trans (tame_same rfl rfl rfl)

theorem step_tame (h : step s = .next t) : Tame s t := by
  obtain ⟨queue, he⟩ := step_effect h
  refine Tame.trans ?_ he.tame
  exact tame_same rfl rfl rfl

/-- Every step keeps the counters to 16 bits (R174). -/
theorem countersBounded_step (h : CountersBounded s) (hstep : step s = .next t) : CountersBounded t := fun c =>
  ((step_tame hstep).counters c).trans (max_le (le_refl _) (h c))

end Sys2Proof.Machine
end

section
/-! PROOFS. The effects that move the tables, the store or the expression records, apart from all the others; and the
invariants of the store, of heat and of the swells, O59 and O52. -/

namespace Sys2Proof.Machine

open Sys2Proof.Safety

variable {s t u : State}

/-- The tables, the store and the expression records are the same. -/
structure SameMemory (s t : State) : Prop where
  tables : t.tables = s.tables
  store : t.store = s.store
  exprBass : t.exprBass = s.exprBass
  exprTreble : t.exprTreble = s.exprTreble

theorem SameMemory.trans (h : SameMemory s t) (h' : SameMemory t u) : SameMemory s u :=
  ⟨h'.tables.trans h.tables, h'.store.trans h.store, h'.exprBass.trans h.exprBass, h'.exprTreble.trans h.exprTreble⟩

theorem OnlyPlanned.sameMemory (h : OnlyPlanned s t) : SameMemory s t := by rw [h]; exact ⟨rfl, rfl, rfl, rfl⟩

theorem OnlyChannels.sameMemory (h : OnlyChannels s t) : SameMemory s t := h.onlyPlanned.sameMemory

theorem OnlyPaper.sameMemory (h : OnlyPaper s t) : SameMemory s t := by rw [h]; exact ⟨rfl, rfl, rfl, rfl⟩

theorem OnlyHolds.sameMemory (h : OnlyHolds s t) : SameMemory s t := by rw [h.1]; exact ⟨rfl, rfl, rfl, rfl⟩

/-- The effects that move the tables, the store or the expression records, a command's on the state u with its frame
counted and its reply queued. -/
inductive MemoryEffect (s : State) : State → Prop
  | broughtUp (now next : Nat) : MemoryEffect s (s.bringUp now next)
  | failed (q : Power) : MemoryEffect s
      { State.powered 0 1000 s.freeIndex s.setupLock s.faultLines defaultTables s.store.loseOp s.pending with power := q }
  | resetAsserted : MemoryEffect s s.assertReset
  | rollStarted {u : State} (hu : SameMemory s u) (line tempo : Nat) (m : MapMode) : MemoryEffect s (u.startRoll line tempo m)
  | tableWritten {u : State} (hu : SameMemory s u) (table start count : Byte) (entries : List Byte) (n : TableName)
      (w : Tables) (ht : tableOfByte table = some n) (hlen : entries.length = runSize table start.toNat count.toNat)
      (hfits : n.runFits start.toNat count.toNat = true) (hw : u.tables.writeRun table n start.toNat count.toNat entries = some w)
      (hc : w.crossCheck n start.toNat count.toNat = true) : MemoryEffect s (State.afterWrite { u with tables := w } n)
  | flagsSet {u : State} (hu : SameMemory s u) (mask : Byte) (value : Bool) : MemoryEffect s (u.setProtected mask value)
  | lockSet {u : State} (hu : SameMemory s u) (value : Bool) : MemoryEffect s (u.setLock value)
  | opStarted {u : State} (hu : SameMemory s u) (kind : StoreOpKind) (r : Region) (tag : Tag) (time : Nat)
      (hr : (s.region r).lockdown = false) (hk : ∀ copy, kind = .save copy → copy = s.tables.image r) :
      MemoryEffect s (u.startOp kind r tag time)
  | saved (good : Bool) (o : StoreOp) (copy : RegionImage) (ho : s.store.op = some o) (hk : o.kind = .save copy) :
      MemoryEffect s (s.finishSave o copy good)
  | lockedDown (good : Bool) (o : StoreOp) (ho : s.store.op = some o) : MemoryEffect s (s.finishLockdown o good)
  | linkReset (tag : Tag) : MemoryEffect s (s.linkReset tag)
  | planned : MemoryEffect s s.planNext
  | edge (k : Key) : MemoryEffect s (s.judgeEdge k)
  | deadline (k : Key) : MemoryEffect s (s.reachDeadline k)

theorem sameMemory_stopChannels (s : State) : SameMemory s s.stopChannels := by
  rw [stopChannels_eq]; exact ⟨rfl, rfl, rfl, rfl⟩

theorem sameMemory_stopRoll (s : State) : SameMemory s s.stopRoll := by
  refine (sameMemory_stopChannels s).trans ?_
  unfold State.stopRoll
  generalize s.stopChannels = x
  exact ⟨rfl, rfl, rfl, rfl⟩

theorem sameMemory_raiseFault (s : State) (g : Group) : SameMemory s (s.raiseFault g) := by
  have hsweep (x : State) : SameMemory x (x.sweepGroup g) := by
    unfold State.sweepGroup
    dsimp only
    split <;> exact ⟨by simp, by simp, by simp, by simp⟩
  unfold State.raiseFault
  split
  · exact ⟨rfl, rfl, rfl, rfl⟩
  · refine SameMemory.trans (SameMemory.trans ?_ (hsweep _)) (onlyChannels_handOn _).sameMemory
    exact ⟨rfl, rfl, rfl, rfl⟩

theorem Answered.memory (hu : SameMemory s u) (h : Answered u t) : SameMemory s t ∨ MemoryEffect s t := by
  cases h with
  | nothing => exact .inl hu
  | rollStart line tempo m _ => exact .inr (.rollStarted hu ..)
  | rollStop _ => exact .inl (hu.trans (sameMemory_stopRoll u))
  | pause _ => exact .inl (hu.trans (onlyHolds_setHolds ..).sameMemory)
  | resume _ => exact .inl (hu.trans (onlyHolds_setHolds ..).sameMemory)
  | tempoLeader tempo _ => exact .inl (hu.trans ⟨rfl, rfl, rfl, rfl⟩)
  | tempoPlaying e tempo now _ _ _ =>
    refine .inl (hu.trans (SameMemory.trans ?_ (onlyHolds_checkEpisode _).sameMemory))
    exact ⟨rfl, rfl, rfl, rfl⟩
  | tableWrite table start count entries n w ht hlen hfits _ hw hc => exact .inr (.tableWritten hu _ _ _ _ n w ht hlen hfits hw hc)
  | statusQuery => exact .inl (hu.trans ⟨rfl, rfl, rfl, rfl⟩)
  | countersRead => exact .inl (hu.trans ⟨rfl, rfl, rfl, rfl⟩)
  | faultClear mask => exact .inl (hu.trans ⟨rfl, rfl, rfl, rfl⟩)
  | keyTest k velocity _ _ =>
    exact .inl (hu.trans ((onlyChannels_withKey u k _).trans (onlyChannels_fireLast _ k)).sameMemory)
  | storeProtect mask value => exact .inr (.flagsSet hu mask value)
  | storeLock value => exact .inr (.lockSet hu value)

theorem saveDue_some {o : StoreOp} {copy : RegionImage} (h : s.saveDue = some (o, copy)) :
    s.store.op = some o ∧ o.kind = .save copy := by
  unfold State.saveDue at h
  split at h
  case h_1 o' ho =>
    split at h
    case h_1 c hk =>
      split at h
      · cases h; exact ⟨ho, hk⟩
      · cases h
    · cases h
  · cases h

theorem lockdownOpDue_some {o : StoreOp} (h : s.lockdownOpDue = some o) : s.store.op = some o ∧ o.kind = .lockdown := by
  unfold State.lockdownOpDue at h
  split at h
  case h_1 o' ho =>
    split at h
    case h_1 hk =>
      split at h
      · cases h; exact ⟨ho, hk⟩
      · cases h
    · cases h
  · cases h

theorem sameMemory_cool (s : State) : SameMemory s s.cool := by
  rw [State.cool_eq]; exact ⟨rfl, rfl, rfl, rfl⟩

theorem Effect.memory (h : Effect s t) : SameMemory s t ∨ MemoryEffect s t := by
  have hframe : SameMemory s s.validFrame := ⟨rfl, rfl, rfl, rfl⟩
  cases h with
  | same => exact .inl ⟨rfl, rfl, rfl, rfl⟩
  | powerOn => exact .inr (.broughtUp ..)
  | resetReleased => exact .inr (.broughtUp ..)
  | resetAsserted => exact .inr .resetAsserted
  | powerFail => exact .inr (.failed .off)
  | headerError => exact .inl ⟨rfl, rfl, rfl, rfl⟩
  | payloadError => exact .inl ⟨rfl, rfl, rfl, rfl⟩
  | frameCounted c => exact .inl ⟨rfl, rfl, rfl, rfl⟩
  | arrived n px _ _ _ =>
    rw [arrive_eq]
    refine .inl (SameMemory.trans (hframe.trans ((onlyPaper_lines _ n px).sameMemory.trans ?_)) (onlyHolds_checkEpisode _).sameMemory)
    exact ⟨rfl, rfl, rfl, rfl⟩
  | answered tag code r data _ ht =>
    refine Answered.memory ?_ ht
    exact ⟨rfl, rfl, rfl, rfl⟩
  | opStarted kind r tag time _ _ hr hk => exact .inr (.opStarted hframe kind r tag time hr hk)
  | linkReset tag => exact .inr (.linkReset tag)
  | leaderMax _ => exact .inl ⟨rfl, rfl, rfl, rfl⟩
  | saveComplete good o copy hd => exact .inr (.saved good o copy (saveDue_some hd).1 (saveDue_some hd).2)
  | lockdownComplete good o hd => exact .inr (.lockedDown good o (lockdownOpDue_some hd).1)
  | returnSend =>
    unfold State.sendNext
    split <;> exact .inl ⟨rfl, rfl, rfl, rfl⟩
  | linkAliveExpiry => exact .inl ⟨rfl, rfl, rfl, rfl⟩
  | abandon _ =>
    refine .inl (SameMemory.trans ?_ (sameMemory_stopRoll _))
    exact ⟨rfl, rfl, rfl, rfl⟩
  | planLine _ => exact .inr .planned
  | starveEpisodeStart _ => exact .inl ⟨rfl, rfl, rfl, rfl⟩
  | starveHold _ =>
    refine .inl (SameMemory.trans ?_ (onlyHolds_setHolds _ _ _).sameMemory)
    exact ⟨rfl, rfl, rfl, rfl⟩
  | limitRelease k _ => exact .inl ⟨rfl, rfl, rfl, rfl⟩
  | limitMark k _ => exact .inl ⟨rfl, rfl, rfl, rfl⟩
  | rollEnd _ => exact .inl ((onlyHolds_changeHolds s false false).sameMemory.trans ⟨rfl, rfl, rfl, rfl⟩)
  | keyFire k _ =>
    refine .inl (SameMemory.trans ?_ (onlyChannels_fireKey _ k).sameMemory)
    exact ⟨rfl, rfl, rfl, rfl⟩
  | kickEnd k _ =>
    refine .inl (SameMemory.trans (t := s.endKick k) ?_ (onlyChannels_handOn _).sameMemory)
    unfold State.endKick
    split <;> exact ⟨rfl, rfl, rfl, rfl⟩
  | deferExpiry k _ => exact .inl (onlyChannels_expireWait s k).sameMemory
  | released k _ => exact .inl ⟨rfl, rfl, rfl, rfl⟩
  | gapEnd k _ => exact .inl (onlyChannels_promote s k).sameMemory
  | pedalFire p _ =>
    refine .inl (SameMemory.trans ?_ (onlyChannels_firePedal _ p).sameMemory)
    exact ⟨rfl, rfl, rfl, rfl⟩
  | pedalKickEnd p _ =>
    refine .inl (SameMemory.trans (t := s.endPedalKick p) ?_ (onlyChannels_handOn _).sameMemory)
    unfold State.endPedalKick
    split <;> exact ⟨rfl, rfl, rfl, rfl⟩
  | pedalLift p _ => exact .inl ⟨rfl, rfl, rfl, rfl⟩
  | pedalReleaseEnd p _ => exact .inl (onlyChannels_endPedalRelease s p).sameMemory
  | heatCooling => exact .inl (sameMemory_cool s)
  | faultLine g active => exact .inl ⟨rfl, rfl, rfl, rfl⟩
  | faultRaised g =>
    refine .inl (SameMemory.trans ?_ (sameMemory_raiseFault _ g))
    exact ⟨rfl, rfl, rfl, rfl⟩
  | senseEdge k => exact .inr (.edge k)
  | senseDeadline k => exact .inr (.deadline k)
  | byteTaken i =>
    unfold State.takeByte
    split <;> exact .inl ⟨rfl, rfl, rfl, rfl⟩
  | posted queue i => exact .inl ⟨rfl, rfl, rfl, rfl⟩
  | advanced => exact .inl ⟨rfl, rfl, rfl, rfl⟩
  | advancedInReset =>
    have hcooled : SameMemory s (if s.coolDue then s.cool else s) := by
      split
      · exact sameMemory_cool s
      · exact ⟨rfl, rfl, rfl, rfl⟩
    exact .inl (hcooled.trans ⟨rfl, rfl, rfl, rfl⟩)

/-- What a step does to the tables, the store and the expression records. -/
theorem step_memory (h : step s = .next t) :
    ∃ queue, SameMemory { s with pending := queue } t ∨ MemoryEffect { s with pending := queue } t := by
  obtain ⟨queue, he⟩ := step_effect h
  exact ⟨queue, he.memory⟩

/-! The store (R182, R184) -/

/-- A region's flag, content and check stand. -/
def RegionStands (s t : State) (r : Region) : Prop :=
  (t.region r).lockdown = (s.region r).lockdown ∧ (t.region r).content = (s.region r).content
    ∧ (t.region r).checkGood = (s.region r).checkGood

/-- A store that no operation was in flight on a locked-down region of, after one step of its life: the same again, and
locked-down regions stand. -/
def StoreSafe (s t : State) : Prop :=
  LockdownRespected t ∧ ∀ r : Region, (s.region r).lockdown = true → RegionStands s t r

theorem storeSafe_of_store (h : LockdownRespected s) (e : t.store = s.store) : StoreSafe s t := by
  have hr (r : Region) : t.region r = s.region r := by simp only [State.region, e]
  refine ⟨fun o ho => ?_, fun r _ => ?_⟩
  · rw [hr]; exact h o (by rw [← e]; exact ho)
  · rw [RegionStands, hr]; exact ⟨rfl, rfl, rfl⟩

/-- A lost operation leaves a locked-down region standing, since it was not on one. -/
theorem loseOp_stands (h : LockdownRespected s) {r : Region} (hr : (s.region r).lockdown = true) :
    s.store.loseOp.regions[r.val] = s.region r := by
  rw [loseOp_region, State.region]
  have hne : (s.store.op.map (·.region) == some r) = false := by
    refine Bool.eq_false_of_not_eq_true fun e => ?_
    obtain ⟨o, ho, rfl⟩ := Option.map_eq_some_iff.1 (eq_of_beq e)
    exact absurd ((h o ho).symm.trans hr) (by simp)
  simp [hne]

theorem op_loseOp (st : Store) : st.loseOp.op = none := by
  unfold Store.loseOp
  split
  · assumption
  · rfl

theorem storeSafe_loseOp (h : LockdownRespected s) (e : t.store = s.store.loseOp) : StoreSafe s t := by
  refine ⟨fun o ho => ?_, fun r hr => ?_⟩
  · rw [e, op_loseOp] at ho; cases ho
  · have hreg : t.region r = s.region r := by rw [← loseOp_stands h hr, State.region, e]
    rw [RegionStands, hreg]; exact ⟨rfl, rfl, rfl⟩

/-- An operation's end leaves the regions other than its own alone. -/
theorem storeSafe_finish (h : LockdownRespected s) {o : StoreOp} {x : StoreRegion} (ho : s.store.op = some o)
    (hop : t.store.op = none) (hreg : t.store.regions = s.store.regions.set o.region.val x o.region.isLt) :
    StoreSafe s t := by
  refine ⟨fun o' ho' => (by rw [hop] at ho'; cases ho'), fun r hr => ?_⟩
  have hne : o.region.val ≠ r.val := by
    rintro e
    have : o.region = r := Fin.ext e
    exact absurd ((h o ho).symm.trans (this ▸ hr)) (by simp)
  have : t.region r = s.region r := by simp only [State.region, hreg]; exact Vector.getElem_set_ne _ _ hne
  rw [RegionStands, this]; exact ⟨rfl, rfl, rfl⟩

theorem OnlyStopped.store (h : OnlyStopped s t) : t.store = s.store := by
  unfold OnlyStopped at h
  have hstop := (sameMemory_stopChannels s).store
  generalize s.stopChannels = x at h hstop
  rw [h]; exact hstop

/-- Only key channels, the working KEYS table and counters differ: what a verdict of the sense lines does. -/
def OnlySensed (s t : State) : Prop :=
  t = { s with keys := t.keys, counters := t.counters, tables := { s.tables with keys := t.tables.keys } }

theorem OnlySensed.trans (h : OnlySensed s t) (h' : OnlySensed t u) : OnlySensed s u := by
  unfold OnlySensed at *; rw [h', h]

theorem OnlySensed.ite {c : Prop} [Decidable c] (h : OnlySensed s t) (h' : OnlySensed s u) :
    OnlySensed s (if c then t else u) := by split <;> assumption

theorem OnlySensed.store (h : OnlySensed s t) : t.store = s.store := by rw [h]

theorem onlySensed_judgeEdge (s : State) (k : Key) : OnlySensed s (s.judgeEdge k) := by
  unfold State.judgeEdge State.senseMatch
  split
  · rfl
  · exact OnlySensed.ite rfl (OnlySensed.ite rfl rfl)

theorem onlySensed_reachDeadline (s : State) (k : Key) : OnlySensed s (s.reachDeadline k) := by
  unfold State.reachDeadline State.senseMiss
  exact OnlySensed.ite (OnlySensed.ite rfl rfl) rfl

theorem onlySensed_passDeadlines (s : State) : OnlySensed s s.passDeadlines :=
  List.foldlRecOn allKeys _ (motive := fun t : State => OnlySensed s t) rfl fun t ht k _ =>
    ht.trans (OnlySensed.ite (onlySensed_reachDeadline t k) rfl)

/-- A write to SETTINGS moves heat, and what the deadlines that have passed move (R127, R155). -/
theorem onlySensed_afterWrite_settings (s : State) : OnlySensed s (s.afterWrite .settings) := by
  refine OnlySensed.trans ?_ (onlySensed_passDeadlines _)
  unfold OnlySensed State.mapKeys
  rfl

theorem store_afterWrite (s : State) (n : TableName) : (s.afterWrite n).store = s.store := by
  by_cases hn : n = .settings
  · rw [hn]; exact (onlySensed_afterWrite_settings s).store
  · unfold State.afterWrite
    split
    · rfl
    · rfl
    · exact absurd rfl hn
    · rfl

theorem MemoryEffect.storeSafe (h : LockdownRespected s) (he : MemoryEffect s t) : StoreSafe s t := by
  cases he with
  | broughtUp now next =>
    refine ⟨fun o ho => (by cases ho), fun r hr => ?_⟩
    have hreg : (s.bringUp now next).region r = { s.store.loseOp.regions[r.val] with
        storeBad := !s.store.loseOp.regions[r.val].checkGood, protectedFlag := true } :=
      Vector.getElem_ofFn ..
    rw [loseOp_stands h hr] at hreg
    rw [RegionStands, hreg]; exact ⟨rfl, rfl, rfl⟩
  | failed q => exact storeSafe_loseOp h rfl
  | resetAsserted => exact storeSafe_loseOp h rfl
  | rollStarted hu line tempo m =>
    refine storeSafe_of_store h (Eq.trans ?_ hu.store)
    unfold State.startRoll
    split
    · rfl
    · dsimp only; split <;> rfl
  | @tableWritten u hu table start count entries n w ht hlen hfits hw hc =>
    exact storeSafe_of_store h ((store_afterWrite _ n).trans hu.store)
  | @flagsSet u hu mask value =>
    have hreg (r : Region) : (u.setProtected mask value).region r
        = if BitVec.getLsbD mask r.val then { s.region r with protectedFlag := value } else s.region r := by
      simp only [State.region, State.setProtected, protectRegions, hu.store]
      exact Vector.getElem_ofFn ..
    refine ⟨fun o ho => ?_, fun r _ => ?_⟩
    · have hl := h o (by rw [← hu.store]; exact ho)
      rw [hreg]; split <;> exact hl
    · rw [RegionStands, hreg]; split <;> exact ⟨rfl, rfl, rfl⟩
  | @lockSet u hu value =>
    have hreg (r : Region) : (u.setLock value).region r = s.region r := by simp only [State.region, State.setLock, hu.store]
    refine ⟨fun o ho => ?_, fun r _ => ?_⟩
    · rw [hreg]; exact h o (by rw [← hu.store]; exact ho)
    · rw [RegionStands, hreg]; exact ⟨rfl, rfl, rfl⟩
  | @opStarted u hu kind r tag time hr hk =>
    have hreg (j : Region) : (u.startOp kind r tag time).region j = s.region j := by
      simp only [State.region, State.startOp, hu.store]
    refine ⟨fun o ho => ?_, fun j _ => ?_⟩
    · cases ho; rw [hreg]; exact hr
    · rw [RegionStands, hreg]; exact ⟨rfl, rfl, rfl⟩
  | saved good o copy ho hk => exact storeSafe_finish h ho rfl rfl
  | lockedDown good o ho => exact storeSafe_finish h ho rfl rfl
  | linkReset tag =>
    exact storeSafe_of_store h (onlyStopped_linkReset s tag).store
  | planned => exact storeSafe_of_store h (onlyPlanned_planNext s).sameMemory.store
  | edge k => exact storeSafe_of_store h (onlySensed_judgeEdge s k).store
  | deadline k => exact storeSafe_of_store h (onlySensed_reachDeadline s k).store

/-- Settles O59, by cases on what the step does to the store. -/
theorem lockdownIsForEver : Obligations.LockdownIsForEver := by
  intro s t h hstep
  have hsafe : StoreSafe s t := by
    obtain ⟨queue, hsame | he⟩ := step_memory hstep
    · exact storeSafe_of_store h hsame.store
    · exact MemoryEffect.storeSafe (s := { s with pending := queue }) h he
  refine ⟨hsafe.1, fun r hr => ?_⟩
  obtain ⟨h1, h2, h3⟩ := hsafe.2 r hr
  exact ⟨h1.trans hr, h2, h3⟩

end Sys2Proof.Machine
end

section
/-! PROOFS. O52: the heat of the keys by what every operation does to it, the swells by the effects that move them or their ceilings. -/

namespace Sys2Proof.Machine

open Sys2Proof.Safety

variable {s t u : State}

/-- Both swells lie within their ceilings (R66, R71). -/
def SwellsBounded (s : State) : Prop :=
  s.exprBass.swell ≤ s.tables.exprBass.swellMax * 256 ∧ s.exprTreble.swell ≤ s.tables.exprTreble.swellMax * 256

theorem swellsBounded_of_same (h : SwellsBounded s) (hb : t.exprBass = s.exprBass) (ht : t.exprTreble = s.exprTreble)
    (pb : t.tables.exprBass = s.tables.exprBass) (pt : t.tables.exprTreble = s.tables.exprTreble) : SwellsBounded t := by
  rw [SwellsBounded, hb, ht, pb, pt]; exact h

theorem swellsBounded_zero (hb : t.exprBass.swell = 0) (ht : t.exprTreble.swell = 0) : SwellsBounded t := by
  rw [SwellsBounded, hb, ht]; exact ⟨Nat.zero_le _, Nat.zero_le _⟩

/-- A line's swell is clamped to its ceiling (R71). -/
theorem nextSwell_le (p : ExprProfile) (period : Nat) (r : ExprRecord) : nextSwell p period r ≤ p.swellMax * 256 := by
  have := nextSwell_eq_clamp p period r
  omega

theorem OnlySensed.swells (h : OnlySensed s t) (hs : SwellsBounded s) : SwellsBounded t := by
  unfold OnlySensed at h
  exact swellsBounded_of_same hs (by rw [h]) (by rw [h]) (by rw [h]) (by rw [h])

theorem swellsBounded_afterWrite {n : TableName} {w : Tables} (h : SwellsBounded s) (hw : OnlyTable n s.tables w) :
    SwellsBounded (State.afterWrite { s with tables := w } n) := by
  cases n with
  | expr half =>
    cases half with
    | bass =>
      refine ⟨Nat.min_le_right _ _, ?_⟩
      rw [OnlyTable] at hw
      show s.exprTreble.swell ≤ w.exprTreble.swellMax * 256
      rw [hw]; exact h.2
    | treble =>
      refine ⟨?_, Nat.min_le_right _ _⟩
      rw [OnlyTable] at hw
      show s.exprBass.swell ≤ w.exprBass.swellMax * 256
      rw [hw]; exact h.1
  | settings =>
    rw [OnlyTable] at hw
    refine (onlySensed_afterWrite_settings _).swells ?_
    exact swellsBounded_of_same h rfl rfl (show w.exprBass = _ by rw [hw]) (show w.exprTreble = _ by rw [hw])
  | map m =>
    rw [OnlyTable] at hw
    exact swellsBounded_of_same h rfl rfl (show w.exprBass = _ by rw [hw]) (show w.exprTreble = _ by rw [hw])
  | format =>
    rw [OnlyTable] at hw
    exact swellsBounded_of_same h rfl rfl (show w.exprBass = _ by rw [hw]) (show w.exprTreble = _ by rw [hw])
  | velocity =>
    rw [OnlyTable] at hw
    exact swellsBounded_of_same h rfl rfl (show w.exprBass = _ by rw [hw]) (show w.exprTreble = _ by rw [hw])
  | keys =>
    rw [OnlyTable] at hw
    exact swellsBounded_of_same h rfl rfl (show w.exprBass = _ by rw [hw]) (show w.exprTreble = _ by rw [hw])
  | pedals =>
    rw [OnlyTable] at hw
    exact swellsBounded_of_same h rfl rfl (show w.exprBass = _ by rw [hw]) (show w.exprTreble = _ by rw [hw])

theorem MemoryEffect.swellsBounded (h : SwellsBounded s) (he : MemoryEffect s t) : SwellsBounded t := by
  have hmem {u : State} (hu : SameMemory s u) : SwellsBounded u :=
    swellsBounded_of_same h hu.exprBass hu.exprTreble (by rw [hu.tables]) (by rw [hu.tables])
  cases he with
  | broughtUp now next => exact swellsBounded_zero rfl rfl
  | failed q => exact swellsBounded_zero rfl rfl
  | resetAsserted =>
    exact swellsBounded_of_same h (by simp [State.assertReset]) (by simp [State.assertReset]) (by simp [State.assertReset])
      (by simp [State.assertReset])
  | rollStarted hu line tempo m =>
    unfold State.startRoll
    split
    · exact swellsBounded_zero rfl rfl
    · dsimp only
      split <;> exact swellsBounded_zero rfl rfl
  | tableWritten hu table start count entries n w ht hlen hfits hw hc =>
    exact swellsBounded_afterWrite (hmem hu) (onlyTable_writeRun hw)
  | flagsSet hu mask value => exact swellsBounded_of_same (hmem hu) rfl rfl rfl rfl
  | lockSet hu value => exact swellsBounded_of_same (hmem hu) rfl rfl rfl rfl
  | opStarted hu kind r tag time hr hk => exact swellsBounded_of_same (hmem hu) rfl rfl rfl rfl
  | saved good o copy ho hk => exact h
  | lockedDown good o ho => exact h
  | linkReset tag => exact swellsBounded_zero rfl rfl
  | planned =>
    have hplan := onlyPlanned_planNext s
    refine ⟨?_, ?_⟩
    · rw [hplan.exprBass, hplan.sameMemory.tables]; exact nextSwell_le _ _ _
    · rw [hplan.exprTreble, hplan.sameMemory.tables]; exact nextSwell_le _ _ _
  | edge k => exact (onlySensed_judgeEdge s k).swells h
  | deadline k => exact (onlySensed_reachDeadline s k).swells h

/-- Settles O52: heat by the limit that every operation keeps, the swells by cases on the effects that move them. -/
theorem heatAndSwellStayWithinLimits : Obligations.HeatAndSwellStayWithinLimits := by
  intro s t ⟨hheat, hswell⟩ hstep
  refine ⟨(step_tame hstep).heat hheat, ?_⟩
  obtain ⟨queue, hsame | he⟩ := step_memory hstep
  · exact swellsBounded_of_same hswell hsame.exprBass hsame.exprTreble (by rw [hsame.tables]) (by rw [hsame.tables])
  · exact MemoryEffect.swellsBounded (s := { s with pending := queue }) hswell he

end Sys2Proof.Machine
end

section
/-! PROOFS. O57: what a write, a load, the cap of the floors and the adaptation keep of the ranges and cross checks of R178. -/

namespace Sys2Proof.Machine

open Sys2Proof.Safety

variable {s t u : State} {v w : Tables}

/-! Ranges -/

/-- Every field of the tables lies in its range, cross checks apart. -/
structure InRange (w : Tables) : Prop where
  maps : ∀ m : MapNo, MapRanges w.maps[m.val]
  format : FormatRanges w.format
  bass : ExprRanges .bass w.exprBass
  treble : ExprRanges .treble w.exprTreble
  velocity : ∀ i : Fin 33, within 0 w.velocity[i.val] 6000
  keys : ∀ k : Key, KeyRanges w.keys[k.val]
  pedals : ∀ i : Fin 3, PedalRanges w.pedals[i.val]
  settings : SettingsRanges w.settings

theorem inRanges_of_entryFields {ws : List Nat} {rs : List (Nat × Nat)} {bs : List Byte} {vs : List Nat}
    (h : entryFields ws rs bs = some vs) : inRanges rs vs = true := by
  obtain ⟨x, -, hx⟩ := Option.bind_eq_some_iff.1 h
  split at hx
  · cases hx; assumption
  · cases hx

/-- What holds of every element of a vector and of the one put in, holds of every element afterwards. -/
theorem vector_set_forall {α : Type} {n : Nat} {p : α → Prop} {x : Vector α n} {a : α} {i : Nat} (hi : i < n)
    (hx : ∀ j : Fin n, p x[j.val]) (ha : p a) (j : Fin n) : p (x.set i a hi)[j.val] := by
  rw [Vector.getElem_set]
  split
  · exact ha
  · exact hx j

theorem mapRanges_writeHeader {m m' : MapSet} {bs : List Byte} (h : MapRanges m) (hw : m.writeHeader bs = some m') :
    MapRanges m' := by
  unfold MapSet.writeHeader at hw
  split at hw
  case h_1 nl nr _ _ _ _ he =>
    cases hw
    have := inRanges_of_entryFields he
    simp only [inRanges, List.zipWith_cons_cons, List.all_cons, id, Bool.and_eq_true, decide_eq_true_eq] at this
    exact ⟨this.1, this.2.1, h.2.2⟩
  · cases hw

theorem columnOfBytes_ranges {bs : List Byte} {c : Column} (h : columnOfBytes bs = some c) :
    within 1 c.width 15 ∧ within 1 c.openRun 8 ∧ within 1 c.closeRun 8 := by
  unfold columnOfBytes at h
  split at h
  case h_1 ce wi o cl f p1 p2 he =>
    obtain ⟨fn, -, rfl⟩ := Option.map_eq_some_iff.1 h
    have := inRanges_of_entryFields he
    simp only [inRanges, List.zipWith_cons_cons, List.all_cons, id, Bool.and_eq_true, decide_eq_true_eq] at this
    exact ⟨this.2.1, this.2.2.1, this.2.2.2.1⟩
  · cases h

theorem mapRanges_writeEntry {m m' : MapSet} {i : Nat} {bs : List Byte} (h : MapRanges m)
    (hw : m.writeEntry i bs = some m') : MapRanges m' := by
  unfold MapSet.writeEntry at hw
  split at hw
  · exact mapRanges_writeHeader h hw
  · split at hw
    · obtain ⟨c, hc, rfl⟩ := Option.map_eq_some_iff.1 hw
      exact ⟨h.1, h.2.1, vector_set_forall (p := fun c : Column => within 1 c.width 15 ∧ within 1 c.openRun 8
        ∧ within 1 c.closeRun 8) ‹_› h.2.2 (columnOfBytes_ranges hc)⟩
    · cases hw

theorem formatRanges_writeEntry {f f' : Format} {i : Nat} {bs : List Byte} (h : FormatRanges f)
    (hw : f.writeEntry i bs = some f') : FormatRanges f' := by
  unfold Format.writeEntry at hw
  split at hw
  · unfold Format.writeHeader at hw
    split at hw
    case h_1 nl nr c0 c1 c2 c3 c4 c5 wi cl lm ds he =>
      obtain ⟨d, -, rfl⟩ := Option.map_eq_some_iff.1 hw
      have := inRanges_of_entryFields he
      simp only [inRanges, List.zipWith_cons_cons, List.all_cons, id, Bool.and_eq_true, decide_eq_true_eq] at this
      obtain ⟨hnl, hnr, -, -, -, -, -, -, hwi, hcl, hlm, -⟩ := this
      exact ⟨hnl, hnr, hwi, hcl, hlm⟩
    · cases hw
  · split at hw
    · obtain ⟨c, -, rfl⟩ := Option.map_eq_some_iff.1 hw
      exact h
    · cases hw

theorem profileOfBytes_ranges {half : Half} {bs : List Byte} {p : ExprProfile} (h : profileOfBytes half bs = some p) :
    ExprRanges half p := by
  unfold profileOfBytes at h
  cases half with
  | bass =>
    dsimp only at h
    split at h
    case h_1 he =>
      cases h
      have := inRanges_of_entryFields he
      simp only [inRanges, List.replicate, List.cons_append, List.nil_append, List.zipWith_cons_cons, List.all_cons, id,
        Bool.and_eq_true, decide_eq_true_eq] at this
      obtain ⟨h0, h1, h2, h3, h4, h5, h6, h7, hrs, hrf, hrd, hsm, hsl, hab, har, hsk, hss, -⟩ := this
      refine ⟨fun i => ?_, hrs, hrf, hrd, hsm, hsl, hab, har, hsk, hss⟩
      fin_cases i <;> assumption
    · cases h
  | treble =>
    dsimp only at h
    split at h
    case h_1 he =>
      cases h
      have := inRanges_of_entryFields he
      simp only [inRanges, List.replicate, List.cons_append, List.nil_append, List.zipWith_cons_cons, List.all_cons, id,
        Bool.and_eq_true, decide_eq_true_eq] at this
      obtain ⟨h0, h1, h2, h3, h4, h5, h6, h7, hrs, hrf, hrd, hsm, hsl, hab, har, hsk, hss, -⟩ := this
      refine ⟨fun i => ?_, hrs, hrf, hrd, hsm, hsl, hab, har, Nat.le_zero.1 hsk.2, Nat.le_zero.1 hss.2⟩
      fin_cases i <;> assumption
    · cases h

theorem keyOfBytes_ranges {bs : List Byte} {r : KeyRecord} (h : keyOfBytes bs = some r) : KeyRanges r := by
  unfold keyOfBytes at h
  split at h
  case h_1 he =>
    cases h
    have := inRanges_of_entryFields he
    simp only [inRanges, List.zipWith_cons_cons, List.all_cons, id, Bool.and_eq_true, decide_eq_true_eq] at this
    obtain ⟨hd, hl, hvf, hvm, hk0, hkg, hkm, hhd, hrl, hrg, hc, -⟩ := this
    exact ⟨hd, hl, hvf, hvm, hk0, hkg, hkm, hhd, hrl, hrg, hc⟩
  · cases h

theorem pedalOfBytes_ranges {bs : List Byte} {r : PedalRecord} (h : pedalOfBytes bs = some r) : PedalRanges r := by
  unfold pedalOfBytes at h
  split at h
  case h_1 he =>
    cases h
    have := inRanges_of_entryFields he
    simp only [inRanges, List.zipWith_cons_cons, List.all_cons, id, Bool.and_eq_true, decide_eq_true_eq] at this
    obtain ⟨-, hk, hh, hr, -⟩ := this
    exact ⟨hk, hh, hr⟩
  · cases h

theorem settingsOfBytes_ranges {bs : List Byte} {g : Settings} (h : settingsOfBytes bs = some g) : SettingsRanges g := by
  unfold settingsOfBytes at h
  split at h
  case h_1 he =>
    cases h
    have := inRanges_of_entryFields he
    simp only [inRanges, List.zipWith_cons_cons, List.all_cons, id, Bool.and_eq_true, decide_eq_true_eq] at this
    obtain ⟨h1, h2, h3, h4, h5, h6, h7, h8, h9, h10, h11, h12, h13, h14, h15, h16, -, h18, h19, -⟩ := this
    exact ⟨h1, h2, h3, h4, h5, h6, h7, h8, h9, h10, h11, h12, h13, h14, h15, h16, h18, h19⟩
  · cases h

theorem inRange_writeEntry {n : TableName} {i : Nat} {bs : List Byte} (h : InRange v)
    (hw : v.writeEntry n i bs = some w) : InRange w := by
  unfold Tables.writeEntry at hw
  split at hw
  · obtain ⟨x, hx, rfl⟩ := Option.map_eq_some_iff.1 hw
    exact { h with maps := vector_set_forall (p := MapRanges) (Fin.isLt _) h.maps (mapRanges_writeEntry (h.maps _) hx) }
  · obtain ⟨x, hx, rfl⟩ := Option.map_eq_some_iff.1 hw
    exact { h with format := formatRanges_writeEntry h.format hx }
  · obtain ⟨x, hx, rfl⟩ := Option.map_eq_some_iff.1 hw
    exact { h with bass := profileOfBytes_ranges hx }
  · obtain ⟨x, hx, rfl⟩ := Option.map_eq_some_iff.1 hw
    exact { h with treble := profileOfBytes_ranges hx }
  · split at hw
    · split at hw
      case h_1 x he =>
        cases hw
        have := inRanges_of_entryFields he
        simp only [inRanges, List.zipWith_cons_cons, List.all_cons, id, Bool.and_eq_true, decide_eq_true_eq] at this
        exact { h with velocity := vector_set_forall (p := fun x => within 0 x 6000) ‹_› h.velocity this.1 }
      · cases hw
    · cases hw
  · split at hw
    · obtain ⟨x, hx, rfl⟩ := Option.map_eq_some_iff.1 hw
      exact { h with keys := vector_set_forall (p := KeyRanges) ‹_› h.keys (keyOfBytes_ranges hx) }
    · cases hw
  · split at hw
    · obtain ⟨x, hx, rfl⟩ := Option.map_eq_some_iff.1 hw
      exact { h with pedals := vector_set_forall (p := PedalRanges) ‹_› h.pedals (pedalOfBytes_ranges hx) }
    · cases hw
  · obtain ⟨x, hx, rfl⟩ := Option.map_eq_some_iff.1 hw
    exact { h with settings := settingsOfBytes_ranges hx }

theorem inRange_writeRun {b : Byte} {n : TableName} {count i : Nat} {bs : List Byte} (h : InRange v)
    (hw : v.writeRun b n i count bs = some w) : InRange w := by
  induction count generalizing v i bs with
  | zero => cases hw; exact h
  | succ count ih =>
    obtain ⟨x, hx, hxw⟩ := writeRun_succ hw
    exact ih (inRange_writeEntry h hx) hxw

/-! Cross checks -/

/-- A write of a map set's entries leaves the other map sets alone. -/
theorem maps_writeRun_other {b : Byte} {m j : MapNo} {count i : Nat} {bs : List Byte} (hj : j ≠ m)
    (hw : v.writeRun b (.map m) i count bs = some w) : w.maps[j.val] = v.maps[j.val] := by
  induction count generalizing v i bs with
  | zero => cases hw; rfl
  | succ count ih =>
    obtain ⟨x, hx, hxw⟩ := writeRun_succ hw
    rw [ih hxw]
    obtain ⟨y, -, rfl⟩ := Option.map_eq_some_iff.1 hx
    exact Vector.getElem_set_ne m.isLt j.isLt fun e => hj (Fin.ext e.symm)

/-- A write of KEYS entries leaves the keys outside its run alone. -/
theorem keys_writeRun_other {b : Byte} {k : Key} {count i : Nat} {bs : List Byte} (hi : 1 ≤ i)
    (hk : ¬(i ≤ k.number ∧ k.number < i + count)) (hw : v.writeRun b .keys i count bs = some w) :
    w.keys[k.val] = v.keys[k.val] := by
  induction count generalizing v i bs with
  | zero => cases hw; rfl
  | succ count ih =>
    obtain ⟨x, hx, hxw⟩ := writeRun_succ hw
    rw [ih (by omega) (by omega) hxw]
    simp only [Tables.writeEntry] at hx
    split at hx
    · obtain ⟨y, -, rfl⟩ := Option.map_eq_some_iff.1 hx
      refine Vector.getElem_set_ne ‹_› k.isLt fun e => hk ?_
      rw [Key.number]; omega
    · cases hx

/-- The ranges and the cross checks of tables, those of the velocity floors included (R80, R178). -/
structure TablesGood (w : Tables) : Prop where
  ranges : InRange w
  maps : ∀ m : MapNo, MapChecks w.maps[m.val]
  format : FormatChecks w.format
  velocity : VelocityChecks w.velocity
  leads : LeadChecks w.pedals w.settings.planLead
  floors : floorsFit w.keys
  capped : ∀ k : Key, w.keys[k.val].vFloor ≤ w.settings.vFloorMax

/-- A write that passes the cross checks of its own table keeps them all. -/
theorem tablesGood_writeRun {b : Byte} {n : TableName} {i count : Nat} {bs : List Byte} (h : TablesGood v)
    (hfits : n.runFits i count = true) (hw : v.writeRun b n i count bs = some w) (hc : w.crossCheck n i count = true) :
    TablesGood w := by
  have hr := inRange_writeRun h.ranges hw
  have hc := (Tables.crossCheck_iff w n i count).1 hc
  have ho := onlyTable_writeRun hw
  cases n with
  | map m =>
    rw [OnlyTable] at ho
    have hmaps (j : MapNo) : MapChecks w.maps[j.val] := by
      by_cases hj : j = m
      · exact hj ▸ hc
      · rw [maps_writeRun_other hj hw]; exact h.maps j
    rw [ho] at hr hmaps ⊢
    exact { h with ranges := hr, maps := hmaps }
  | format =>
    rw [OnlyTable] at ho
    have hc : FormatChecks w.format := hc
    rw [ho] at hr hc ⊢
    exact { h with ranges := hr, format := hc }
  | expr half =>
    cases half with
    | bass => rw [OnlyTable] at ho; rw [ho] at hr ⊢; exact { h with ranges := hr }
    | treble => rw [OnlyTable] at ho; rw [ho] at hr ⊢; exact { h with ranges := hr }
  | velocity =>
    rw [OnlyTable] at ho
    have hc : VelocityChecks w.velocity := hc
    rw [ho] at hr hc ⊢
    exact { h with ranges := hr, velocity := hc }
  | keys =>
    rw [OnlyTable] at ho
    have hi : 1 ≤ i := by
      simp only [TableName.runFits, Bool.and_eq_true, decide_eq_true_eq] at hfits; exact hfits.1.2
    have hset : w.settings = v.settings := by rw [ho]
    have hkeys (k : Key) : (w.keys[k.val]).vFloor ≤ (w.keys[k.val]).vMax
        ∧ (w.keys[k.val]).vFloor ≤ v.settings.vFloorMax := by
      by_cases hk : i ≤ k.number ∧ k.number < i + count
      · obtain ⟨h1, h2⟩ := hc k hk.1 hk.2
        exact ⟨h1.le, hset ▸ h2⟩
      · rw [keys_writeRun_other hi hk hw]; exact ⟨h.floors k, h.capped k⟩
    rw [ho] at hr hkeys ⊢
    exact { h with ranges := hr, floors := fun k => (hkeys k).1, capped := fun k => (hkeys k).2 }
  | pedals =>
    rw [OnlyTable] at ho
    have hc : LeadChecks w.pedals w.settings.planLead := hc
    rw [ho] at hr hc ⊢
    exact { h with ranges := hr, leads := hc }
  | settings =>
    rw [OnlyTable] at ho
    obtain ⟨hl, hf⟩ : LeadChecks w.pedals w.settings.planLead ∧ ∀ k : Key, (w.keys[k.val]).vFloor ≤ w.settings.vFloorMax := hc
    rw [ho] at hr hl hf ⊢
    exact { h with ranges := hr, leads := hl, capped := hf }

/-! Images and loads -/

/-- What the store's images keep: ranges, cross checks and floors below VMax. -/
def ImageGood (c : RegionImage) : Prop := imageConsistent c ∧ imageFloorsFit c

theorem TablesGood.image (h : TablesGood w) (r : Region) : ImageGood (w.image r) := by
  fin_cases r
  · exact ⟨⟨h.ranges.maps 0, h.maps 0⟩, trivial⟩
  · exact ⟨⟨h.ranges.maps 1, h.maps 1⟩, trivial⟩
  · exact ⟨⟨h.ranges.maps 2, h.maps 2⟩, trivial⟩
  · exact ⟨⟨h.ranges.maps 3, h.maps 3⟩, trivial⟩
  · exact ⟨⟨h.ranges.format, h.format⟩, trivial⟩
  · exact ⟨⟨h.ranges.bass, h.ranges.treble, h.ranges.velocity, h.velocity⟩, trivial⟩
  · exact ⟨h.ranges.keys, h.floors⟩
  · exact ⟨⟨h.ranges.pedals, h.ranges.settings, h.leads⟩, trivial⟩

theorem tablesGood_of_images (hi : ∀ r, imageConsistent (w.image r)) (hf : floorsFit w.keys)
    (hc : ∀ k : Key, w.keys[k.val].vFloor ≤ w.settings.vFloorMax) : TablesGood w := by
  have hm (m : MapNo) : MapRanges w.maps[m.val] ∧ MapChecks w.maps[m.val] := by
    fin_cases m
    · exact hi 0
    · exact hi 1
    · exact hi 2
    · exact hi 3
  obtain ⟨hfr, hfc⟩ : FormatRanges w.format ∧ FormatChecks w.format := hi 4
  obtain ⟨hb, ht, hv, hvc⟩ : ExprRanges .bass w.exprBass ∧ ExprRanges .treble w.exprTreble
    ∧ (∀ i : Fin 33, within 0 w.velocity[i.val] 6000) ∧ VelocityChecks w.velocity := hi 5
  have hk : ∀ k : Key, KeyRanges w.keys[k.val] := hi 6
  obtain ⟨hp, hs, hl⟩ : (∀ i : Fin 3, PedalRanges w.pedals[i.val]) ∧ SettingsRanges w.settings
    ∧ LeadChecks w.pedals w.settings.planLead := hi 7
  exact ⟨⟨fun m => (hm m).1, hfr, hb, ht, hv, hk, hp, hs⟩, fun m => (hm m).2, hfc, hvc, hl, hf, hc⟩

/-- All of `TablesGood` but the cap of the floors by VFloorMax, which a load leaves to `capFloors` (R181). -/
structure Uncapped (w : Tables) : Prop where
  ranges : InRange w
  maps : ∀ m : MapNo, MapChecks w.maps[m.val]
  format : FormatChecks w.format
  velocity : VelocityChecks w.velocity
  leads : LeadChecks w.pedals w.settings.planLead
  floors : floorsFit w.keys

theorem TablesGood.uncapped (h : TablesGood w) : Uncapped w :=
  ⟨h.ranges, h.maps, h.format, h.velocity, h.leads, h.floors⟩

/-- The default tables are in their ranges and pass their checks (R181). -/
theorem tablesGood_defaults : TablesGood defaultTables := by
  have hmaps (m : MapNo) : defaultTables.maps[m.val] = defaultMap := by fin_cases m <;> rfl
  have hkeys (k : Key) : defaultTables.keys[k.val] = defaultKey := Vector.getElem_replicate k.isLt
  refine ⟨⟨fun m => ?_, ?_, ?_, ?_, ?_, fun k => ?_, ?_, ?_⟩, fun m => ?_, ?_, ?_, ?_, fun k => ?_, fun k => ?_⟩
  · rw [hmaps]; unfold MapRanges within; decide
  · unfold FormatRanges within; decide
  · unfold ExprRanges within; decide
  · unfold ExprRanges within; decide
  · unfold within; decide
  · rw [hkeys]; unfold KeyRanges within; decide
  · unfold PedalRanges within; decide
  · unfold SettingsRanges within; decide
  · rw [hmaps]; exact (MapSet.crossCheck_iff _).1 (by decide)
  · exact (Format.crossCheck_iff _).1 (by decide)
  · exact (velocityRises_iff _).1 (by decide)
  · exact (leadsFit_iff _ _).1 (by decide)
  · rw [hkeys]; decide
  · rw [hkeys]; decide

theorem uncapped_load {c : RegionImage} (r : Region) (h : Uncapped w) (hc : ImageGood c) : Uncapped (w.load r c) := by
  unfold Tables.load
  split
  case h_1 m =>
    split
    · exact { h with
        ranges := { h.ranges with maps := vector_set_forall (p := MapRanges) ‹_› h.ranges.maps hc.1.1 }
        maps := vector_set_forall (p := MapChecks) ‹_› h.maps hc.1.2 }
    · exact h
  case h_2 f =>
    split
    · exact { h with ranges := { h.ranges with format := hc.1.1 }, format := hc.1.2 }
    · exact h
  case h_3 b tr x =>
    obtain ⟨hb, ht, hv, hvc⟩ : ExprRanges .bass b ∧ ExprRanges .treble tr ∧ (∀ i : Fin 33, within 0 x[i.val] 6000)
      ∧ VelocityChecks x := hc.1
    split
    · exact { h with ranges := { h.ranges with bass := hb, treble := ht, velocity := hv }, velocity := hvc }
    · exact h
  case h_4 k =>
    split
    · exact { h with ranges := { h.ranges with keys := hc.1 }, floors := hc.2 }
    · exact h
  case h_5 p g =>
    obtain ⟨hp, hg, hl⟩ : (∀ i : Fin 3, PedalRanges p[i.val]) ∧ SettingsRanges g ∧ LeadChecks p g.planLead := hc.1
    split
    · exact { h with ranges := { h.ranges with pedals := hp, settings := hg }, leads := hl }
    · exact h

theorem uncapped_loaded {st : Store} (h : ∀ r : Region, ImageGood st.regions[r.val].content) : Uncapped st.loaded := by
  refine List.foldlRecOn (List.finRange 8) _ (motive := fun w : Tables => Uncapped w) tablesGood_defaults.uncapped
    fun w hw r _ => ?_
  split
  · exact uncapped_load r hw (h r)
  · exact hw

/-- A KEYS table whose every record is in its ranges with its floor within both bounds makes the tables good. -/
theorem Uncapped.withKeys (h : Uncapped w) {x : Vector KeyRecord 88}
    (hx : ∀ k : Key, KeyRanges x[k.val] ∧ x[k.val].vFloor ≤ x[k.val].vMax ∧ x[k.val].vFloor ≤ w.settings.vFloorMax) :
    TablesGood { w with keys := x } :=
  ⟨{ h.ranges with keys := fun k => (hx k).1 }, h.maps, h.format, h.velocity, h.leads, fun k => (hx k).2.1,
    fun k => (hx k).2.2⟩

theorem vFloorMax_within {g : Settings} (h : SettingsRanges g) : within 300 g.vFloorMax 3000 := by
  obtain ⟨-, -, -, -, -, -, -, -, -, -, -, -, -, -, -, -, -, hm⟩ := h
  exact hm

theorem tablesGood_capFloors (h : Uncapped w) : TablesGood w.capFloors := by
  unfold Tables.capFloors
  refine h.withKeys fun k => ?_
  rw [Vector.getElem_ofFn]
  obtain ⟨h1, h2, h3, hrest⟩ := h.ranges.keys k
  have hmax := (vFloorMax_within h.ranges.settings).1
  exact ⟨⟨h1, h2, ⟨le_min h3.1 (by omega), (min_le_left _ _).trans h3.2⟩, hrest⟩,
    (min_le_left _ _).trans (h.floors k), min_le_right _ _⟩

/-! Adaptation -/

theorem tablesGood_setRecord {r : KeyRecord} (k : Key) (h : TablesGood w) (hr : KeyRanges r) (hf : r.vFloor ≤ r.vMax)
    (hc : r.vFloor ≤ w.settings.vFloorMax) : TablesGood { w with keys := w.keys.set k.val r k.isLt } :=
  h.uncapped.withKeys <| vector_set_forall (p := fun x : KeyRecord => KeyRanges x ∧ x.vFloor ≤ x.vMax
    ∧ x.vFloor ≤ w.settings.vFloorMax) k.isLt (fun j => ⟨h.ranges.keys j, h.floors j, h.capped j⟩) ⟨hr, hf, hc⟩

theorem tablesGood_judgeEdge (k : Key) (h : TablesGood s.tables) : TablesGood (s.judgeEdge k).tables := by
  unfold State.judgeEdge State.senseMatch
  split
  · exact h
  · dsimp only
    split
    · exact h
    · split
      · obtain ⟨h1, -, h3⟩ := h.ranges.keys k
        refine tablesGood_setRecord (w := s.tables) k h ⟨h1, ⟨Nat.zero_le _, ?_⟩, h3⟩ (h.floors k) (h.capped k)
        simp only [correctedLag, clampInt]
        omega
      · exact h

theorem tablesGood_reachDeadline (k : Key) (h : TablesGood s.tables) : TablesGood (s.reachDeadline k).tables := by
  unfold State.reachDeadline State.senseMiss
  dsimp only
  split
  · split
    · obtain ⟨h1, h2, h3, h4, hrest⟩ := h.ranges.keys k
      have hm := vFloorMax_within h.ranges.settings
      have hlow : 50 ≤ raisedFloor (s.record k) s.tables.settings.vStep s.tables.settings.vFloorMax := by
        have h3' : 50 ≤ (s.record k).vFloor := h3.1
        have h4' : 100 ≤ (s.record k).vMax := h4.1
        have hm' : 300 ≤ s.tables.settings.vFloorMax := hm.1
        simp only [raisedFloor]; omega
      have hcap : raisedFloor (s.record k) s.tables.settings.vStep s.tables.settings.vFloorMax
          ≤ s.tables.settings.vFloorMax := (min_le_right _ _).trans (min_le_left _ _)
      exact tablesGood_setRecord (w := s.tables) k h ⟨h1, h2, ⟨hlow, hcap.trans hm.2⟩, h4, hrest⟩
        ((min_le_right _ _).trans (min_le_right _ _)) hcap
    · exact h
  · exact h

theorem tablesGood_passDeadlines (h : TablesGood s.tables) : TablesGood s.passDeadlines.tables := by
  refine List.foldlRecOn allKeys _ (motive := fun t : State => TablesGood t.tables) h fun t ht k _ => ?_
  split
  · exact tablesGood_reachDeadline k ht
  · exact ht

theorem tablesGood_afterWrite (n : TableName) (h : TablesGood s.tables) : TablesGood (s.afterWrite n).tables := by
  unfold State.afterWrite
  split
  · exact h
  · exact h
  · exact tablesGood_passDeadlines (by rw [State.mapKeys_tables]; exact h)
  · exact h

/-! The store -/

/-- Every image the store holds or is about to keeps ranges, cross checks and floors. -/
structure StoreGood (st : Store) : Prop where
  regions : ∀ r : Region, ImageGood st.regions[r.val].content
  op : ∀ o copy, st.op = some o → o.kind = .save copy → ImageGood copy

/-- Replacing a region by one whose image is good keeps the store's images good. -/
theorem storeGood_setRegion {st st' : Store} {r : Region} {x : StoreRegion} (h : StoreGood st) (hx : ImageGood x.content)
    (hreg : st'.regions = st.regions.set r.val x r.isLt) (hop : st'.op = none) : StoreGood st' := by
  refine ⟨fun j => ?_, fun o copy ho => (by rw [hop] at ho; cases ho)⟩
  simp only [hreg]
  exact vector_set_forall (p := fun y : StoreRegion => ImageGood y.content) r.isLt h.regions hx j

/-- Flags alone do not matter to the images. -/
theorem storeGood_of_content {st st' : Store} (h : StoreGood st)
    (hreg : ∀ r : Region, st'.regions[r.val].content = st.regions[r.val].content) (hop : st'.op = st.op ∨ st'.op = none) :
    StoreGood st' := by
  refine ⟨fun r => by rw [hreg]; exact h.regions r, fun o copy ho hk => ?_⟩
  rcases hop with e | e
  · exact h.op o copy (e ▸ ho) hk
  · rw [e] at ho; cases ho

theorem storeGood_loseOp {st : Store} (h : StoreGood st) : StoreGood st.loseOp := by
  unfold Store.loseOp
  split
  · exact h
  · rename_i o _
    refine storeGood_setRegion (r := o.region) h ?_ rfl rfl
    exact h.regions o.region

theorem storeGood_examined {st : Store} (h : StoreGood st) : StoreGood st.examined := by
  refine storeGood_of_content h (fun r => ?_) (.inr rfl)
  have : st.examined.regions[r.val]
      = { st.regions[r.val] with storeBad := !st.regions[r.val].checkGood, protectedFlag := true } := Vector.getElem_ofFn ..
  rw [this]

/-- Tables and store keep their ranges and checks (R80, R178). -/
def MemoryGood (s : State) : Prop := TablesGood s.tables ∧ StoreGood s.store

theorem memoryGood_of (h : TablesConsistent s ∧ FloorsBounded s) : MemoryGood s := by
  obtain ⟨⟨hi, hr, ho⟩, hf, hc, hrf, hof⟩ := h
  exact ⟨tablesGood_of_images hi hf hc, fun r => ⟨hr r, hrf r⟩, fun o copy h1 h2 => ⟨ho o copy h1 h2, hof o copy h1 h2⟩⟩

theorem MemoryGood.consistent (h : MemoryGood s) : TablesConsistent s ∧ FloorsBounded s :=
  ⟨⟨fun r => (h.1.image r).1, fun r => (h.2.regions r).1, fun o c h1 h2 => (h.2.op o c h1 h2).1⟩,
    h.1.floors, h.1.capped, fun r => (h.2.regions r).2, fun o c h1 h2 => (h.2.op o c h1 h2).2⟩

theorem MemoryGood.runsBounded (h : MemoryGood s) : RunsBounded s := by
  intro m i
  obtain ⟨-, ho, hc⟩ := (h.1.ranges.maps m).2.2 i
  exact ⟨ho.2, hc.2⟩

theorem MemoryGood.keyFloors (h : MemoryGood s) (k : Key) : 50 ≤ (s.record k).vFloor ∧ 1000 ≤ (s.record k).kickMax := by
  obtain ⟨-, -, hv, -, -, -, hm, -⟩ := h.1.ranges.keys k
  exact ⟨hv.1, hm.1⟩

theorem OnlyStopped.tables (h : OnlyStopped s t) : t.tables = s.tables := by
  unfold OnlyStopped at h
  have hstop := (sameMemory_stopChannels s).tables
  generalize s.stopChannels = x at h hstop
  rw [h]; exact hstop

theorem SameMemory.good (h : SameMemory s t) (hs : MemoryGood s) : MemoryGood t := by
  rw [MemoryGood, h.tables, h.store]; exact hs

theorem MemoryEffect.good (h : MemoryGood s) (he : MemoryEffect s t) : MemoryGood t := by
  cases he with
  | broughtUp now next =>
    have hst := storeGood_examined (storeGood_loseOp h.2)
    exact ⟨tablesGood_capFloors (uncapped_loaded hst.regions), hst⟩
  | failed q => exact ⟨tablesGood_defaults, storeGood_loseOp h.2⟩
  | resetAsserted => exact ⟨by simpa [State.assertReset] using h.1, storeGood_loseOp h.2⟩
  | rollStarted hu line tempo m =>
    unfold State.startRoll
    split
    · exact hu.good h
    · dsimp only; split <;> exact hu.good h
  | tableWritten hu table start count entries n w ht hlen hfits hw hc =>
    refine ⟨tablesGood_afterWrite n (tablesGood_writeRun (hu.good h).1 hfits hw hc), ?_⟩
    rw [store_afterWrite]; exact (hu.good h).2
  | @flagsSet u hu mask value =>
    refine ⟨(hu.good h).1, storeGood_of_content (hu.good h).2 (fun r => ?_) (.inl rfl)⟩
    have : (u.setProtected mask value).store.regions[r.val]
        = if BitVec.getLsbD mask r.val then { u.store.regions[r.val] with protectedFlag := value } else u.store.regions[r.val] :=
      Vector.getElem_ofFn ..
    rw [this]; split <;> rfl
  | lockSet hu value => exact ⟨(hu.good h).1, storeGood_of_content (hu.good h).2 (fun r => rfl) (.inl rfl)⟩
  | opStarted hu kind r tag time hr hk =>
    refine ⟨(hu.good h).1, (hu.good h).2.regions, fun o copy ho hok => ?_⟩
    cases ho
    rw [hk copy hok]; exact h.1.image r
  | saved good o copy ho hk => exact ⟨h.1, storeGood_setRegion h.2 (h.2.op o copy ho hk) rfl rfl⟩
  | lockedDown good o ho =>
    refine ⟨h.1, storeGood_setRegion (r := o.region) h.2 ?_ rfl rfl⟩
    exact h.2.regions o.region
  | linkReset tag =>
    have ho := onlyStopped_linkReset s tag
    exact ⟨by rw [ho.tables]; exact h.1, by rw [ho.store]; exact h.2⟩
  | planned => exact (onlyPlanned_planNext s).sameMemory.good h
  | edge k => exact ⟨tablesGood_judgeEdge k h.1, by rw [(onlySensed_judgeEdge s k).store]; exact h.2⟩
  | deadline k => exact ⟨tablesGood_reachDeadline k h.1, by rw [(onlySensed_reachDeadline s k).store]; exact h.2⟩

/-- Settles O57, by cases on what the step does to the tables and the store. -/
theorem tablesKeepTheirChecks : Obligations.TablesKeepTheirChecks := by
  intro s t hs hstep
  have hgood : MemoryGood t := by
    obtain ⟨queue, hsame | he⟩ := step_memory hstep
    · exact hsame.good (s := { s with pending := queue }) (memoryGood_of hs)
    · exact he.good (s := { s with pending := queue }) (memoryGood_of hs)
  exact ⟨hgood.consistent, hgood.runsBounded, hgood.keyFloors⟩

end Sys2Proof.Machine
end

section
/-! PROOFS. The effects that move the roll's records, the paper's or the return queue, apart from all the others; and the
invariants of the return queue and of the scan records, O51 and O50. -/

namespace Sys2Proof.Machine

open Sys2Proof.Safety

variable {s t u : State}

/-- The records of the paper, of the plan line and of the Pedal Unit are the same, and so are the map sets. -/
structure SameRoll (s t : State) : Prop where
  front : t.front = s.front
  holes : t.holes = s.holes
  pedalUnit : t.pedalUnit = s.pedalUnit
  maps : t.tables.maps = s.tables.maps
  rollState : t.roll.rollState = s.roll.rollState
  schedule : t.roll.schedule = s.roll.schedule
  planLine : t.roll.planLine = s.roll.planLine

theorem SameRoll.refl (s : State) : SameRoll s s := ⟨rfl, rfl, rfl, rfl, rfl, rfl, rfl⟩

theorem SameRoll.trans (h : SameRoll s t) (h' : SameRoll t u) : SameRoll s u :=
  ⟨h'.front.trans h.front, h'.holes.trans h.holes, h'.pedalUnit.trans h.pedalUnit, h'.maps.trans h.maps,
    h'.rollState.trans h.rollState, h'.schedule.trans h.schedule, h'.planLine.trans h.planLine⟩

/-- The records of the roll are the same, and at most one reply has joined the return queue, where there was room. -/
structure Framed (s t : State) : Prop where
  roll : SameRoll s t
  op : t.store.op = s.store.op
  queue : t.link.queue = s.link.queue
    ∨ (s.replyCount < 14 ∧ ∃ tag bytes, t.link.queue = s.link.queue ++ [.reply tag bytes])

theorem Framed.refl (s : State) : Framed s s := ⟨SameRoll.refl s, rfl, .inl rfl⟩

/-- After a frame, records that stand. -/
theorem Framed.same (h : Framed s t) (hr : SameRoll t u) (ho : u.store.op = t.store.op) (hq : u.link.queue = t.link.queue) :
    Framed s u :=
  ⟨h.roll.trans hr, ho.trans h.op, by rw [hq]; exact h.queue⟩

theorem Framed.channels (h : Framed s t) (hc : OnlyChannels t u) : Framed s u := by
  unfold OnlyChannels at hc
  rw [hc]
  exact h.same ⟨rfl, rfl, rfl, rfl, rfl, rfl, rfl⟩ rfl rfl

/-- The hold reasons changed without a report leave the records of the roll and the queue alone. -/
theorem Framed.changeHolds (h : Framed s t) (op st : Bool) : Framed s (t.changeHolds op st) := by
  rw [changeHolds_eq]
  exact h.same ⟨rfl, rfl, rfl, rfl, rfl, rfl, rfl⟩ rfl rfl

/-- The effects on the roll's records and the return queue, a command's on the state u with its frame counted. -/
inductive RollEffect (s : State) : State → Prop
  | framed {t : State} (ht : Framed s t) : RollEffect s t
  | broughtUp (now next : Nat) : RollEffect s (s.bringUp now next)
  | failed (q : Power) : RollEffect s
      { State.powered 0 1000 s.freeIndex s.setupLock s.faultLines defaultTables s.store.loseOp s.pending with power := q }
  | resetAsserted : RollEffect s s.assertReset
  | arrived {u : State} (hu : Framed s u) (hc : u.counters = s.counters) (n : Nat) (px : List Nat)
      (h : u.roll.rollState ≠ .noRoll) (hnew : u.front.newest < n) (htop : (n : Int) ≤ u.windowTop) :
      RollEffect s (u.arrive n px)
  | rollStarted {u : State} (hu : Framed s u) (line tempo : Nat) (m : MapMode) (h : u.roll.rollState = .noRoll) :
      RollEffect s (u.startRoll line tempo m)
  | rollStopped {u : State} (hu : Framed s u) : RollEffect s u.stopRoll
  | holdsSet {u : State} (hu : Framed s u) (op st : Bool) : RollEffect s (u.setHolds op st)
  | tempoSet {u : State} (hu : Framed s u) (e tempo now : Nat) (h : u.clocked = true)
      (he : u.roll.planLine < e ∨ e = u.nextLine) (hl : (u.schedule e tempo).length ≤ 8) :
      RollEffect s (State.checkEpisode { u with roll := { u.roll with schedule := u.schedule e tempo, tempo := now } })
  | mapWritten {u : State} (hu : Framed s u) (m : MapNo) (maps : Vector MapSet 4) (hbar : u.tableBar (.map m) = none)
      (hother : ∀ j : MapNo, j ≠ m → maps[j.val] = u.tables.maps[j.val]) :
      RollEffect s { u with tables := { u.tables with maps := maps } }
  | opStarted {t : State} (ht : SameRoll s t) (hreply : s.replyCount < 14) (hop : s.store.op = none)
      (hq : t.link.queue = s.link.queue) : RollEffect s t
  | opFinished {t : State} (ht : SameRoll s t) (ho : s.store.op.isSome = true) (hop : t.store.op = none)
      (hq : ∃ tag bytes, t.link.queue = s.link.queue ++ [.reply tag bytes]) : RollEffect s t
  | linkReset (tag : Tag) : RollEffect s (s.linkReset tag)
  | playingEntered (m : MapNo) (h : s.roll.rollState = .leader) :
      RollEffect s (State.enterPlaying { s with holes := { s.holes with code := 0 } } (s.front.newest + 1).toNat m)
  | sent {t : State} (ht : SameRoll s t) (hop : t.store.op = s.store.op) (hq : t.link.queue.Sublist s.link.queue) :
      RollEffect s t
  | planned (hd : s.planDue = true) : RollEffect s s.planNext
  | rollEnded {u : State} (hu : Framed s u) : RollEffect s (State.queueState { u with
      roll := s.roll.toNoRoll
      holes := s.holes.inactive
      pedalUnit := { s.pedalUnit with capture := [], window := none } })
  | pedalsSwept {t : State} (ht : SameRoll { s with pedalUnit := t.pedalUnit } t) (hop : t.store.op = s.store.op)
      (hq : t.link.queue = s.link.queue) (hp : t.pedalUnit.capture = [] ∧ t.pedalUnit.window = none) : RollEffect s t

/-! Every effect is one of these -/

theorem Framed.sensed (h : Framed s t) (hc : OnlySensed t u) : Framed s u := by
  unfold OnlySensed at hc
  rw [hc]
  exact h.same ⟨rfl, rfl, rfl, rfl, rfl, rfl, rfl⟩ rfl rfl

theorem Framed.stays (h : SameRoll s t) (ho : t.store.op = s.store.op) (hq : t.link.queue = s.link.queue) : Framed s t :=
  ⟨h, ho, .inl hq⟩

/-- A sweep moves channels, their lists and counters; that of the pedals' group also puts the planned pedals UP and
empties the Capture Set (R110, R129, R144). -/
theorem onlyPedalUnit_sweepGroup (s : State) (g : Group) : OnlyPedalUnit s (s.sweepGroup g)
    ∧ ((s.sweepGroup g).pedalUnit = s.pedalUnit
      ∨ ((s.sweepGroup g).pedalUnit.capture = [] ∧ (s.sweepGroup g).pedalUnit.window = none)) := by
  unfold State.sweepGroup State.mapPedals State.mapKeys
  dsimp only
  split
  · exact ⟨rfl, .inr ⟨rfl, rfl⟩⟩
  · exact ⟨rfl, .inl rfl⟩

theorem rollEffect_raiseFault (hs : SameRoll s u) (hop : u.store.op = s.store.op) (hq : u.link.queue = s.link.queue)
    (g : Group) : RollEffect s (u.raiseFault g) := by
  unfold State.raiseFault
  split
  · exact .framed (.stays (hs.trans ⟨rfl, rfl, rfl, rfl, rfl, rfl, rfl⟩) hop hq)
  · have hx : Framed s ((u.setFaulted g true).bump .groupFault) :=
      .stays (hs.trans ⟨rfl, rfl, rfl, rfl, rfl, rfl, rfl⟩) hop hq
    have hxq : ((u.setFaulted g true).bump .groupFault).link.queue = s.link.queue := hq
    generalize (u.setFaulted g true).bump .groupFault = x at hx hxq
    obtain ⟨hsweep, hunit⟩ := onlyPedalUnit_sweepGroup x g
    have ho := hsweep.trans (onlyChannels_handOn (x.sweepGroup g)).onlyPedalUnit
    have hp : (x.sweepGroup g).handOn.pedalUnit = (x.sweepGroup g).pedalUnit := (onlyChannels_handOn (x.sweepGroup g)).pedalUnit
    rw [← hp] at hunit
    generalize (x.sweepGroup g).handOn = y at ho hunit
    unfold OnlyPedalUnit OnlyChannels at ho
    rcases hunit with e | e
    · exact .framed (hx.same ⟨by rw [ho], by rw [ho], e, by rw [ho], by rw [ho], by rw [ho], by rw [ho]⟩ (by rw [ho]) (by rw [ho]))
    · obtain ⟨h1, h2, h3, h4, h5, h6, h7⟩ := hx.roll
      refine .pedalsSwept ⟨?_, ?_, rfl, ?_, ?_, ?_, ?_⟩ ?_ ?_ e
      · rw [ho]; exact h1
      · rw [ho]; exact h2
      · rw [ho]; exact h4
      · rw [ho]; exact h5
      · rw [ho]; exact h6
      · rw [ho]; exact h7
      · rw [ho]; exact hx.op
      · rw [ho]; exact hxq

/-- A TABLE WRITE taken moves of these records the map set it names, if it names one (R178, R179). -/
theorem rollEffect_tableWrite {b : Byte} {i count : Nat} {bs : List Byte} {n : TableName} {w : Tables} (hu : Framed s u)
    (hbar : u.tableBar n = none) (hw : u.tables.writeRun b n i count bs = some w) :
    RollEffect s (State.afterWrite { u with tables := w } n) := by
  have ho := onlyTable_writeRun hw
  have hother (hn : ∀ m, n ≠ .map m) : w.maps = u.tables.maps := by
    cases n with
    | map m => exact absurd rfl (hn m)
    | expr half => cases half <;> (rw [OnlyTable] at ho; rw [ho])
    | format => rw [OnlyTable] at ho; rw [ho]
    | velocity => rw [OnlyTable] at ho; rw [ho]
    | keys => rw [OnlyTable] at ho; rw [ho]
    | pedals => rw [OnlyTable] at ho; rw [ho]
    | settings => rw [OnlyTable] at ho; rw [ho]
  cases n with
  | map m =>
    rw [OnlyTable] at ho
    have hmaps := fun (j : MapNo) (hj : j ≠ m) => maps_writeRun_other hj hw
    rw [ho]
    exact .mapWritten hu m w.maps hbar hmaps
  | settings =>
    have hw' : Framed s { u with tables := w } := hu.same ⟨rfl, rfl, rfl, hother nofun, rfl, rfl, rfl⟩ rfl rfl
    exact .framed (hw'.sensed (onlySensed_afterWrite_settings _))
  | expr half =>
    cases half <;> exact .framed (hu.same ⟨rfl, rfl, rfl, hother nofun, rfl, rfl, rfl⟩ rfl rfl)
  | format => exact .framed (hu.same ⟨rfl, rfl, rfl, hother nofun, rfl, rfl, rfl⟩ rfl rfl)
  | velocity => exact .framed (hu.same ⟨rfl, rfl, rfl, hother nofun, rfl, rfl, rfl⟩ rfl rfl)
  | keys => exact .framed (hu.same ⟨rfl, rfl, rfl, hother nofun, rfl, rfl, rfl⟩ rfl rfl)
  | pedals => exact .framed (hu.same ⟨rfl, rfl, rfl, hother nofun, rfl, rfl, rfl⟩ rfl rfl)

theorem Answered.rollEffect (hu : Framed s u) (h : Answered u t) : RollEffect s t := by
  have hsame {x : State} (hr : SameRoll u x) (ho : x.store.op = u.store.op) (hq : x.link.queue = u.link.queue) :
      RollEffect s x := .framed (hu.same hr ho hq)
  cases h with
  | nothing => exact .framed hu
  | rollStart line tempo m h => exact .rollStarted hu _ _ _ h
  | rollStop _ => exact .rollStopped hu
  | pause _ => exact .holdsSet hu _ _
  | resume _ => exact .holdsSet hu _ _
  | tempoLeader tempo _ => exact hsame ⟨rfl, rfl, rfl, rfl, rfl, rfl, rfl⟩ rfl rfl
  | tempoPlaying e tempo now h he hl => exact .tempoSet hu e tempo now h he hl
  | tableWrite table start count entries n w ht hlen hfits hbar hw hc => exact rollEffect_tableWrite hu hbar hw
  | statusQuery => exact hsame ⟨rfl, rfl, rfl, rfl, rfl, rfl, rfl⟩ rfl rfl
  | countersRead => exact hsame ⟨rfl, rfl, rfl, rfl, rfl, rfl, rfl⟩ rfl rfl
  | faultClear mask => exact hsame ⟨rfl, rfl, rfl, rfl, rfl, rfl, rfl⟩ rfl rfl
  | keyTest k velocity _ _ => exact .framed ((hu.channels (onlyChannels_withKey u k _)).channels (onlyChannels_fireLast _ k))
  | storeProtect mask value => exact hsame ⟨rfl, rfl, rfl, rfl, rfl, rfl, rfl⟩ rfl rfl
  | storeLock value => exact hsame ⟨rfl, rfl, rfl, rfl, rfl, rfl, rfl⟩ rfl rfl

theorem Effect.rollEffect (h : Effect s t) : RollEffect s t := by
  have hsame {x : State} (hr : SameRoll s x) (ho : x.store.op = s.store.op) (hq : x.link.queue = s.link.queue) :
      RollEffect s x := .framed (.stays hr ho hq)
  have hbump (c : Counter) : Framed s (s.bump c) := .stays ⟨rfl, rfl, rfl, rfl, rfl, rfl, rfl⟩ rfl rfl
  have hframe : Framed s s.validFrame := .stays ⟨rfl, rfl, rfl, rfl, rfl, rfl, rfl⟩ rfl rfl
  cases h with
  | same => exact .framed (.refl s)
  | powerOn => exact .broughtUp ..
  | resetReleased => exact .broughtUp ..
  | resetAsserted => exact .resetAsserted
  | powerFail => exact .failed .off
  | headerError =>
    refine hsame ⟨rfl, rfl, rfl, rfl, rfl, rfl, rfl⟩ rfl ?_
    simp only [State.bump_link, Link.rehunt]
    split <;> rfl
  | payloadError => exact hsame ⟨rfl, rfl, rfl, rfl, rfl, rfl, rfl⟩ rfl rfl
  | frameCounted c => exact hsame ⟨rfl, rfl, rfl, rfl, rfl, rfl, rfl⟩ rfl rfl
  | arrived n px h hnew htop => exact .arrived hframe rfl n px h hnew htop
  | answered tag code r data h ht =>
    refine Answered.rollEffect ?_ ht
    exact ⟨⟨rfl, rfl, rfl, rfl, rfl, rfl, rfl⟩, rfl, .inr ⟨h, tag, code :: r.byte :: data, rfl⟩⟩
  | opStarted kind r tag time h hop hr hk => exact .opStarted ⟨rfl, rfl, rfl, rfl, rfl, rfl, rfl⟩ h hop rfl
  | linkReset tag => exact .linkReset tag
  | leaderMax hd => exact .playingEntered _ (by
      simp only [State.leaderMaxDue, Bool.and_eq_true, beq_iff_eq] at hd; exact hd.1)
  | saveComplete good o copy hd =>
    exact .opFinished ⟨rfl, rfl, rfl, rfl, rfl, rfl, rfl⟩ (by rw [(saveDue_some hd).1]; rfl) rfl ⟨_, _, rfl⟩
  | lockdownComplete good o hd =>
    exact .opFinished ⟨rfl, rfl, rfl, rfl, rfl, rfl, rfl⟩ (by rw [(lockdownOpDue_some hd).1]; rfl) rfl ⟨_, _, rfl⟩
  | returnSend =>
    unfold State.sendNext
    split
    · exact .framed (.refl s)
    case h_2 e rest hq => exact .sent ⟨rfl, rfl, rfl, rfl, rfl, rfl, rfl⟩ rfl (by rw [hq]; exact List.sublist_cons_self e rest)
  | linkAliveExpiry =>
    refine hsame ⟨rfl, rfl, rfl, rfl, ?_, ?_, ?_⟩ rfl rfl <;> (dsimp only; split <;> rfl)
  | abandon _ => exact .rollStopped (hbump .abandoned)
  | planLine hd => exact .planned hd
  | starveEpisodeStart _ => exact hsame ⟨rfl, rfl, rfl, rfl, rfl, rfl, rfl⟩ rfl rfl
  | starveHold _ => exact .holdsSet (hbump .starveHold) _ _
  | limitRelease k _ => exact hsame ⟨rfl, rfl, rfl, rfl, rfl, rfl, rfl⟩ rfl rfl
  | limitMark k _ => exact hsame ⟨rfl, rfl, rfl, rfl, rfl, rfl, rfl⟩ rfl rfl
  | rollEnd _ => exact .rollEnded ((Framed.refl s).changeHolds false false)
  | keyFire k _ =>
    refine .framed (Framed.channels ?_ (onlyChannels_fireKey _ k))
    exact .stays ⟨rfl, rfl, rfl, rfl, rfl, rfl, rfl⟩ rfl rfl
  | kickEnd k _ =>
    refine .framed (Framed.channels (t := s.endKick k) ?_ (onlyChannels_handOn _))
    unfold State.endKick
    split <;> exact .stays ⟨rfl, rfl, rfl, rfl, rfl, rfl, rfl⟩ rfl rfl
  | deferExpiry k _ => exact .framed ((Framed.refl s).channels (onlyChannels_expireWait s k))
  | released k _ => exact hsame ⟨rfl, rfl, rfl, rfl, rfl, rfl, rfl⟩ rfl rfl
  | gapEnd k _ => exact .framed ((Framed.refl s).channels (onlyChannels_promote s k))
  | pedalFire p _ =>
    refine .framed (Framed.channels ?_ (onlyChannels_firePedal _ p))
    exact .stays ⟨rfl, rfl, rfl, rfl, rfl, rfl, rfl⟩ rfl rfl
  | pedalKickEnd p _ =>
    refine .framed (Framed.channels (t := s.endPedalKick p) ?_ (onlyChannels_handOn _))
    unfold State.endPedalKick
    split <;> exact .stays ⟨rfl, rfl, rfl, rfl, rfl, rfl, rfl⟩ rfl rfl
  | pedalLift p _ => exact hsame ⟨rfl, rfl, rfl, rfl, rfl, rfl, rfl⟩ rfl rfl
  | pedalReleaseEnd p _ => exact .framed ((Framed.refl s).channels (onlyChannels_endPedalRelease s p))
  | heatCooling =>
    rw [State.cool_eq]; exact hsame ⟨rfl, rfl, rfl, rfl, rfl, rfl, rfl⟩ rfl rfl
  | faultLine g active => exact hsame ⟨rfl, rfl, rfl, rfl, rfl, rfl, rfl⟩ rfl rfl
  | faultRaised g =>
    refine rollEffect_raiseFault ?_ ?_ ?_ g
    · exact ⟨rfl, rfl, rfl, rfl, rfl, rfl, rfl⟩
    · rfl
    · rfl
  | senseEdge k => exact .framed ((Framed.refl s).sensed (onlySensed_judgeEdge s k))
  | senseDeadline k => exact .framed ((Framed.refl s).sensed (onlySensed_reachDeadline s k))
  | byteTaken i =>
    unfold State.takeByte
    split <;> exact hsame ⟨rfl, rfl, rfl, rfl, rfl, rfl, rfl⟩ rfl rfl
  | posted queue i => exact hsame ⟨rfl, rfl, rfl, rfl, rfl, rfl, rfl⟩ rfl rfl
  | advanced =>
    refine hsame ⟨rfl, rfl, rfl, rfl, ?_, ?_, ?_⟩ rfl rfl <;> (unfold State.advance; dsimp only; split <;> rfl)
  | advancedInReset =>
    unfold State.advanceInReset
    dsimp only
    split
    · rw [State.cool_eq]; exact hsame ⟨rfl, rfl, rfl, rfl, rfl, rfl, rfl⟩ rfl rfl
    · exact hsame ⟨rfl, rfl, rfl, rfl, rfl, rfl, rfl⟩ rfl rfl

/-- What a step does to the roll's records and the return queue. -/
theorem step_rollEffect (h : step s = .next t) : ∃ queue, RollEffect { s with pending := queue } t := by
  obtain ⟨queue, he⟩ := step_effect h
  exact ⟨queue, he.rollEffect⟩

/-! The return queue (R166 to R169) -/

/-- No reply has joined the return queue, its reports stay one of a kind, and beside it the Link Port's records stand. -/
structure Reported (s t : State) : Prop where
  replies : t.link.queue.countP (·.isReply) ≤ s.link.queue.countP (·.isReply)
  windows : t.link.queue.countP (·.isWindow) ≤ max 1 (s.link.queue.countP (·.isWindow))
  states : t.link.queue.countP (·.isState) ≤ max 1 (s.link.queue.countP (·.isState))
  op : t.store.op = s.store.op
  lane : t.link = { s.link with reportSeq := t.link.reportSeq, queue := t.link.queue }

theorem Reported.trans (h : Reported s t) (h' : Reported t u) : Reported s u :=
  ⟨h'.replies.trans h.replies, h'.windows.trans (max_le (le_max_left _ _) h.windows),
    h'.states.trans (max_le (le_max_left _ _) h.states), h'.op.trans h.op, by rw [h'.lane, h.lane]⟩

theorem reported_of_link (h : t.link = s.link) (ho : t.store.op = s.store.op) : Reported s t := by
  refine ⟨?_, ?_, ?_, ho, ?_⟩ <;> rw [h]
  · exact le_max_right _ _
  · exact le_max_right _ _

theorem OnlyPedalUnit.reported (h : OnlyPedalUnit s t) : Reported s t := by
  unfold OnlyPedalUnit OnlyChannels at h
  exact reported_of_link (by rw [h]) (by rw [h])

theorem OnlyChannels.reported (h : OnlyChannels s t) : Reported s t := h.onlyPedalUnit.reported

/-- A report that replaces the one of its kind in the queue adds no entry of another kind. -/
theorem countP_replaced (q : List ReturnEntry) (p r : ReturnEntry → Bool) (e : ReturnEntry) :
    (q.filter (fun x => !p x) ++ [e]).countP r ≤ q.countP r + if r e then 1 else 0 := by
  rw [List.countP_append, List.countP_singleton]
  exact Nat.add_le_add_right List.filter_sublist.countP_le _

theorem countP_replaced_self (q : List ReturnEntry) (p : ReturnEntry → Bool) (e : ReturnEntry) :
    (q.filter (fun x => !p x) ++ [e]).countP p ≤ 1 := by
  rw [List.countP_append, List.countP_filter, List.countP_singleton]
  have : q.countP (fun a => p a && !p a) = 0 := by simp
  rw [this]
  split <;> omega

theorem reported_queueState (s : State) : Reported s s.queueState :=
  ⟨countP_replaced s.link.queue _ _ _, (countP_replaced s.link.queue _ _ _).trans (le_max_right _ _),
    (countP_replaced_self s.link.queue _ _).trans (le_max_left _ _), rfl, rfl⟩

theorem reported_queueWindow (s : State) (top : Int) : Reported s (s.queueWindow top) :=
  ⟨countP_replaced s.link.queue _ _ _, (countP_replaced_self s.link.queue _ _).trans (le_max_left _ _),
    (countP_replaced s.link.queue _ _ _).trans (le_max_right _ _), rfl, rfl⟩

theorem reported_changeHolds (s : State) (op st : Bool) : Reported s (s.changeHolds op st) := by
  rw [changeHolds_eq]; exact reported_of_link rfl rfl

theorem reported_setHolds (s : State) (op st : Bool) : Reported s (s.setHolds op st) := by
  rcases setHolds_cases s op st with ⟨-, -, e⟩ | ⟨-, e⟩ <;> rw [e]
  · exact reported_of_link rfl rfl
  · exact (reported_changeHolds s op st).trans (reported_queueState _)

theorem reported_checkEpisode (s : State) : Reported s s.checkEpisode := by
  rcases checkEpisode_cases s with e | ⟨-, -, e⟩ <;> rw [e]
  · exact reported_of_link rfl rfl
  · refine Reported.trans ?_ (reported_setHolds _ _ _)
    exact reported_of_link rfl rfl

theorem reported_advancePlan (s : State) (n : Nat) : Reported s (s.advancePlan n) := by
  unfold State.advancePlan
  dsimp only
  split
  · refine Reported.trans (Reported.trans ?_ (reported_checkEpisode _)) (reported_queueWindow _ _)
    exact reported_of_link rfl rfl
  · refine Reported.trans ?_ (reported_checkEpisode _)
    exact reported_of_link rfl rfl

theorem reported_enterEnding (s : State) (n : Nat) : Reported s (s.enterEnding n) := by
  unfold State.enterEnding
  refine Reported.trans ?_ (onlyPedalUnit_closeChannels _ n).reported
  refine (reported_changeHolds s s.roll.operator false).trans (Reported.trans ?_ (reported_queueState _))
  exact reported_of_link rfl rfl

theorem reported_planNext (s : State) : Reported s s.planNext := by
  unfold State.planNext
  dsimp only
  have hunits {x : State} (hx : Reported s x) :
      Reported s (((x.planPedals s.nextLine s.nextEvents).planKeys s.nextLine s.nextEvents).advancePlan s.nextLine) :=
    ((hx.trans (onlyPedalUnit_planPedals x _ _).reported).trans (onlyChannels_planKeys _ _ _).reported).trans
      (reported_advancePlan _ _)
  split
  · refine (hunits ?_).trans (reported_enterEnding _ _)
    exact reported_of_link rfl rfl
  · refine hunits ?_
    exact reported_of_link rfl rfl

theorem reported_enterPlaying (s : State) (f : Nat) (m : MapNo) : Reported s (s.enterPlaying f m) := by
  unfold State.enterPlaying
  refine Reported.trans (Reported.trans ?_ (reported_queueState _)) (reported_queueWindow _ _)
  exact reported_of_link rfl rfl

theorem reported_endLeader (s : State) (n : Nat) : Reported s (s.endLeader n) := by
  unfold State.endLeader
  dsimp only
  split
  · refine Reported.trans ?_ (reported_enterPlaying _ _ _)
    exact reported_of_link rfl rfl
  · split
    · refine Reported.trans ?_ (reported_enterPlaying _ _ _)
      exact reported_of_link rfl rfl
    · exact reported_of_link rfl rfl

theorem reported_playLine (s : State) (m : MapNo) (xs : List Bool) (n : Nat) : Reported s (s.playLine m xs n) := by
  unfold State.playLine
  dsimp only
  split
  · exact reported_of_link rfl rfl
  · split <;> exact reported_of_link rfl rfl

theorem reported_recognize (s : State) (set : ColumnSet) (xs : List Bool) (n : Nat) : Reported s (s.recognize set xs n) := by
  unfold State.recognize
  split
  · refine Reported.trans ?_ (reported_endLeader _ n)
    exact reported_of_link rfl rfl
  · exact reported_playLine ..
  · exact reported_of_link rfl rfl
  · exact reported_of_link rfl rfl

theorem reported_fillLine (s : State) (n : Nat) : Reported s (s.fillLine n) := by
  unfold State.fillLine
  split
  · refine Reported.trans ?_ (reported_recognize ..)
    exact reported_of_link rfl rfl
  · exact reported_of_link rfl rfl

theorem reported_fillLines (n count : Nat) (s : State) : Reported s (s.fillLines n count) := by
  induction count generalizing s n with
  | zero => exact reported_of_link rfl rfl
  | succ count ih => exact (reported_fillLine s n).trans (ih _ _)

theorem reported_trackEdges (s : State) (px : List Nat) : Reported s (s.trackEdges px) := by
  unfold State.trackEdges
  split <;> exact reported_of_link rfl rfl

theorem reported_bumpIf (s : State) (b : Bool) (c : Counter) : Reported s (s.bumpIf b c) := by
  unfold State.bumpIf
  split <;> exact reported_of_link rfl rfl

theorem reported_takeLine (s : State) (n : Nat) (px : List Nat) : Reported s (s.takeLine n px) := by
  unfold State.takeLine
  split
  · exact reported_of_link rfl rfl
  · exact (reported_trackEdges s px).trans
      ((reported_bumpIf _ _ _).trans ((reported_bumpIf _ _ _).trans (reported_recognize ..)))

theorem reported_arrive (s : State) (n : Nat) (px : List Nat) : Reported s (s.arrive n px) := by
  rw [arrive_eq]
  have hlines : Reported s (s.lines n px) := (reported_fillLines _ _ s).trans (reported_takeLine _ n px)
  refine Reported.trans (hlines.trans ?_) (reported_checkEpisode _)
  exact reported_of_link rfl rfl

theorem reported_stopRoll (s : State) : Reported s s.stopRoll := by
  unfold State.stopRoll
  rw [stopChannels_eq]
  refine Reported.trans ?_ (reported_queueState _)
  exact reported_of_link rfl rfl

theorem reported_startRoll (s : State) (line tempo : Nat) (m : MapMode) : Reported s (s.startRoll line tempo m) := by
  unfold State.startRoll
  split
  · refine Reported.trans ?_ (reported_enterPlaying _ _ _)
    exact reported_of_link rfl rfl
  · dsimp only
    split
    · refine Reported.trans ?_ (reported_enterPlaying _ _ _)
      exact reported_of_link rfl rfl
    · refine Reported.trans (Reported.trans ?_ (reported_queueState _)) (reported_queueWindow _ _)
      exact reported_of_link rfl rfl

theorem Reported.shaped (h : Reported s t) (hs : ReturnQueueShaped s) : ReturnQueueShaped t := by
  obtain ⟨hr, hw, hst⟩ := hs
  refine ⟨?_, h.windows.trans (max_le (le_refl _) hw), h.states.trans (max_le (le_refl _) hst)⟩
  refine le_trans ?_ hr
  unfold State.replyCount
  rw [h.op]
  exact Nat.add_le_add_right h.replies _

/-- A reply joins where there is room. -/
theorem shaped_of_reply {tag : Tag} {bytes : List Byte} (hs : ReturnQueueShaped s)
    (hq : t.link.queue = s.link.queue ++ [.reply tag bytes])
    (hroom : t.link.queue.countP (·.isReply) + (if t.store.op.isSome then 1 else 0) ≤ 14) : ReturnQueueShaped t := by
  refine ⟨hroom, ?_, ?_⟩
  · rw [hq, List.countP_append]; exact hs.2.1
  · rw [hq, List.countP_append]; exact hs.2.2

theorem countP_reply (q : List ReturnEntry) (tag : Tag) (bytes : List Byte) :
    (q ++ [ReturnEntry.reply tag bytes]).countP (·.isReply) = q.countP (·.isReply) + 1 := by
  rw [List.countP_append]; rfl

/-- A queue that has lost entries at most. -/
theorem shaped_of_sublist (hs : ReturnQueueShaped s) (h : t.link.queue.Sublist s.link.queue)
    (ho : t.store.op = s.store.op) : ReturnQueueShaped t := by
  obtain ⟨hr, hw, hst⟩ := hs
  refine ⟨le_trans ?_ hr, h.countP_le.trans hw, h.countP_le.trans hst⟩
  unfold State.replyCount
  rw [ho]
  exact Nat.add_le_add_right h.countP_le _

theorem Framed.shaped (h : Framed s t) (hs : ReturnQueueShaped s) : ReturnQueueShaped t := by
  rcases h.queue with e | ⟨hroom, tag, bytes, e⟩
  · exact shaped_of_sublist hs (by rw [e]) h.op
  · refine shaped_of_reply hs e ?_
    rw [e, countP_reply, h.op]
    unfold State.replyCount at hroom
    omega

/-- A queue without entries, and no operation in flight. -/
theorem shaped_of_empty (hq : t.link.queue = []) (ho : t.store.op = none) : ReturnQueueShaped t := by
  unfold ReturnQueueShaped State.replyCount
  rw [hq, ho]
  exact ⟨Nat.zero_le _, Nat.zero_le _, Nat.zero_le _⟩

theorem RollEffect.shaped (hs : ReturnQueueShaped s) (h : RollEffect s t) : ReturnQueueShaped t := by
  cases h with
  | framed ht => exact ht.shaped hs
  | broughtUp now next => exact shaped_of_empty rfl rfl
  | failed q => exact shaped_of_empty rfl (op_loseOp _)
  | resetAsserted => exact shaped_of_empty rfl (op_loseOp _)
  | arrived hu _ n px _ _ _ => exact (reported_arrive _ n px).shaped (hu.shaped hs)
  | rollStarted hu line tempo m _ => exact (reported_startRoll _ line tempo m).shaped (hu.shaped hs)
  | rollStopped hu => exact (reported_stopRoll _).shaped (hu.shaped hs)
  | holdsSet hu op st => exact (reported_setHolds _ op st).shaped (hu.shaped hs)
  | tempoSet hu e tempo now _ _ _ => exact (reported_checkEpisode _).shaped (hu.shaped hs)
  | mapWritten hu m maps _ _ => exact hu.shaped hs
  | opStarted ht hreply hop hq =>
    refine ⟨?_, by rw [hq]; exact hs.2.1, by rw [hq]; exact hs.2.2⟩
    unfold State.replyCount at hreply ⊢
    rw [hq]
    rw [hop] at hreply
    simp only [Option.isSome_none, Bool.false_eq_true, if_false] at hreply
    split <;> omega
  | opFinished ht ho hop hq =>
    obtain ⟨tag, bytes, e⟩ := hq
    refine shaped_of_reply hs e ?_
    have hr := hs.1
    unfold State.replyCount at hr
    rw [ho] at hr
    rw [e, countP_reply, hop]
    exact hr
  | linkReset tag =>
    refine shaped_of_reply (s := { s with link := { s.link with queue := [] } }) ⟨?_, Nat.zero_le _, Nat.zero_le _⟩
      (tag := tag) (bytes := [0x50#8, ResultCode.done.byte]) rfl ?_
    · unfold State.replyCount; dsimp only; split <;> simp
    · rw [(onlyStopped_linkReset s tag).store]
      show 1 + _ ≤ 14
      split <;> omega
  | playingEntered m h => exact (reported_enterPlaying _ _ m).shaped hs
  | sent ht hop hq => exact shaped_of_sublist hs hq hop
  | planned hd => exact (reported_planNext s).shaped hs
  | rollEnded hu => exact (reported_queueState _).shaped (hu.shaped hs)
  | pedalsSwept ht hop hq _ => exact shaped_of_sublist hs (by rw [hq]) hop

/-- Settles O51, by cases on what the step does to the return queue. -/
theorem returnQueueStaysShaped : Obligations.ReturnQueueStaysShaped := by
  intro s t hs hstep
  obtain ⟨queue, he⟩ := step_rollEffect hstep
  exact he.shaped (s := { s with pending := queue }) hs

/-! The scan records (R11, R27, R28) -/

theorem length_appendEdge (es : List (Nat × Nat)) (e : Nat × Nat) (h : es.length ≤ 8) : (appendEdge es e).length ≤ 8 := by
  rw [appendEdge, List.length_drop, List.length_append, List.length_singleton]
  omega

/-- The order of section 2.3, as the queue keeps it: no event behind one that R27 puts after it. -/
def InOrder (q : List HoleEvent) : Prop := q.Pairwise fun a b => b.before a = false

theorem before_iff (a b : HoleEvent) : a.before b = true ↔ a.line < b.line ∨ (a.line = b.line
    ∧ (a.function.classRank < b.function.classRank
      ∨ (a.function.classRank = b.function.classRank ∧ a.entry < b.entry))) := by
  simp [HoleEvent.before]

theorem not_before_of_before {a b e : HoleEvent} (h : e.before a = true) (h' : b.before a = false) : b.before e = false := by
  rw [Bool.eq_false_iff, ne_eq, before_iff] at h' ⊢
  rw [before_iff] at h
  omega

theorem not_before_self_of_before {a e : HoleEvent} (h : e.before a = true) : a.before e = false := by
  rw [Bool.eq_false_iff, ne_eq, before_iff]
  rw [before_iff] at h
  omega

theorem inOrder_insertEvent {q : List HoleEvent} (e : HoleEvent) (h : InOrder q) : InOrder (insertEvent q e) := by
  induction q with
  | nil => exact List.pairwise_singleton _ _
  | cons x xs ih =>
    obtain ⟨hx, hxs⟩ := List.pairwise_cons.1 h
    unfold insertEvent
    split
    case isTrue hb =>
      refine List.pairwise_cons.2 ⟨fun y hy => ?_, h⟩
      rcases List.mem_cons.1 hy with rfl | hy
      · exact not_before_self_of_before hb
      · exact not_before_of_before hb (hx y hy)
    case isFalse hb =>
      refine List.pairwise_cons.2 ⟨fun y hy => ?_, ih hxs⟩
      rcases List.mem_cons.1 ((insertEvent_perm e xs).mem_iff.1 hy) with rfl | hy
      · exact Bool.eq_false_of_not_eq_true hb
      · exact hx y hy

theorem inOrder_foldl_insertEvent (es : List HoleEvent) {q : List HoleEvent} (h : InOrder q) :
    InOrder (es.foldl insertEvent q) := by
  induction es generalizing q with
  | nil => exact h
  | cons e es ih => exact ih (inOrder_insertEvent e h)

/-- A queue with a line's events is in order and within the limit again (R27, R28). -/
theorem offerEvents_bounded {q q' es : List HoleEvent} (h : InOrder q) (ho : offerEvents q es = some q') :
    q'.length ≤ 1024 ∧ InOrder q' := by
  rcases offerEvents_cases q es with ⟨hl, x, hx, hp⟩ | ⟨-, hn⟩
  · rw [hx] at ho; cases ho
    refine ⟨by rw [hp.length_eq, List.length_append, Nat.add_comm]; exact hl, ?_⟩
    unfold offerEvents at hx
    rw [if_pos hl] at hx
    cases hx
    exact inOrder_foldl_insertEvent es h
  · rw [hn] at ho; cases ho

theorem scanBounded_of_same (h : ScanRecordsBounded s) (hf : t.front.edges = s.front.edges)
    (hq : t.holes.queue.Sublist s.holes.queue) : ScanRecordsBounded t :=
  ⟨by rw [hf]; exact h.1, hq.length_le.trans h.2.1, h.2.2.sublist hq⟩

theorem SameRoll.scanBounded (h : SameRoll s t) (hs : ScanRecordsBounded s) : ScanRecordsBounded t :=
  scanBounded_of_same hs (by rw [h.front]) (by rw [h.holes])

theorem scanBounded_pass {hr hr' : HoleRecognizer} {cols : List Column} {xs : List Bool} {n : Nat}
    (h : InOrder hr.queue) (hp : hr.pass cols xs n = some hr') : hr'.queue.length ≤ 1024 ∧ InOrder hr'.queue := by
  unfold HoleRecognizer.pass at hp
  obtain ⟨q, hq, rfl⟩ := Option.map_eq_some_iff.1 hp
  exact offerEvents_bounded h hq

theorem scanBounded_playLine (h : ScanRecordsBounded s) (m : MapNo) (xs : List Bool) (n : Nat) :
    ScanRecordsBounded (s.playLine m xs n) := by
  unfold State.playLine
  dsimp only
  split
  case h_1 hr hp => exact ⟨h.1, scanBounded_pass h.2.2 hp⟩
  · split
    case h_1 hr hp => exact ⟨h.1, scanBounded_pass h.2.2 hp⟩
    · exact h

theorem scanBounded_recognize (h : ScanRecordsBounded s) (set : ColumnSet) (xs : List Bool) (n : Nat) :
    ScanRecordsBounded (s.recognize set xs n) := by
  unfold State.recognize
  split
  · unfold State.endLeader
    dsimp only
    split
    · exact h
    · split <;> exact h
  · exact scanBounded_playLine h ..
  · exact h
  · exact h

theorem scanBounded_fillLines (n count : Nat) {s : State} (h : ScanRecordsBounded s) :
    ScanRecordsBounded (s.fillLines n count) := by
  induction count generalizing s n with
  | zero => exact h
  | succ count ih =>
    refine ih _ ?_
    unfold State.fillLine
    split
    · exact scanBounded_recognize (s := s.bump .missingLine) h ..
    · exact h

theorem scanBounded_trackEdges (h : ScanRecordsBounded s) (px : List Nat) : ScanRecordsBounded (s.trackEdges px) := by
  unfold State.trackEdges
  split
  · exact ⟨length_appendEdge _ _ h.1, h.2⟩
  · exact h

theorem scanBounded_takeLine (h : ScanRecordsBounded s) (n : Nat) (px : List Nat) : ScanRecordsBounded (s.takeLine n px) := by
  have hbump {x : State} (hx : ScanRecordsBounded x) (b : Bool) (c : Counter) : ScanRecordsBounded (x.bumpIf b c) := by
    unfold State.bumpIf
    split <;> exact hx
  unfold State.takeLine
  split
  · exact h
  · exact scanBounded_recognize (hbump (hbump (scanBounded_trackEdges h px) _ _) _ _) ..

theorem OnlyHolds.scanBounded (h : OnlyHolds s t) (hs : ScanRecordsBounded s) : ScanRecordsBounded t :=
  scanBounded_of_same hs (by rw [h.1]) (by rw [h.1])

theorem scanBounded_arrive (h : ScanRecordsBounded s) (n : Nat) (px : List Nat) : ScanRecordsBounded (s.arrive n px) := by
  rw [arrive_eq]
  have hlines : ScanRecordsBounded (s.lines n px) := scanBounded_takeLine (scanBounded_fillLines _ _ h) n px
  refine (onlyHolds_checkEpisode _).scanBounded (scanBounded_of_same hlines rfl ?_)
  show State.queueToPlan _ |>.Sublist _
  unfold State.queueToPlan stillToPlan
  split
  · exact List.filter_sublist
  · exact List.Sublist.refl _

theorem sameRoll_setHolds (s : State) (op st : Bool) : SameRoll s (s.setHolds op st) := by
  rcases setHolds_cases s op st with ⟨-, -, e⟩ | ⟨-, e⟩ <;> rw [e]
  · exact SameRoll.refl s
  · rw [changeHolds_eq]; exact ⟨rfl, rfl, rfl, rfl, rfl, rfl, rfl⟩

theorem sameRoll_checkEpisode (s : State) : SameRoll s s.checkEpisode := by
  rcases checkEpisode_cases s with e | ⟨-, -, e⟩ <;> rw [e]
  · exact SameRoll.refl s
  · refine SameRoll.trans ?_ (sameRoll_setHolds _ _ _)
    exact ⟨rfl, rfl, rfl, rfl, rfl, rfl, rfl⟩

/-! Planning a line -/

/-- The state once the units have taken the next line, before the plan line advances (R67). -/
def State.lineTaken (s : State) : State :=
  (((State.planExpression { s with holes := { s.holes with
    queue := s.holes.queue.dropWhile fun e => e.line == s.nextLine } } s.nextLine s.nextEvents).planPedals s.nextLine
      s.nextEvents).planKeys s.nextLine s.nextEvents)

theorem planNext_eq (s : State) : s.planNext
    = if endMarked s.nextEvents then (s.lineTaken.advancePlan s.nextLine).enterEnding s.nextLine
      else s.lineTaken.advancePlan s.nextLine := rfl

/-- Before the advance of the plan line, the head of the queue has gone and the records of the roll stand. -/
theorem sameRoll_lineTaken (s : State) : SameRoll { s with
    holes := { s.holes with queue := s.holes.queue.dropWhile fun e => e.line == s.nextLine }
    pedalUnit := s.lineTaken.pedalUnit } s.lineTaken := by
  have h := (onlyPedalUnit_planPedals (State.planExpression { s with holes := { s.holes with
    queue := s.holes.queue.dropWhile fun e => e.line == s.nextLine } } s.nextLine s.nextEvents) s.nextLine
      s.nextEvents).trans (onlyChannels_planKeys _ s.nextLine s.nextEvents).onlyPedalUnit
  unfold OnlyPedalUnit OnlyChannels at h
  unfold State.lineTaken
  exact ⟨by rw [h]; rfl, by rw [h]; rfl, rfl, by rw [h]; rfl, by rw [h]; rfl, by rw [h]; rfl, by rw [h]; rfl⟩

/-- The schedule once line n is planned: its head goes when n is the second segment's origin (R47). -/
def advanced (n : Nat) : List Segment → List Segment
  | g :: h :: rest => if h.origin = n then h :: rest else g :: h :: rest
  | l => l

theorem sameRoll_advancePlan (s : State) (n : Nat) : SameRoll { s with roll := { s.roll with
    planLine := n, schedule := advanced n s.roll.schedule } } (s.advancePlan n) := by
  have hwindow (x : State) (top : Int) : SameRoll x (x.queueWindow top) := ⟨rfl, rfl, rfl, rfl, rfl, rfl, rfl⟩
  unfold State.advancePlan
  dsimp only
  split
  · refine SameRoll.trans (SameRoll.trans ?_ (sameRoll_checkEpisode _)) (hwindow _ _)
    refine ⟨rfl, rfl, rfl, rfl, rfl, ?_, rfl⟩
    unfold advanced; rfl
  · refine SameRoll.trans ?_ (sameRoll_checkEpisode _)
    refine ⟨rfl, rfl, rfl, rfl, rfl, ?_, rfl⟩
    unfold advanced; rfl

/-- ENDING keeps the schedule and the plan line; the queue is empty (R30, R58). -/
theorem sameRoll_enterEnding (s : State) (n : Nat) : SameRoll { s with
    holes := { s.holes with queue := [] }
    roll := { s.roll with rollState := .ending }
    pedalUnit := (s.enterEnding n).pedalUnit } (s.enterEnding n) := by
  have h : OnlyPedalUnit _ (s.enterEnding n) := onlyPedalUnit_closeChannels (State.queueState
    { s.changeHolds s.roll.operator false with
      holes := { (s.changeHolds s.roll.operator false).holes with queue := [] }
      roll := { (s.changeHolds s.roll.operator false).roll with rollState := .ending, endLine := some n, starveStart := none } }) n
  rw [changeHolds_eq] at h
  generalize s.enterEnding n = x at h
  unfold OnlyPedalUnit OnlyChannels at h
  exact ⟨by rw [h]; rfl, by rw [h]; rfl, rfl, by rw [h]; rfl, by rw [h]; rfl, by rw [h]; rfl, by rw [h]; rfl⟩

/-- Planning a line leaves the Scan Front End alone, and takes of the queue its head, or all of it (R29, R30). -/
theorem planNext_queue (s : State) : s.planNext.front = s.front ∧ s.planNext.holes.queue.Sublist s.holes.queue := by
  obtain ⟨htf, hth⟩ : s.lineTaken.front = s.front ∧ s.lineTaken.holes.queue.Sublist s.holes.queue :=
    ⟨(sameRoll_lineTaken s).front, by rw [(sameRoll_lineTaken s).holes]; exact List.dropWhile_sublist _⟩
  rw [planNext_eq]
  generalize s.lineTaken = y at htf hth
  have hadv := sameRoll_advancePlan y s.nextLine
  have hfront : (y.advancePlan s.nextLine).front = s.front := hadv.front.trans htf
  have hqueue : (y.advancePlan s.nextLine).holes.queue.Sublist s.holes.queue := by rw [hadv.holes]; exact hth
  generalize y.advancePlan s.nextLine = x at hfront hqueue
  split
  · have hend := sameRoll_enterEnding x s.nextLine
    exact ⟨hend.front.trans hfront, by rw [hend.holes]; exact List.nil_sublist _⟩
  · exact ⟨hfront, hqueue⟩

theorem RollEffect.scanBounded (hs : ScanRecordsBounded s) (h : RollEffect s t) : ScanRecordsBounded t := by
  cases h with
  | framed ht => exact ht.roll.scanBounded hs
  | broughtUp now next => exact ⟨Nat.zero_le _, Nat.zero_le _, .nil⟩
  | failed q => exact ⟨Nat.zero_le _, Nat.zero_le _, .nil⟩
  | resetAsserted => exact ⟨by simpa [State.assertReset] using hs.1, Nat.zero_le _, .nil⟩
  | arrived hu _ n px _ _ _ => exact scanBounded_arrive (hu.roll.scanBounded hs) n px
  | rollStarted hu line tempo m _ =>
    unfold State.startRoll
    split
    · exact ⟨Nat.zero_le _, Nat.zero_le _, .nil⟩
    · dsimp only
      split <;> exact ⟨Nat.zero_le _, Nat.zero_le _, .nil⟩
  | @rollStopped u hu =>
    unfold State.stopRoll
    rw [stopChannels_eq]
    exact ⟨(hu.roll.scanBounded hs).1, Nat.zero_le _, .nil⟩
  | holdsSet hu op st => exact (onlyHolds_setHolds _ op st).scanBounded (hu.roll.scanBounded hs)
  | tempoSet hu e tempo now _ _ _ => exact (onlyHolds_checkEpisode _).scanBounded (hu.roll.scanBounded hs)
  | mapWritten hu m maps _ _ => exact hu.roll.scanBounded hs
  | opStarted ht _ _ _ => exact ht.scanBounded hs
  | opFinished ht _ _ _ => exact ht.scanBounded hs
  | linkReset tag => exact ⟨Nat.zero_le _, Nat.zero_le _, .nil⟩
  | playingEntered m h => exact hs
  | sent ht hop hq => exact ht.scanBounded hs
  | planned hd =>
    obtain ⟨hf, hq⟩ := planNext_queue s
    exact scanBounded_of_same hs (by rw [hf]) hq
  | rollEnded hu => exact ⟨(hu.roll.scanBounded hs).1, Nat.zero_le _, .nil⟩
  | pedalsSwept ht hop hq _ => exact ht.scanBounded hs

/-- Settles O50: the counters by what every operation does to them, the scan records by cases on what the step does to them. -/
theorem recordsStayBounded : Obligations.RecordsStayBounded := by
  intro s t ⟨hc, hr⟩ hstep
  obtain ⟨queue, he⟩ := step_rollEffect hstep
  exact ⟨countersBounded_step hc hstep, he.scanBounded (s := { s with pending := queue }) hr⟩

end Sys2Proof.Machine
end

section
/-! PROOFS. O24: one debounce record on one line, the records and events of a line, and an offer to the Event Queue. -/

namespace Sys2Proof.Machine

open Sys2Proof.Safety

/-! One record (R22, R25, R26) -/

/-- The run of differing samples that a record has after a differing sample on line n. -/
def Debounce.grown (d : Debounce) (n : Nat) : Run :=
  ⟨(d.run.map (·.start)).getD n, (d.run.map (·.length)).getD 0 + 1⟩

theorem update_nothing {c : Column} (h : c.function = .nothing) (d : Debounce) (x : Bool) (n : Nat) :
    Debounce.update c d x n = (d, none) := if_pos h

theorem update_same {c : Column} (h : c.function ≠ .nothing) {d : Debounce} {x : Bool} (hx : x = d.reportedOpen) (n : Nat) :
    Debounce.update c d x n = (⟨d.reportedOpen, none⟩, none) := by
  rw [Debounce.update, if_neg h, if_pos hx]

/-- A differing sample: the grown run has reached the entry's length and makes its event, or goes on. -/
theorem update_differing {c : Column} (h : c.function ≠ .nothing) {d : Debounce} {x : Bool} (hx : x ≠ d.reportedOpen)
    (n : Nat) : Debounce.update c d x n
      = if (if x then c.openRun else c.closeRun) ≤ (d.grown n).length then
          (⟨x, none⟩, some ((d.grown n).start, if x then .opens else .closes))
        else (⟨d.reportedOpen, some (d.grown n)⟩, none) := by
  rw [Debounce.update, if_neg h, if_neg hx]
  obtain ⟨o, r⟩ := d
  cases r <;> rfl

/-! A line's records and events -/

/-- The columns of a line with their records and samples. -/
def lineRecords (cols : List Column) (ds : List Debounce) (xs : List Bool) : List (Column × Debounce × Bool) :=
  cols.zip (ds.zip xs)

theorem debounceLine_eq (first n : Nat) (cols : List Column) (ds : List Debounce) (xs : List Bool)
    (hc : cols.length = ds.length) (hx : xs.length = ds.length) :
    debounceLine first cols ds xs n
      = ((lineRecords cols ds xs).map (fun a => (Debounce.update a.1 a.2.1 a.2.2 n).1),
        ((lineRecords cols ds xs).zipIdx first).filterMap fun a =>
          (Debounce.update a.1.1 a.1.2.1 a.1.2.2 n).2.map fun e => ⟨e.1, a.2, a.1.1.function, e.2⟩) := by
  induction cols generalizing first ds xs with
  | nil =>
    obtain rfl : ds = [] := List.eq_nil_of_length_eq_zero hc.symm
    rfl
  | cons c cs ih =>
    obtain ⟨d, ds, rfl⟩ := List.exists_cons_of_length_eq_add_one hc.symm
    obtain ⟨x, xs, rfl⟩ := List.exists_cons_of_length_eq_add_one hx
    have hrest := ih (first + 1) ds xs (by simpa using hc) (by simpa using hx)
    rw [debounceLine, hrest]
    cases he : (Debounce.update c d x n).2 <;> simp [lineRecords, he]

/-- The events of a line stand in entry order, counted from a first index. -/
theorem zipIdx_filterMap_shift {α β : Type} (f : α → Nat → Option β) (first : Nat) (l : List α) :
    (l.zipIdx first).filterMap (fun a => f a.1 a.2) = l.zipIdx.filterMap fun a => f a.1 (first + a.2) := by
  rw [List.zipIdx_eq_map_add, List.filterMap_map]
  rfl

/-- Settles O24: a record by its three cases, a line by induction over its columns, an offer by the order of insertions. -/
theorem debounceAndEventQueue : Obligations.DebounceAndEventQueue := by
  refine ⟨fun c d x n => ?_, fun first n cols ds xs hc hx => ?_, fun q es hq => ⟨fun hl => ?_, fun hl => ?_⟩⟩
  · refine ⟨fun h => update_nothing h d x n, fun h => ⟨fun hx => update_same h hx n, fun hx hl => ?_, fun hx hl => ?_⟩⟩
    · exact (update_differing h hx n).trans (if_neg (Nat.not_le.2 hl))
    · exact (update_differing h hx n).trans (if_pos hl)
  · rw [debounceLine_eq first n cols ds xs hc hx]
    exact ⟨rfl, zipIdx_filterMap_shift (fun (a : Column × Debounce × Bool) (i : Nat) => (Debounce.update a.1 a.2.1 a.2.2 n).2.map fun e =>
      (⟨e.1, i, a.1.function, e.2⟩ : HoleEvent)) first _⟩
  · rcases offerEvents_cases q es with ⟨-, q', ho, hp⟩ | ⟨hn, -⟩
    · exact ⟨q', ho, hp.trans List.perm_append_comm, (offerEvents_bounded hq ho).2⟩
    · exact absurd hn (Nat.not_lt.2 hl)
  · rcases offerEvents_cases q es with ⟨hn, -⟩ | ⟨-, ho⟩
    · exact absurd hl (Nat.not_lt.2 hn)
    · exact ho

end Sys2Proof.Machine
end

section
/-! PROOFS. O58, its first part: the roll's records in the form that its state calls for, through every step. -/

namespace Sys2Proof.Machine

open Sys2Proof.Safety

variable {s t u : State}

/-- The roll is PLAYING or ENDING. -/
def Plays (s : State) : Prop := s.roll.rollState = .playing ∨ s.roll.rollState = .ending

/-- No key is captured and no window open while the planned sostenuto is UP (R146, R147). -/
def CaptureInForm (p : PedalUnit) : Prop := p.planned.sostenuto = false → p.capture = [] ∧ p.window = none

/-- The form of the roll's records, apart from where the queued events stand in PLAYING. -/
structure PaperForm (s : State) : Prop where
  schedule : Plays s → 1 ≤ s.roll.schedule.length ∧ s.roll.schedule.length ≤ 8
    ∧ s.roll.schedule.Pairwise fun g h => g.origin < h.origin
  empty : ¬Plays s → s.roll.schedule = []
  active : s.holes.activeSet.isSome = true ↔ Plays s
  planLine : s.roll.rollState = .playing → -1 ≤ s.roll.planLine
  quiet : s.roll.rollState ≠ .playing → s.holes.queue = []
  capture : CaptureInForm s.pedalUnit

/-- In PLAYING every queued event lies above the plan line. -/
def QueueAbove (s : State) : Prop := s.roll.rollState = .playing → ∀ e ∈ s.holes.queue, s.roll.planLine < (e.line : Int)

theorem rollRecordsInForm_iff : RollRecordsInForm s ↔ PaperForm s ∧ QueueAbove s := by
  constructor
  · rintro ⟨h1, h2, h3, h4, h5, h6⟩
    exact ⟨⟨h1, h2, h3, fun h => (h4 h).1, h5, h6⟩, fun h => (h4 h).2⟩
  · rintro ⟨h, hq⟩
    exact ⟨h.schedule, h.empty, h.active, fun hp => ⟨h.planLine hp, hq hp⟩, h.quiet, h.capture⟩

theorem SameRoll.plays (h : SameRoll s t) : Plays t ↔ Plays s := by unfold Plays; rw [h.rollState]

theorem SameRoll.paperForm (h : SameRoll s t) (hs : PaperForm s) : PaperForm t :=
  ⟨by rw [h.plays, h.schedule]; exact hs.schedule, by rw [h.plays, h.schedule]; exact hs.empty,
    by rw [h.plays, h.holes]; exact hs.active, by rw [h.rollState, h.planLine]; exact hs.planLine,
    by rw [h.rollState, h.holes]; exact hs.quiet, by rw [h.pedalUnit]; exact hs.capture⟩

theorem SameRoll.queueAbove (h : SameRoll s t) (hs : QueueAbove s) : QueueAbove t := by
  unfold QueueAbove; rw [h.rollState, h.holes, h.planLine]; exact hs

/-- Without an active roll there is no schedule, no active set and no event. -/
theorem paperForm_noRoll (hr : t.roll.rollState = .noRoll) (hs : t.roll.schedule = []) (ha : t.holes.activeSet = none)
    (hq : t.holes.queue = []) (hc : CaptureInForm t.pedalUnit) : PaperForm t := by
  have hp : ¬Plays t := by unfold Plays; rw [hr]; simp
  exact ⟨fun h => absurd h hp, fun _ => hs, ⟨fun h => (by rw [ha] at h; cases h), fun h => absurd h hp⟩,
    fun h => (by rw [hr] at h; cases h), fun _ => hq, hc⟩

theorem queueAbove_of_not (h : t.roll.rollState ≠ .playing) : QueueAbove t := fun hp => absurd hp h

theorem captureInForm_fresh : CaptureInForm PedalUnit.fresh := fun _ => ⟨rfl, rfl⟩

/-! Lines -/

/-- Entering PLAYING gives one segment and a plan line just below the first play line (R24, R44). -/
theorem paperForm_enterPlaying (f : Nat) (m : MapNo) (hc : CaptureInForm s.pedalUnit) :
    PaperForm (s.enterPlaying f m) := by
  have hp : Plays (s.enterPlaying f m) := .inl rfl
  refine ⟨fun _ => ⟨?_, ?_, ?_⟩, fun h => absurd hp h, ⟨fun _ => hp, fun _ => rfl⟩, fun _ => ?_, fun h => absurd rfl h, hc⟩
  · exact Nat.le_refl 1
  · exact Nat.le_add_left 1 7
  · exact List.pairwise_singleton _ _
  · show (-1 : Int) ≤ (f : Int) - 1
    omega

/-- What a line of the paper leaves in form: the timeline and the active set stand, and so does an empty queue outside PLAYING. -/
theorem paperForm_of_line (h : PaperForm s) (hr : t.roll = s.roll) (ha : t.holes.activeSet = s.holes.activeSet)
    (hp : t.pedalUnit = s.pedalUnit) (hq : s.roll.rollState ≠ .playing → t.holes.queue = s.holes.queue) : PaperForm t := by
  have he : Plays t ↔ Plays s := by unfold Plays; rw [hr]
  exact ⟨by rw [he, hr]; exact h.schedule, by rw [he, hr]; exact h.empty, by rw [he, ha]; exact h.active,
    by rw [hr]; exact h.planLine, fun hn => by rw [hr] at hn; rw [hq hn]; exact h.quiet hn, by rw [hp]; exact h.capture⟩

theorem pass_activeSet {r r' : HoleRecognizer} {cols : List Column} {xs : List Bool} {n : Nat}
    (h : r.pass cols xs n = some r') : r'.activeSet = r.activeSet := by
  unfold HoleRecognizer.pass at h
  obtain ⟨q, -, rfl⟩ := Option.map_eq_some_iff.1 h
  rfl

theorem paperForm_playLine (h : PaperForm s) (hp : s.roll.rollState = .playing) (m : MapNo) (xs : List Bool) (n : Nat) :
    PaperForm (s.playLine m xs n) := by
  unfold State.playLine
  dsimp only
  split
  case h_1 r hr => exact paperForm_of_line h rfl (pass_activeSet hr) rfl fun hn => absurd hp hn
  · split
    case h_1 r hr => exact paperForm_of_line h rfl (pass_activeSet hr) rfl fun hn => absurd hp hn
    · exact paperForm_of_line h rfl rfl rfl fun hn => absurd hp hn

theorem paperForm_recognize (h : PaperForm s) (set : ColumnSet) (xs : List Bool) (n : Nat) :
    PaperForm (s.recognize set xs n) := by
  unfold State.recognize
  split
  · unfold State.endLeader
    dsimp only
    split
    · exact paperForm_enterPlaying _ _ h.capture
    · split
      · exact paperForm_enterPlaying _ _ h.capture
      · exact paperForm_of_line h rfl rfl rfl fun _ => rfl
  case h_2 hp => exact paperForm_playLine h hp ..
  · exact h
  · exact paperForm_of_line h rfl rfl rfl fun _ => rfl

theorem paperForm_bump (h : PaperForm s) (c : Counter) : PaperForm (s.bump c) := paperForm_of_line h rfl rfl rfl fun _ => rfl

theorem paperForm_fillLines (n count : Nat) {s : State} (h : PaperForm s) : PaperForm (s.fillLines n count) := by
  induction count generalizing s n with
  | zero => exact h
  | succ count ih =>
    refine ih _ ?_
    unfold State.fillLine
    split
    · exact paperForm_recognize (paperForm_bump h _) ..
    · exact h

theorem paperForm_takeLine (h : PaperForm s) (n : Nat) (px : List Nat) : PaperForm (s.takeLine n px) := by
  have hbump {x : State} (hx : PaperForm x) (b : Bool) (c : Counter) : PaperForm (x.bumpIf b c) := by
    unfold State.bumpIf
    split
    · exact paperForm_bump hx c
    · exact hx
  have htrack : PaperForm (s.trackEdges px) := by
    unfold State.trackEdges
    split <;> exact paperForm_of_line h rfl rfl rfl fun _ => rfl
  unfold State.takeLine
  split
  · exact h
  · exact paperForm_recognize (hbump (hbump htrack _ _) _ _) ..

/-- Once an arrival is processed, the queue holds what lies above the plan line (R27). -/
theorem inForm_arrive (h : PaperForm s) (n : Nat) (px : List Nat) :
    PaperForm (s.arrive n px) ∧ QueueAbove (s.arrive n px) := by
  rw [arrive_eq]
  have hlines : PaperForm (s.lines n px) := paperForm_takeLine (paperForm_fillLines _ _ h) n px
  generalize s.lines n px = x at hlines
  have hcheck := sameRoll_checkEpisode { x with holes := { x.holes with
    settled := x.front.newest - 8, queue := x.queueToPlan } }
  refine ⟨hcheck.paperForm ?_, hcheck.queueAbove fun _ e he => ?_⟩
  · exact paperForm_of_line hlines rfl rfl rfl fun hn => if_neg hn
  · exact (mem_queueToPlan.1 he).2 ‹_›

/-! The start and the stop of a roll -/

theorem inForm_startRoll (line tempo : Nat) (m : MapMode) :
    PaperForm (s.startRoll line tempo m) ∧ QueueAbove (s.startRoll line tempo m) := by
  have henter (x : State) (hq : x.holes.queue = []) (hc : x.pedalUnit = PedalUnit.fresh) (m : MapNo) :
      PaperForm (x.enterPlaying line m) ∧ QueueAbove (x.enterPlaying line m) := by
    refine ⟨paperForm_enterPlaying line m (by rw [hc]; exact captureInForm_fresh), fun _ e he => ?_⟩
    have he : e ∈ x.holes.queue := he
    rw [hq] at he; cases he
  unfold State.startRoll
  split
  · exact henter _ rfl rfl _
  · dsimp only
    split
    · exact henter _ rfl rfl _
    · have hr : RollState.leader ≠ .playing := by simp
      refine ⟨⟨fun h => ?_, fun _ => rfl, ⟨fun h => (by cases h), fun h => ?_⟩, fun h => (by cases h), fun _ => rfl,
        captureInForm_fresh⟩, queueAbove_of_not hr⟩
      · rcases h with h | h <;> cases h
      · rcases h with h | h <;> cases h

/-! The schedule (R47, R48) -/

theorem schedule_advanced {l : List Segment} (n : Nat) (h : 1 ≤ l.length ∧ l.length ≤ 8
    ∧ l.Pairwise fun g h => g.origin < h.origin) : 1 ≤ (advanced n l).length ∧ (advanced n l).length ≤ 8
      ∧ (advanced n l).Pairwise fun g h => g.origin < h.origin := by
  unfold advanced
  split
  · split
    · obtain ⟨-, h2, h3⟩ := h
      refine ⟨by simp, ?_, (List.pairwise_cons.1 h3).2⟩
      simp only [List.length_cons] at h2 ⊢
      omega
    · exact h
  · exact h

theorem schedule_segment (h : s.roll.schedule.Pairwise fun g h => g.origin < h.origin) (e tempo : Nat) :
    1 ≤ (s.schedule e tempo).length ∧ (s.schedule e tempo).Pairwise fun g h => g.origin < h.origin := by
  unfold State.schedule
  refine ⟨by simp, List.pairwise_append.2 ⟨h.sublist List.filter_sublist, List.pairwise_singleton _ _, fun g hg x hx => ?_⟩⟩
  rw [List.mem_singleton] at hx
  rw [hx]
  exact of_decide_eq_true (List.mem_filter.1 hg).2

/-! The Pedal Unit (R135, R145 to R147) -/

theorem put_sostenuto (q : PlannedPedals) (p : Pedal) (down : Bool) :
    (q.put p down).sostenuto = if p = .sostenuto then down else q.sostenuto := by
  cases p <;> rfl

/-- A pedal other than the sostenuto planned leaves its state, the Capture Set and the window. -/
theorem captureInForm_putPlanned (h : CaptureInForm s.pedalUnit) {p : Pedal} (hp : p ≠ .sostenuto) (down : Bool) :
    CaptureInForm (s.putPlanned p down).pedalUnit := by
  intro hs
  refine h ?_
  have hs : (s.pedalUnit.planned.put p down).sostenuto = false := hs
  rwa [put_sostenuto, if_neg hp] at hs

theorem captureInForm_planPress (h : CaptureInForm s.pedalUnit) (p : Pedal) (n : Nat) :
    CaptureInForm (s.planPress p n).pedalUnit := by
  unfold State.planPress
  split
  · exact h
  · dsimp only
    have hpress := (onlyChannels_handPress (s.putPlanned p true) p
      ⟨n, rollSub (s.due n) (s.pedalRecord p).lead, (s.pedalRecord p).kick, none⟩).pedalUnit
    generalize (s.putPlanned p true).handPress p _ = x at hpress
    split
    case isTrue hp =>
      intro hs
      have hs : (x.formCapture n).pedalUnit.planned.sostenuto = false := hs
      simp only [State.formCapture, State.mapKeys_pedalUnit] at hs
      rw [hpress] at hs
      subst hp
      cases hs
    case isFalse hp => rw [hpress]; exact captureInForm_putPlanned h hp true

theorem captureInForm_planLift (h : CaptureInForm s.pedalUnit) (p : Pedal) (n : Nat) :
    CaptureInForm (s.planLift p n).pedalUnit := by
  unfold State.planLift
  split
  · exact h
  · dsimp only
    have hlift := (onlyChannels_handLift (s.putPlanned p false) p
      (rollSub (s.due n) (s.pedalRecord p).releaseLead)).pedalUnit
    generalize (s.putPlanned p false).handLift p _ = x at hlift
    split
    · exact fun _ => ⟨rfl, rfl⟩
    case isFalse hp => rw [hlift]; exact captureInForm_putPlanned h hp false

theorem captureInForm_planPedal (h : CaptureInForm s.pedalUnit) (n : Nat) (e : HoleEvent) :
    CaptureInForm (s.planPedal n e).pedalUnit := by
  unfold State.planPedal
  split
  · split
    · exact captureInForm_planPress h _ n
    · exact captureInForm_planLift h _ n
  · exact h

theorem captureInForm_closeWindow (h : CaptureInForm s.pedalUnit) (n : Nat) : CaptureInForm (s.closeWindow n).pedalUnit := by
  unfold State.closeWindow
  split
  · split
    · exact fun hs => ⟨(h hs).1, rfl⟩
    · exact h
  · exact h

theorem captureInForm_planPedals (h : CaptureInForm s.pedalUnit) (n : Nat) (es : List HoleEvent) :
    CaptureInForm (s.planPedals n es).pedalUnit := by
  unfold State.planPedals
  rw [(onlyChannels_fireLate _ _).pedalUnit]
  unfold State.takePedals
  refine List.foldlRecOn es _ (motive := fun x : State => CaptureInForm x.pedalUnit) ?_
    fun x hx e _ => captureInForm_planPedal hx n e
  exact captureInForm_closeWindow h n

theorem captureInForm_lineTaken (h : CaptureInForm s.pedalUnit) : CaptureInForm s.lineTaken.pedalUnit := by
  unfold State.lineTaken
  rw [(onlyChannels_planKeys _ _ _).pedalUnit]
  refine captureInForm_planPedals ?_ _ _
  exact h

theorem captureInForm_closeKey (h : CaptureInForm s.pedalUnit) (k : Key) (n : Nat) :
    CaptureInForm (s.closeKey k n).pedalUnit := by
  have hv (c : Prop) [Decidable c] (x : State) (r : PedalUnit) (hx : CaptureInForm x.pedalUnit) (hr : CaptureInForm r) :
      CaptureInForm (if c then ({ x with pedalUnit := r } : State) else x).pedalUnit := by split <;> assumption
  unfold State.closeKey
  dsimp only
  split
  · rw [(onlyChannels_checkRelease _ k).pedalUnit]
    exact hv _ _ _ h h
  · exact hv _ _ _ h h

theorem captureInForm_enterEnding (h : CaptureInForm s.pedalUnit) (n : Nat) : CaptureInForm (s.enterEnding n).pedalUnit := by
  unfold State.enterEnding
  refine List.foldlRecOn allPedals _ (motive := fun x : State => CaptureInForm x.pedalUnit) ?_ fun x hx p _ => ?_
  · refine List.foldlRecOn allKeys _ (motive := fun x : State => CaptureInForm x.pedalUnit) ?_
      fun x hx k _ => captureInForm_closeKey hx k n
    show CaptureInForm (s.changeHolds s.roll.operator false).pedalUnit
    rw [changeHolds_eq]; exact h
  · split
    · exact captureInForm_planLift hx p n
    · exact hx

/-! Planning a line -/

/-- With the head's events gone, what is left in an ordered queue lies above the line planned (R27, R29). -/
theorem above_dropWhile {q : List HoleEvent} {n : Nat} (h : InOrder q) (hlow : ∀ e ∈ q, n ≤ e.line) :
    ∀ e ∈ q.dropWhile (fun e => e.line == n), n < e.line := by
  induction q with
  | nil => intro e he; cases he
  | cons x xs ih =>
    obtain ⟨hx, hxs⟩ := List.pairwise_cons.1 h
    rw [List.dropWhile_cons]
    split
    · exact ih hxs fun e he => hlow e (List.mem_cons_of_mem _ he)
    case isFalse hn =>
      intro e he
      have hxn : n < x.line := lt_of_le_of_ne (hlow x List.mem_cons_self) (by simpa using Ne.symm (by simpa using hn))
      rcases List.mem_cons.1 he with rfl | he
      · exact hxn
      · have hb := hx e he
        rw [Bool.eq_false_iff, ne_eq, before_iff] at hb
        omega

/-- The form of PLAYING and ENDING from the records it speaks of. -/
theorem paperForm_plays (hp : Plays t) (hs : 1 ≤ t.roll.schedule.length ∧ t.roll.schedule.length ≤ 8
    ∧ t.roll.schedule.Pairwise fun g h => g.origin < h.origin) (ha : t.holes.activeSet.isSome = true)
    (hl : t.roll.rollState = .playing → -1 ≤ t.roll.planLine) (hq : t.roll.rollState ≠ .playing → t.holes.queue = [])
    (hc : CaptureInForm t.pedalUnit) : PaperForm t :=
  ⟨fun _ => hs, fun hn => absurd hp hn, ⟨fun _ => hp, fun _ => ha⟩, hl, hq, hc⟩

theorem inForm_advancePlan {n : Nat} (hp : s.roll.rollState = .playing) (hs : 1 ≤ s.roll.schedule.length
    ∧ s.roll.schedule.length ≤ 8 ∧ s.roll.schedule.Pairwise fun g h => g.origin < h.origin)
    (ha : s.holes.activeSet.isSome = true) (hc : CaptureInForm s.pedalUnit) (hq : ∀ e ∈ s.holes.queue, n < e.line) :
    (s.advancePlan n).roll.rollState = .playing ∧ PaperForm (s.advancePlan n) ∧ QueueAbove (s.advancePlan n) := by
  have hadv := sameRoll_advancePlan s n
  have hr : (s.advancePlan n).roll.rollState = .playing := hadv.rollState.trans hp
  have hsched : (s.advancePlan n).roll.schedule = advanced n s.roll.schedule := hadv.schedule
  have hplan : (s.advancePlan n).roll.planLine = n := hadv.planLine
  have hholes : (s.advancePlan n).holes = s.holes := hadv.holes
  have hunit : (s.advancePlan n).pedalUnit = s.pedalUnit := hadv.pedalUnit
  refine ⟨hr, paperForm_plays (.inl hr) ?_ (by rw [hholes]; exact ha) (fun _ => by rw [hplan]; omega)
    (fun hn => absurd hr hn) (by rw [hunit]; exact hc), fun _ e he => ?_⟩
  · rw [hsched]; exact schedule_advanced n hs
  · rw [hholes] at he
    rw [hplan]; exact Int.ofNat_lt.2 (hq e he)

theorem inForm_enterEnding (h : PaperForm s) (hp : s.roll.rollState = .playing) (n : Nat) :
    PaperForm (s.enterEnding n) ∧ QueueAbove (s.enterEnding n) := by
  have hend := sameRoll_enterEnding s n
  have hr : (s.enterEnding n).roll.rollState = .ending := hend.rollState
  have hsched : (s.enterEnding n).roll.schedule = s.roll.schedule := hend.schedule
  have hholes : (s.enterEnding n).holes = { s.holes with queue := [] } := hend.holes
  have hne : (s.enterEnding n).roll.rollState ≠ .playing := by rw [hr]; simp
  refine ⟨paperForm_plays (.inr hr) ?_ ?_ (fun hpl => absurd hpl hne) (fun _ => by rw [hholes])
    (captureInForm_enterEnding h.capture n), queueAbove_of_not hne⟩
  · rw [hsched]; exact h.schedule (.inl hp)
  · rw [hholes]; exact h.active.2 (.inl hp)

theorem inForm_planNext (h : PaperForm s) (hq : QueueAbove s) (ho : InOrder s.holes.queue)
    (hp : s.roll.rollState = .playing) : PaperForm s.planNext ∧ QueueAbove s.planNext := by
  have hline : (s.nextLine : Int) = s.roll.planLine + 1 := by
    have := h.planLine hp
    unfold State.nextLine
    omega
  have hrest : ∀ e ∈ s.holes.queue.dropWhile (fun e => e.line == s.nextLine), s.nextLine < e.line :=
    above_dropWhile ho fun e he => by have := hq hp e he; omega
  obtain ⟨hst, hform⟩ : (s.lineTaken.advancePlan s.nextLine).roll.rollState = .playing
      ∧ PaperForm (s.lineTaken.advancePlan s.nextLine) ∧ QueueAbove (s.lineTaken.advancePlan s.nextLine) := by
    obtain ⟨-, hholes, -, -, hst, hsched, -⟩ := sameRoll_lineTaken s
    have hcap := captureInForm_lineTaken h.capture
    generalize s.lineTaken = x at hholes hst hsched hcap
    refine inForm_advancePlan (hst.trans hp) ?_ ?_ hcap ?_
    · rw [hsched]; exact h.schedule (.inl hp)
    · rw [hholes]; exact h.active.2 (.inl hp)
    · rw [hholes]; exact hrest
  rw [planNext_eq]
  generalize s.lineTaken.advancePlan s.nextLine = x at hst hform
  split
  · exact inForm_enterEnding hform.1 hst _
  · exact hform

theorem RollEffect.inForm (h : PaperForm s) (hq : QueueAbove s) (ho : InOrder s.holes.queue) (he : RollEffect s t) :
    PaperForm t ∧ QueueAbove t := by
  have hsame {x : State} (hx : SameRoll s x) : PaperForm x ∧ QueueAbove x := ⟨hx.paperForm h, hx.queueAbove hq⟩
  have hstopped {x : State} (hr : x.roll.rollState = .noRoll) (hs : x.roll.schedule = []) (ha : x.holes.activeSet = none)
      (hq : x.holes.queue = []) (hc : CaptureInForm x.pedalUnit) : PaperForm x ∧ QueueAbove x :=
    ⟨paperForm_noRoll hr hs ha hq hc, queueAbove_of_not (by rw [hr]; simp)⟩
  cases he with
  | framed ht => exact hsame ht.roll
  | broughtUp now next => exact hstopped rfl rfl rfl rfl captureInForm_fresh
  | failed q => exact hstopped rfl rfl rfl rfl captureInForm_fresh
  | resetAsserted =>
    have hroll : s.assertReset.roll = s.roll := by simp [State.assertReset]
    have hholes : s.assertReset.holes = { s.holes with queue := [] } := rfl
    have hunit : s.assertReset.pedalUnit = s.pedalUnit := by simp [State.assertReset]
    have hplays : Plays s.assertReset ↔ Plays s := by unfold Plays; rw [hroll]
    refine ⟨⟨?_, ?_, ?_, ?_, fun _ => rfl, by rw [hunit]; exact h.capture⟩, fun _ e he => ?_⟩
    · rw [hplays, hroll]; exact h.schedule
    · rw [hplays, hroll]; exact h.empty
    · rw [hplays, hholes]; exact h.active
    · rw [hroll]; exact h.planLine
    · rw [hholes] at he; cases he
  | arrived hu _ n px _ _ _ => exact inForm_arrive (hu.roll.paperForm h) n px
  | rollStarted hu line tempo m _ => exact inForm_startRoll line tempo m
  | @rollStopped u hu =>
    unfold State.stopRoll
    rw [stopChannels_eq]
    exact hstopped rfl rfl rfl rfl captureInForm_fresh
  | holdsSet hu op st => exact hsame (hu.roll.trans (sameRoll_setHolds _ op st))
  | @tempoSet u hu e tempo now hc _ hl =>
    have hform := hu.roll.paperForm h
    have hplays : Plays u := by simpa [State.clocked, Plays] using hc
    have hcheck := sameRoll_checkEpisode { u with roll := { u.roll with schedule := u.schedule e tempo, tempo := now } }
    obtain ⟨h1, h3⟩ := schedule_segment (hform.schedule hplays).2.2 e tempo
    refine ⟨hcheck.paperForm ?_, hcheck.queueAbove (hu.roll.queueAbove hq)⟩
    exact paperForm_plays hplays ⟨h1, hl, h3⟩ (hform.active.2 hplays) hform.planLine hform.quiet hform.capture
  | mapWritten hu m maps _ _ =>
    obtain ⟨h1, h2⟩ := hsame hu.roll
    exact ⟨⟨h1.schedule, h1.empty, h1.active, h1.planLine, h1.quiet, h1.capture⟩, h2⟩
  | opStarted ht _ _ _ => exact hsame ht
  | opFinished ht _ _ _ => exact hsame ht
  | linkReset tag => exact hstopped rfl rfl rfl rfl captureInForm_fresh
  | playingEntered m hl =>
    have hempty : s.holes.queue = [] := h.quiet (by rw [hl]; simp)
    refine ⟨paperForm_enterPlaying _ m h.capture, fun _ e he => ?_⟩
    have he : e ∈ s.holes.queue := he
    rw [hempty] at he; cases he
  | sent ht _ _ => exact hsame ht
  | planned hd =>
    simp only [State.planDue, Bool.and_eq_true, beq_iff_eq] at hd
    exact inForm_planNext h hq ho hd.1.1
  | rollEnded hu => exact hstopped rfl rfl rfl rfl fun _ => ⟨rfl, rfl⟩
  | pedalsSwept ht _ _ hp =>
    have hx : PaperForm { s with pedalUnit := t.pedalUnit } :=
      ⟨h.schedule, h.empty, h.active, h.planLine, h.quiet, fun _ => hp⟩
    exact ⟨ht.paperForm hx, ht.queueAbove hq⟩

end Sys2Proof.Machine
end

section
/-! PROOFS. O58, its second and third part: the margin of section 2.6 through every step that refuses no line its events,
and the events of the next line above the plan line under it. -/

namespace Sys2Proof.Machine

open Sys2Proof.Safety

variable {s t u : State}

/-! Where the events of a line lie -/

/-- A record's event is dated to its run, or to the line itself (R26). -/
theorem update_event {c : Column} {d : Debounce} {x : Bool} {n : Nat} {e : Nat × EventKind}
    (h : (Debounce.update c d x n).2 = some e) : e.1 = n ∨ ∃ r, d.run = some r ∧ e.1 = r.start := by
  by_cases hf : c.function = .nothing
  · rw [update_nothing hf] at h; cases h
  · by_cases hx : x = d.reportedOpen
    · rw [update_same hf hx] at h; cases h
    · rw [update_differing hf hx] at h
      by_cases hn : (if x then c.openRun else c.closeRun) ≤ (d.grown n).length
      · rw [if_pos hn] at h
        cases h
        cases hr : d.run with
        | none => left; simp [Debounce.grown, hr]
        | some r => right; exact ⟨r, rfl, by simp [Debounce.grown, hr]⟩
      · rw [if_neg hn] at h
        cases h

/-- A run that goes on is the grown one, on an entry with a function, short of the entry's run length (R25). -/
theorem update_run {c : Column} {d : Debounce} {x : Bool} {n : Nat} {r : Run} (hf : c.function ≠ .nothing)
    (h : (Debounce.update c d x n).1.run = some r) :
    r = d.grown n ∧ r.length < max c.openRun c.closeRun := by
  by_cases hx : x = d.reportedOpen
  · rw [update_same hf hx] at h; cases h
  · rw [update_differing hf hx] at h
    by_cases hn : (if x then c.openRun else c.closeRun) ≤ (d.grown n).length
    · rw [if_pos hn] at h
      cases h
    · rw [if_neg hn] at h
      cases h
      refine ⟨rfl, lt_of_lt_of_le (Nat.lt_of_not_le hn) ?_⟩
      split
      · exact le_max_left _ _
      · exact le_max_right _ _

/-- The runs of the records reach the newest line from above the plan line, each on an entry with a function (R22, R25). -/
def RunsReach (cols : Vector Column 128) (ds : List Debounce) (plan newest : Int) : Prop :=
  ds.length = 128 ∧ ∀ (i : Fin 128) (d : Debounce) (r : Run), ds[i.val]? = some d → d.run = some r →
    cols[i.val].function ≠ .nothing ∧ 1 ≤ r.length ∧ r.length ≤ 7 ∧ (r.start : Int) + r.length = newest + 1 ∧ plan < (r.start : Int)

theorem runsAheadOfPlan_iff : RunsAheadOfPlan s ↔ s.holes.debounce.length = 128 ∧ ∀ m, s.holes.activeSet = some m →
    RunsReach s.tables.maps[m.val].columns s.holes.debounce s.roll.planLine s.front.newest := by
  constructor
  · rintro ⟨hl, hr⟩
    exact ⟨hl, fun m hm => ⟨hl, fun i d r => hr m i d r hm⟩⟩
  · rintro ⟨hl, hr⟩
    exact ⟨hl, fun m i d r hm => (hr m hm).2 i d r⟩

/-- The event of a line lies at its own line or at the start of a run. -/
theorem debounceLine_event_line {cols : List Column} {ds : List Debounce} {xs : List Bool} {first n : Nat} {e : HoleEvent}
    (he : e ∈ (debounceLine first cols ds xs n).2) :
    e.line = n ∨ ∃ d ∈ ds, ∃ r : Run, d.run = some r ∧ e.line = r.start := by
  induction cols generalizing first ds xs with
  | nil => cases he
  | cons c cs ih =>
    cases ds with
    | nil => cases he
    | cons d ds =>
      cases xs with
      | nil => cases he
      | cons x xs =>
        have hrest (h : e ∈ (debounceLine (first + 1) cs ds xs n).2) :
            e.line = n ∨ ∃ d' ∈ d :: ds, ∃ r : Run, d'.run = some r ∧ e.line = r.start :=
          (ih h).imp_right fun ⟨d', hd', hr⟩ => ⟨d', List.mem_cons_of_mem _ hd', hr⟩
        rw [debounceLine] at he
        dsimp only at he
        split at he
        case h_1 v hv =>
          rcases List.mem_cons.1 he with rfl | he
          · exact (update_event hv).imp_right fun hr => ⟨d, List.mem_cons_self, hr⟩
          · exact hrest he
        · exact hrest he

/-- The runs after a line reach that line (R25). -/
theorem runsReach_debounceLine {cols : Vector Column 128} {ds : List Debounce} {xs : List Bool} {plan newest : Int} {n : Nat}
    (h : RunsReach cols ds plan newest) (hplan : plan ≤ newest) (hn : (n : Int) = newest + 1) (hx : xs.length = 128)
    (hruns : ∀ i : Fin 128, cols[i.val].openRun ≤ 8 ∧ cols[i.val].closeRun ≤ 8) :
    RunsReach cols (debounceLine 1 cols.toList ds xs n).1 plan n := by
  obtain ⟨hd, hr⟩ := h
  rw [debounceLine_eq 1 n cols.toList ds xs (by simp [hd]) (by rw [hx, hd])]
  refine ⟨by simp [lineRecords, hd, hx], fun i d r hi hdr => ?_⟩
  rw [List.getElem?_map, Option.map_eq_some_iff] at hi
  obtain ⟨⟨c, d0, x⟩, ha, rfl⟩ := hi
  obtain ⟨hc, hdx⟩ := List.getElem?_zip_eq_some.1 ha
  obtain ⟨hd0, -⟩ := List.getElem?_zip_eq_some.1 hdx
  obtain rfl : cols[i.val] = c := by simpa using hc
  by_cases hf : cols[i.val].function = .nothing
  · rw [update_nothing hf] at hdr
    exact absurd hf (hr i d0 r hd0 hdr).1
  · obtain ⟨rfl, hlen⟩ := update_run hf hdr
    obtain ⟨ho, hcl⟩ := hruns i
    refine ⟨hf, Nat.le_add_left 1 _, by omega, ?_⟩
    cases hrun : d0.run with
    | none => simp only [Debounce.grown, hrun, Option.map_none, Option.getD_none]; omega
    | some r0 =>
      obtain ⟨-, -, -, hsum, hlt⟩ := hr i d0 r0 hd0 hrun
      simp only [Debounce.grown, hrun, Option.map_some, Option.getD_some]
      omega

/-- Fresh records have no run (R24). -/
theorem runsReach_fresh (cols : Vector Column 128) (plan newest : Int) :
    RunsReach cols (List.replicate 128 ⟨false, none⟩) plan newest := by
  refine ⟨List.length_replicate, fun i d r hd hr => ?_⟩
  have : d = ⟨false, none⟩ := List.eq_of_mem_replicate (List.mem_of_getElem? hd)
  rw [this] at hr
  cases hr

/-! The margin through the lines of an arrival -/

theorem SameRoll.marginHolds (h : SameRoll s t) (hs : MarginHolds s) : MarginHolds t := by
  obtain ⟨h1, h2, h3⟩ := hs
  refine ⟨by rw [h.front]; exact h1, by rw [h.rollState, h.front, h.holes]; exact h2, fun hp => ?_⟩
  obtain ⟨h4, h5⟩ := h3 (h.rollState ▸ hp)
  rw [runsAheadOfPlan_iff] at h5 ⊢
  rw [h.planLine, h.front, h.holes, h.maps]
  exact ⟨h4, h5⟩

/-- Outside PLAYING the margin is the settled line's. -/
theorem marginHolds_of_not (hp : t.roll.rollState ≠ .playing) (hh : ∀ m, t.front.heldSet = some (.map m) → t.front.heldSamples.length = 128)
    (hn : t.roll.rollState ≠ .noRoll → -1 ≤ t.front.newest ∧ t.holes.settled ≤ t.front.newest - 8) : MarginHolds t :=
  ⟨hh, hn, fun h => absurd h hp⟩

/-- Entering PLAYING above the newest line leaves the plan line there, and no run (R24, R44). -/
theorem marginHolds_enterPlaying {f : Nat} (m : MapNo)
    (hh : ∀ m, s.front.heldSet = some (.map m) → s.front.heldSamples.length = 128) (hn : -1 ≤ s.front.newest)
    (hs : s.holes.settled ≤ s.front.newest - 8) (hf : (f : Int) = s.front.newest + 1) : MarginHolds (s.enterPlaying f m) := by
  refine ⟨hh, fun _ => ⟨hn, hs⟩, fun _ => ⟨?_, runsAheadOfPlan_iff.2 ⟨List.length_replicate, fun m _ => runsReach_fresh _ _ _⟩⟩⟩
  show (f : Int) - 1 ≤ s.front.newest
  omega

/-- A card about to process line n with the margin of section 2.6. -/
structure AtLine (n : Nat) (s : State) : Prop where
  margin : MarginHolds s
  form : PaperForm s
  runs : RunsBounded s
  active : s.roll.rollState ≠ .noRoll
  next : (n : Int) = s.front.newest + 1

/-- Lines do not count down the lines refused; the counter stops at 65,535 (R174). -/
def OverflowRises (s t : State) : Prop := min 65535 (s.counter .eventOverflow) ≤ t.counter .eventOverflow

theorem overflowRises_of_eq (h : t.counter .eventOverflow = s.counter .eventOverflow) : OverflowRises s t := by
  rw [OverflowRises, h]; exact min_le_right _ _

theorem OverflowRises.trans (h : OverflowRises s t) (h' : OverflowRises t u) : OverflowRises s u :=
  (le_min (min_le_left _ _) h).trans h'

/-- Without a rise in all there is none in part. -/
theorem OverflowRises.part (h : OverflowRises t u) (hs : s.counter .eventOverflow < 65535)
    (hu : u.counter .eventOverflow ≤ s.counter .eventOverflow) : t.counter .eventOverflow ≤ s.counter .eventOverflow := by
  unfold OverflowRises at h; omega

theorem counter_bump_other {c d : Counter} (h : d ≠ c) (s : State) : (s.bump c).counter d = s.counter d := by
  rw [State.bump, State.counter_bumpBy, if_neg h]

theorem counter_bumpIf_other {c d : Counter} (h : d ≠ c) (s : State) (b : Bool) : (s.bumpIf b c).counter d = s.counter d := by
  rw [State.counter_bumpIf, if_neg fun e => h e.1]

/-- A line of PLAYING has its events queued, or is counted as overflowing (R28). -/
theorem playLine_cases (s : State) (m : MapNo) (xs : List Bool) (n : Nat) :
    (∃ r, s.holes.pass s.tables.maps[m.val].columns.toList xs n = some r
        ∧ s.playLine m xs n = State.hold { s with holes := r } n (.map m) xs)
      ∨ (s.playLine m xs n).counter .eventOverflow = min 65535 (s.counter .eventOverflow + 1) := by
  unfold State.playLine
  dsimp only
  cases hp : s.holes.pass s.tables.maps[m.val].columns.toList xs n with
  | some r => exact .inl ⟨r, rfl, rfl⟩
  | none =>
    right
    have hb : (s.bump .eventOverflow).counter .eventOverflow = min 65535 (s.counter .eventOverflow + 1) :=
      State.counter_bumpBy_self s .eventOverflow 1
    cases s.holes.pass s.tables.maps[m.val].columns.toList (s.copySamples (.map m)) n <;> exact hb

theorem overflowRises_recognize (s : State) (set : ColumnSet) (xs : List Bool) (n : Nat) :
    OverflowRises s (s.recognize set xs n) := by
  unfold State.recognize
  split
  · refine overflowRises_of_eq ?_
    unfold State.endLeader
    dsimp only
    split
    · rfl
    · split <;> rfl
  case h_2 m _ =>
    rcases playLine_cases s m xs n with ⟨r, -, e⟩ | e
    · rw [e]; exact overflowRises_of_eq rfl
    · rw [OverflowRises, e]; omega
  · exact overflowRises_of_eq rfl
  · exact overflowRises_of_eq rfl

theorem overflowRises_fillLine (s : State) (n : Nat) : OverflowRises s (s.fillLine n) := by
  unfold State.fillLine
  split
  · exact (overflowRises_of_eq (counter_bump_other (by simp) s)).trans (overflowRises_recognize _ _ _ _)
  · exact overflowRises_of_eq rfl

theorem overflowRises_fillLines (n count : Nat) (s : State) : OverflowRises s (s.fillLines n count) := by
  induction count generalizing s n with
  | zero => exact overflowRises_of_eq rfl
  | succ count ih => exact (overflowRises_fillLine s n).trans (ih _ _)

/-- A line that holds its samples and leaves the rest is no harm to the margin. -/
theorem marginHolds_hold {n : Nat} (h : AtLine n s) (hp : s.roll.rollState ≠ .playing) {set : ColumnSet} {xs : List Bool}
    (hxs : ∀ m, set = .map m → xs.length = 128) : MarginHolds (s.hold n set xs) := by
  obtain ⟨hn, hs⟩ := h.margin.2.1 h.active
  have hnext := h.next
  refine marginHolds_of_not hp (fun m hm => hxs m (Option.some.inj hm)) fun _ => ⟨?_, ?_⟩
  · show (-1 : Int) ≤ n
    omega
  · show s.holes.settled ≤ (n : Int) - 8
    omega

theorem marginHolds_recognize {n : Nat} (h : AtLine n s) {set : ColumnSet} {xs : List Bool} (hset : s.currentSet = some set)
    (hxs : ∀ m, set = .map m → xs.length = 128) (hc : s.counter .eventOverflow < 65535)
    (ho : (s.recognize set xs n).counter .eventOverflow ≤ s.counter .eventOverflow) :
    MarginHolds (s.recognize set xs n) := by
  obtain ⟨hheld, hnew, hahead⟩ := h.margin
  obtain ⟨hn, hs⟩ := hnew h.active
  have hnext := h.next
  unfold State.recognize at ho ⊢
  split
  case h_1 hl =>
    have hhold := marginHolds_hold h (by rw [hl]; simp) hxs
    have hsettled : s.holes.settled ≤ (n : Int) - 8 := by omega
    unfold State.endLeader
    dsimp only
    split
    · exact marginHolds_enterPlaying _ hhold.1 (by show (-1 : Int) ≤ n; omega) hsettled rfl
    · split
      · exact marginHolds_enterPlaying _ hhold.1 (by show (-1 : Int) ≤ n; omega) hsettled rfl
      · exact hhold
  case h_2 m hp =>
    obtain ⟨hplan, hruns⟩ := hahead hp
    rw [hp] at ho
    dsimp only at ho
    rcases playLine_cases s m xs n with ⟨r, hr, e⟩ | e
    · rw [e]
      unfold HoleRecognizer.pass at hr
      obtain ⟨q, -, rfl⟩ := Option.map_eq_some_iff.1 hr
      refine ⟨fun m' hm => hxs m rfl, fun _ => ⟨?_, ?_⟩, fun _ => ⟨?_, ?_⟩⟩
      · show (-1 : Int) ≤ n
        omega
      · show s.holes.settled ≤ (n : Int) - 8
        omega
      · show s.roll.planLine ≤ n
        omega
      · have hm : s.holes.activeSet = some m := by
          rw [State.currentSet, hp] at hset
          obtain ⟨m', hm', e⟩ := Option.map_eq_some_iff.1 hset
          cases e; exact hm'
        have hreach := runsReach_debounceLine ((runsAheadOfPlan_iff.1 hruns).2 m hm) hplan hnext (hxs m rfl)
          fun i => h.runs m i
        refine runsAheadOfPlan_iff.2 ⟨hreach.1, fun m' hm' => ?_⟩
        obtain rfl : m = m' := Option.some.inj (hm.symm.trans hm')
        exact hreach
    · omega
  case h_3 hl => exact absurd hl h.active
  case h_4 h1 h2 h3 =>
    refine marginHolds_hold h (fun hp => ?_) hxs
    rw [State.currentSet, hp] at hset
    obtain ⟨m', -, rfl⟩ := Option.map_eq_some_iff.1 hset
    exact h3 m' hp rfl

theorem newest_recognize {n : Nat} (h : AtLine n s) {set : ColumnSet} (xs : List Bool) :
    (s.recognize set xs n).front.newest = n ∧ (s.recognize set xs n).roll.rollState ≠ .noRoll := by
  unfold State.recognize
  split
  case h_1 hl =>
    unfold State.endLeader
    dsimp only
    split
    · exact ⟨rfl, by simp [State.enterPlaying, State.queueWindow, State.queueState]⟩
    · split
      · exact ⟨rfl, by simp [State.enterPlaying, State.queueWindow, State.queueState]⟩
      · exact ⟨rfl, h.active⟩
  case h_2 =>
    unfold State.playLine
    dsimp only
    split
    · exact ⟨rfl, h.active⟩
    · split <;> exact ⟨rfl, h.active⟩
  case h_3 hl => exact absurd hl h.active
  case h_4 => exact ⟨rfl, h.active⟩

/-- With a roll active the lines belong to a column set (R4, R9). -/
theorem currentSet_isSome (h : PaperForm s) (ha : s.roll.rollState ≠ .noRoll) : ∃ set, s.currentSet = some set := by
  unfold State.currentSet
  split
  · exact ⟨_, rfl⟩
  case h_2 hn => exact absurd hn ha
  case h_3 h1 h2 =>
    have hp : Plays s := by
      cases hr : s.roll.rollState with
      | noRoll => exact absurd hr ha
      | leader => exact absurd hr h1
      | playing => exact .inl hr
      | ending => exact .inr hr
    obtain ⟨m, hm⟩ := Option.isSome_iff_exists.1 (h.active.2 hp)
    exact ⟨_, by rw [hm]; rfl⟩

theorem atLine_recognize {n : Nat} (h : AtLine n s) {set : ColumnSet} {xs : List Bool} (hset : s.currentSet = some set)
    (hxs : ∀ m, set = .map m → xs.length = 128) (hc : s.counter .eventOverflow < 65535)
    (ho : (s.recognize set xs n).counter .eventOverflow ≤ s.counter .eventOverflow) :
    AtLine (n + 1) (s.recognize set xs n) := by
  obtain ⟨hn, ha⟩ := newest_recognize h (set := set) xs
  have htab := (onlyPaper_recognize s set xs n).tables
  exact ⟨marginHolds_recognize h hset hxs hc ho, paperForm_recognize h.form .., by unfold RunsBounded; rw [htab]; exact h.runs,
    ha, by rw [hn]; simp⟩

/-- A change of the counters and of the edge history alone leaves the card at its line. -/
theorem AtLine.tally {n : Nat} (h : AtLine n s) (ht : t = { s with counters := t.counters, front := t.front })
    (hf : t.front = { s.front with edges := t.front.edges }) : AtLine n t := by
  have hnew : t.front.newest = s.front.newest := by rw [hf]
  have hsamples : t.front.heldSamples = s.front.heldSamples ∧ t.front.heldSet = s.front.heldSet := by rw [hf]; exact ⟨rfl, rfl⟩
  have hholes : t.holes = s.holes := by rw [ht]
  have hroll : t.roll = s.roll := by rw [ht]
  have htab : t.tables = s.tables := by rw [ht]
  have hunit : t.pedalUnit = s.pedalUnit := by rw [ht]
  obtain ⟨h1, h2, h3⟩ := h.margin
  refine ⟨⟨by rw [hsamples.1, hsamples.2]; exact h1, by rw [hroll, hnew, hholes]; exact h2, fun hp => ?_⟩,
    paperForm_of_line h.form hroll (by rw [hholes]) hunit fun _ => by rw [hholes], by unfold RunsBounded; rw [htab]; exact h.runs,
    by rw [hroll]; exact h.active, by rw [hnew]; exact h.next⟩
  obtain ⟨h4, h5⟩ := h3 (hroll ▸ hp)
  rw [runsAheadOfPlan_iff] at h5 ⊢
  rw [hroll, hnew, hholes, htab]
  exact ⟨h4, h5⟩

theorem length_copySamples (h : MarginHolds s) {set : ColumnSet} (m : MapNo) (hm : set = .map m) :
    (s.copySamples set).length = 128 := by
  subst hm
  unfold State.copySamples
  split
  case isTrue hh => exact h.1 m hh
  · simp [ColumnPlan.closed, Tables.columnPlan]

theorem atLine_fillLine {n : Nat} (h : AtLine n s) (hc : s.counter .eventOverflow < 65535)
    (ho : (s.fillLine n).counter .eventOverflow ≤ s.counter .eventOverflow) : AtLine (n + 1) (s.fillLine n) := by
  obtain ⟨set, hset⟩ := currentSet_isSome h.form h.active
  unfold State.fillLine at ho ⊢
  rw [hset] at ho ⊢
  have hb : (s.bump .missingLine).counter .eventOverflow = s.counter .eventOverflow := counter_bump_other (by simp) s
  exact atLine_recognize (s := s.bump .missingLine) (h.tally rfl rfl) hset (fun m hm => length_copySamples h.margin m hm) (by rw [hb]; exact hc)
    (by rw [hb]; exact ho)

theorem atLine_fillLines {n : Nat} (count : Nat) {s : State} (h : AtLine n s) (hc : s.counter .eventOverflow < 65535)
    (ho : (s.fillLines n count).counter .eventOverflow ≤ s.counter .eventOverflow) : AtLine (n + count) (s.fillLines n count) := by
  induction count generalizing s n with
  | zero => exact h
  | succ count ih =>
    have hfirst := (overflowRises_fillLines (n + 1) count (s.fillLine n)).part hc ho
    have hrise := overflowRises_fillLine s n
    have hrest : ((s.fillLine n).fillLines (n + 1) count).counter .eventOverflow ≤ (s.fillLine n).counter .eventOverflow := by
      refine le_trans ho ?_
      unfold OverflowRises at hrise
      omega
    rw [show n + (count + 1) = n + 1 + count by omega]
    exact ih (atLine_fillLine h hc hfirst) (lt_of_le_of_lt hfirst hc) hrest

theorem overflowRises_takeLine (s : State) (n : Nat) (px : List Nat) : OverflowRises s (s.takeLine n px) := by
  have htrack : OverflowRises s (s.trackEdges px) := by
    unfold State.trackEdges
    split
    · exact overflowRises_of_eq rfl
    · exact overflowRises_of_eq (counter_bump_other (by simp) s)
  have hbump (x : State) (b : Bool) {c : Counter} (hc : c ≠ .eventOverflow) : OverflowRises x (x.bumpIf b c) :=
    overflowRises_of_eq (counter_bumpIf_other hc.symm x b)
  unfold State.takeLine
  split
  · exact overflowRises_of_eq rfl
  · exact htrack.trans ((hbump _ _ (by simp)).trans ((hbump _ _ (by simp)).trans (overflowRises_recognize _ _ _ _)))

theorem atLine_takeLine {n : Nat} (h : AtLine n s) (px : List Nat) (hc : s.counter .eventOverflow < 65535)
    (ho : (s.takeLine n px).counter .eventOverflow ≤ s.counter .eventOverflow) : AtLine (n + 1) (s.takeLine n px) := by
  obtain ⟨set, hset⟩ := currentSet_isSome h.form h.active
  have htrack : AtLine n (s.trackEdges px) ∧ (s.trackEdges px).counter .eventOverflow = s.counter .eventOverflow
      ∧ (s.trackEdges px).currentSet = some set := by
    unfold State.trackEdges
    split
    · exact ⟨h.tally rfl rfl, rfl, hset⟩
    · exact ⟨h.tally rfl rfl, counter_bump_other (by simp) s, hset⟩
  have hbump {x : State} (b : Bool) {c : Counter} (hcn : c ≠ .eventOverflow) (hx : AtLine n x
      ∧ x.counter .eventOverflow = s.counter .eventOverflow ∧ x.currentSet = some set) : AtLine n (x.bumpIf b c)
      ∧ (x.bumpIf b c).counter .eventOverflow = s.counter .eventOverflow ∧ (x.bumpIf b c).currentSet = some set := by
    refine ⟨?_, (counter_bumpIf_other hcn.symm x b).trans hx.2.1, ?_⟩
    · unfold State.bumpIf
      split
      · exact hx.1.tally rfl rfl
      · exact hx.1
    · unfold State.bumpIf
      split <;> exact hx.2.2
  unfold State.takeLine at ho ⊢
  rw [hset] at ho ⊢
  dsimp only at ho ⊢
  have hflags (b b' : Bool) := hbump (c := .widthLimited) b' (by simp) (hbump (c := .shiftLimited) b (by simp) htrack)
  refine atLine_recognize (hflags _ _).1 (hflags _ _).2.2 (fun m hm => ?_) (by rw [(hflags _ _).2.1]; exact hc)
    (by rw [(hflags _ _).2.1]; exact ho)
  subst hm
  rw [ColumnPlan.sample, List.length_map]
  simp only [Tables.columnPlan, List.length_map, Vector.length_toList]

/-- An arrival that refuses no line its events keeps the margin (R31, R39). -/
theorem marginHolds_arrive (h : MarginHolds s) (hform : PaperForm s) (hruns : RunsBounded s) {n : Nat} (px : List Nat)
    (ha : s.roll.rollState ≠ .noRoll) (hnew : s.front.newest < n) (hc : s.counter .eventOverflow < 65535)
    (ho : (s.arrive n px).counter .eventOverflow ≤ s.counter .eventOverflow) : MarginHolds (s.arrive n px) := by
  have hlow := (h.2.1 ha).1
  obtain ⟨first, hfirst⟩ : ∃ first : Nat, (s.front.newest + 1).toNat = first := ⟨_, rfl⟩
  have hfirst' : (first : Int) = s.front.newest + 1 := by omega
  have hlast : first + (n - first) = n := by omega
  have hcheck := sameRoll_checkEpisode { s.lines n px with
    holes := { (s.lines n px).holes with settled := (s.lines n px).front.newest - 8, queue := (s.lines n px).queueToPlan } }
  have hcount : (s.arrive n px).counter .eventOverflow = (s.lines n px).counter .eventOverflow := by
    rw [arrive_eq]
    unfold State.counter
    rw [(onlyHolds_checkEpisode _).1]
  rw [hcount] at ho
  have hline : AtLine (n + 1) (s.lines n px) := by
    unfold State.lines at ho ⊢
    rw [hfirst] at ho ⊢
    have hstart : AtLine first s := ⟨h, hform, hruns, ha, hfirst'⟩
    have hrise := overflowRises_fillLines first (n - first) s
    have hpart := (overflowRises_takeLine (s.fillLines first (n - first)) n px).part hc ho
    have hfilled := atLine_fillLines (n - first) hstart hc hpart
    rw [hlast] at hfilled
    refine atLine_takeLine hfilled px (lt_of_le_of_lt hpart hc) (le_trans ho ?_)
    unfold OverflowRises at hrise
    omega
  rw [arrive_eq]
  refine hcheck.marginHolds ?_
  obtain ⟨h1, h2, h3⟩ := hline.margin
  exact ⟨h1, fun hr => ⟨(h2 hr).1, le_refl _⟩, h3⟩

/-! The margin through every other effect -/

theorem marginHolds_startRoll (line tempo : Nat) (m : MapMode) : MarginHolds (s.startRoll line tempo m) := by
  have hclosed (set : ColumnSet) (j : MapNo) (h : some set = some (.map j)) : ((s.tables.columnPlan set).closed).length = 128 := by
    cases h
    simp [ColumnPlan.closed, Tables.columnPlan]
  have henter (set : ColumnSet) (m : MapNo) : MarginHolds ((s.setUpRoll line tempo set).enterPlaying line m) := by
    refine marginHolds_enterPlaying m (hclosed set) ?_ ?_ ?_
    · show (-1 : Int) ≤ (line : Int) - 1
      omega
    · show (line : Int) - 9 ≤ (line : Int) - 1 - 8
      omega
    · show (line : Int) = (line : Int) - 1 + 1
      omega
  unfold State.startRoll
  split
  · exact henter _ _
  · dsimp only
    split
    · exact henter _ _
    · refine marginHolds_of_not (by simp [State.queueWindow, State.queueState]) (hclosed .code) fun _ => ⟨?_, ?_⟩
      · show (-1 : Int) ≤ (line : Int) - 1
        omega
      · show (line : Int) - 9 ≤ (line : Int) - 1 - 8
        omega

/-- Planning the next line, eight lines settled, stays below every run (R31, R39). -/
theorem marginHolds_planNext (h : MarginHolds s) (hform : PaperForm s) (hd : s.planDue = true) : MarginHolds s.planNext := by
  simp only [State.planDue, Bool.and_eq_true, beq_iff_eq, State.lineSettled, decide_eq_true_eq] at hd
  obtain ⟨⟨hp, hsettled⟩, -⟩ := hd
  obtain ⟨hheld, hnew, hahead⟩ := h
  obtain ⟨hn, hs⟩ := hnew (by rw [hp]; simp)
  obtain ⟨hplan, hruns⟩ := hahead hp
  have hline : (s.nextLine : Int) = s.roll.planLine + 1 := by
    have := hform.planLine hp
    unfold State.nextLine
    omega
  obtain ⟨htf, hth, -, htm, htr, -, -⟩ := sameRoll_lineTaken s
  rw [planNext_eq]
  generalize s.lineTaken = y at htf hth htm htr
  obtain ⟨haf, hah, -, ham, har, -, hap⟩ := sameRoll_advancePlan y s.nextLine
  have hpx : (y.advancePlan s.nextLine).roll.planLine = s.nextLine := hap
  have hfx : (y.advancePlan s.nextLine).front = s.front := haf.trans htf
  have hmx : (y.advancePlan s.nextLine).tables.maps = s.tables.maps := ham.trans htm
  have hhx : (y.advancePlan s.nextLine).holes
      = { s.holes with queue := s.holes.queue.dropWhile fun e => e.line == s.nextLine } := hah.trans hth
  generalize y.advancePlan s.nextLine = x at hpx hfx hmx hhx
  split
  · obtain ⟨hef, heh, -, -, her, -, -⟩ := sameRoll_enterEnding x s.nextLine
    have her : (x.enterEnding s.nextLine).roll.rollState = .ending := her
    have heh : (x.enterEnding s.nextLine).holes = { x.holes with queue := [] } := heh
    have hef : (x.enterEnding s.nextLine).front = s.front := hef.trans hfx
    refine marginHolds_of_not (by rw [her]; simp) (by rw [hef]; exact hheld) fun _ => ?_
    rw [hef, heh, hhx]
    exact ⟨hn, hs⟩
  · refine ⟨by rw [hfx]; exact hheld, fun _ => by rw [hfx, hhx]; exact ⟨hn, hs⟩, fun _ => ⟨?_, ?_⟩⟩
    · rw [hpx, hfx]; omega
    · rw [runsAheadOfPlan_iff] at hruns ⊢
      rw [hhx, hpx, hfx, hmx]
      refine ⟨hruns.1, fun m hm => ⟨hruns.1, fun i d r hd hr => ?_⟩⟩
      obtain ⟨h1, h2, h3, h4, h5⟩ := (hruns.2 m hm).2 i d r hd hr
      exact ⟨h1, h2, h3, h4, by omega⟩

theorem RollEffect.marginHolds (h : MarginHolds s) (hform : PaperForm s) (hruns : RunsBounded s)
    (hc : s.counter .eventOverflow < 65535) (ho : t.counter .eventOverflow ≤ s.counter .eventOverflow)
    (he : RollEffect s t) : MarginHolds t := by
  have hstopped {x : State} (hr : x.roll.rollState = .noRoll)
      (hh : ∀ m, x.front.heldSet = some (.map m) → x.front.heldSamples.length = 128) : MarginHolds x :=
    marginHolds_of_not (by rw [hr]; simp) hh fun hn => absurd hr hn
  have hfresh {x : State} (hr : x.roll = Timeline.fresh) (hf : x.front = FrontEnd.fresh) : MarginHolds x :=
    hstopped (by rw [hr]; rfl) fun m hm => by rw [hf] at hm; cases hm
  cases he with
  | framed ht => exact ht.roll.marginHolds h
  | broughtUp now next => exact hfresh rfl rfl
  | failed q => exact hfresh rfl rfl
  | resetAsserted =>
    have hroll : s.assertReset.roll = s.roll := by simp [State.assertReset]
    have hfront : s.assertReset.front = s.front := by simp [State.assertReset]
    have hmaps : s.assertReset.tables.maps = s.tables.maps := by simp [State.assertReset]
    have hholes : s.assertReset.holes = { s.holes with queue := [] } := rfl
    obtain ⟨h1, h2, h3⟩ := h
    refine ⟨by rw [hfront]; exact h1, by rw [hroll, hfront, hholes]; exact h2, fun hp => ?_⟩
    obtain ⟨h4, h5⟩ := h3 (hroll ▸ hp)
    rw [runsAheadOfPlan_iff] at h5 ⊢
    rw [hroll, hfront, hholes, hmaps]
    exact ⟨h4, h5⟩
  | @arrived u hu hcount n px ha hnew htop =>
    have hcu : u.counter .eventOverflow = s.counter .eventOverflow := by unfold State.counter; rw [hcount]
    refine marginHolds_arrive (hu.roll.marginHolds h) (hu.roll.paperForm hform) ?_ px ha hnew (hcu ▸ hc) (hcu ▸ ho)
    unfold RunsBounded
    rw [hu.roll.maps]
    exact hruns
  | rollStarted hu line tempo m _ => exact marginHolds_startRoll line tempo m
  | @rollStopped u hu =>
    have hm := (hu.roll.marginHolds h).1
    unfold State.stopRoll
    rw [stopChannels_eq]
    exact hstopped rfl hm
  | holdsSet hu op st => exact (hu.roll.trans (sameRoll_setHolds _ op st)).marginHolds h
  | tempoSet hu e tempo now _ _ _ => exact (sameRoll_checkEpisode _).marginHolds (hu.roll.marginHolds h)
  | @mapWritten u hu m maps hbar hother =>
    obtain ⟨h1, h2, h3⟩ := hu.roll.marginHolds h
    refine ⟨h1, h2, fun hp => ?_⟩
    obtain ⟨h4, h5⟩ := h3 hp
    rw [runsAheadOfPlan_iff] at h5
    refine ⟨h4, runsAheadOfPlan_iff.2 ⟨h5.1, fun j hj => ?_⟩⟩
    have hjm : j ≠ m := by
      rintro rfl
      have hp : u.roll.rollState = .playing := hp
      have hj : u.holes.activeSet = some j := hj
      simp only [State.tableBar, hp, hj, if_true] at hbar
      cases hbar
    show RunsReach (maps[j.val].columns) _ _ _
    rw [hother j hjm]
    exact h5.2 j hj
  | opStarted ht _ _ _ => exact ht.marginHolds h
  | opFinished ht _ _ _ => exact ht.marginHolds h
  | linkReset tag => exact hfresh rfl rfl
  | playingEntered m hl =>
    obtain ⟨h1, h2, -⟩ := h
    obtain ⟨hn, hs⟩ := h2 (by rw [hl]; simp)
    refine marginHolds_enterPlaying m h1 hn hs ?_
    show (((s.front.newest + 1).toNat : Nat) : Int) = s.front.newest + 1
    omega
  | sent ht _ _ => exact ht.marginHolds h
  | planned hd => exact marginHolds_planNext h hform hd
  | rollEnded hu => exact hstopped rfl (hu.roll.marginHolds h).1
  | pedalsSwept ht _ _ _ => exact ht.marginHolds h

/-- Settles O58: the form by `RollEffect.inForm`, the margin by `RollEffect.marginHolds`, and the events of the next line by
the runs that the margin keeps above the plan line. -/
theorem rollRecordsStayInForm : Obligations.RollRecordsStayInForm := by
  refine ⟨fun s t ⟨hform, hscan⟩ hstep => ?_, fun s t ⟨hform, hruns, hmargin⟩ hstep hc ho => ?_,
    fun s m samples h hp hm e he => ?_⟩
  · obtain ⟨h, hq⟩ := rollRecordsInForm_iff.1 hform
    obtain ⟨queue, he⟩ := step_rollEffect hstep
    exact rollRecordsInForm_iff.2 (he.inForm (s := { s with pending := queue })
      ⟨h.schedule, h.empty, h.active, h.planLine, h.quiet, h.capture⟩ hq hscan.2.2)
  · obtain ⟨h, -⟩ := rollRecordsInForm_iff.1 hform
    obtain ⟨queue, he⟩ := step_rollEffect hstep
    exact he.marginHolds (s := { s with pending := queue }) hmargin
      ⟨h.schedule, h.empty, h.active, h.planLine, h.quiet, h.capture⟩ hruns hc ho
  · obtain ⟨hn, hs⟩ := h.2.1 (by rw [hp]; simp)
    obtain ⟨hplan, hruns⟩ := h.2.2 hp
    rw [runsAheadOfPlan_iff] at hruns
    rcases debounceLine_event_line he with hl | ⟨d, hd, r, hr, hl⟩
    · omega
    · obtain ⟨i, hi, rfl⟩ := List.getElem_of_mem hd
      obtain ⟨-, -, -, -, habove⟩ := (hruns.2 m hm).2 ⟨i, hruns.1 ▸ hi⟩ _ r (List.getElem?_eq_getElem hi) hr
      omega

end Sys2Proof.Machine
end

section
/-! PROOFS. O1, O3 to O6, O12 and O60: stepping, commands without effect, power, the reset line and LINK RESET. -/

namespace Sys2Proof.Machine

open Sys2Proof.Safety

variable {s t u : State}

/-- Settles O1, by the definition of a step. -/
theorem stepRunsTheFrontCommand : Obligations.StepRunsTheFrontCommand := fun _ _ _ => rfl

/-! Commands without effect -/

theorem whenRunning_stopped (h : s.power ≠ .running) (f : State → State) : whenRunning s f = .next s := by
  rw [whenRunning, if_neg h]

theorem whenDue_not {due : State → Bool} (h : due s = false) (f : State → State) : whenDue s due f = .next s := by
  unfold whenDue whenRunning
  split
  · simp only [h, Bool.false_eq_true, if_false]
  · rfl

/-- Every command but power and the lines is gated by a running card. -/
theorem exec_gated (c : Instr) (h : isPowerOrLine c = false) : ∃ f, ∀ s, exec c s = whenRunning s f := by
  cases c
  case powerOn => cases h
  case resetLineAsserted => cases h
  case resetLineReleased => cases h
  case powerFail => cases h
  case faultLineActive => cases h
  case faultLineInactive => cases h
  all_goals exact ⟨_, fun s => by delta exec; rfl⟩

/-- Settles O3: each command but power and the lines is gated by a running card, and each event of the card's own by its moment. -/
theorem commandsWithoutEffect : Obligations.CommandsWithoutEffect := by
  refine fun c s => ⟨fun hp hc => ?_, fun hd => ?_⟩
  · obtain ⟨f, hf⟩ := exec_gated c hc
    rw [hf, whenRunning_stopped hp]
  · cases c <;> simp only [ownEventDue, Option.some.injEq, reduceCtorEq] at hd
    case storeSaveComplete good =>
      have hn : s.saveDue = none := by simpa using hd
      simp only [exec, execStoreSaveComplete, whenRunning, hn, ite_self]
    case storeLockdownComplete good =>
      have hn : s.lockdownOpDue = none := by simpa using hd
      simp only [exec, execStoreLockdownComplete, whenRunning, hn, ite_self]
    all_goals
      delta exec
      refine whenDue_not ?_ _
      exact hd

/-! Power and the reset line -/

/-- POWER_ON, and the release of the reset line of a powered card, bring the card up, each at its device time. -/
theorem exec_bringUp {c : Instr} (h : c = .powerOn ∨ (c = .resetLineReleased ∧ s.power ≠ .off)) :
    ∃ next, exec c s = .next (s.bringUp (if c = .powerOn then 0 else s.deviceTime) next) := by
  rcases h with rfl | ⟨rfl, hp⟩
  · exact ⟨1000, exec_powerOn⟩
  · exact ⟨s.nextCool, exec_resetLineReleased hp⟩

theorem key_bringUp (s : State) (now next : Nat) (k : Key) : (s.bringUp now next).key k = KeyChannel.fresh :=
  Vector.getElem_replicate k.isLt

theorem pedal_bringUp (s : State) (now next : Nat) (p : Pedal) : (s.bringUp now next).pedal p = PedalChannel.fresh :=
  Vector.getElem_replicate _

theorem counter_bringUp (s : State) (now next : Nat) (d : Counter) : (s.bringUp now next).counter d = 0 :=
  Vector.getElem_replicate _

/-- Settles O4, by the values of a card brought up. -/
theorem powerOnAndResetReleaseStartTheBlocks : Obligations.PowerOnAndResetReleaseStartTheBlocks := by
  intro s c hc
  obtain ⟨next, he⟩ := exec_bringUp hc
  refine ⟨_, he, rfl, rfl, rfl, counter_bringUp s _ next, rfl, rfl, rfl, rfl, rfl, ?_, rfl, rfl, rfl, rfl,
    key_bringUp s _ next, pedal_bringUp s _ next, rfl, rfl, fun g => ⟨rfl, rfl⟩, rfl, rfl⟩
  show (-9 : Int) < 0
  omega

/-! The store at power-on (R181) -/

/-- A region after the examination: one with an operation in flight has lost it and fails its check. -/
theorem region_bringUp (s : State) (now next : Nat) (r : Region) : (s.bringUp now next).region r
    = { s.region r with
        checkGood := (s.region r).checkGood && !(s.store.op.map (·.region) == some r)
        storeBad := !((s.region r).checkGood && !(s.store.op.map (·.region) == some r))
        protectedFlag := true } := by
  have h : (s.bringUp now next).region r = { s.store.loseOp.regions[r.val] with
      storeBad := !s.store.loseOp.regions[r.val].checkGood, protectedFlag := true } := Vector.getElem_ofFn ..
  rw [h, loseOp_region]
  rfl

theorem image_map (w : Tables) {r : Region} (h : r.val < 4) : w.image r = .map w.maps[r.val] := by
  obtain ⟨i, hi⟩ := r
  have h : i < 4 := h
  interval_cases i <;> rfl

/-- The image of a region that carries no map set, by the tables it carries. -/
theorem image_of_not_map {v w : Tables} (hf : w.format = v.format) (hb : w.exprBass = v.exprBass)
    (ht : w.exprTreble = v.exprTreble) (hv : w.velocity = v.velocity) (hk : w.keys = v.keys) (hp : w.pedals = v.pedals)
    (hs : w.settings = v.settings) {r : Region} (h : ¬r.val < 4) : w.image r = v.image r := by
  obtain ⟨i, hi⟩ := r
  have h : ¬i < 4 := h
  interval_cases i
  · exact congrArg _ hf
  · show RegionImage.expression _ _ _ = RegionImage.expression _ _ _
    rw [hb, ht, hv]
  · exact congrArg _ hk
  · show RegionImage.drive _ _ = RegionImage.drive _ _
    rw [hp, hs]

/-- A load moves the image of its own region, to the content loaded. -/
theorem image_load (w : Tables) {r : Region} {c : RegionImage} (hc : carriedBy r c = true) (j : Region) :
    (w.load r c).image j = if j = r then c else w.image j := by
  cases c with
  | map m =>
    have hr : r.val < 4 := of_decide_eq_true hc
    rw [Tables.load, dif_pos hr]
    by_cases hj : j.val < 4
    · rw [image_map _ hj, image_map _ hj, Vector.getElem_set]
      by_cases he : j = r
      · rw [if_pos (by rw [he]), if_pos he]
      · rw [if_neg fun e => he (Fin.ext e.symm), if_neg he]
    · rw [if_neg fun e : j = r => hj (e ▸ hr)]
      exact image_of_not_map (v := w) (w := { w with maps := w.maps.set r.val m hr }) rfl rfl rfl rfl rfl rfl rfl hj
  | format f =>
    obtain rfl : r = 4 := Fin.ext (of_decide_eq_true hc)
    rw [Tables.load, if_pos rfl]
    fin_cases j <;> rfl
  | expression b tr v =>
    obtain rfl : r = 5 := Fin.ext (of_decide_eq_true hc)
    rw [Tables.load, if_pos rfl]
    fin_cases j <;> rfl
  | keys k =>
    obtain rfl : r = 6 := Fin.ext (of_decide_eq_true hc)
    rw [Tables.load, if_pos rfl]
    fin_cases j <;> rfl
  | drive p g =>
    obtain rfl : r = 7 := Fin.ext (of_decide_eq_true hc)
    rw [Tables.load, if_pos rfl]
    fin_cases j <;> rfl

/-- The load of some regions of a store, one after another, over tables. -/
def loadRegions (st : Store) (rs : List Region) (w : Tables) : Tables :=
  rs.foldl (fun t r => if st.regions[r.val].checkGood then t.load r st.regions[r.val].content else t) w

theorem image_loadRegions {st : Store} (h : ∀ r : Region, carriedBy r st.regions[r.val].content = true) (j : Region)
    (rs : List Region) (w : Tables) : (loadRegions st rs w).image j
      = if j ∈ rs ∧ st.regions[j.val].checkGood = true then st.regions[j.val].content else w.image j := by
  induction rs generalizing w with
  | nil => simp [loadRegions]
  | cons r rs ih =>
    have hcons : loadRegions st (r :: rs) w
        = loadRegions st rs (if st.regions[r.val].checkGood then w.load r st.regions[r.val].content else w) := rfl
    rw [hcons, ih]
    by_cases hg : st.regions[r.val].checkGood = true
    · rw [if_pos hg, image_load w (h r)]
      by_cases hj : j = r
      · subst hj; simp [hg]
      · simp [hj]
    · rw [if_neg hg]
      by_cases hj : j = r
      · subst hj; simp [hg]
      · simp [hj]

/-- What the examined store loads: each region's content where its check is good, its defaults otherwise (R181). -/
theorem image_loaded {st : Store} (h : ∀ r : Region, carriedBy r st.regions[r.val].content = true) (j : Region) :
    st.loaded.image j = if st.regions[j.val].checkGood then st.regions[j.val].content else defaultTables.image j := by
  have := image_loadRegions h j (List.finRange 8) defaultTables
  simpa [loadRegions, Store.loaded] using this

/-- The cap of the floors moves KEYS only. -/
theorem image_capFloors (w : Tables) {r : Region} (h : r.val ≠ 6) : w.capFloors.image r = w.image r := by
  unfold Tables.capFloors
  generalize Vector.ofFn _ = v
  match r, h with
  | 6, h => exact absurd rfl h
  | 0, _ | 1, _ | 2, _ | 3, _ | 4, _ | 5, _ | 7, _ => rfl

theorem keys_capFloors (w : Tables) (k : Key) : w.capFloors.keys[k.val]
    = { w.keys[k.val] with vFloor := min w.keys[k.val].vFloor w.settings.vFloorMax } := Vector.getElem_ofFn ..

/-- Settles O5: the examination by `region_bringUp`, the loads by `image_loaded`, the cap of the floors by `capFloors`. -/
theorem powerOnAndResetReleaseLoadTheStore : Obligations.PowerOnAndResetReleaseLoadTheStore := by
  intro s c hc hcarried
  obtain ⟨next, he⟩ := exec_bringUp hc
  refine ⟨_, he, ?_⟩
  generalize (if c = .powerOn then 0 else s.deviceTime) = now
  have hregion := region_bringUp s now next
  have hcontent (r : Region) : (s.store.loseOp.examined.regions[r.val]).content = (s.region r).content := by
    show ((s.bringUp now next).region r).content = _
    rw [hregion]
  have himage (r : Region) : s.store.loseOp.examined.loaded.image r
      = if ((s.bringUp now next).region r).checkGood then (s.region r).content else defaultTables.image r := by
    rw [image_loaded (fun r => by rw [hcontent]; exact hcarried r) r, hcontent]
    rfl
  have htables : (s.bringUp now next).tables = s.store.loseOp.examined.loaded.capFloors := rfl
  refine ⟨hregion, rfl, rfl, fun r hr => ?_, fun k v hv => ?_⟩
  · rw [htables, image_capFloors _ hr]; exact himage r
  · have hkeys : s.store.loseOp.examined.loaded.keys = v := by
      have := (himage 6).trans hv
      exact RegionImage.keys.inj this
    show (s.bringUp now next).tables.keys[k.val] = _
    rw [htables, keys_capFloors, hkeys]
    rfl

/-! The stop of the card -/

theorem key_assertReset (s : State) (k : Key) : s.assertReset.key k = { KeyChannel.fresh with heat := (s.key k).heat } :=
  State.key_mapKeys s (fun _ c => { KeyChannel.fresh with heat := c.heat }) k

theorem pedal_assertReset (s : State) (p : Pedal) : s.assertReset.pedal p = PedalChannel.fresh :=
  State.pedal_mapPedals (s.mapKeys fun _ c => { KeyChannel.fresh with heat := c.heat }) (fun _ => PedalChannel.fresh) p

theorem lock_loseOp (st : Store) : st.loseOp.lock = st.lock := by
  unfold Store.loseOp
  split <;> rfl

/-- Settles O6: the two commands each leave fresh channels, empty lists and a store without its operation. -/
theorem resetAssertedAndPowerFailStopTheCard : Obligations.ResetAssertedAndPowerFailStopTheCard := by
  rintro s c (⟨rfl, hp⟩ | rfl)
  · refine ⟨_, exec_resetLineAsserted hp, rfl, fun k => ?_, fun p => ?_, rfl, rfl, rfl, rfl, rfl, rfl, op_loseOp _,
      lock_loseOp _, fun r => loseOp_region _ r, ?_, ?_, ?_, fun _ => ⟨?_, ?_, ?_⟩⟩
    · rw [key_assertReset]; exact ⟨rfl, rfl, rfl, rfl, rfl⟩
    · rw [pedal_assertReset]; exact ⟨rfl, rfl, rfl, rfl⟩
    all_goals simp [State.assertReset]
  · have hkey (k : Key) : (State.powered 0 1000 s.freeIndex s.setupLock s.faultLines defaultTables s.store.loseOp
        s.pending).key k = KeyChannel.fresh := Vector.getElem_replicate k.isLt
    have hpedal (p : Pedal) : (State.powered 0 1000 s.freeIndex s.setupLock s.faultLines defaultTables s.store.loseOp
        s.pending).pedal p = PedalChannel.fresh := Vector.getElem_replicate _
    refine ⟨_, rfl, rfl, fun k => ?_, fun p => ?_, rfl, rfl, rfl, rfl, rfl, rfl, op_loseOp _, lock_loseOp _,
      fun r => loseOp_region _ r, rfl, rfl, rfl, fun h => nomatch h⟩
    · have hk := hkey k
      exact ⟨congrArg (·.state) hk, congrArg (·.current) hk, congrArg (·.pending) hk, congrArg (·.sense) hk,
        congrArg (·.duty) hk⟩
    · have hq := hpedal p
      exact ⟨congrArg (·.state) hq, congrArg (·.current) hq, congrArg (·.pending) hq, congrArg (·.duty) hq⟩

end Sys2Proof.Machine
end

section
/-! PROOFS. What stops every channel (O12, O15), the end of a roll (O20), and the state after power-on against the
invariants (O60). -/

namespace Sys2Proof.Machine

open Sys2Proof.Safety

variable {s t u : State}

/-! Channels after a stop -/

theorem stopped_eq (c : KeyChannel) (now gap : Nat) : c.stopped (now + gap) = StoppedKey c now gap := by
  obtain ⟨state, -, -, -, -, -, -, -, -, -, -, -, -, -, -⟩ := c
  cases state <;> rfl

theorem sweptPedal_eq (c : PedalChannel) (now : Nat) : c.swept now = StoppedPedal c now := by
  unfold PedalChannel.swept StoppedPedal
  cases c.state <;> rfl

/-- A state with the channels and lists a stop leaves is one whose channels are stopped (R111, R145). -/
theorem channelsStopped_of (hk : t.keys = s.stopChannels.keys) (hp : t.pedals = s.stopChannels.pedals)
    (hf : t.fireList = []) (hw : t.waitList = []) (hu : t.pedalUnit = PedalUnit.fresh) : ChannelsStopped s t := by
  refine ⟨fun k => ?_, fun p => ?_, hf, hw, hu⟩
  · have : t.key k = s.stopChannels.key k := by simp only [State.key, hk]
    rw [this, stopChannels_key, stopped_eq]
  · have : t.pedal p = s.stopChannels.pedal p := by simp only [State.pedal, hp]
    rw [this, stopChannels_pedal, sweptPedal_eq]

/-! LINK RESET -/

/-- Everything a reset of the link leaves, block by block (R175). -/
theorem linkReset_eq (s : State) (tag : Tag) : s.linkReset tag = { s with
    link := { s.link with
      aliveStart := some s.deviceTime, linkLost := false, reportSeq := 0, queue := [.reply tag [0x50#8, 0x00#8]] }
    counters := Vector.replicate 26 0, front := FrontEnd.fresh, holes := HoleRecognizer.fresh, roll := Timeline.fresh
    exprBass := ExprRecord.rollStart s.tables.exprBass, exprTreble := ExprRecord.rollStart s.tables.exprTreble
    pedalUnit := PedalUnit.fresh, keys := s.stopChannels.keys, pedals := s.stopChannels.pedals
    fireList := [], waitList := [] } := by
  unfold State.linkReset State.stopRoll
  dsimp only
  rw [stopChannels_validFrame, stopChannels_eq]
  generalize s.stopChannels.keys = keys
  generalize s.stopChannels.pedals = pedals
  split <;> rfl

theorem counter_of_cleared (h : t.counters = Vector.replicate 26 0) (d : Counter) : t.counter d = 0 := by
  simp only [State.counter, h, Vector.getElem_replicate]

/-- Settles O12, by `linkReset_eq`. -/
theorem linkResetResult : Obligations.LinkResetResult := by
  intro s tag hp
  refine ⟨_, exec_linkReset hp tag, ?_⟩
  rw [linkReset_eq]
  exact ⟨channelsStopped_of rfl rfl rfl rfl rfl, rfl, rfl, rfl, rfl, rfl, show (-9 : Int) < 0 by decide, rfl, rfl, rfl,
    fun d => counter_of_cleared rfl d, rfl, rfl⟩

/-! Counters -/

theorem counted_bumpBy (s : State) (c : Counter) (n : Nat) : Counted s (s.bumpBy c n) c n := by
  intro d
  rw [State.counter_bumpBy]
  rfl

theorem counted_bump (s : State) (c : Counter) : Counted s (s.bump c) c 1 := counted_bumpBy s c 1

/-! The stop and the end of a roll -/

/-- Everything a stop of the roll leaves, its STATE report last (R60). -/
theorem stopRoll_eq (s : State) : s.stopRoll = State.queueState { s with
    holes := s.holes.inactive, roll := s.roll.toNoRoll, pedalUnit := PedalUnit.fresh
    keys := s.stopChannels.keys, pedals := s.stopChannels.pedals, fireList := [], waitList := [] } := by
  unfold State.stopRoll
  rw [stopChannels_eq]

/-- Settles O15: a ROLL STOP and an ABANDON both end in `stopRoll`, after the reply and after the count. -/
theorem rollStopAndAbandonStopTheRoll : Obligations.RollStopAndAbandonStopTheRoll := by
  intro s tag hp hr Stops
  have hactive : s.rollActive = true := bne_iff_ne.2 hr
  refine ⟨fun hq => ?_, fun a ha hpast => ?_⟩
  · have hj : judgeRollStop s.validFrame = accept .done State.stopRoll := if_pos hactive
    refine ⟨_, exec_rollStop hp tag, ?_⟩
    rw [control_accept s tag _ _ _ _ hq hj, stopRoll_eq]
    exact ⟨⟨channelsStopped_of rfl rfl rfl rfl rfl, rfl, rfl, rfl, rfl, rfl⟩, rfl, rfl⟩
  · have hd : s.abandonDue = true := by
      simp only [State.abandonDue, hactive, ha, Option.map_some, Bool.true_and, passed, decide_eq_true_eq]
      exact hpast
    refine ⟨_, exec_abandon hp hd, ?_⟩
    rw [stopRoll_eq]
    exact ⟨⟨channelsStopped_of rfl rfl rfl rfl rfl, rfl, rfl, rfl, rfl, rfl⟩, counted_bump s .abandoned, rfl⟩

/-- Settles O20: ROLL_END is due in the state described, and `changeHolds` moves hold-limit watches only. -/
theorem rollEndReachesNoRoll : Obligations.RollEndReachesNoRoll := by
  intro s n hp hr hend hdue hkeys hpedals
  have hidle : s.allIdle = true := (allIdle_iff s).2 fun
    | .key k => hkeys k
    | .pedal p => hpedals p
  have hd : s.rollEndDue = true := by
    simp only [State.rollEndDue, hr, hidle, hend, hdue, beq_self_eq_true, Bool.true_and]
  refine ⟨_, exec_rollEnd hp hd, ?_⟩
  rw [changeHolds_eq]
  exact ⟨rfl, rfl, rfl, fun k => changeHolds_key s false false k, rfl, rfl⟩

/-! The state after power-on -/

/-- All of the claims on the drive channels. -/
def allClaims : Claims := ⟨True, True, True, True, True⟩

theorem kept_reset : Kept allClaims [] State.reset :=
  Kept.allFresh rfl rfl (fun _ => ⟨0, key_powered ..⟩) fun _ => pedal_powered ..

theorem region_blank (r : Region) :
    Store.blank.regions[r.val] = ⟨defaultTables.image r, false, false, true, true⟩ := by
  unfold Store.blank
  rw [Vector.getElem_ofFn]

theorem memoryGood_reset : MemoryGood State.reset :=
  ⟨tablesGood_defaults, fun r => (by rw [show State.reset.store = Store.blank from rfl, region_blank]; exact tablesGood_defaults.image r),
    fun _ _ h => nomatch h⟩

/-- Settles O60: every channel is fresh, the working tables and the images are the defaults, and every queue is empty. -/
theorem resetMeetsTheInvariants : Obligations.ResetMeetsTheInvariants := by
  obtain ⟨hconsistent, hfloors⟩ := memoryGood_reset.consistent
  have hcounters : CountersBounded State.reset := fun d =>
    (counter_of_cleared (t := State.reset) rfl d).le.trans (Nat.zero_le _)
  have hrecords : ScanRecordsBounded State.reset := ⟨Nat.zero_le _, Nat.zero_le _, .nil⟩
  have hheat (k : Key) : (State.reset.key k).heat ≤ State.reset.tables.settings.heatLimit := by
    rw [show State.reset.key k = KeyChannel.fresh from key_powered ..]; exact Nat.zero_le _
  have hmargin : MarginHolds State.reset := ⟨nofun, fun h => absurd rfl h, nofun⟩
  have hpaper : PaperForm State.reset := paperForm_noRoll rfl rfl rfl rfl captureInForm_fresh
  exact ⟨hcounters, hrecords, shaped_of_empty rfl rfl, ⟨hheat, Nat.zero_le _, Nat.zero_le _⟩, kept_reset.listsMatch,
    kept_reset.order trivial, kept_reset.channelsInForm trivial,
    rollRecordsInForm_iff.2 ⟨hpaper, queueAbove_of_not (by decide)⟩, hmargin, memoryGood_reset.runsBounded,
    ⟨kept_reset.slots trivial, kept_reset.fed trivial⟩, kept_reset.faultedGroupsRest trivial, hconsistent, hfloors, nofun⟩

end Sys2Proof.Machine
end

section
/-! PROOFS. The Link Port: its own events (O7), the link-alive watch (O8), a full return queue (O9). -/

namespace Sys2Proof.Machine

open Sys2Proof.Safety

variable {s t u : State}

/-! A full return queue -/

/-- A command with a command code is judged as a CONTROL frame (R166). -/
theorem exec_control {c : Instr} (hc : isControl c = true) (hp : s.power = .running) :
    ∃ tag code judge, exec c s = .next (s.control tag code judge) := by
  cases c with
  | unknownCommand tag payload => exact ⟨_, _, _, exec_unknownCommand hp ..⟩
  | rollStart tag line tempo mode => exact ⟨_, _, _, exec_rollStart hp ..⟩
  | rollStop tag => exact ⟨_, _, _, exec_rollStop hp ..⟩
  | pause tag => exact ⟨_, _, _, exec_pause hp ..⟩
  | resume tag => exact ⟨_, _, _, exec_resume hp ..⟩
  | tempo tag line tempo => exact ⟨_, _, _, exec_tempo hp ..⟩
  | tableWrite tag table start count entries => exact ⟨_, _, _, exec_tableWrite hp ..⟩
  | tableRead tag table start count => exact ⟨_, _, _, exec_tableRead hp ..⟩
  | statusQuery tag => exact ⟨_, _, _, exec_statusQuery hp ..⟩
  | countersRead tag => exact ⟨_, _, _, exec_countersRead hp ..⟩
  | faultClear tag mask => exact ⟨_, _, _, exec_faultClear hp ..⟩
  | keyTest tag key velocity => exact ⟨_, _, _, exec_keyTest hp ..⟩
  | storeSave tag region => exact ⟨_, _, _, exec_storeSave hp ..⟩
  | storeProtect tag mask => exact ⟨_, _, _, exec_storeProtect hp ..⟩
  | storeUnprotect tag mask => exact ⟨_, _, _, exec_storeUnprotect hp ..⟩
  | storeLock tag value => exact ⟨_, _, _, exec_storeLock hp ..⟩
  | storeLockdown tag region confirm => exact ⟨_, _, _, exec_storeLockdown hp ..⟩
  | _ => cases hc

/-- A frame leaves an abandon start standing exactly where AbandonTimeout has passed (R61; entry 25). -/
theorem abandonStart_validFrame (s : State) : s.validFrame.roll.abandonStart = s.roll.abandonStart.filter
    (fun a => decide (a + s.tables.settings.abandonTimeout * 1000000 ≤ s.deviceTime)) := by
  unfold State.validFrame
  cases s.roll.abandonStart with
  | none => rfl
  | some a =>
    by_cases h : s.deviceTime < a + s.tables.settings.abandonTimeout * 1000000
    · simp [Option.filter, h]
    · simp [Option.filter, h, Nat.le_of_not_lt h]

theorem roll_validFrame (s : State) : s.validFrame.roll = { s.roll with
    abandonStart := s.roll.abandonStart.filter
      (fun a => decide (a + s.tables.settings.abandonTimeout * 1000000 ≤ s.deviceTime)) } := by
  rw [← abandonStart_validFrame]; rfl

/-- Settles O9, by the discarding case of `control_cases`. -/
theorem fullReplyQueueDiscardsCommands : Obligations.FullReplyQueueDiscardsCommands := by
  intro c s hp hc hfull
  obtain ⟨tag, code, judge, he⟩ := exec_control hc hp
  refine ⟨_, he, ?_⟩
  rcases control_cases s tag code judge with ⟨-, e⟩ | ⟨hroom, -⟩
  · rw [e]
    exact ⟨counted_bump s.validFrame .replyOverflow, rfl, roll_validFrame s, rfl⟩
  · omega

/-! The link-alive watch -/

theorem Reported.aliveStart (h : Reported s t) : t.link.aliveStart = s.link.aliveStart := by rw [h.lane]

theorem OnlyChannels.aliveStart (h : OnlyChannels s t) : t.link.aliveStart = s.link.aliveStart := h.reported.aliveStart

theorem OnlySensed.aliveStart (h : OnlySensed s t) : t.link.aliveStart = s.link.aliveStart := by
  unfold OnlySensed at h; rw [h]

/-- What an answered command does after its reply does not move the watch. -/
theorem Answered.aliveStart (h : Answered u t) : t.link.aliveStart = u.link.aliveStart := by
  cases h with
  | rollStart line tempo m _ => exact (reported_startRoll ..).aliveStart
  | rollStop _ => exact (reported_stopRoll u).aliveStart
  | pause _ => exact (reported_setHolds ..).aliveStart
  | resume _ => exact (reported_setHolds ..).aliveStart
  | tempoPlaying e tempo now _ _ _ => exact (reported_checkEpisode _).aliveStart
  | tableWrite table start count entries n w _ _ _ _ _ _ =>
    by_cases hn : n = .settings
    · subst hn; exact (onlySensed_afterWrite_settings _).aliveStart
    · unfold State.afterWrite
      split
      case h_3 => exact absurd rfl hn
      all_goals rfl
  | keyTest k velocity _ _ => exact (onlyChannels_fireLast _ k).aliveStart
  | _ => rfl

theorem FrameEffect.aliveStart (h : FrameEffect s t) : t.link.aliveStart = some s.deviceTime := by
  cases h with
  | counted c => rfl
  | arrived n px _ _ _ => exact (reported_arrive s.validFrame n px).aliveStart
  | answered tag code r data _ ht => exact ht.aliveStart
  | opStarted kind r tag time _ _ _ _ => rfl
  | linkReset tag => rw [linkReset_eq]

theorem aliveStart_handOn (s : State) : s.handOn.link.aliveStart = s.link.aliveStart := (onlyChannels_handOn s).aliveStart

/-- A fault line, raised or not, does not move the watch. -/
theorem aliveStart_raiseFault (s : State) (g : Group) : (s.raiseFault g).link.aliveStart = s.link.aliveStart := by
  unfold State.raiseFault
  split
  · rfl
  · exact (aliveStart_handOn _).trans (onlyPedalUnit_sweepGroup _ g).1.reported.aliveStart

/-- An event behind its gates keeps the watch when its effect does. -/
theorem aliveStart_whenDue {due : State → Bool} {f : State → State} (h : whenDue s due f = .next t)
    (hf : (f s).link.aliveStart = s.link.aliveStart) : t.link.aliveStart = s.link.aliveStart := by
  rcases whenDue_cases h with ⟨-, -, rfl⟩ | rfl
  · exact hf
  · rfl

/-- A command that is no valid frame, nor power, the reset line or the watch's expiry keeps the watch (R165). -/
theorem aliveStart_exec {c : Instr} (hframe : isFrame c = false) (hpower : isPowerOrReset c = false)
    (hexpiry : c ≠ .linkAliveExpiry) (hp : s.power = .running) (h : exec c s = .next t) :
    t.link.aliveStart = s.link.aliveStart := by
  cases c with delta exec at h
  | headerError =>
    cases (exec_headerError hp).symm.trans h
    show s.link.rehunt.aliveStart = _
    unfold Link.rehunt
    split <;> rfl
  | payloadError => cases (exec_payloadError hp).symm.trans h; rfl
  | leaderMaxExpiry => exact aliveStart_whenDue h (reported_enterPlaying ..).aliveStart
  | storeSaveComplete good =>
    rcases whenRunning_cases h with ⟨-, rfl⟩ | ⟨-, rfl⟩
    · split <;> rfl
    · rfl
  | storeLockdownComplete good =>
    rcases whenRunning_cases h with ⟨-, rfl⟩ | ⟨-, rfl⟩
    · split <;> rfl
    · rfl
  | returnSend =>
    refine aliveStart_whenDue h ?_
    unfold State.sendNext
    split <;> rfl
  | linkAliveExpiry => exact absurd rfl hexpiry
  | abandon => exact aliveStart_whenDue h (reported_stopRoll _).aliveStart
  | planLine => exact aliveStart_whenDue h (reported_planNext s).aliveStart
  | starveEpisodeStart => exact aliveStart_whenDue h rfl
  | starveHold => exact aliveStart_whenDue h (reported_setHolds _ _ _).aliveStart
  | holdLimitExpiry k =>
    refine aliveStart_whenDue h ?_
    split <;> rfl
  | rollEnd =>
    refine aliveStart_whenDue h ?_
    rw [changeHolds_eq]; rfl
  | keyFire k => exact aliveStart_whenDue h (onlyChannels_fireKey _ k).aliveStart
  | kickEnd k =>
    refine aliveStart_whenDue h ((aliveStart_handOn _).trans ?_)
    unfold State.endKick
    split <;> rfl
  | deferExpiry k => exact aliveStart_whenDue h (onlyChannels_expireWait s k).aliveStart
  | holdRelease k => exact aliveStart_whenDue h rfl
  | testRelease k => exact aliveStart_whenDue h rfl
  | gapEnd k => exact aliveStart_whenDue h (onlyChannels_promote s k).aliveStart
  | pedalFire p => exact aliveStart_whenDue h (onlyChannels_firePedal _ p).aliveStart
  | pedalKickEnd p =>
    refine aliveStart_whenDue h ((aliveStart_handOn _).trans ?_)
    unfold State.endPedalKick
    split <;> rfl
  | pedalLift p => exact aliveStart_whenDue h rfl
  | pedalReleaseEnd p => exact aliveStart_whenDue h (onlyChannels_endPedalRelease s p).aliveStart
  | heatCooling => exact aliveStart_whenDue h rfl
  | faultLineActive g =>
    cases h
    split
    · rfl
    · exact aliveStart_raiseFault _ g
  | faultLineInactive g => cases h; rfl
  | senseEdge k =>
    cases (exec_senseEdge hp k).symm.trans h
    split
    · exact (onlySensed_judgeEdge s k).aliveStart
    · rfl
  | senseDeadline k => exact aliveStart_whenDue h (onlySensed_reachDeadline s k).aliveStart
  | powerOn | resetLineAsserted | resetLineReleased | powerFail => cases hpower
  | _ => cases hframe

/-- Settles O8: a frame has a frame's effect, and every other command's link keeps its watch. -/
theorem validFramesRestartTheLinkWatch : Obligations.ValidFramesRestartTheLinkWatch := by
  intro c s t hp h
  refine ⟨fun hc => ?_, fun hc hpower hexpiry => aliveStart_exec hc hpower hexpiry hp h⟩
  obtain ⟨u, he, hu⟩ := exec_frame s hc
  rw [if_pos hp] at he
  cases he.symm.trans h
  exact hu.aliveStart

/-! The Link Port's own events -/

/-- Bit j of byte i of a run of bytes (R161). -/
theorem laneBits_getElem? (bs : List Byte) (i : Nat) {j : Nat} (hj : j < 10) :
    (laneBits bs)[10 * i + j]? = bs[i]?.bind fun b => (byteBits b)[j]? := by
  have hlen (b : Byte) : (byteBits b).length = 10 := length_byteBits b
  induction bs generalizing i with
  | nil => rfl
  | cons b bs ih =>
    have hcons : laneBits (b :: bs) = byteBits b ++ laneBits bs := rfl
    rw [hcons]
    cases i with
    | zero => rw [List.getElem?_append_left (by rw [hlen]; omega)]; simp
    | succ i =>
      rw [List.getElem?_append_right (by rw [hlen]; omega), hlen,
        show 10 * (i + 1) + j - 10 = 10 * i + j by omega, ih]
      rfl

/-- The level of the lane in bit j of byte i of a frame that starts at a bit time (R161). -/
theorem level_of_byte {frame : List Byte} {start i j : Nat} {b : Byte} (hb : frame[i]? = some b) (hj : j < 10) :
    (Sending.mk frame (start + frame.length * 10)).level (start + 10 * i + j) = (byteBits b)[j]?.getD true := by
  have hstart : start + frame.length * 10 - frame.length * Config.bitsPerByte = start := by
    show start + frame.length * 10 - frame.length * 10 = start
    omega
  unfold Sending.level
  dsimp only
  rw [hstart, if_pos (by omega), show start + 10 * i + j - start = 10 * i + j by omega, laneBits_getElem? _ _ hj, hb]
  rfl

theorem level_after {frame : List Byte} {start bit : Nat} (h : start + frame.length * 10 ≤ bit) :
    (Sending.mk frame (start + frame.length * 10)).level bit = true := by
  have hstart : start + frame.length * 10 - frame.length * Config.bitsPerByte = start := by
    show start + frame.length * 10 - frame.length * 10 = start
    omega
  unfold Sending.level
  dsimp only
  rw [hstart, if_pos (by omega), List.getElem?_eq_none (by rw [length_laneBits]; show frame.length * 10 ≤ _; omega)]
  rfl

/-- Settles O7: each event by its `exec_` equation, the lane's level by `level_of_byte` and `level_after`. -/
theorem linkPortEvents : Obligations.LinkPortEvents := by
  intro s hp
  refine ⟨⟨_, exec_headerError hp, counted_bump _ .headerError, ?_, rfl⟩,
    ⟨_, exec_payloadError hp, counted_bump _ .payloadError, rfl, rfl⟩, ?_, ?_⟩
  · show s.link.rehunt = _
    unfold Link.rehunt
    cases s.link.receiver <;> rfl
  · intro e rest hq hends start
    have hstart : s.sendStart = start := by
      unfold State.sendStart State.bitTime
      rfl
    have hfree : s.laneFree = true := by
      unfold State.laneFree
      cases hs : s.link.sending with
      | none => rfl
      | some f => exact decide_eq_true (hends f hs)
    have hd : s.sendDue = true := by
      unfold State.sendDue
      rw [hfree, hq]; rfl
    have hnext : s.sendNext = { s with link := { s.link with
        queue := rest, sending := some ⟨e.frame, start + e.frame.length * 10⟩ } } := by
      unfold State.sendNext
      rw [hq, hstart]; rfl
    refine ⟨_, exec_returnSend hp hd, hnext, fun i b hb => ?_, fun bit hbit => ?_⟩
    all_goals rw [hnext]
    · have hbit {j : Nat} (hj : j < 10) := level_of_byte (start := start) hb hj
      refine ⟨hbit (j := 0) (by omega), fun j hj => ?_, hbit (j := 9) (by omega)⟩
      refine (show _ = _ from ?_).trans ((hbit (j := 1 + j) (by omega)).trans ?_)
      · rw [← Nat.add_assoc]; rfl
      · interval_cases j <;> rfl
    · exact level_after hbit
  · intro a ha hpast
    have hd : s.aliveDue = true := by
      unfold State.aliveDue
      rw [ha]
      exact decide_eq_true hpast
    rw [exec_linkAliveExpiry hp hd]
    by_cases hr : s.roll.rollState = .noRoll
    · rw [if_neg (show ¬s.rollActive = true by simp [State.rollActive, hr]), if_pos hr]
    · rw [if_pos (show s.rollActive = true from bne_iff_ne.2 hr), if_neg hr]

end Sys2Proof.Machine
end

section
/-! PROOFS. Numbers as bytes and bits, the answers of the queries (O11), and the receiver (O10). -/

namespace Sys2Proof.Machine

open Sys2Proof.Safety

variable {s t u : State}

/-! Numbers as bytes and as bits -/

theorem length_toBytes (n v : Nat) : (toBytes n v).length = n := by
  induction n with
  | zero => rfl
  | succ n ih => rw [toBytes, List.length_cons, ih]

theorem foldl_bytes (v : Nat) (bs : List Byte) :
    bs.foldl (fun v b => v * 256 + b.toNat) v = v * 256 ^ bs.length + ofBytes bs := by
  induction bs generalizing v with
  | nil => simp [ofBytes]
  | cons b bs ih =>
    rw [ofBytes, List.foldl_cons, List.foldl_cons, ih, ih (0 * 256 + b.toNat), List.length_cons]
    ring

theorem ofBytes_cons (b : Byte) (bs : List Byte) : ofBytes (b :: bs) = b.toNat * 256 ^ bs.length + ofBytes bs := by
  rw [ofBytes, List.foldl_cons, foldl_bytes]
  ring

theorem ofBytes_toBytes (n v : Nat) : ofBytes (toBytes n v) = v % 256 ^ n := by
  induction n with
  | zero => simp [toBytes, ofBytes, Nat.mod_one]
  | succ n ih =>
    rw [toBytes, ofBytes_cons, ih, length_toBytes, BitVec.toNat_ofNat, Nat.mod_pow_succ (b := 256) (k := n)]
    ring

theorem ofBytes_toBytes_of_lt {n v : Nat} (h : v < 256 ^ n) : ofBytes (toBytes n v) = v := by
  rw [ofBytes_toBytes, Nat.mod_eq_of_lt h]

theorem testBit_bitsToNat (bs : List Bool) (i : Nat) : (bitsToNat bs).testBit i = bs[i]?.getD false := by
  induction bs generalizing i with
  | nil => simp [bitsToNat]
  | cons b bs ih =>
    rw [bitsToNat]
    cases i with
    | zero => cases b <;> simp [Nat.testBit_zero, Nat.add_mod]
    | succ i =>
      rw [Nat.testBit_succ, show ((if b then 1 else 0) + 2 * bitsToNat bs) / 2 = bitsToNat bs by split <;> omega, ih]
      rfl

theorem bitsToNat_lt (bs : List Bool) : bitsToNat bs < 2 ^ bs.length := by
  induction bs with
  | nil => simp [bitsToNat]
  | cons b bs ih =>
    rw [bitsToNat, List.length_cons, Nat.pow_succ]
    split <;> omega

/-! The queries -/

/-- A line number as the link carries it: FFFFFF hex for none (R171). -/
def lineNumber (n : Int) : Nat := if n < 0 then 0xFFFFFF else n.toNat

theorem lineBytes_eq (n : Int) : lineBytes n = toBytes 3 (lineNumber n) := by
  unfold lineBytes lineNumber
  split <;> rfl

theorem lineNumber_mod (n : Int) : lineNumber n % 256 ^ 3 = if n < 0 then 0xFFFFFF else n.toNat % 0x1000000 := by
  unfold lineNumber
  split <;> rfl

theorem length_lineBytes (n : Int) : (lineBytes n).length = 3 := by
  unfold lineBytes
  split <;> exact length_toBytes ..

theorem length_stateBytes (s : State) : s.stateBytes.length = 19 := by
  simp only [State.stateBytes, List.length_append, length_toBytes, length_lineBytes, List.length_cons, List.length_nil]

/-- The bits of a run of flags read back from the bytes that carry them. -/
theorem testBit_flags {bs : List Bool} {n : Nat} (h : bs.length ≤ 8 * n) (i : Nat) :
    (ofBytes (toBytes n (bitsToNat bs))).testBit i = bs[i]?.getD false := by
  rw [ofBytes_toBytes_of_lt, testBit_bitsToNat]
  refine (bitsToNat_lt bs).trans_le ?_
  rw [show 256 = 2 ^ 8 by rfl, ← Nat.pow_mul]
  exact Nat.pow_le_pow_right (by omega) h

theorem ofBytes_flatMap_field (v : List Nat) (i : Nat) (hi : i < v.length) (hv : ∀ x ∈ v, x ≤ 65535) :
    ofBytes (((v.flatMap (toBytes 2)).drop (2 * i)).take 2) = v[i] := by
  induction v generalizing i with
  | nil => simp at hi
  | cons x v ih =>
    have hx : x < 256 ^ 2 := (hv x (by simp)).trans_lt (by decide)
    rw [List.flatMap_cons]
    cases i with
    | zero =>
      rw [Nat.mul_zero, List.drop_zero, List.take_left' (length_toBytes 2 x), ofBytes_toBytes_of_lt hx]
      rfl
    | succ i =>
      rw [show 2 * (i + 1) = (toBytes 2 x).length + 2 * i by rw [length_toBytes]; omega, List.drop_append, List.drop_eq_nil_of_le (by omega),
        List.nil_append, Nat.add_sub_cancel_left]
      exact ih i (by simpa using hi) fun y hy => hv y (List.mem_cons_of_mem _ hy)

theorem length_counterBytes (s : State) : s.counterBytes.length = 52 := by
  simp [State.counterBytes, List.length_flatMap, length_toBytes]

theorem exists_place (i : Fin 26) : ∃ d : Counter, d.place = i := by
  fin_cases i
  exacts [⟨.headerError, rfl⟩, ⟨.payloadError, rfl⟩, ⟨.widthMismatch, rfl⟩, ⟨.missingLine, rfl⟩, ⟨.staleLine, rfl⟩,
    ⟨.overrun, rfl⟩, ⟨.eventOverflow, rfl⟩, ⟨.edgeLost, rfl⟩, ⟨.shiftLimited, rfl⟩, ⟨.widthLimited, rfl⟩,
    ⟨.starveHold, rfl⟩, ⟨.abandoned, rfl⟩, ⟨.lateStrike, rfl⟩, ⟨.deferred, rfl⟩, ⟨.deferDrop, rfl⟩, ⟨.heatTrim, rfl⟩,
    ⟨.heatDrop, rfl⟩, ⟨.faultDrop, rfl⟩, ⟨.repeatDrop, rfl⟩, ⟨.groupFault, rfl⟩, ⟨.repeatFault, rfl⟩,
    ⟨.senseAdapted, rfl⟩, ⟨.senseOutlier, rfl⟩, ⟨.senseMiss, rfl⟩, ⟨.senseStray, rfl⟩, ⟨.replyOverflow, rfl⟩]

theorem counters_le (h : CountersBounded s) (x : Nat) (hx : x ∈ s.counters.toList) : x ≤ 65535 := by
  obtain ⟨i, hi, rfl⟩ := List.getElem_of_mem hx
  obtain ⟨d, hd⟩ := exists_place ⟨i, by simpa using hi⟩
  have hbound := h d
  simp only [State.counter, hd] at hbound
  exact hbound

/-- A CONTROL frame that is answered: its reply with its data, then its effect (R166). -/
theorem control_answer (s : State) (tag : Tag) (code : Byte) (judge : State → Verdict) (r : ResultCode)
    (hq : s.replyCount < 14) (hr : (judge s.validFrame).result = some r) : s.control tag code judge
      = (judge s.validFrame).act (s.validFrame.queueReply tag code r (judge s.validFrame).data) := by
  rcases control_cases s tag code judge with ⟨h, -⟩ | ⟨-, ⟨q, hq', e⟩ | ⟨hq', -⟩⟩
  · omega
  · cases hr.symm.trans hq'; exact e
  · cases hr.symm.trans hq'

/-- The 25 bytes of STATUS QUERY with every line number as a number. -/
theorem statusBytes_eq (s : State) : s.statusBytes =
    [s.roll.rollState.byte, BitVec.ofNat 8 (bitsToNat [s.roll.operator, s.roll.starved])]
      ++ toBytes 3 (lineNumber s.roll.planLine) ++ toBytes 3 (lineNumber s.front.newest)
      ++ toBytes 3 (lineNumber s.holes.settled)
      ++ [match s.holes.activeSet with
          | some m => BitVec.ofNat 8 m.val
          | none => 0xFF#8]
      ++ toBytes 1 s.holes.code ++ toBytes 2 s.roll.tempo ++ toBytes 4 s.roll.rollTime.toNat
      ++ toBytes 1 (bitsToNat [s.link.linkLost, s.setupLock, s.store.op.isSome])
      ++ toBytes 2 (bitsToNat s.groupFaulted.toList) ++ toBytes 2 (bitsToNat s.faultLines.toList)
      ++ toBytes 1 (bitsToNat (s.store.regions.toList.map (·.storeBad))) := by
  simp only [State.statusBytes, State.stateBytes, lineBytes_eq] <;> rfl

/-- Settles O11: the fields stand in the answer one after another, and each is read back by `ofBytes_toBytes`. -/
theorem statusAndCounterQueries : Obligations.StatusAndCounterQueries := by
  intro s tag hp hq
  have hline (n : Int) := (ofBytes_toBytes 3 (lineNumber n)).trans (lineNumber_mod n)
  refine ⟨⟨_, s.statusBytes, exec_statusQuery hp tag, ?_, ?_, ⟨?_, ?_, ?_, ?_, ?_, ?_, ?_, ?_, ?_⟩, ?_, fun g => ?_,
    fun g => ?_, fun r => ?_, ?_⟩, fun hbound => ⟨_, s.counterBytes, exec_countersRead hp tag, ?_, fun d => ⟨?_, ?_⟩, ?_, ?_⟩⟩
  · rw [statusBytes_eq]; rfl
  · simp only [State.statusBytes, List.append_assoc]
    exact List.take_left' (length_stateBytes s)
  · show some _ = some _
    cases s.roll.rollState <;> rfl
  · show some _ = some _
    cases s.roll.operator <;> cases s.roll.starved <;> rfl
  · rw [statusBytes_eq]; exact hline s.roll.planLine
  · rw [statusBytes_eq]; exact hline s.front.newest
  · rw [statusBytes_eq]; exact hline s.holes.settled
  · rw [statusBytes_eq]; rfl
  · rw [statusBytes_eq]
    show some (BitVec.ofNat 8 (s.holes.code / 1)) = _
    rw [Nat.div_one]
  · rw [statusBytes_eq]; exact ofBytes_toBytes 2 s.roll.tempo
  · rw [statusBytes_eq]; exact ofBytes_toBytes_of_lt (n := 4) s.roll.rollTime.isLt
  · rw [statusBytes_eq]
    show some (BitVec.ofNat 8 (bitsToNat [s.link.linkLost, s.setupLock, s.store.op.isSome] / 1)) = _
    cases s.link.linkLost <;> cases s.setupLock <;> cases s.store.op.isSome <;> rfl
  · rw [statusBytes_eq]
    refine (testBit_flags (n := 2) (by simp) g.val).trans ?_
    simp [State.faulted]
  · rw [statusBytes_eq]
    refine (testBit_flags (n := 2) (by simp) g.val).trans ?_
    simp
  · rw [statusBytes_eq]
    refine (testBit_flags (n := 1) (by simp) r.val).trans ?_
    simp [State.region]
  · rw [control_answer s tag 0x30#8 _ .done hq rfl]; rfl
  · exact length_counterBytes s
  · exact ofBytes_flatMap_field s.counters.toList d.place.val (by simp) fun x hx => counters_le hbound x hx
  · rw [control_answer s tag 0x31#8 _ .done hq rfl]
    exact counter_of_cleared rfl d
  · rw [control_answer s tag 0x31#8 _ .done hq rfl]; rfl
  · rw [control_answer s tag 0x31#8 _ .done hq rfl]; rfl

/-! The receiver -/

/-- What a stretch of bytes completes joins what was completed before it. -/
theorem foldl_receive (r : Receiver) (is : List Instr) (bs : List Byte) :
    bs.foldl (fun (a : Receiver × List Instr) b => ((a.1.take b).1, a.2 ++ (a.1.take b).2.toList)) (r, is)
      = ((receive r bs).1, is ++ (receive r bs).2) := by
  induction bs generalizing r is with
  | nil => simp [receive]
  | cons b bs ih =>
    have hstep : receive r (b :: bs) = bs.foldl (fun (a : Receiver × List Instr) b =>
        ((a.1.take b).1, a.2 ++ (a.1.take b).2.toList)) ((r.take b).1, (r.take b).2.toList) := rfl
    rw [List.foldl_cons, hstep, ih, ih, List.append_assoc]

theorem receive_cons (r : Receiver) (b : Byte) (bs : List Byte) : receive r (b :: bs)
    = ((receive (r.take b).1 bs).1, (r.take b).2.toList ++ (receive (r.take b).1 bs).2) :=
  foldl_receive (r.take b).1 (r.take b).2.toList bs

theorem receive_append (r : Receiver) (bs cs : List Byte) : receive r (bs ++ cs)
    = ((receive (receive r bs).1 cs).1, (receive r bs).2 ++ (receive (receive r bs).1 cs).2) := by
  induction bs generalizing r with
  | nil => rfl
  | cons b bs ih => rw [List.cons_append, receive_cons, ih, receive_cons, List.append_assoc]

theorem receive_sync (before : Option Byte) : receive (.hunting before) [0xE1#8, 0x9B#8] = (.header [], []) := by
  have hfirst : (Receiver.hunting before).take 0xE1#8 = (.hunting (some 0xE1#8), none) :=
    if_neg fun h => absurd h.2 (by decide)
  rw [receive_cons, hfirst]
  rfl

/-- Seven header bytes: good ones start the payload, others make HEADER_ERROR (R163). -/
theorem receive_header (kind l1 l0 t2 t1 t0 check : Byte) :
    receive (.header []) [kind, l1, l0, t2, t1, t0, check]
      = if headerGood [kind, l1, l0, t2, t1, t0, check] then
          (.payload kind (ofBytes [l1, l0]) (t2 ++ t1 ++ t0) [], [])
        else (.header [kind, l1, l0, t2, t1, t0, check], [.headerError]) := by
  have hlast : receive (.header []) [kind, l1, l0, t2, t1, t0, check]
      = (((Receiver.header [kind, l1, l0, t2, t1, t0]).take check).1,
        ((Receiver.header [kind, l1, l0, t2, t1, t0]).take check).2.toList) := rfl
  have htake : (Receiver.header [kind, l1, l0, t2, t1, t0]).take check
      = if headerGood [kind, l1, l0, t2, t1, t0, check] then
          (.payload kind (ofBytes [l1, l0]) (t2 ++ t1 ++ t0) [], none)
        else (.header [kind, l1, l0, t2, t1, t0, check], some .headerError) := rfl
  rw [hlast, htake]
  split <;> rfl

/-- The bytes of a payload and its check complete one command (R164). -/
theorem receive_payload (kind : Byte) (length : Nat) (tag : Tag) (got bs : List Byte)
    (h : got.length + bs.length = length + 2) (hbs : bs ≠ []) : receive (.payload kind length tag got) bs
      = (.hunting none, [decodeFrame kind tag ((got ++ bs).take length) ((got ++ bs).drop length)]) := by
  induction bs generalizing got with
  | nil => exact absurd rfl hbs
  | cons b bs ih =>
    rw [receive_cons]
    by_cases hnil : bs = []
    · subst hnil
      have htake : (Receiver.payload kind length tag got).take b
          = (.hunting none, some (decodeFrame kind tag ((got ++ [b]).take length) ((got ++ [b]).drop length))) :=
        if_neg (by simp at h ⊢; omega)
      rw [htake]; rfl
    · have hpos := List.length_pos_iff.2 hnil
      have htake : (Receiver.payload kind length tag got).take b = (.payload kind length tag (got ++ [b]), none) :=
        if_pos (by simp at h ⊢; omega)
      rw [htake]
      dsimp only
      rw [ih (got ++ [b]) (by simp at h ⊢; omega) hnil, List.append_assoc]
      rfl

/-! Words from their bytes -/

theorem word_of_bytes (w : BitVec 16) : BitVec.ofNat 8 (w.toNat / 256 ^ 1) ++ BitVec.ofNat 8 (w.toNat / 256 ^ 0) = w := by
  refine BitVec.eq_of_toNat_eq ?_
  rw [BitVec.toNat_append, ← Nat.shiftLeft_add_eq_or_of_lt (BitVec.isLt _), Nat.shiftLeft_eq]
  simp only [BitVec.toNat_ofNat]
  have := w.isLt
  omega

theorem tag_of_bytes (w : Tag) : BitVec.ofNat 8 (w.toNat / 256 ^ 2) ++ BitVec.ofNat 8 (w.toNat / 256 ^ 1)
    ++ BitVec.ofNat 8 (w.toNat / 256 ^ 0) = w := by
  refine BitVec.eq_of_toNat_eq ?_
  rw [BitVec.toNat_append, ← Nat.shiftLeft_add_eq_or_of_lt (BitVec.isLt _), Nat.shiftLeft_eq,
    BitVec.toNat_append, ← Nat.shiftLeft_add_eq_or_of_lt (BitVec.isLt _), Nat.shiftLeft_eq]
  simp only [BitVec.toNat_ofNat]
  have := w.isLt
  omega

theorem ofBytes_pair (a b : Byte) : ofBytes [a, b] = a.toNat * 256 + b.toNat := by simp [ofBytes]

theorem headerGood_iff (kind l1 l0 t2 t1 t0 check : Byte) : headerGood [kind, l1, l0, t2, t1, t0, check] = true
    ↔ check = crc8 [kind, l1, l0, t2, t1, t0] ∧ (kind = 0x01#8 ∨ kind = 0x02#8) ∧ l1.toNat * 256 + l0.toNat ≤ 288 := by
  simp only [headerGood, ofBytes_pair, Bool.and_eq_true, Bool.or_eq_true, beq_iff_eq, decide_eq_true_eq, and_assoc]
  exact and_congr_left' eq_comm

/-- A frame with a good header, then its payload and two check bytes: one command, and the receiver hunts (R164). -/
theorem receive_whole {kind l1 l0 t2 t1 t0 check : Byte} {payload : List Byte} {high low : Byte} (before : Option Byte)
    (hgood : headerGood [kind, l1, l0, t2, t1, t0, check] = true) (hlen : payload.length = ofBytes [l1, l0]) :
    receive (.hunting before) ([0xE1#8, 0x9B#8] ++ [kind, l1, l0, t2, t1, t0, check] ++ payload ++ [high, low])
      = (.hunting none, [decodeFrame kind (t2 ++ t1 ++ t0) payload [high, low]]) := by
  rw [List.append_assoc, List.append_assoc, receive_append, receive_sync]
  dsimp only
  rw [receive_append, receive_header, if_pos hgood]
  dsimp only
  rw [receive_payload _ _ _ _ _ (by simp [hlen]) (by simp), List.nil_append, List.take_left' hlen, List.drop_left' hlen]
  rfl

/-- A frame spelled out is received as the command its kind and payload say (R161 to R164). -/
theorem receive_frame {kind : Byte} {payload : List Byte} (before : Option Byte) (tag : Tag)
    (hkind : kind = 0x01#8 ∨ kind = 0x02#8) (hlen : payload.length ≤ 288) :
    receive (.hunting before) (frameBytes kind tag payload)
      = (.hunting none, [if kind = 0x01#8 then .scanFrame tag payload else decodeControl tag payload]) := by
  have hbytes : ofBytes (toBytes 2 payload.length) = payload.length := ofBytes_toBytes_of_lt (by omega)
  have hcrc : ofBytes (toBytes 2 (crc16 payload).toNat) = (crc16 payload).toNat := ofBytes_toBytes_of_lt (crc16 payload).isLt
  have hgood : headerGood (kind :: toBytes 2 payload.length ++ toBytes 3 tag.toNat
      ++ [crc8 (kind :: toBytes 2 payload.length ++ toBytes 3 tag.toNat)]) = true := by
    refine (headerGood_iff ..).2 ⟨rfl, hkind, ?_⟩
    rw [← ofBytes_pair]
    exact hbytes.le.trans hlen
  have hframe := receive_whole before hgood hbytes.symm (high := BitVec.ofNat 8 ((crc16 payload).toNat / 256 ^ 1))
    (low := BitVec.ofNat 8 ((crc16 payload).toNat / 256 ^ 0))
  rw [tag_of_bytes] at hframe
  exact hframe.trans (congrArg (fun c => (Receiver.hunting none, [c])) (if_neg (not_not.2 hcrc)))

/-- The payload of a well-formed command is read as that command (section 10.4). -/
theorem decodeControl_controlFrame {c : Instr} {f : Tag × List Byte} (hc : c.WellFormed = true)
    (hf : controlFrame c = some f) : decodeControl f.1 f.2 = c ∧ f.2.length ≤ 288 := by
  cases c with
  | unknownCommand tag payload =>
    cases hf
    simp only [Instr.WellFormed, Bool.and_eq_true, decide_eq_true_eq, Bool.not_eq_true'] at hc
    exact ⟨if_neg (by rw [hc.2]; decide), hc.1⟩
  | rollStart tag line tempo mode =>
    cases hf
    refine ⟨?_, by simp [length_toBytes]⟩
    exact congrArg₂ (fun l t => Instr.rollStart tag l t mode) (tag_of_bytes line) (word_of_bytes tempo)
  | rollStop tag => cases hf; exact ⟨rfl, by simp⟩
  | pause tag => cases hf; exact ⟨rfl, by simp⟩
  | tableWrite tag table start count entries =>
    cases hf
    simp only [Instr.WellFormed, Bool.and_eq_true, decide_eq_true_eq] at hc
    refine ⟨(if_pos hc.2).trans rfl, ?_⟩
    simp; omega
  | tableRead tag table start count => cases hf; exact ⟨rfl, by simp⟩
  | resume tag => cases hf; exact ⟨rfl, by simp⟩
  | tempo tag line tempo =>
    cases hf
    refine ⟨?_, by simp [length_toBytes]⟩
    exact congrArg₂ (fun l t => Instr.tempo tag l t) (tag_of_bytes line) (word_of_bytes tempo)
  | statusQuery tag => cases hf; exact ⟨rfl, by simp⟩
  | countersRead tag => cases hf; exact ⟨rfl, by simp⟩
  | faultClear tag mask =>
    cases hf
    exact ⟨congrArg (Instr.faultClear tag) (word_of_bytes mask), by simp [length_toBytes]⟩
  | keyTest tag key velocity =>
    cases hf
    exact ⟨congrArg (Instr.keyTest tag key) (word_of_bytes velocity), by simp [length_toBytes]⟩
  | storeSave tag region => cases hf; exact ⟨rfl, by simp⟩
  | storeProtect tag mask => cases hf; exact ⟨rfl, by simp⟩
  | storeUnprotect tag mask => cases hf; exact ⟨rfl, by simp⟩
  | storeLock tag value => cases hf; exact ⟨rfl, by simp⟩
  | storeLockdown tag region confirm => cases hf; exact ⟨rfl, by simp⟩
  | linkReset tag => cases hf; exact ⟨rfl, by simp⟩
  | _ => cases hf

/-- Settles O10: `receive_frame` and `decodeControl_controlFrame` for the frames, `receive_header` and `receive_whole`
for the failed checks. -/
theorem receiverReadsEveryFrame : Obligations.ReceiverReadsEveryFrame := by
  refine ⟨fun c bytes before hc hbytes => ?_, fun kind l1 l0 t2 t1 t0 check before => ?_, fun before b hb => ?_⟩
  · by_cases hscan : ∃ line payload, c = .scanFrame line payload
    · obtain ⟨line, payload, rfl⟩ := hscan
      cases hbytes
      exact receive_frame before line (.inl rfl) (of_decide_eq_true hc)
    · have hcontrol : frameOf c = (controlFrame c).map fun f => frameBytes 0x02#8 f.1 f.2 := by
        unfold frameOf
        split
        · exact absurd ⟨_, _, rfl⟩ hscan
        · rfl
      obtain ⟨f, hf, rfl⟩ := Option.map_eq_some_iff.1 (hcontrol.symm.trans hbytes)
      obtain ⟨hdecode, hlen⟩ := decodeControl_controlFrame hc hf
      rw [receive_frame before f.1 (.inr rfl) hlen, if_neg (by decide), hdecode]
  · intro header good
    have hgood : headerGood header = true ↔ good := headerGood_iff ..
    have hheader := receive_header kind l1 l0 t2 t1 t0 check
    refine ⟨fun hbad => ?_, fun h => ⟨?_, fun payload high low hlen hcheck => ?_⟩⟩
    · rw [receive_append, receive_sync]
      exact hheader.trans (if_neg (hgood.not.2 hbad))
    · rw [receive_append, receive_sync]
      exact (congrArg Prod.snd hheader).trans (congrArg Prod.snd (if_pos (hgood.2 h)))
    · rw [receive_whole before (hgood.2 h) (hlen.trans (ofBytes_pair l1 l0).symm)]
      have herror : decodeFrame kind (t2 ++ t1 ++ t0) payload [high, low] = .payloadError :=
        if_pos (by rw [ofBytes_pair]; exact hcheck)
      rw [herror]
  · show (((Receiver.hunting before).take b).1, [] ++ ((Receiver.hunting before).take b).2.toList) = _
    rw [show (Receiver.hunting before).take b = (.hunting (some b), none) from if_neg hb]
    rfl

end Sys2Proof.Machine
end

section
/-! PROOFS. Commands refused (O13), and the roll commands taken: the hold reasons (O16), the tempo (O18), the start (O14). -/

namespace Sys2Proof.Machine

open Sys2Proof.Safety

variable {s t u : State}

/-! Refusals -/

theorem regionOfByte_of_lt {b : Byte} {r : Region} (h : b.toNat = r.val) : regionOfByte b = some r := by
  have hlt : b.toNat < 8 := h ▸ r.isLt
  rw [regionOfByte, dif_pos hlt]
  exact congrArg some (Fin.ext h)

theorem regionOfByte_of_le {b : Byte} (h : 8 ≤ b.toNat) : regionOfByte b = none := dif_neg (Nat.not_lt.2 h)

theorem keyOfNumber_number (k : Key) : keyOfNumber k.number = some k := by
  have hk : 1 ≤ k.number ∧ k.number ≤ 88 := ⟨Nat.succ_le_succ (Nat.zero_le _), k.isLt⟩
  rw [keyOfNumber, dif_pos hk]
  rfl

theorem keyOfNumber_none {n : Nat} (h : n = 0 ∨ 88 < n) : keyOfNumber n = none := dif_neg (by omega)

theorem mapOfCode_of_le {n : Nat} (h : 4 ≤ n) : mapOfCode n = none := dif_neg (Nat.not_lt.2 h)

/-- How STORE SAVE of a region is judged (R182). -/
theorem judgeStoreSave_region (s : State) (tag : Tag) {b : Byte} {r : Region} (h : b.toNat = r.val) :
    judgeStoreSave tag b s = if s.store.op.isSome then refuse .busy
      else if (s.region r).lockdown then refuse .lockedDown
      else if (s.region r).protectedFlag then refuse .isProtected
      else ⟨none, [], fun t => t.startOp (.save (t.tables.image r)) r tag Config.saveTime⟩ := by
  rw [judgeStoreSave, regionOfByte_of_lt h]

/-- How a confirmed STORE LOCKDOWN of a region is judged (R184). -/
theorem judgeStoreLockdown_region (s : State) (tag : Tag) {b : Byte} {r : Region} (h : b.toNat = r.val) :
    judgeStoreLockdown tag b 0xA5#8 s = if s.store.op.isSome then refuse .busy
      else if s.store.lock then refuse .locked
      else if (s.region r).lockdown then refuse .lockedDown
      else ⟨none, [], fun t => t.startOp .lockdown r tag Config.lockdownTime⟩ := by
  rw [judgeStoreLockdown, regionOfByte_of_lt h]
  exact if_neg (by decide)

/-- Settles O13: each command's judgement answers the refusal, and a refused command only replies. -/
theorem refusalsOnlyReply : Obligations.RefusalsOnlyReply := by
  intro s tag line tempo velocity mask16 mode key region mask value confirm payload hp hq answers
  have refuses {c : Instr} {code : Byte} {judge : State → Verdict} {r : ResultCode}
      (he : exec c s = .next (s.control tag code judge)) (hj : judge s.validFrame = refuse r) : answers c code r :=
    he.trans (congrArg _ (control_refuse s tag code judge r hq hj))
  have hactive : s.validFrame.rollActive = s.rollActive := rfl
  have hbusy (r : Region) (h : region.toNat = r.val) := regionOfByte_of_lt h
  refine ⟨refuses (exec_unknownCommand hp tag payload) rfl, fun hroll => ?_, fun hroll => ?_, fun hroll => ?_, fun hop => ?_,
    fun hmask => ?_, fun hregion => ?_, fun hconfirm => ?_, fun r hr => ?_, fun hlock => ?_, fun hvalue => ?_, fun hpin => ?_⟩
  · have hrun : s.validFrame.rollActive = true := bne_iff_ne.2 hroll
    exact ⟨refuses (exec_rollStart hp ..) (if_pos hrun), refuses (exec_keyTest hp ..) (if_pos hrun)⟩
  · have hrun : ¬s.validFrame.rollActive = true := fun h => bne_iff_ne.1 h hroll
    refine ⟨refuses (exec_rollStop hp tag) (if_neg hrun), refuses (exec_tempo hp ..) (judgeTempo_noRoll hroll line tempo),
      fun hauto hmode => ?_, fun hkey => ?_, fun k hk hbusy => ?_⟩
    · have hnone : mapModeOfByte mode = none := by rw [mapModeOfByte, if_neg hauto, mapOfCode_of_le hmode]; rfl
      exact refuses (exec_rollStart hp ..) (by rw [judgeRollStart, if_neg hrun, hnone])
    · exact refuses (exec_keyTest hp ..) (by rw [judgeKeyTest, if_neg hrun, keyOfNumber_none hkey])
    · have hstate : (s.validFrame.key k).state ≠ .idle := hbusy
      refine refuses (exec_keyTest hp ..) ?_
      rw [judgeKeyTest, if_neg hrun, hk, keyOfNumber_number]
      exact if_pos hstate
  · have hclock : ¬s.validFrame.clocked = true := by
      show ¬s.clocked = true
      rcases hroll with h | h <;> simp [State.clocked, h]
    exact refuses (exec_pause hp tag) (if_neg hclock)
  · have hno : ¬s.validFrame.roll.operator = true := (Bool.not_eq_true _).mpr hop
    exact refuses (exec_resume hp tag) (if_neg hno)
  · exact refuses (exec_faultClear hp tag mask16) (if_pos hmask)
  · exact ⟨refuses (exec_storeSave hp tag region) (by rw [judgeStoreSave, regionOfByte_of_le hregion]),
      refuses (exec_storeLockdown hp tag region confirm) (by rw [judgeStoreLockdown, regionOfByte_of_le hregion])⟩
  · refine refuses (exec_storeLockdown hp tag region confirm) ?_
    unfold judgeStoreLockdown
    split
    · rfl
    · exact if_pos hconfirm
  · have hsave := judgeStoreSave_region s.validFrame tag hr
    have hdown := judgeStoreLockdown_region s.validFrame tag hr
    refine ⟨fun hop => ⟨refuses (exec_storeSave hp tag region) (hsave.trans (if_pos hop)),
      refuses (exec_storeLockdown hp ..) (hdown.trans (if_pos hop))⟩, fun hop hlocked => ?_, fun hop hfree hprot => ?_,
      fun hop hlock => ?_, fun hop hfree hlocked => ?_⟩
    all_goals have hop' : ¬s.validFrame.store.op.isSome = true := by rw [show s.validFrame.store.op = none from hop]; decide
    · exact refuses (exec_storeSave hp tag region) (hsave.trans ((if_neg hop').trans (if_pos hlocked)))
    · have hfree' : ¬(s.validFrame.region r).lockdown = true := (Bool.not_eq_true _).mpr hfree
      exact refuses (exec_storeSave hp tag region)
        (hsave.trans ((if_neg hop').trans ((if_neg hfree').trans (if_pos hprot))))
    · exact refuses (exec_storeLockdown hp ..) (hdown.trans ((if_neg hop').trans (if_pos hlock)))
    · have hfree' : ¬s.validFrame.store.lock = true := (Bool.not_eq_true _).mpr hfree
      exact refuses (exec_storeLockdown hp ..)
        (hdown.trans ((if_neg hop').trans ((if_neg hfree').trans (if_pos hlocked))))
  · have hlk : s.validFrame.store.lock = true := hlock
    exact ⟨refuses (exec_storeProtect hp tag mask) (if_pos hlk), refuses (exec_storeUnprotect hp tag mask) (if_pos hlk)⟩
  · have h1 : value ≠ 0x01#8 := by rintro rfl; exact absurd hvalue (by decide)
    have h0 : value ≠ 0x00#8 := by rintro rfl; exact absurd hvalue (by decide)
    exact refuses (exec_storeLock hp tag value) ((if_neg h1).trans (if_neg h0))
  · have hpin' : s.validFrame.setupLock = true := hpin
    exact refuses (exec_storeLock hp tag 0x00#8) ((if_neg (by decide)).trans ((if_pos rfl).trans (if_pos hpin')))

/-! Hold reasons -/

theorem startWatches_eq (s : State) : s.startWatches = { s with keys := s.startWatches.keys } := by
  unfold State.startWatches State.mapKeys
  rfl

theorem dropWatches_eq (s : State) : s.dropWatches = { s with keys := s.dropWatches.keys } := by
  unfold State.dropWatches State.mapKeys
  rfl

theorem watchesStarted_startWatches (s : State) : WatchesStarted s s.startWatches := by
  intro k
  rw [State.startWatches, State.key_mapKeys]
  by_cases hstate : (s.key k).state = .kick ∨ (s.key k).state = .hold
  · rw [if_pos hstate]
    cases hw : (s.key k).holdWatch with
    | none => rw [if_pos ⟨hstate, nofun⟩]
    | some w =>
      cases he : w.expired
      · rw [if_pos ⟨hstate, by simp [he]⟩]; simp [he]
      · rw [if_neg fun h => h.2 (by simp [he])]; simp [he]
  · rw [if_neg hstate, if_neg fun h => hstate h.1]

theorem watchesRemoved_dropWatches (s : State) : WatchesRemoved s s.dropWatches := by
  intro k
  rw [State.dropWatches, State.key_mapKeys]
  cases hw : (s.key k).holdWatch with
  | none => exact (congrArg (fun w => { s.key k with holdWatch := w }) hw)
  | some w =>
    cases he : w.expired
    · rw [if_neg (by simp [he])]; simp [he]
    · rw [if_pos (by simp [he])]; simp [he]

/-- The state with its hold reasons set, and nothing else (R55). -/
def State.holds (s : State) (op st : Bool) : State := { s with roll := { s.roll with operator := op, starved := st } }

/-- Hold reasons that stop the clock no more and no less than before move no watch. -/
theorem changeHolds_stays {op st : Bool} (h : (op || st) = (s.roll.operator || s.roll.starved)) :
    s.changeHolds op st = s.holds op st := by
  unfold State.changeHolds
  rw [h]
  cases s.roll.operator || s.roll.starved <;> rfl

theorem changeHolds_stops {op st : Bool} (ho : s.roll.operator = false) (hs : s.roll.starved = false)
    (h : (op || st) = true) : s.changeHolds op st = (s.holds op st).startWatches := by
  unfold State.changeHolds
  rw [ho, hs, h]
  rfl

theorem changeHolds_starts (h : (s.roll.operator || s.roll.starved) = true) :
    s.changeHolds false false = (s.holds false false).dropWatches := by
  unfold State.changeHolds
  rw [h]
  rfl

theorem setHolds_same {op st : Bool} (ho : op = s.roll.operator) (hs : st = s.roll.starved) : s.setHolds op st = s :=
  if_pos ⟨ho, hs⟩

/-- Hold reasons that change while the clock stays stopped are reported, and no more (R55). -/
theorem setHolds_stays {op st : Bool} (hne : ¬(op = s.roll.operator ∧ st = s.roll.starved))
    (h : (op || st) = (s.roll.operator || s.roll.starved)) : s.setHolds op st = (s.holds op st).queueState := by
  rw [State.setHolds, if_neg hne, changeHolds_stays h]

/-- Hold reasons that stop a running clock start the watches (R55, R56). -/
theorem setHolds_stops {op st : Bool} (ho : s.roll.operator = false) (hs : s.roll.starved = false)
    (h : (op || st) = true) : WatchesStarted s (s.setHolds op st)
      ∧ s.setHolds op st = { (s.holds op st).queueState with keys := (s.setHolds op st).keys } := by
  have hne : ¬(op = s.roll.operator ∧ st = s.roll.starved) := by
    rw [ho, hs]; rintro ⟨rfl, rfl⟩; cases h
  rw [State.setHolds, if_neg hne, changeHolds_stops ho hs h]
  have hwatches := watchesStarted_startWatches (s.holds op st)
  rw [startWatches_eq] at hwatches ⊢
  generalize (s.holds op st).startWatches.keys = keys at hwatches
  exact ⟨hwatches, rfl⟩

/-- Hold reasons that let a stopped clock run remove the watches (R55, R56). -/
theorem setHolds_starts (h : (s.roll.operator || s.roll.starved) = true) : WatchesRemoved s (s.setHolds false false)
      ∧ s.setHolds false false = { (s.holds false false).queueState with keys := (s.setHolds false false).keys } := by
  have hne : ¬(false = s.roll.operator ∧ false = s.roll.starved) := by
    rintro ⟨ho, hs⟩; rw [← ho, ← hs] at h; cases h
  rw [State.setHolds, if_neg hne, changeHolds_starts h]
  have hwatches := watchesRemoved_dropWatches (s.holds false false)
  rw [dropWatches_eq] at hwatches ⊢
  generalize (s.holds false false).dropWatches.keys = keys at hwatches
  exact ⟨hwatches, rfl⟩

/-- STARVED leaves the hold reasons: the report, and the watches where nothing else holds the clock (R52, R55, R56). -/
theorem setHolds_unstarved (hst : s.roll.starved = true) :
    (s.roll.operator = true → (s.setHolds s.roll.operator false).keys = s.keys)
      ∧ (s.roll.operator = false → WatchesRemoved s (s.setHolds s.roll.operator false))
      ∧ s.setHolds s.roll.operator false = { State.queueState { s with roll := { s.roll with starved := false } } with
          keys := (s.setHolds s.roll.operator false).keys } := by
  cases hop : s.roll.operator with
  | true =>
    rw [setHolds_stays (by simp [hst]) (by simp [hop])]
    exact ⟨fun _ => rfl, nofun, by rw [State.holds, ← hop]⟩
  | false =>
    obtain ⟨hwatches, he⟩ := setHolds_starts (s := s) (by rw [hst]; exact Bool.or_true _)
    exact ⟨nofun, fun _ => hwatches, he.trans (by rw [State.holds, ← hop])⟩

theorem clocked_iff (s : State) : s.clocked = true ↔ s.roll.rollState = .playing ∨ s.roll.rollState = .ending := by
  simp only [State.clocked, Bool.or_eq_true, beq_iff_eq]

/-- Settles O16: PAUSE, RESUME and STARVE_HOLD set the hold reasons, and the watches follow the clock. -/
theorem holdReasonsComeAndGo : Obligations.HoldReasonsComeAndGo := by
  refine ⟨fun s tag hp hq => ?_, fun s hp hplay => ⟨fun hnone hset hreach => ?_, fun a ha hst hgrace => ?_⟩⟩
  · intro p r
    refine ⟨fun hroll => ?_, fun hop => ?_⟩
    · have hpause : exec (.pause tag) s = .next (p.setHolds true p.roll.starved) :=
        (exec_pause hp tag).trans (congrArg _ (control_accept s tag _ _ .done (fun t => t.setHolds true t.roll.starved) hq
          (if_pos ((clocked_iff s.validFrame).2 hroll))))
      have hop : p.roll.operator = s.roll.operator := rfl
      have hst : p.roll.starved = s.roll.starved := rfl
      have hkeys (t : State) (h : WatchesStarted p t) : WatchesStarted s t := h
      clear_value p
      refine ⟨fun ho => ?_, fun ho hs => ?_, fun ho hs => ⟨_, hpause, ?_⟩⟩
      · rw [hpause, setHolds_same (hop.trans ho).symm rfl]
      · rw [hpause, setHolds_stays (by simp [hop, ho]) (by simp [hst, hs])]
        rfl
      · obtain ⟨hwatches, he⟩ := setHolds_stops (op := true) (st := p.roll.starved) (hop.trans ho) (hst.trans hs) rfl
        exact ⟨hkeys _ hwatches, he⟩
    · have hresume : exec (.resume tag) s = .next (r.setHolds false r.roll.starved) :=
        (exec_resume hp tag).trans (congrArg _ (control_accept s tag _ _ .done (fun t => t.setHolds false t.roll.starved) hq
          (if_pos hop)))
      have hro : r.roll.operator = true := hop
      have hst : r.roll.starved = s.roll.starved := rfl
      have hkeys (t : State) (h : WatchesRemoved r t) : WatchesRemoved s t := h
      clear_value r
      refine ⟨fun hs => ?_, fun hs => ⟨_, hresume, ?_⟩⟩
      · rw [hresume, setHolds_stays (by simp [hro]) (by simp [hst, hs])]
        rfl
      · obtain ⟨hwatches, he⟩ := setHolds_starts (s := r) (by rw [hro]; rfl)
        have hrs := hst.trans hs
        rw [hrs]
        refine ⟨hkeys _ hwatches, he.trans ?_⟩
        rw [State.holds, ← hrs]
  · have hd : s.episodeDue = true := by
      simp only [State.episodeDue, State.starving, State.lineSettled, hnone, hplay, hreach]
      simpa using hset
    rw [exec_starveEpisodeStart hp hd]
  · have hd : s.starveHoldDue = true := by
      simp only [State.starveHoldDue, hplay, hst, ha, Option.map_some, passed]
      simpa using hgrace
    refine ⟨_, exec_starveHold hp hd, ?_⟩
    have hcount := counted_bump s .starveHold
    obtain ⟨counters, hbump⟩ : ∃ v, s.bump .starveHold = { s with counters := v } := ⟨_, rfl⟩
    rw [hbump] at hcount ⊢
    cases hop : s.roll.operator with
    | true =>
      rw [setHolds_stays (by simp [hst]) (by simp [hop])]
      exact ⟨hcount, by rw [← hop]; rfl, nofun, fun _ => rfl, rfl, rfl⟩
    | false =>
      obtain ⟨hwatches, he⟩ := setHolds_stops (s := { s with counters := counters }) (op := false) (st := true) hop hst rfl
      generalize State.setHolds { s with counters := counters } false true = t at hwatches he ⊢
      generalize t.keys = keys at he
      subst he
      exact ⟨hcount, by rw [← hop]; rfl, fun _ => hwatches, nofun, rfl, by rw [← hop]; rfl⟩

/-! The tempo -/

/-- Settles O18: the judgement of TEMPO in PLAYING and ENDING, then `checkEpisode` on the schedule it leaves. -/
theorem tempoInPlaying : Obligations.TempoInPlaying := by
  intro s tag line tempo hp hq hroll hplan e t0 next r u closed
  have hjudge : judgeTempo line tempo s.validFrame = judgeTempoPlaying line.toNat tempo.toNat s.validFrame := by
    unfold judgeTempo
    rcases hroll with h | h <;> rw [show s.validFrame.roll.rollState = _ from h]
  have hnext : s.validFrame.schedule e (clampTempo tempo.toNat) = next := by
    rw [clampTempo_eq_max_min]; rfl
  refine ⟨fun hlong => ?_, fun hlen => ?_⟩
  · refine (exec_tempo hp ..).trans (congrArg _ (control_refuse s tag _ _ .busy hq (hjudge.trans ?_)))
    exact if_pos (show 8 < (s.validFrame.schedule e (clampTempo tempo.toNat)).length by rw [hnext]; exact hlong)
  · have he : e = line.toNat ↔ ¬(line.toNat : Int) ≤ s.roll.planLine := by
      show (if (line.toNat : Int) ≤ s.roll.planLine then (s.roll.planLine + 1).toNat else line.toNat) = line.toNat ↔ _
      split <;> omega
    have hcode : (if clampTempo tempo.toNat = tempo.toNat ∧ e = line.toNat then ResultCode.done else .clamped)
        = if (line.toNat : Int) ≤ s.roll.planLine ∨ tempo.toNat < 10 ∨ 300 < tempo.toNat then .clamped else .done := by
      have hkept := clampTempo_eq_self_iff tempo.toNat
      by_cases h : (line.toNat : Int) ≤ s.roll.planLine ∨ tempo.toNat < 10 ∨ 300 < tempo.toNat
      · rw [if_pos h, if_neg (by omega)]
      · rw [if_neg h, if_pos (by omega)]
    have hshort : ¬8 < (s.validFrame.schedule e (clampTempo tempo.toNat)).length := by rw [hnext]; omega
    have htaken : exec (.tempo tag line tempo) s = .next u.checkEpisode := by
      refine (exec_tempo hp ..).trans (congrArg _ (control_accept s tag _ _ _ (fun t => State.checkEpisode
        { t with roll := { t.roll with schedule := next, tempo := (next.headD ⟨0, 0, 0⟩).tempo } }) hq ?_))
      refine hjudge.trans ((if_neg hshort).trans (congrArg₂ accept hcode ?_))
      exact congrArg (fun (l : List Segment) (t : State) => State.checkEpisode
        { t with roll := { t.roll with schedule := l, tempo := (l.headD ⟨0, 0, 0⟩).tempo } }) hnext
    have hstart : u.roll.starveStart = s.roll.starveStart := rfl
    refine ⟨fun hopen => htaken.trans (congrArg _ (if_neg ?_)), fun hopen hnot => ?_⟩
    · rintro h
      simp only [Bool.and_eq_true, Bool.not_eq_true'] at h
      rcases hopen with hnone | hreach
      · rw [hstart, hnone] at h; cases h.1
      · exact Bool.noConfusion (hreach.symm.trans h.2)
    · have hends : u.checkEpisode = closed.setHolds closed.roll.operator false := by
        refine if_pos ?_
        simp only [Bool.and_eq_true, Bool.not_eq_true']
        exact ⟨hopen, hnot⟩
      rw [htaken, hends]
      refine ⟨fun hst => congrArg _ (setHolds_same rfl hst.symm), fun hst => ⟨_, rfl, ?_⟩⟩
      obtain ⟨hkeep, hremove, hform⟩ := setHolds_unstarved (s := closed) hst
      exact ⟨hkeep, hremove, hform⟩

/-! The start of a roll -/

theorem filter_reports (q : List ReturnEntry) :
    (q.filter fun e => !e.isState).filter (fun e => !e.isWindow) = q.filter (·.isReply) := by
  rw [List.filter_filter]
  congr 1
  funext e
  cases e <;> rfl

/-- A STATE and then a WINDOW report leave the replies that wait, and themselves. -/
theorem queue_reports (s : State) (top : Int) : (s.queueState.queueWindow top).link = { s.link with
    reportSeq := s.link.reportSeq + 2
    queue := s.link.queue.filter (·.isReply) ++ [.state (s.link.reportSeq + 1) s.stateBytes,
      .window (s.link.reportSeq + 2) (lineBytes (min top Config.lastLine) ++ lineBytes s.roll.planLine)] } := by
  have hseq : s.link.reportSeq + 1 + 1 = s.link.reportSeq + 2 := by rw [BitVec.add_assoc]; rfl
  unfold State.queueWindow State.queueState
  dsimp only
  rw [List.filter_append, filter_reports, hseq, List.append_assoc]
  rfl

/-- Entering PLAYING, with its two reports after the replies that wait (R24, R44, R169, R170). -/
theorem enteredPlaying_enterPlaying (s : State) (f : Nat) (m : MapNo) : EnteredPlaying (s.enterPlaying f m) f m
    s.roll.startTempo s.link.reportSeq (s.link.queue.filter (·.isReply)) s.holes.settled := by
  refine ⟨rfl, rfl, rfl, rfl, rfl, rfl, rfl, ?_, ?_⟩
  · exact congrArg Link.reportSeq (queue_reports _ _)
  · exact congrArg Link.queue (queue_reports _ _)

theorem mapModeOfByte_map {mode : Byte} {m : MapNo} (h : mode.toNat = m.val) : mapModeOfByte mode = some (.fixed m) := by
  have hauto : mode ≠ 0x80#8 := by rintro rfl; have := m.isLt; rw [← h] at this; exact absurd this (by decide)
  have hlt : mode.toNat < 4 := h ▸ m.isLt
  rw [mapModeOfByte, if_neg hauto, mapOfCode, dif_pos hlt]
  exact congrArg (fun x => some (MapMode.fixed x)) (Fin.ext h)

/-- ROLL START in NO ROLL: the reply, then the start (R42). -/
theorem exec_rollStart_taken (hp : s.power = .running) (hq : s.replyCount < 14) (hroll : s.roll.rollState = .noRoll)
    (tag line : Tag) (tempo : BitVec 16) {mode : Byte} {m : MapMode} (hmode : mapModeOfByte mode = some m) :
    exec (.rollStart tag line tempo mode) s = .next ((s.validFrame.queueReply tag 0x10#8
      (if 10 ≤ tempo.toNat ∧ tempo.toNat ≤ 300 then .done else .clamped) []).startRoll line.toNat
        (max 10 (min 300 tempo.toNat)) m) := by
  have hrun : ¬s.validFrame.rollActive = true := fun h => bne_iff_ne.1 h hroll
  have hcode : (if clampTempo tempo.toNat = tempo.toNat then ResultCode.done else .clamped)
      = if 10 ≤ tempo.toNat ∧ tempo.toNat ≤ 300 then .done else .clamped :=
    if_congr ((clampTempo_eq_self_iff _).trans (by omega)) rfl rfl
  refine (exec_rollStart hp ..).trans (congrArg _ (control_accept s tag _ _ _
    (fun t => t.startRoll line.toNat (max 10 (min 300 tempo.toNat)) m) hq ?_))
  rw [judgeRollStart, if_neg hrun, hmode, clampTempo_eq_max_min, ← hcode, clampTempo_eq_max_min]

/-- Settles O14: ROLL START sets the records up, then enters LEADER or PLAYING. -/
theorem rollStartSetsUpTheRoll : Obligations.RollStartSetsUpTheRoll := by
  intro s tag line tempo hp hq hroll t0 before setUp
  let x := s.validFrame.queueReply tag 0x10#8 (if 10 ≤ tempo.toNat ∧ tempo.toNat ≤ 300 then .done else .clamped) []
  have hbefore : x.link.queue.filter (·.isReply) = before := by
    show (s.link.queue ++ [ReturnEntry.reply tag _]).filter (·.isReply) = _
    rw [List.filter_append, apply_ite ResultCode.byte]
    rfl
  have henter (set : ColumnSet) (m : MapNo) := enteredPlaying_enterPlaying (x.setUpRoll line.toNat t0 set) line.toNat m
  refine ⟨fun mode m hm => ⟨_, exec_rollStart_taken hp hq hroll tag line tempo (mapModeOfByte_map hm), ?_, ?_, ?_⟩, ?_⟩
  · exact ⟨rfl, rfl, rfl, rfl, rfl, rfl, rfl, rfl, rfl, rfl, rfl, rfl, rfl, rfl⟩
  · have := henter (.map m) m
    rw [show (x.setUpRoll line.toNat t0 (.map m)).link = x.link from rfl, hbefore] at this
    exact this
  · show FrontEnd.mk _ (x.tables.columnPlan (.map m)).closed _ _ = _
    simp [ColumnPlan.closed, Tables.columnPlan]
  · have htaken := exec_rollStart_taken hp hq hroll tag line tempo (mode := 0x80#8) (m := .auto) rfl
    have hclosed : (x.tables.columnPlan .code).closed = List.replicate 6 false := by
      simp [ColumnPlan.closed, Tables.columnPlan]
    by_cases hmax : s.tables.format.leaderMax = 0
    · have hstart : x.startRoll line.toNat t0 .auto
          = (x.setUpRoll line.toNat t0 .code).enterPlaying line.toNat s.tables.format.defaultSet := if_pos hmax
      have hentered := henter .code s.tables.format.defaultSet
      rw [show (x.setUpRoll line.toNat t0 .code).link = x.link from rfl, hbefore] at hentered
      exact ⟨_, htaken.trans (congrArg _ hstart),
        ⟨rfl, rfl, rfl, rfl, rfl, rfl, rfl, rfl, rfl, rfl, rfl, rfl, rfl, rfl⟩,
        congrArg (fun l => FrontEnd.mk _ l _ _) hclosed, fun _ => hentered, fun h => absurd hmax h⟩
    · have hstart : x.startRoll line.toNat t0 .auto
          = (State.queueState { x.setUpRoll line.toNat t0 .code with
              roll := { (x.setUpRoll line.toNat t0 .code).roll with rollState := .leader } }).queueWindow
              ((line.toNat : Int) + 2047) := if_neg hmax
      refine ⟨_, htaken.trans (congrArg _ hstart),
        ⟨rfl, rfl, rfl, rfl, rfl, rfl, rfl, rfl, rfl, rfl, rfl, rfl, rfl, rfl⟩,
        congrArg (fun l => FrontEnd.mk _ l _ _) hclosed, fun h => absurd h hmax,
        fun _ => ⟨rfl, rfl, rfl, rfl, rfl, rfl, rfl, rfl, ?_, ?_⟩⟩
      · exact congrArg Link.reportSeq (queue_reports _ _)
      · rw [← hbefore]
        exact congrArg Link.queue (queue_reports _ _)

end Sys2Proof.Machine
end

section
/-! PROOFS. The arithmetic of the paper: registration (O25), pixels, edges and columns (O26), due times (O19). -/

namespace Sys2Proof.Machine

open Sys2Proof.Safety

/-! Registration -/

theorem clampInt_eq {lo hi : Int} (h : lo ≤ hi) (x : Int) : clampInt lo hi x = max lo (min hi x) := by
  unfold clampInt
  split
  case isTrue hlow => omega
  case isFalse hlow => split <;> omega

theorem clampInt_ne_iff {lo hi x : Int} (h : lo ≤ hi) : clampInt lo hi x ≠ x ↔ x < lo ∨ hi < x := by
  rw [clampInt_eq h]
  omega

/-- The share of a column is its exact share rounded half up (R16). -/
theorem place_bounds (t : Transform) {nl nr : Nat} (h : nl < nr) (c : Nat) :
    2 * ((nr : Int) - nl) * (t.place nl nr c - t.lc) ≤ 2 * ((c : Int) - nl) * t.wc + ((nr : Int) - nl)
      ∧ 2 * ((c : Int) - nl) * t.wc + ((nr : Int) - nl) < 2 * ((nr : Int) - nl) * (t.place nl nr c - t.lc + 1) := by
  have hpos : 0 < 2 * ((nr : Int) - nl) := by omega
  have hshare : t.place nl nr c - t.lc = (2 * ((c : Int) - nl) * t.wc + ((nr : Int) - nl)) / (2 * ((nr : Int) - nl)) :=
    add_sub_cancel_left _ _
  rw [hshare]
  exact ⟨Int.mul_ediv_self_le hpos.ne', Int.lt_mul_ediv_self_add hpos |>.trans_eq (by ring)⟩

theorem place_left (t : Transform) {nl nr : Nat} (h : nl < nr) : t.place nl nr nl = t.lc := by
  unfold Transform.place
  dsimp only
  rw [Int.sub_self, Int.mul_zero, Int.zero_mul, Int.zero_add, Int.ediv_eq_zero_of_lt (by omega) (by omega), Int.add_zero]

theorem place_right (t : Transform) {nl nr : Nat} (h : nl < nr) : t.place nl nr nr = t.lc + t.wc := by
  have hpos : 0 < 2 * ((nr : Int) - nl) := by omega
  unfold Transform.place
  dsimp only
  rw [Int.add_comm (2 * _ * _), Int.add_mul_ediv_left _ _ hpos.ne', Int.ediv_eq_zero_of_lt (by omega) (by omega), Int.zero_add]

/-- Settles O25, by the two clamps of the transform and the rounding of `place`. -/
theorem registrationKeepsItsClamps : Obligations.RegistrationKeepsItsClamps := by
  intro nl nr maxShift widthTol edges hnl tr nw lavg ravg
  have hlt : nl < nr := by omega
  have htol : 0 ≤ nw * widthTol / 1000 := Int.ediv_nonneg (Int.mul_nonneg (by omega) (by omega)) (by omega)
  refine ⟨fun hnil => ?_, fun hne => ?_, place_bounds tr hlt, place_left tr hlt, place_right tr hlt⟩
  · have htr : tr = ⟨nl, nw, false, false⟩ := by
      show registration nl nr maxShift widthTol edges = _
      rw [hnil]; rfl
    rw [htr]
    exact ⟨rfl, rfl, rfl, rfl⟩
  · have hmean (f : Nat × Nat → Nat) : meanHalfUp (edges.map f)
        = (2 * (edges.map f).sum + edges.length) / (2 * edges.length) := by rw [meanHalfUp, List.length_map]
    have htr : tr = ⟨clampInt (nl - maxShift) (nl + maxShift) lavg,
        clampInt (nw - nw * widthTol / 1000) (nw + nw * widthTol / 1000) (ravg - lavg),
        decide (clampInt (nl - maxShift) (nl + maxShift) lavg ≠ lavg),
        decide (clampInt (nw - nw * widthTol / 1000) (nw + nw * widthTol / 1000) (ravg - lavg) ≠ ravg - lavg)⟩ := by
      show registration nl nr maxShift widthTol edges = _
      rw [registration, if_neg (by simpa using hne), hmean, hmean]
    rw [htr]
    refine ⟨clampInt_eq (by omega) _, clampInt_eq (by omega) _, ?_, ?_⟩
    · rw [decide_eq_true_iff, clampInt_ne_iff (by omega)]; omega
    · rw [decide_eq_true_iff, clampInt_ne_iff (by omega)]; omega

/-! Pixels, edges, columns -/

theorem length_pixelsOf (payload : List Byte) : (pixelsOf payload).length = 2 * payload.length := by
  induction payload with
  | nil => rfl
  | cons b bs ih =>
    show (pixelsOf bs).length + 1 + 1 = _
    rw [ih, List.length_cons]; omega

theorem pixelsOf_getElem? {payload : List Byte} {j : Nat} {b : Byte} (h : payload[j]? = some b) :
    (pixelsOf payload)[2 * j]? = some (b.toNat / 16) ∧ (pixelsOf payload)[2 * j + 1]? = some (b.toNat % 16) := by
  induction payload generalizing j with
  | nil => simp at h
  | cons x xs ih =>
    cases j with
    | zero => cases h; exact ⟨rfl, rfl⟩
    | succ j => exact ih h

/-- A pixel below the edge threshold (R10). -/
def dark (threshold : Nat) (px : List Nat) (i : Nat) : Prop := ∃ x, px[i]? = some x ∧ x < threshold

theorem findIdx?_dark {threshold l : Nat} {px : List Nat} :
    px.findIdx? (· < threshold) = some l ↔ dark threshold px l ∧ ∀ i, dark threshold px i → l ≤ i := by
  rw [List.findIdx?_eq_some_iff_getElem]
  constructor
  · rintro ⟨hl, hdark, hfirst⟩
    refine ⟨⟨px[l], List.getElem?_eq_getElem hl, of_decide_eq_true hdark⟩, fun i ⟨x, hx, hlow⟩ => ?_⟩
    obtain ⟨hi, rfl⟩ := List.getElem?_eq_some_iff.1 hx
    by_contra hlt
    exact hfirst i (by omega) (decide_eq_true hlow)
  · rintro ⟨⟨x, hx, hlow⟩, hfirst⟩
    obtain ⟨hl, rfl⟩ := List.getElem?_eq_some_iff.1 hx
    refine ⟨hl, decide_eq_true hlow, fun j hj hdark => ?_⟩
    have := hfirst j ⟨_, List.getElem?_eq_getElem (hj.trans hl), of_decide_eq_true hdark⟩
    omega

theorem lt_of_dark {threshold i : Nat} {px : List Nat} (h : dark threshold px i) : i < px.length := by
  obtain ⟨x, hx, -⟩ := h
  exact (List.getElem?_eq_some_iff.1 hx).1

theorem dark_reverse {threshold i : Nat} {px : List Nat} (h : i < px.length) :
    dark threshold px.reverse i ↔ dark threshold px (px.length - 1 - i) := by
  unfold dark
  rw [List.getElem?_reverse h]

theorem findIdx?_reverse_dark {threshold r : Nat} {px : List Nat} (hr : r < px.length) :
    px.reverse.findIdx? (· < threshold) = some (px.length - 1 - r)
      ↔ dark threshold px r ∧ ∀ i, dark threshold px i → i ≤ r := by
  have hback (i : Nat) (hi : i < px.length) : px.length - 1 - (px.length - 1 - i) = i := by omega
  rw [findIdx?_dark, dark_reverse (by omega), hback r hr]
  refine and_congr_right fun _ => ⟨fun h i hi => ?_, fun h i hi => ?_⟩
  · have hlt := lt_of_dark hi
    have := h (px.length - 1 - i) ((dark_reverse (by omega)).2 (by rwa [hback i hlt]))
    omega
  · have hlt := lt_of_dark hi
    rw [List.length_reverse] at hlt
    have := h _ ((dark_reverse hlt).1 hi)
    omega

/-- The edge pair is the lowest and the highest dark pixel, 64 apart (R10). -/
theorem findEdges_iff {threshold l r : Nat} {px : List Nat} : findEdges threshold px = some (l, r)
    ↔ l + 64 ≤ r ∧ dark threshold px l ∧ dark threshold px r ∧ ∀ i, dark threshold px i → l ≤ i ∧ i ≤ r := by
  constructor
  · intro h
    unfold findEdges at h
    split at h
    case h_1 left back hleft hback =>
      split at h
      case isTrue hfar =>
        cases h
        have hlen := (List.findIdx?_eq_some_iff_getElem.1 hback).1
        rw [List.length_reverse] at hlen
        have hr : px.length - 1 - back < px.length := by omega
        have hback' : px.reverse.findIdx? (· < threshold) = some (px.length - 1 - (px.length - 1 - back)) := by
          rw [hback]; congr 1; omega
        obtain ⟨hl, hfirst⟩ := findIdx?_dark.1 hleft
        obtain ⟨hd, hlast⟩ := (findIdx?_reverse_dark hr).1 hback'
        exact ⟨hfar, hl, hd, fun i hi => ⟨hfirst i hi, hlast i hi⟩⟩
      case isFalse => cases h
    case h_2 => cases h
  · rintro ⟨hfar, hl, hr, hall⟩
    have hlt := lt_of_dark hr
    have hleft := findIdx?_dark.2 ⟨hl, fun i hi => (hall i hi).1⟩
    have hright := (findIdx?_reverse_dark hlt).2 ⟨hr, fun i hi => (hall i hi).2⟩
    have hback : px.length - 1 - (px.length - 1 - r) = r := by omega
    unfold findEdges
    rw [hleft, hright]
    simp only [hback, if_pos hfar]

theorem pixelBright_iff {px : List Nat} {threshold : Nat} {i : Int} :
    pixelBright px threshold i = true ↔ ∃ j x : Nat, (j : Int) = i ∧ px[j]? = some x ∧ threshold ≤ x := by
  unfold pixelBright
  by_cases hi : 0 ≤ i
  · obtain ⟨j, rfl⟩ := Int.eq_ofNat_of_zero_le hi
    rw [if_pos hi, Int.toNat_natCast]
    constructor
    · intro h
      split at h
      case h_1 x hx => exact ⟨j, x, rfl, hx, of_decide_eq_true h⟩
      case h_2 => cases h
    · rintro ⟨j', x, hj, hx, hle⟩
      cases Int.ofNat_inj.1 hj
      rw [hx]
      exact decide_eq_true hle
  · rw [if_neg hi]
    refine ⟨nofun, ?_⟩
    rintro ⟨j, x, rfl, -⟩
    exact absurd (Int.natCast_nonneg j) hi

theorem countP_range (w : Nat) (p : Nat → Bool) : (List.range w).countP p = {j : Nat | j < w ∧ p j = true}.ncard := by
  have hset : {j : Nat | j < w ∧ p j = true} = ↑((Finset.range w).filter fun j => p j = true) := by
    ext j; simp
  rw [hset, Set.ncard_coe_finset, List.countP_eq_length_filter, Finset.card_def, Finset.filter_val, Finset.range_val,
    Multiset.range, Multiset.filter_coe, Multiset.coe_card]
  simp only [Bool.decide_eq_true]

/-- Settles O26, by the four descriptions above. -/
theorem pixelsEdgesAndColumns : Obligations.PixelsEdgesAndColumns := by
  refine ⟨fun payload j b hb => ?_, fun threshold px l r => findEdges_iff, fun edges pair => ⟨fun h => ?_, fun h => ?_⟩,
    fun px threshold w pos => ?_⟩
  · obtain ⟨hhigh, hlow⟩ := pixelsOf_getElem? hb
    exact ⟨hhigh, hlow, length_pixelsOf payload⟩
  · rw [appendEdge, show edges.length + 1 - 8 = 0 by omega, List.drop_zero]
  · rw [appendEdge, h, List.drop_append_of_le_length (by omega)]
  · intro bright
    have hbright (j : Nat) : pixelBright px threshold (pos - ((w - 1) / 2 : Nat) + j) = true ↔ bright j := pixelBright_iff
    rw [columnOpen, decide_eq_true_iff, countP_range]
    simp only [hbright]

/-! Due times -/

/-- No segment of later origin takes a line over. -/
theorem foldl_governing_stays {l : List Segment} {n : Nat} (g : Segment) (h : ∀ x ∈ l, n < x.origin) :
    l.foldl (fun a b => if b.origin ≤ n then b else a) g = g := by
  induction l with
  | nil => rfl
  | cons x xs ih =>
    rw [List.foldl_cons, if_neg (Nat.not_le.2 (h x (by simp)))]
    exact ih fun y hy => h y (List.mem_cons_of_mem _ hy)

/-- The governing segment is the one of the last origin at or before the line (R45). -/
theorem governing_eq {l : List Segment} {g : Segment} {n : Nat} (hs : l.Pairwise fun a b => a.origin < b.origin)
    (hg : g ∈ l) (hn : g.origin ≤ n) (hlast : ∀ h ∈ l, g.origin < h.origin → n < h.origin) : governing l n = g := by
  unfold governing
  generalize l.headD ⟨0, 0, 0⟩ = d
  induction l generalizing d with
  | nil => cases hg
  | cons x xs ih =>
    obtain ⟨hx, hxs⟩ := List.pairwise_cons.1 hs
    rw [List.foldl_cons]
    rcases List.mem_cons.1 hg with rfl | hmem
    · rw [if_pos hn]
      exact foldl_governing_stays g fun y hy => hlast y (List.mem_cons_of_mem _ hy) (hx y hy)
    · exact ih hxs hmem (fun h hh => hlast h (List.mem_cons_of_mem _ hh)) _

/-- Adding 2c under a divisor of 2k adds c / k, or one more. -/
theorem add_two_mul_div (a c : Nat) {k : Nat} (hk : 0 < k) :
    a / (2 * k) + c / k ≤ (a + 2 * c) / (2 * k) ∧ (a + 2 * c) / (2 * k) ≤ a / (2 * k) + c / k + 1 := by
  have hmod := Nat.mod_lt c hk
  have hsum : a + 2 * c = a + 2 * (c % k) + 2 * k * (c / k) := by
    have := Nat.div_add_mod c k
    linarith
  rw [hsum, Nat.add_mul_div_left _ _ (by omega : 0 < 2 * k)]
  have hlow : a / (2 * k) ≤ (a + 2 * (c % k)) / (2 * k) := Nat.div_le_div_right (by omega)
  have hhigh : (a + 2 * (c % k)) / (2 * k) ≤ a / (2 * k) + 1 := by
    rw [← Nat.add_div_right a (by omega : 0 < 2 * k)]
    exact Nat.div_le_div_right (by omega)
  omega

/-- One line more moves the rounded offset by the exact spacing rounded down, or one more (R46). -/
theorem lineOffset_succ {lpi tempo : Nat} (hk : 0 < tempo * lpi) (n : Nat) :
    lineOffset lpi tempo n + 50000000 / (tempo * lpi) ≤ lineOffset lpi tempo (n + 1)
      ∧ lineOffset lpi tempo (n + 1) ≤ lineOffset lpi tempo n + 50000000 / (tempo * lpi) + 1 := by
  have hsum : (n + 1) * 100000000 + tempo * lpi = n * 100000000 + tempo * lpi + 2 * 50000000 := by
    rw [Nat.succ_mul, Nat.add_right_comm]
  unfold lineOffset
  rw [hsum, Nat.mul_assoc 2]
  exact add_two_mul_div _ _ hk

/-- Settles O19: `governing_eq` for the segment, `lineOffset_succ` for the steps. -/
theorem dueTimesAdvance : Obligations.DueTimesAdvance := by
  refine ⟨fun s g n hs hg hn hlast => ?_, fun lpi tempo n hl hl' ht ht' => ?_⟩
  · intro lpi rounded
    have hgov := governing_eq hs hg hn hlast
    refine ⟨?_, ?_⟩
    · rw [State.due, hgov]; rfl
    · rw [State.period, hgov]
      show linePeriod lpi g.tempo = (1 * 100000000 + g.tempo * lpi) / _
      rw [Nat.one_mul]; rfl
  · intro step
    have hk : 500 ≤ tempo * lpi ∧ tempo * lpi ≤ 120000 :=
      ⟨Nat.mul_le_mul ht hl, Nat.mul_le_mul ht' hl'⟩
    have hpos : 0 < tempo * lpi := by omega
    have hlow := (lineOffset_succ hpos n).1
    have hhigh := (lineOffset_succ hpos n).2
    have hspacing : 416 ≤ 50000000 / (tempo * lpi) := (Nat.le_div_iff_mul_le (by omega)).2 (by omega)
    have hperiod : linePeriod lpi tempo = lineOffset lpi tempo 1 - lineOffset lpi tempo 0 := by
      have hzero : lineOffset lpi tempo 0 = 0 := by
        unfold lineOffset
        rw [Nat.zero_mul, Nat.zero_add, Nat.mul_assoc]
        exact Nat.div_eq_of_lt (by omega)
      rw [hzero, lineOffset, Nat.one_mul]; rfl
    have hshort : 417 ≤ linePeriod lpi tempo := by
      unfold linePeriod
      rw [Nat.mul_assoc]
      exact (Nat.le_div_iff_mul_le (by omega)).2 (by omega)
    have hlong : linePeriod lpi tempo ≤ 100000 := by
      unfold linePeriod
      rw [Nat.mul_assoc]
      exact Nat.lt_succ_iff.1 ((Nat.div_lt_iff_lt_mul (by omega)).2 (by omega))
    refine ⟨?_, ?_, ?_, ?_, hperiod, hshort, hlong⟩
    all_goals omega

end Sys2Proof.Machine
end

section
/-! PROOFS. TABLE READ (O46), TABLE WRITE refused (O48), and the settings store's commands (O49). -/

namespace Sys2Proof.Machine

open Sys2Proof.Safety

variable {s t u : State}

/-! TABLE READ -/

theorem length_joinFields_le (ws vs : List Nat) : (joinFields ws vs).length ≤ ws.sum := by
  induction ws generalizing vs with
  | nil => simp [joinFields]
  | cons w ws ih =>
    cases vs with
    | nil => simp [joinFields]
    | cons v vs =>
      have htail := ih vs
      rw [joinFields] at htail ⊢
      rw [List.zipWith_cons_cons, List.flatten_cons, List.length_append, length_toBytes, List.sum_cons]
      omega

/-- No entry of a table is longer than 33 bytes (R176). -/
theorem length_readEntry_le (w : Tables) (n : TableName) (i : Nat) : (w.readEntry n i).length ≤ 33 := by
  have join {ws vs : List Nat} (h : ws.sum ≤ 33) : (joinFields ws vs).length ≤ 33 := (length_joinFields_le ws vs).trans h
  cases n with
  | map m =>
    show (MapSet.readEntry _ i).length ≤ 33
    unfold MapSet.readEntry
    split
    · exact join (by decide)
    · split
      · exact join (by decide)
      · exact Nat.zero_le _
  | format =>
    show (Format.readEntry _ i).length ≤ 33
    unfold Format.readEntry
    split
    · exact join (by decide)
    · split
      · exact Nat.le_add_left 1 32
      · exact Nat.zero_le _
  | expr half => exact join (by decide)
  | velocity =>
    unfold Tables.readEntry
    dsimp only
    split
    · rw [length_toBytes]; decide
    · exact Nat.zero_le _
  | keys =>
    unfold Tables.readEntry
    dsimp only
    split
    · exact join (by decide)
    · exact Nat.zero_le _
  | pedals =>
    unfold Tables.readEntry
    dsimp only
    split
    · exact join (by decide)
    · exact Nat.zero_le _
  | settings => exact join (by decide)

/-- The entries of a table from an index on. -/
def entriesFrom (w : Tables) (n : TableName) (i c : Nat) : List (List Byte) :=
  (List.range c).map fun j => w.readEntry n (i + j)

theorem entriesFrom_succ (w : Tables) (n : TableName) (i c : Nat) :
    entriesFrom w n i (c + 1) = w.readEntry n i :: entriesFrom w n (i + 1) c := by
  unfold entriesFrom
  rw [List.range_succ_eq_map, List.map_cons, List.map_map]
  congr 2
  funext j
  exact congrArg (w.readEntry n) (show i + (j + 1) = i + 1 + j by omega)

/-- What a TABLE READ returns is the longest run that the count, the table and the room allow (R180). -/
theorem readRun_longest (w : Tables) (n : TableName) (i count room : Nat) :
    ∃ c, w.readRun n i count room = entriesFrom w n i c ∧ c ≤ count ∧ (c ≠ 0 → i + c ≤ n.indices.2 + 1)
      ∧ (entriesFrom w n i c).flatten.length ≤ room
      ∧ (c < count → i + c ≤ n.indices.2 → room < (entriesFrom w n i (c + 1)).flatten.length) := by
  induction count generalizing i room with
  | zero => exact ⟨0, rfl, Nat.le_refl _, fun h => absurd rfl h, Nat.zero_le _, fun h => absurd h (Nat.lt_irrefl _)⟩
  | succ count ih =>
    unfold Tables.readRun
    dsimp only
    by_cases hend : n.indices.2 < i ∨ room < (w.readEntry n i).length
    · rw [if_pos hend]
      refine ⟨0, rfl, Nat.zero_le _, fun h => absurd rfl h, Nat.zero_le _, fun _ hi => ?_⟩
      have hroom : room < (w.readEntry n i).length := hend.resolve_left (by omega)
      rw [entriesFrom_succ, List.flatten_cons, List.length_append]
      omega
    · rw [if_neg hend]
      rw [not_or, Nat.not_lt, Nat.not_lt] at hend
      obtain ⟨c, hrun, hcount, hlast, hlen, hlong⟩ := ih (i + 1) (room - (w.readEntry n i).length)
      refine ⟨c + 1, by rw [hrun, entriesFrom_succ], by omega, fun _ => ?_, ?_, fun hlt hi => ?_⟩
      · by_cases hc : c = 0
        · omega
        · have := hlast hc; omega
      · rw [entriesFrom_succ, List.flatten_cons, List.length_append]; omega
      · have := hlong (by omega) (by omega)
        rw [entriesFrom_succ, List.flatten_cons, List.length_append]
        omega

/-- Settles O46: the refusals by the judgement, the run by `readRun_longest`. -/
theorem tableReadReplies : Obligations.TableReadReplies := by
  intro s tag table start count hp hq refused
  have refuses (hj : judgeTableRead table start count s.validFrame = refuse .range) : refused :=
    (exec_tableRead hp ..).trans (congrArg _ (control_refuse s tag _ _ .range hq hj))
  have outside {n : TableName} (hn : tableOfByte table = some n)
      (h : count.toNat = 0 ∨ start.toNat < n.indices.1 ∨ n.indices.2 < start.toNat) : refused :=
    refuses (by rw [judgeTableRead, hn]; exact if_pos h)
  refine ⟨fun hnone => refuses (by rw [judgeTableRead, hnone]), fun hzero => ?_, fun n hn =>
    ⟨fun hout => outside hn (.inr hout), fun hcount hlow hhigh => ?_⟩⟩
  · cases hn : tableOfByte table with
    | none => exact refuses (by rw [judgeTableRead, hn])
    | some n => exact outside hn (.inl (by rw [hzero]; rfl))
  · intro entry bytes
    obtain ⟨c, hrun, hle, hend, hlen, hlong⟩ := readRun_longest s.tables n start.toNat count.toNat 283
    have hpos : 0 < count.toNat := Nat.pos_of_ne_zero fun h => hcount (BitVec.eq_of_toNat_eq h)
    have hc : 0 < c := by
      by_contra h0
      obtain rfl : c = 0 := by omega
      have hfirst := hlong hpos hhigh
      have hshort := length_readEntry_le s.tables n start.toNat
      rw [entriesFrom_succ, List.flatten_cons, List.length_append] at hfirst
      have hnil : (entriesFrom s.tables n (start.toNat + 1) 0).flatten.length = 0 := rfl
      omega
    refine ⟨c, hc, hle, hend hc.ne', hlen, hlong, ?_⟩
    have hjudge : judgeTableRead table start count s.validFrame
        = ⟨some .done, table :: start :: BitVec.ofNat 8 c :: bytes c, id⟩ := by
      have hes : s.validFrame.tables.readRun n start.toNat count.toNat 283 = entriesFrom s.tables n start.toNat c := hrun
      have hlength : (entriesFrom s.tables n start.toNat c).length = c := by simp [entriesFrom]
      rw [judgeTableRead, hn]
      refine (if_neg (by omega)).trans ?_
      dsimp only
      rw [hes, hlength]
      rfl
    rw [exec_tableRead hp, control_answer s tag 0x21#8 _ .done hq (by rw [hjudge]), hjudge]
    rfl

/-! TABLE WRITE refused -/

theorem tableOfByte_of_le {b : Byte} (h : 10 < b.toNat) : tableOfByte b = none := by
  unfold tableOfByte
  split
  case h_12 => rfl
  all_goals omega

/-- Nothing bars a write exactly where R179 lets it through. -/
theorem tableBar_none (s : State) (n : TableName) : s.tableBar n = none ↔ TakesTable s n := by
  cases n with
  | map m =>
    unfold State.tableBar TakesTable
    cases s.roll.rollState <;> simp
  | format =>
    unfold State.tableBar TakesTable
    cases s.roll.rollState <;> simp
  | settings =>
    unfold State.tableBar TakesTable State.rollActive
    have hidle : s.allIdle = true ↔ (∀ k, (s.key k).state = .idle) ∧ ∀ p, (s.pedal p).state = .idle := by
      rw [allIdle_iff]
      exact ⟨fun h => ⟨fun k => h (.key k), fun p => h (.pedal p)⟩, fun h c => by
        cases c with
        | key k => exact h.1 k
        | pedal p => exact h.2 p⟩
    by_cases hroll : s.roll.rollState = .noRoll
    · rw [← hidle]; cases s.allIdle <;> simp [hroll]
    · simp [hroll]
  | _ => exact iff_of_true rfl trivial

/-- How a TABLE WRITE of a named table and of the right length is judged (R178, R179). -/
theorem judgeTableWrite_named {table start count : Byte} {entries : List Byte} {n : TableName}
    (hn : tableOfByte table = some n) (hlen : entries.length = runSize table start.toNat count.toNat) (s : State) :
    judgeTableWrite table start count entries s
      = if !n.runFits start.toNat count.toNat then refuse .range
        else match s.tableBar n with
          | some r => refuse r
          | none =>
            match s.tables.writeRun table n start.toNat count.toNat entries with
            | none => refuse .range
            | some t =>
              if t.crossCheck n start.toNat count.toNat then accept .done fun u => State.afterWrite { u with tables := t } n
              else refuse .range := by
  rw [judgeTableWrite, hn]
  exact if_neg (not_not.2 hlen)

/-- A run that fits writes exactly when each of its entries is right (R178). -/
theorem writeRun_isSome_of_fits {table : Byte} {n : TableName} {i count : Nat} {entries : List Byte}
    (hn : tableOfByte table = some n) (hlen : entries.length = runSize table i count) (hfits : n.runFits i count = true)
    (w : Tables) : (w.writeRun table n i count entries).isSome = true ↔
      ∀ j, j < count → EntryRight n (i + j) ((entries.drop (runSize table i j)).take (entrySize table (i + j))) := by
  simp only [TableName.runFits, Bool.and_eq_true, decide_eq_true_eq] at hfits
  exact writeRun_isSome table n hn count i w entries hlen hfits.1.2 hfits.2

/-- Settles O48: each refusal is a branch of the judgement, in its order. -/
theorem tableWriteRefusals : Obligations.TableWriteRefusals := by
  intro s tag table start count entries hp hq answers playing idle right
  have refuses {r : ResultCode} (hj : judgeTableWrite table start count entries s.validFrame = refuse r) : answers r :=
    (exec_tableWrite hp ..).trans (congrArg _ (control_refuse s tag _ _ r hq hj))
  refine ⟨fun h => refuses (by rw [judgeTableWrite, tableOfByte_of_le h]), fun n hn => ⟨fun hlen => ?_, fun hlen => ⟨fun hout => ?_,
    fun hfits => ?_⟩⟩⟩
  · exact refuses (by rw [judgeTableWrite, hn]; exact if_pos hlen)
  · refine refuses ((judgeTableWrite_named hn hlen _).trans (if_pos ?_))
    have hbad : n.runFits start.toNat count.toNat = false := by
      rw [← Bool.not_eq_true, TableName.runFits]
      simp only [Bool.and_eq_true, decide_eq_true_eq]
      omega
    rw [hbad]; rfl
  have hnamed := (judgeTableWrite_named hn hlen s.validFrame).trans (if_neg (by rw [hfits]; decide))
  have barred {r : ResultCode} (hbar : s.tableBar n = some r) : answers r := by
    refine refuses (hnamed.trans ?_)
    rw [show s.validFrame.tableBar n = some r from hbar]
  have open' (h : TakesTable s n) : s.validFrame.tableBar n = none := (tableBar_none s n).2 h
  have hwrites := writeRun_isSome_of_fits hn hlen hfits s.tables
  refine ⟨fun m hm hroll => barred ?_, fun hf hroll => barred ?_, fun hset hroll => barred ?_, fun hset hroll hidle => barred ?_,
    fun htakes hwrong => ?_, fun htakes hright => ?_⟩
  · subst hm
    unfold State.tableBar
    rcases hroll with h | ⟨h | h, hm⟩
    · rw [h]
    · rw [h]; exact if_pos hm
    · rw [h]; exact if_pos hm
  · subst hf
    exact if_pos hroll
  · subst hset
    exact if_pos (bne_iff_ne.2 hroll)
  · subst hset
    have hrun : ¬s.rollActive = true := fun h => bne_iff_ne.1 h hroll
    have hbusy : ¬s.allIdle = true := fun h => hidle ⟨fun k => (allIdle_iff s).1 h (.key k), fun p => (allIdle_iff s).1 h (.pedal p)⟩
    exact (if_neg hrun).trans (if_neg hbusy)
  · obtain ⟨i, hi, hbad⟩ := hwrong
    have hnone : s.tables.writeRun table n start.toNat count.toNat entries = none := by
      rw [← Option.not_isSome_iff_eq_none, hwrites]
      exact fun h => hbad (h i hi)
    refine refuses (hnamed.trans ?_)
    rw [open' htakes]
    dsimp only
    rw [show s.validFrame.tables = s.tables from rfl, hnone]
  · obtain ⟨w, hw⟩ := Option.isSome_iff_exists.1 (hwrites.2 hright)
    refine ⟨w, hw, fun hcheck => refuses (hnamed.trans ?_)⟩
    rw [open' htakes]
    dsimp only
    rw [show s.validFrame.tables = s.tables from rfl, hw]
    exact if_neg fun h => hcheck ((Tables.crossCheck_iff w n _ _).1 h)

/-! The store's commands -/

/-- A CONTROL frame taken without a reply: its effect (R167). -/
theorem control_reserve (s : State) (tag : Tag) (code : Byte) (judge : State → Verdict) (act : State → State)
    (hq : s.replyCount < 14) (hj : judge s.validFrame = ⟨none, [], act⟩) : s.control tag code judge = act s.validFrame := by
  rcases control_cases s tag code judge with ⟨h, -⟩ | ⟨-, ⟨q, hr, e⟩ | ⟨-, e⟩⟩
  · omega
  · rw [hj] at hr; cases hr
  · rw [e, hj]

theorem region_withRegion_self (s : State) (r : Region) (x : StoreRegion) : (s.withRegion r x).region r = x :=
  Vector.getElem_set_self ..

theorem region_withRegion_ne (s : State) {r j : Region} (x : StoreRegion) (h : j ≠ r) :
    (s.withRegion r x).region j = s.region j :=
  Vector.getElem_set_ne r.isLt j.isLt fun e => h (Fin.ext e.symm)

/-- Settles O49: each command by its judgement, each completion by the operation that is due. -/
theorem storeCommandsAndCompletions : Obligations.StoreCommandsAndCompletions := by
  intro s tag hp
  refine ⟨fun hq region r hr hop hlocked => ?_, fun o good ho hdue => ?_, fun hq => ?_⟩
  · have hop' : ¬s.validFrame.store.op.isSome = true := by rw [show s.validFrame.store.op = none from hop]; decide
    have hlocked' : ¬(s.validFrame.region r).lockdown = true := (Bool.not_eq_true _).mpr hlocked
    refine ⟨fun hprot => ?_, fun hlock => ?_⟩
    · have hprot' : ¬(s.validFrame.region r).protectedFlag = true := (Bool.not_eq_true _).mpr hprot
      refine (exec_storeSave hp tag region).trans (congrArg _ (control_reserve s tag _ _ _ hq
        ((judgeStoreSave_region _ tag hr).trans ((if_neg hop').trans ((if_neg hlocked').trans (if_neg hprot'))))))
    · have hlock' : ¬s.validFrame.store.lock = true := (Bool.not_eq_true _).mpr hlock
      refine (exec_storeLockdown hp tag region 0xA5#8).trans (congrArg _ (control_reserve s tag _ _ _ hq
        ((judgeStoreLockdown_region _ tag hr).trans ((if_neg hop').trans ((if_neg hlock').trans (if_neg hlocked'))))))
  · have hcode : (if good then ResultCode.done else .storeFail).byte = if good then 0x00#8 else 0x0A#8 := by
      cases good <;> rfl
    refine ⟨fun copy hk => ?_, fun hk => ?_⟩
    · have hsave : s.saveDue = some (o, copy) := by
        unfold State.saveDue
        rw [ho]
        dsimp only
        rw [hk]
        exact if_pos hdue
      refine ⟨_, exec_storeSaveComplete hp good hsave, region_withRegion_self .., fun r hr => region_withRegion_ne _ _ hr,
        rfl, rfl, ?_⟩
      rw [← hcode]; rfl
    · have hdown : s.lockdownOpDue = some o := by
        unfold State.lockdownOpDue
        rw [ho]
        dsimp only
        rw [hk]
        exact if_pos hdue
      refine ⟨_, exec_storeLockdownComplete hp good hdown, region_withRegion_self .., fun r hr => region_withRegion_ne _ _ hr,
        rfl, rfl, ?_⟩
      rw [← hcode]; rfl
  · refine ⟨fun mask value hlock => ?_, ?_, fun hpin => ?_⟩
    · have hlock' : ¬s.validFrame.store.lock = true := (Bool.not_eq_true _).mpr hlock
      have htaken (code : Byte) : s.control tag code (judgeProtect mask value)
          = State.setProtected (s.validFrame.queueReply tag code .done []) mask value :=
        control_accept s tag code _ _ (fun t => t.setProtected mask value) hq (if_neg hlock')
      have hregion (t : State) (r : Region) : (t.setProtected mask value).region r
          = { t.region r with protectedFlag := if mask.getLsbD r.val then value else (t.region r).protectedFlag } := by
        show (protectRegions t.store.regions mask value)[r.val] = _
        rw [protectRegions, Vector.getElem_ofFn]
        split <;> rfl
      cases value with
      | true =>
        refine ⟨_, exec_storeProtect hp tag mask, ?_⟩
        rw [htaken]
        exact ⟨hregion _, hlock, rfl, rfl⟩
      | false =>
        refine ⟨_, exec_storeUnprotect hp tag mask, ?_⟩
        rw [htaken]
        exact ⟨hregion _, hlock, rfl, rfl⟩
    · exact (exec_storeLock hp tag 0x01#8).trans (congrArg _ (control_accept s tag _ _ .done (fun t => t.setLock true) hq
        (if_pos rfl)))
    · have hpin' : ¬s.validFrame.setupLock = true := (Bool.not_eq_true _).mpr hpin
      exact (exec_storeLock hp tag 0x00#8).trans (congrArg _ (control_accept s tag _ _ .done (fun t => t.setLock false) hq
        ((if_neg (by decide)).trans ((if_pos rfl).trans (if_neg hpin')))))

end Sys2Proof.Machine
end

section
/-! PROOFS. O47: an entry written reads back as written, a run as its entries, and the watches a SETTINGS write closes. -/

namespace Sys2Proof.Machine

open Sys2Proof.Safety

variable {s t u : State} {v w : Tables}

/-! Fields and bytes -/

theorem ofBytes_lt (bs : List Byte) : ofBytes bs < 256 ^ bs.length := by
  induction bs with
  | nil => exact Nat.one_pos
  | cons b bs ih =>
    have hb := b.isLt
    rw [ofBytes_cons, List.length_cons, Nat.pow_succ]
    calc b.toNat * 256 ^ bs.length + ofBytes bs < b.toNat * 256 ^ bs.length + 256 ^ bs.length := by omega
      _ = (b.toNat + 1) * 256 ^ bs.length := by ring
      _ ≤ 256 * 256 ^ bs.length := Nat.mul_le_mul_right _ hb
      _ = 256 ^ bs.length * 256 := Nat.mul_comm ..

/-- Bytes are known from how many they are and the number they spell. -/
theorem eq_of_ofBytes_eq {as bs : List Byte} (hlen : as.length = bs.length) (h : ofBytes as = ofBytes bs) : as = bs := by
  induction as generalizing bs with
  | nil => exact (List.eq_nil_of_length_eq_zero hlen.symm).symm
  | cons a as ih =>
    cases bs with
    | nil => cases hlen
    | cons b bs =>
      have hlen' : as.length = bs.length := Nat.succ.inj hlen
      rw [ofBytes_cons, ofBytes_cons, hlen'] at h
      have ha := hlen' ▸ ofBytes_lt as
      have hb := ofBytes_lt bs
      have hpos : 0 < 256 ^ bs.length := Nat.pow_pos (by decide)
      have hhead : a.toNat = b.toNat := by
        have := congrArg (· / 256 ^ bs.length) h
        simpa only [Nat.mul_comm _ (256 ^ bs.length), Nat.mul_add_div hpos, Nat.div_eq_of_lt ha, Nat.div_eq_of_lt hb,
          Nat.add_zero] using this
      rw [hhead] at h
      rw [BitVec.eq_of_toNat_eq hhead, ih hlen' (Nat.add_left_cancel h)]

theorem toBytes_ofBytes (bs : List Byte) : toBytes bs.length (ofBytes bs) = bs :=
  eq_of_ofBytes_eq (length_toBytes ..) (ofBytes_toBytes_of_lt (ofBytes_lt bs))

theorem joinFields_splitFields {ws vs : List Nat} {bs : List Byte} (h : splitFields ws bs = some vs) :
    joinFields ws vs = bs := by
  induction ws generalizing bs vs with
  | nil =>
    cases bs with
    | nil => cases h; rfl
    | cons b bs => cases h
  | cons w ws ih =>
    rw [splitFields] at h
    split at h
    · cases h
    · obtain ⟨vs', hvs, rfl⟩ := Option.map_eq_some_iff.1 h
      have hlen : (bs.take w).length = w := by rw [List.length_take]; omega
      have hhead : toBytes w (ofBytes (bs.take w)) = bs.take w := by
        have := toBytes_ofBytes (bs.take w)
        rwa [hlen] at this
      rw [joinFields, List.zipWith_cons_cons, List.flatten_cons, hhead]
      exact (congrArg _ (ih hvs)).trans (List.take_append_drop w bs)

theorem joinFields_entryFields {ws : List Nat} {rs : List (Nat × Nat)} {bs : List Byte} {vs : List Nat}
    (h : entryFields ws rs bs = some vs) : joinFields ws vs = bs := by
  obtain ⟨x, hx, hif⟩ := Option.bind_eq_some_iff.1 h
  split at hif
  · cases hif; exact joinFields_splitFields hx
  · cases hif

/-! Entries read back -/

theorem headerBytes_writeHeader {m m' : MapSet} {bs : List Byte} (h : m.writeHeader bs = some m') :
    m'.headerBytes = bs ∧ m'.columns = m.columns := by
  unfold MapSet.writeHeader at h
  split at h
  case h_1 nl nr p1 p2 p3 p4 he =>
    cases h
    have hr := inRanges_of_entryFields he
    simp only [inRanges, List.zipWith_cons_cons, List.all_cons, id, Bool.and_eq_true, decide_eq_true_eq] at hr
    obtain ⟨-, -, h1, h2, h3, h4, -⟩ := hr
    obtain rfl : p1 = 0 := by omega
    obtain rfl : p2 = 0 := by omega
    obtain rfl : p3 = 0 := by omega
    obtain rfl : p4 = 0 := by omega
    exact ⟨joinFields_entryFields he, rfl⟩
  · cases h

theorem codes_functionOfCodes {cls p1 p2 : Nat} {f : ColumnFunction} (h : functionOfCodes cls p1 p2 = some f) :
    f.codes = [cls, p1, p2] := by
  unfold functionOfCodes at h
  split at h
  · split at h
    case isTrue hz => cases h; rw [hz.1, hz.2]; rfl
    · cases h
  · split at h
    case isTrue hz =>
      obtain ⟨k, hk, rfl⟩ := Option.map_eq_some_iff.1 h
      unfold keyOfNumber at hk
      split at hk
      case isTrue hr =>
        cases hk
        show [1, p1 - 1 + 1, 0] = _
        rw [hz, Nat.sub_add_cancel hr.1]
      · cases hk
    · cases h
  · obtain ⟨half, hh, hrole⟩ := Option.bind_eq_some_iff.1 h
    obtain ⟨role, hr, rfl⟩ := Option.map_eq_some_iff.1 hrole
    have hhalf : halfCode half = p1 := by
      unfold halfOfCode at hh
      split at hh <;> cases hh <;> rfl
    have hrole' : roleCode role = p2 := by
      unfold roleOfCode at hr
      split at hr <;> cases hr <;> rfl
    show [2, halfCode half, roleCode role] = _
    rw [hhalf, hrole']
  · split at h
    case isTrue hz =>
      obtain ⟨p, hp, rfl⟩ := Option.map_eq_some_iff.1 h
      have hcode : (pedalPlace p).val = p1 := by
        unfold pedalOfCode at hp
        split at hp <;> cases hp <;> rfl
      show [3, (pedalPlace p).val, 0] = _
      rw [hcode, hz]
    · cases h
  · split at h
    case isTrue hz => cases h; rw [hz.1, hz.2]; rfl
    · cases h
  · cases h

theorem bytes_columnOfBytes {bs : List Byte} {c : Column} (h : columnOfBytes bs = some c) : c.bytes = bs := by
  unfold columnOfBytes at h
  split at h
  case h_1 ce wi o cl f p1 p2 he =>
    obtain ⟨fn, hf, rfl⟩ := Option.map_eq_some_iff.1 h
    show joinFields columnWidths ([ce, wi, o, cl] ++ fn.codes) = bs
    rw [codes_functionOfCodes hf]
    exact joinFields_entryFields he
  · cases h

theorem headerBytes_writeHeader_format {f f' : Format} {bs : List Byte} (h : f.writeHeader bs = some f') :
    f'.headerBytes = bs ∧ f'.codes = f.codes := by
  unfold Format.writeHeader at h
  split at h
  case h_1 nl nr c0 c1 c2 c3 c4 c5 wi cl lm ds he =>
    obtain ⟨d, hd, rfl⟩ := Option.map_eq_some_iff.1 h
    have hval : d.val = ds := by
      unfold mapOfCode at hd
      split at hd
      · cases hd; rfl
      · cases hd
    refine ⟨?_, rfl⟩
    show joinFields formatWidths [nl, nr, c0, c1, c2, c3, c4, c5, wi, cl, lm, d.val] = bs
    rw [hval]
    exact joinFields_entryFields he
  · cases h

theorem codeEntryByte_codeEntryOfBytes {bs : List Byte} {c : Option MapNo} (h : codeEntryOfBytes bs = some c) :
    [codeEntryByte c] = bs := by
  unfold codeEntryOfBytes at h
  split at h
  case h_1 b =>
    split at h
    case isTrue hff => cases h; rw [hff]; rfl
    · obtain ⟨m, hm, rfl⟩ := Option.map_eq_some_iff.1 h
      unfold mapOfCode at hm
      split at hm
      · cases hm
        show [BitVec.ofNat 8 b.toNat] = [b]
        rw [BitVec.ofNat_toNat, BitVec.setWidth_eq]
      · cases hm
  · cases h

theorem bytes_profileOfBytes {half : Half} {bs : List Byte} {p : ExprProfile} (h : profileOfBytes half bs = some p) :
    p.bytes = bs := by
  unfold profileOfBytes at h
  dsimp only at h
  split at h
  case h_1 he => cases h; exact joinFields_entryFields he
  · cases h

/-- A flag's field holds 0 or 1, and reads back as it was. -/
theorem flag_field {b : Nat} (h : b ≤ 1) : (if (b == 1) = true then 1 else 0) = b := by
  interval_cases b <;> rfl

theorem bytes_keyOfBytes {bs : List Byte} {r : KeyRecord} (h : keyOfBytes bs = some r) : r.bytes = bs := by
  unfold keyOfBytes at h
  split at h
  case h_1 d l vf vm k0 kg km hd rl rg c sf he =>
    cases h
    have hr := inRanges_of_entryFields he
    simp only [inRanges, List.zipWith_cons_cons, List.all_cons, id, Bool.and_eq_true, decide_eq_true_eq] at hr
    have hflag : sf ≤ 1 := hr.2.2.2.2.2.2.2.2.2.2.2.1.2
    show joinFields keyWidths [d, l, vf, vm, k0, kg, km, hd, rl, rg, c, if (sf == 1) = true then 1 else 0] = bs
    rw [flag_field hflag]
    exact joinFields_entryFields he
  · cases h

theorem bytes_pedalOfBytes {bs : List Byte} {r : PedalRecord} (h : pedalOfBytes bs = some r) : r.bytes = bs := by
  unfold pedalOfBytes at h
  split at h
  case h_1 he => cases h; exact joinFields_entryFields he
  · cases h

theorem bytes_settingsOfBytes {bs : List Byte} {g : Settings} (h : settingsOfBytes bs = some g) : g.bytes = bs := by
  unfold settingsOfBytes at h
  split at h
  case h_1 ht et ms wt lpi pl sg hl ab ks dl he co mh cm sw ae vs vf hf =>
    cases h
    have hr := inRanges_of_entryFields hf
    simp only [inRanges, List.zipWith_cons_cons, List.all_cons, id, Bool.and_eq_true, decide_eq_true_eq] at hr
    have hflag : ae ≤ 1 := hr.2.2.2.2.2.2.2.2.2.2.2.2.2.2.2.2.1.2
    show joinFields settingsWidths [ht, et, ms, wt, lpi, pl, sg, hl, ab, ks, dl, he, co, mh, cm, sw,
      if (ae == 1) = true then 1 else 0, vs, vf] = bs
    rw [flag_field hflag]
    exact joinFields_entryFields hf
  · cases h

/-- A rewritten map set reads back the entry written, and its other entries as before. -/
theorem readEntry_writeEntry_map {m m' : MapSet} {i : Nat} {bs : List Byte} (h : m.writeEntry i bs = some m') :
    m'.readEntry i = bs ∧ ∀ j, j ≠ i → m'.readEntry j = m.readEntry j := by
  unfold MapSet.writeEntry at h
  unfold MapSet.readEntry
  split at h
  case isTrue hi =>
    subst hi
    obtain ⟨hbytes, hcols⟩ := headerBytes_writeHeader h
    refine ⟨hbytes, fun j hj => ?_⟩
    rw [if_neg hj, if_neg hj, hcols]
  case isFalse hi =>
    split at h
    case isTrue hlt =>
      obtain ⟨c, hc, rfl⟩ := Option.map_eq_some_iff.1 h
      refine ⟨?_, fun j hj => ?_⟩
      · rw [if_neg hi, dif_pos hlt, Vector.getElem_set_self]
        exact bytes_columnOfBytes hc
      · split
        · rfl
        · split
          · rw [Vector.getElem_set_ne _ _ (by omega)]
          · rfl
    case isFalse => cases h

theorem readEntry_writeEntry_format {f f' : Format} {i : Nat} {bs : List Byte} (h : f.writeEntry i bs = some f') :
    f'.readEntry i = bs ∧ ∀ j, j ≠ i → f'.readEntry j = f.readEntry j := by
  unfold Format.writeEntry at h
  unfold Format.readEntry
  split at h
  case isTrue hi =>
    subst hi
    obtain ⟨hbytes, hcodes⟩ := headerBytes_writeHeader_format h
    refine ⟨hbytes, fun j hj => ?_⟩
    rw [if_neg hj, if_neg hj, hcodes]
  case isFalse hi =>
    split at h
    case isTrue hlt =>
      obtain ⟨c, hc, rfl⟩ := Option.map_eq_some_iff.1 h
      refine ⟨?_, fun j hj => ?_⟩
      · rw [if_neg hi, dif_pos hlt, Vector.getElem_set_self]
        exact codeEntryByte_codeEntryOfBytes hc
      · split
        · rfl
        · split
          · rw [Vector.getElem_set_ne _ _ (by omega)]
          · rfl
    case isFalse => cases h

/-- An entry written reads back as written, and every other entry of its table as before (R176). -/
theorem readEntry_writeEntry {n : TableName} {i : Nat} {bs : List Byte} (h : v.writeEntry n i bs = some w)
    (hlow : n.indices.1 ≤ i) : w.readEntry n i = bs
      ∧ ∀ j, n.indices.1 ≤ j → j ≤ n.indices.2 → j ≠ i → i ≤ n.indices.2 → w.readEntry n j = v.readEntry n j := by
  cases n with
  | map m =>
    obtain ⟨x, hx, rfl⟩ := Option.map_eq_some_iff.1 h
    obtain ⟨hself, hother⟩ := readEntry_writeEntry_map hx
    unfold Tables.readEntry
    dsimp only
    rw [Vector.getElem_set_self]
    exact ⟨hself, fun j _ _ hj _ => hother j hj⟩
  | format =>
    obtain ⟨x, hx, rfl⟩ := Option.map_eq_some_iff.1 h
    obtain ⟨hself, hother⟩ := readEntry_writeEntry_format hx
    exact ⟨hself, fun j _ _ hj _ => hother j hj⟩
  | expr half =>
    have hone (j : Nat) (hj : j ≤ 0) (hne : j ≠ i) (hi : i ≤ 0) : w.readEntry (.expr half) j = v.readEntry (.expr half) j := by
      omega
    cases half with
    | bass =>
      obtain ⟨x, hx, rfl⟩ := Option.map_eq_some_iff.1 h
      exact ⟨bytes_profileOfBytes hx, fun j _ hj hne hi => hone j hj hne hi⟩
    | treble =>
      obtain ⟨x, hx, rfl⟩ := Option.map_eq_some_iff.1 h
      exact ⟨bytes_profileOfBytes hx, fun j _ hj hne hi => hone j hj hne hi⟩
  | velocity =>
    simp only [Tables.writeEntry] at h
    split at h
    case isTrue hlt =>
      split at h
      case h_1 x hx =>
        cases h
        have hbytes : toBytes 2 x = bs := by simpa [joinFields] using joinFields_entryFields hx
        unfold Tables.readEntry
        dsimp only
        rw [dif_pos hlt, Vector.getElem_set_self]
        refine ⟨hbytes, fun j _ hj hne _ => ?_⟩
        split
        · rw [Vector.getElem_set_ne _ _ hne.symm]
        · rfl
      case h_2 => cases h
    case isFalse => cases h
  | keys =>
    simp only [Tables.writeEntry] at h
    split at h
    case isTrue hlt =>
      obtain ⟨x, hx, rfl⟩ := Option.map_eq_some_iff.1 h
      unfold Tables.readEntry
      dsimp only
      rw [dif_pos hlt, Vector.getElem_set_self]
      refine ⟨bytes_keyOfBytes hx, fun j hjlow _ hne _ => ?_⟩
      have hlow' : 1 ≤ i := hlow
      have hjlow' : 1 ≤ j := hjlow
      split
      · rw [Vector.getElem_set_ne _ _ (by omega)]
      · rfl
    case isFalse => cases h
  | pedals =>
    simp only [Tables.writeEntry] at h
    split at h
    case isTrue hlt =>
      obtain ⟨x, hx, rfl⟩ := Option.map_eq_some_iff.1 h
      unfold Tables.readEntry
      dsimp only
      rw [dif_pos hlt, Vector.getElem_set_self]
      refine ⟨bytes_pedalOfBytes hx, fun j hjlow _ hne _ => ?_⟩
      have hlow' : 1 ≤ i := hlow
      have hjlow' : 1 ≤ j := hjlow
      split
      · rw [Vector.getElem_set_ne _ _ (by omega)]
      · rfl
    case isFalse => cases h
  | settings =>
    obtain ⟨x, hx, rfl⟩ := Option.map_eq_some_iff.1 h
    refine ⟨bytes_settingsOfBytes hx, fun j hjlow hj hne hi => ?_⟩
    have hj' : j ≤ 0 := hj
    have hi' : i ≤ 0 := hi
    omega

/-- A run written reads back entry by entry, and every entry outside it as before. -/
theorem readEntry_writeRun {b : Byte} {n : TableName} {count i : Nat} {bs : List Byte}
    (h : v.writeRun b n i count bs = some w) (hlow : n.indices.1 ≤ i) (hhigh : i + count ≤ n.indices.2 + 1) :
    (∀ j, j < count → w.readEntry n (i + j) = (bs.drop (runSize b i j)).take (entrySize b (i + j)))
      ∧ ∀ j, n.indices.1 ≤ j → j ≤ n.indices.2 → (j < i ∨ i + count ≤ j) → w.readEntry n j = v.readEntry n j := by
  induction count generalizing v i bs with
  | zero => cases h; exact ⟨fun j hj => absurd hj (Nat.not_lt_zero j), fun j _ _ _ => rfl⟩
  | succ count ih =>
    obtain ⟨x, hx, hxw⟩ := writeRun_succ h
    obtain ⟨hself, hother⟩ := readEntry_writeEntry hx hlow
    obtain ⟨hrun, hout⟩ := ih hxw (by omega) (by omega)
    refine ⟨fun j hj => ?_, fun j hjlow hjhigh hj => ?_⟩
    · cases j with
      | zero =>
        rw [Nat.add_zero, hout i hlow (by omega) (.inl (Nat.lt_succ_self i)), hself]
        rfl
      | succ j =>
        rw [show i + (j + 1) = i + 1 + j by omega, hrun j (by omega), List.drop_drop, runSize_succ]
    · rw [hout j hjlow hjhigh (by omega), hother j hjlow hjhigh (by omega) (by omega)]

/-- Where only one table differs, every entry of every other table reads as before. -/
theorem readEntry_onlyTable {n o : TableName} (h : OnlyTable n v w) (ho : o ≠ n) (hm : ∀ m k, n = .map m → o ≠ .map k)
    (j : Nat) : w.readEntry o j = v.readEntry o j := by
  cases n with
  | map m =>
    rw [OnlyTable] at h
    rw [h]
    cases o with
    | map k => exact absurd rfl (hm m k rfl)
    | expr half => cases half <;> rfl
    | _ => rfl
  | expr half =>
    cases half with
    | bass =>
      rw [OnlyTable] at h
      rw [h]
      cases o with
      | expr half' =>
        cases half' with
        | bass => exact absurd rfl ho
        | treble => rfl
      | _ => rfl
    | treble =>
      rw [OnlyTable] at h
      rw [h]
      cases o with
      | expr half' =>
        cases half' with
        | bass => rfl
        | treble => exact absurd rfl ho
      | _ => rfl
  | format =>
    rw [OnlyTable] at h
    rw [h]
    cases o with
    | format => exact absurd rfl ho
    | expr half => cases half <;> rfl
    | _ => rfl
  | velocity =>
    rw [OnlyTable] at h
    rw [h]
    cases o with
    | velocity => exact absurd rfl ho
    | expr half => cases half <;> rfl
    | _ => rfl
  | keys =>
    rw [OnlyTable] at h
    rw [h]
    cases o with
    | keys => exact absurd rfl ho
    | expr half => cases half <;> rfl
    | _ => rfl
  | pedals =>
    rw [OnlyTable] at h
    rw [h]
    cases o with
    | pedals => exact absurd rfl ho
    | expr half => cases half <;> rfl
    | _ => rfl
  | settings =>
    rw [OnlyTable] at h
    rw [h]
    cases o with
    | settings => exact absurd rfl ho
    | expr half => cases half <;> rfl
    | _ => rfl

/-- A write leaves every entry of every other table as before. -/
theorem readEntry_other {b : Byte} {n o : TableName} {count i : Nat} {bs : List Byte}
    (h : v.writeRun b n i count bs = some w) (ho : o ≠ n) (j : Nat) : w.readEntry o j = v.readEntry o j := by
  by_cases hmaps : ∃ m k, n = .map m ∧ o = .map k
  · obtain ⟨m, k, rfl, rfl⟩ := hmaps
    have hne : k ≠ m := fun e => ho (by rw [e])
    show (w.maps[k.val]).readEntry j = (v.maps[k.val]).readEntry j
    rw [maps_writeRun_other hne h]
  · exact readEntry_onlyTable (onlyTable_writeRun h) ho (fun m k hm hk => hmaps ⟨m, k, hm, hk⟩) j

/-! Watches whose deadline has passed -/

/-- What a SETTINGS write does to one key's watch (R155). -/
def State.passDeadline (s : State) (k : Key) : State := if s.deadlinePast k then s.reachDeadline k else s

/-- A key's watch that reaches its deadline is a miss (R156). -/
def State.misses (s : State) (k : Key) : Bool := s.deadlinePast k && (s.record k).senseFitted

/-- A key's record after its miss (R156). -/
def State.missedRecord (s : State) (k : Key) : KeyRecord :=
  let g := s.tables.settings
  { s.record k with vFloor := min ((s.record k).vFloor + g.vStep) (min g.vFloorMax (s.record k).vMax) }

theorem key_passDeadline (s : State) (k j : Key) : (s.passDeadline k).key j
    = if j = k ∧ s.deadlinePast k = true then { s.key j with sense := none } else s.key j := by
  unfold State.passDeadline
  by_cases hpast : s.deadlinePast k = true
  · rw [if_pos hpast]
    have hclose : (s.reachDeadline k).key j = (s.closeSense k).key j := by
      unfold State.reachDeadline State.senseMiss
      split
      · dsimp only; split <;> rfl
      · rfl
    rw [hclose, State.closeSense, State.key_withKey]
    by_cases hj : j = k
    · subst hj; rw [if_pos rfl, if_pos ⟨rfl, hpast⟩]
    · rw [if_neg hj, if_neg fun h => hj h.1]
  · rw [if_neg hpast, if_neg fun h => hpast h.2]

theorem record_passDeadline (s : State) (k j : Key) : (s.passDeadline k).record j
    = if j = k ∧ s.misses k = true ∧ s.tables.settings.adaptEnable = true then s.missedRecord j else s.record j := by
  unfold State.passDeadline State.misses
  by_cases hpast : s.deadlinePast k = true
  · rw [if_pos hpast, hpast, Bool.true_and]
    unfold State.reachDeadline State.senseMiss
    by_cases hfit : (s.record k).senseFitted = true
    · rw [if_pos hfit, hfit]
      by_cases hadapt : s.tables.settings.adaptEnable = true
      · have hset : (s.closeSense k).tables.settings.adaptEnable = true := hadapt
        rw [if_pos hset, State.record_withRecord]
        by_cases hj : j = k
        · subst hj; rw [if_pos rfl, if_pos ⟨rfl, rfl, hadapt⟩]; rfl
        · rw [if_neg hj, if_neg fun h => hj h.1]; rfl
      · have hset : ¬(s.closeSense k).tables.settings.adaptEnable = true := hadapt
        rw [if_neg hset, if_neg fun h => hadapt h.2.2]
        rfl
    · rw [if_neg hfit, if_neg fun h => hfit h.2.1]
      rfl
  · rw [if_neg hpast, if_neg]
    rintro ⟨-, h, -⟩
    rw [Bool.and_eq_true] at h
    exact hpast h.1

theorem counter_passDeadline (s : State) (k : Key) (d : Counter) : (s.passDeadline k).counter d
    = if d = .senseMiss ∧ s.misses k = true then min 65535 (s.counter .senseMiss + 1) else s.counter d := by
  unfold State.passDeadline State.misses
  by_cases hpast : s.deadlinePast k = true
  · rw [if_pos hpast, hpast, Bool.true_and]
    unfold State.reachDeadline State.senseMiss
    by_cases hfit : (s.record k).senseFitted = true
    · rw [if_pos hfit, hfit]
      have hbump := counted_bump (s.closeSense k) .senseMiss d
      dsimp only
      have hcount (t : State) (h : t.counters = ((s.closeSense k).bump .senseMiss).counters) :
          t.counter d = if d = .senseMiss ∧ true = true then min 65535 (s.counter .senseMiss + 1) else s.counter d := by
        simp only [State.counter, h]
        simp only [and_true]
        exact hbump
      split
      · exact hcount _ rfl
      · exact hcount _ rfl
    · rw [if_neg hfit, if_neg fun h => hfit h.2]
      rfl
  · rw [if_neg hpast, if_neg]
    rintro ⟨-, h⟩
    rw [Bool.and_eq_true] at h
    exact hpast h.1

theorem onlySensed_passDeadline (s : State) (k : Key) : OnlySensed s (s.passDeadline k) :=
  OnlySensed.ite (onlySensed_reachDeadline s k) rfl

/-- What a stretch of keys whose deadlines are looked at one after another leaves of each (R155, R156). -/
theorem foldl_passDeadline (ks : List Key) (hks : ks.Nodup) (s : State) :
    let t := ks.foldl State.passDeadline s
    (∀ j, t.key j = if j ∈ ks ∧ s.deadlinePast j = true then { s.key j with sense := none } else s.key j)
      ∧ (∀ j, t.record j = if j ∈ ks ∧ s.misses j = true ∧ s.tables.settings.adaptEnable = true then s.missedRecord j
          else s.record j)
      ∧ ∀ d, t.counter d = if d = .senseMiss ∧ (∃ k ∈ ks, s.misses k = true)
          then min 65535 (s.counter .senseMiss + ks.countP s.misses) else s.counter d := by
  induction ks generalizing s with
  | nil => simp
  | cons k ks ih =>
    obtain ⟨hk, hnodup⟩ := List.nodup_cons.1 hks
    obtain ⟨hkey, hrecord, hcounter⟩ := ih hnodup (s.passDeadline k)
    have honly := onlySensed_passDeadline s k
    have hset : (s.passDeadline k).tables.settings = s.tables.settings := by rw [honly]
    have htime : (s.passDeadline k).deviceTime = s.deviceTime := by rw [honly]
    have hkeyof (j : Key) (hj : j ≠ k) : (s.passDeadline k).key j = s.key j := by
      rw [key_passDeadline, if_neg fun h => hj h.1]
    have hrecordof (j : Key) (hj : j ≠ k) : (s.passDeadline k).record j = s.record j := by
      rw [record_passDeadline, if_neg fun h => hj h.1]
    have hpast (j : Key) (hj : j ≠ k) : (s.passDeadline k).deadlinePast j = s.deadlinePast j := by
      rw [State.deadlinePast, State.deadlinePast, hkeyof j hj, hset, htime]
    have hmisses (j : Key) (hj : j ≠ k) : (s.passDeadline k).misses j = s.misses j := by
      rw [State.misses, State.misses, hpast j hj, hrecordof j hj]
    have hmissed (j : Key) (hj : j ≠ k) : (s.passDeadline k).missedRecord j = s.missedRecord j := by
      rw [State.missedRecord, State.missedRecord, hrecordof j hj, hset]
    have hne {j : Key} (hj : j ∈ ks) : j ≠ k := fun e => hk (e ▸ hj)
    refine ⟨fun j => ?_, fun j => ?_, fun d => ?_⟩
    · rw [List.foldl_cons, hkey]
      by_cases hj : j = k
      · subst hj
        rw [if_neg fun h => hk h.1, key_passDeadline]
        simp
      · rw [hkeyof j hj, hpast j hj]
        simp [hj]
    · rw [List.foldl_cons, hrecord, hset]
      by_cases hj : j = k
      · subst hj
        rw [if_neg fun h => hk h.1, record_passDeadline]
        simp
      · rw [hrecordof j hj, hmisses j hj, hmissed j hj]
        simp [hj]
    · have hcount : ks.countP (s.passDeadline k).misses = ks.countP s.misses :=
        List.countP_congr fun j hj => by rw [hmisses j (hne hj)]
      have hexists : (∃ j ∈ ks, (s.passDeadline k).misses j = true) ↔ ∃ j ∈ ks, s.misses j = true :=
        exists_congr fun j => and_congr_right fun hj => by rw [hmisses j (hne hj)]
      rw [List.foldl_cons, hcounter, hcount]
      have hnone (h : ¬∃ j ∈ ks, s.misses j = true) : ks.countP s.misses = 0 :=
        List.countP_eq_zero.2 fun j hj hm => h ⟨j, hj, hm⟩
      simp only [hexists, counter_passDeadline, List.countP_cons, List.exists_mem_cons_iff]
      by_cases hd : d = .senseMiss
      · subst hd
        by_cases hmk : s.misses k = true
        · by_cases hex : ∃ j ∈ ks, s.misses j = true
          · simp only [hmk, hex, and_self, if_true, true_or]
            omega
          · simp [hmk, hex, hnone hex]
        · simp [hmk]
      · simp [hd]

/-- What a SETTINGS write does once its fields are in place: the heats and the watches (R125, R155). -/
theorem afterWrite_settings (s : State) :
    let t := s.afterWrite .settings
    (∀ k, t.key k = { s.key k with
        heat := min (s.key k).heat s.tables.settings.heatLimit
        sense := if s.deadlinePast k = true then none else (s.key k).sense })
      ∧ (∀ k, t.record k = if s.misses k = true ∧ s.tables.settings.adaptEnable = true then s.missedRecord k else s.record k)
      ∧ ∀ d, t.counter d = if d = .senseMiss ∧ ∃ k, s.misses k = true
          then min 65535 (s.counter .senseMiss + (List.finRange 88).countP s.misses) else s.counter d := by
  have hafter : s.afterWrite .settings
      = (s.mapKeys fun _ c => { c with heat := min c.heat s.tables.settings.heatLimit }).passDeadlines := rfl
  have hcooled (k : Key) := State.key_mapKeys s (fun _ c => { c with heat := min c.heat s.tables.settings.heatLimit }) k
  have hkeep : s.mapKeys (fun _ c => { c with heat := min c.heat s.tables.settings.heatLimit })
      = { s with keys := (s.mapKeys fun _ c => { c with heat := min c.heat s.tables.settings.heatLimit }).keys } := rfl
  rw [hafter]
  generalize s.mapKeys (fun _ c => { c with heat := min c.heat s.tables.settings.heatLimit }) = v at hcooled hkeep
  have hv (k : Key) : v.key k = { s.key k with heat := min (s.key k).heat s.tables.settings.heatLimit } := hcooled k
  have htables : v.tables = s.tables := by rw [hkeep]
  have hpast (k : Key) : v.deadlinePast k = s.deadlinePast k := by
    rw [State.deadlinePast, hv, htables, hkeep]; rfl
  have hrecords : v.record = s.record := funext fun k => by rw [State.record, htables]; rfl
  have hmisses : v.misses = s.misses := funext fun k => by rw [State.misses, hpast, hrecords]; rfl
  have hcounters : v.counter = s.counter := by rw [hkeep]; rfl
  obtain ⟨hkey, hrecord, hcounter⟩ := foldl_passDeadline allKeys (List.nodup_finRange 88) v
  refine ⟨fun k => ?_, fun k => ?_, fun d => ?_⟩
  · refine (hkey k).trans ?_
    rw [hpast, hv]
    simp only [allKeys, List.mem_finRange, true_and]
    split <;> rfl
  · refine (hrecord k).trans ?_
    rw [hmisses, hrecords, htables, State.missedRecord, hrecords, htables]
    simp only [allKeys, List.mem_finRange, true_and]
    rfl
  · refine (hcounter d).trans ?_
    rw [hmisses, hcounters]
    simp only [allKeys, List.mem_finRange, true_and]

/-- Everything else a write does to the tables it has filled in is the swells' new ceilings (R66). -/
theorem afterWrite_other {n : TableName} (hn : n ≠ .settings) (s : State) :
    let t := s.afterWrite n
    (t.exprBass = { s.exprBass with swell := t.exprBass.swell }
        ∧ t.exprBass.swell = if n = .expr .bass then min s.exprBass.swell (s.tables.exprBass.swellMax * 256)
          else s.exprBass.swell)
      ∧ (t.exprTreble = { s.exprTreble with swell := t.exprTreble.swell }
        ∧ t.exprTreble.swell = if n = .expr .treble then min s.exprTreble.swell (s.tables.exprTreble.swellMax * 256)
          else s.exprTreble.swell)
      ∧ t = { s with exprBass := t.exprBass, exprTreble := t.exprTreble } := by
  cases n with
  | settings => exact absurd rfl hn
  | expr half => cases half <;> exact ⟨⟨rfl, rfl⟩, ⟨rfl, rfl⟩, rfl⟩
  | _ => exact ⟨⟨rfl, rfl⟩, ⟨rfl, rfl⟩, rfl⟩

/-- A TABLE WRITE that is let through, is right and passes its cross checks (R177 to R179). -/
theorem exec_tableWrite_taken {tag : Tag} {table start count : Byte} {entries : List Byte} {n : TableName}
    (hp : s.power = .running) (hq : s.replyCount < 14) (hn : tableOfByte table = some n)
    (hlen : entries.length = runSize table start.toNat count.toNat) (hfits : n.runFits start.toNat count.toNat = true)
    (htakes : TakesTable s n) (hw : s.tables.writeRun table n start.toNat count.toNat entries = some w)
    (hcheck : CrossChecks w start.toNat count.toNat n) :
    exec (.tableWrite tag table start count entries) s
      = .next (State.afterWrite { s.validFrame.queueReply tag 0x20#8 .done [] with tables := w } n) := by
  have hjudge : judgeTableWrite table start count entries s.validFrame
      = accept .done fun u => State.afterWrite { u with tables := w } n := by
    refine ((judgeTableWrite_named hn hlen s.validFrame).trans (if_neg (by rw [hfits]; decide))).trans ?_
    rw [show s.validFrame.tableBar n = none from (tableBar_none s n).2 htakes, show s.validFrame.tables = s.tables from rfl, hw]
    exact if_pos ((Tables.crossCheck_iff w n _ _).2 hcheck)
  exact (exec_tableWrite hp ..).trans (congrArg _ (control_accept s tag _ _ .done _ hq hjudge))

/-- Settles O47: the entries read back because reading undoes writing; the watches are closed key by key. -/
theorem tableWriteTaken : Obligations.TableWriteTaken := by
  intro s tag table start count entries n hp hq hn hlen hfits htakes hright
  obtain ⟨w, hw⟩ := Option.isSome_iff_exists.1 ((writeRun_isSome_of_fits hn hlen hfits s.tables).2 hright)
  refine ⟨w, hw, fun hcheck => ?_⟩
  intro g past missed
  refine ⟨_, exec_tableWrite_taken hp hq hn hlen hfits htakes hw hcheck, ?_⟩
  have hbounds := hfits
  simp only [TableName.runFits, Bool.and_eq_true, decide_eq_true_eq] at hbounds
  obtain ⟨hback, hkeep⟩ := readEntry_writeRun hw hbounds.1.2 (by omega)
  have hother (o : TableName) (i : Nat) (ho : o ≠ n) : w.readEntry o i = s.tables.readEntry o i := readEntry_other hw ho i
  generalize hu : ({ s.validFrame.queueReply tag 0x20#8 .done [] with tables := w } : State) = u
  have htables : u.tables = w := by rw [← hu]
  have hbass : u.exprBass = s.exprBass := by rw [← hu]; rfl
  have htreble : u.exprTreble = s.exprTreble := by rw [← hu]; rfl
  have hkeys (k : Key) : u.key k = s.key k := by rw [← hu]; rfl
  have hcounters (d : Counter) : u.counter d = s.counter d := by rw [← hu]; rfl
  have hrest : u = { s.validFrame with
      link := { s.validFrame.link with queue := s.link.queue ++ [.reply tag [0x20#8, 0x00#8]] }
      tables := w } := by rw [← hu]; rfl
  by_cases hset : n = .settings
  · subst hset
    have honly : OnlySensed u (u.afterWrite .settings) := onlySensed_afterWrite_settings u
    have hsame : OnlyTable .keys w (u.afterWrite .settings).tables := by rw [OnlyTable, honly, htables]
    have hread (o : TableName) (i : Nat) (ho : o ≠ .keys) : (u.afterWrite .settings).tables.readEntry o i = w.readEntry o i :=
      readEntry_onlyTable hsame ho (fun m k h => by cases h) i
    have hrecords (k : Key) : u.record k = s.record k := by
      have hw' : OnlyTable .settings s.tables w := onlyTable_writeRun hw
      rw [State.record, htables, hw']; rfl
    have hpast (k : Key) : u.deadlinePast k = past k := by
      rw [State.deadlinePast, hkeys, htables, ← hu]; rfl
    have hmissed : u.misses = missed := funext fun k => by
      rw [State.misses, hpast, hrecords]
    obtain ⟨hkey, hrecord, hcounter⟩ := afterWrite_settings u
    have hb : (u.afterWrite .settings).exprBass = s.exprBass := by rw [honly, hbass]
    have ht : (u.afterWrite .settings).exprTreble = s.exprTreble := by rw [honly, htreble]
    have hsettings : (u.afterWrite .settings).tables.settings = g := by
      have : (u.afterWrite .settings).tables.settings = u.tables.settings := by rw [honly]
      rw [this, htables]
    refine ⟨fun i hi => ?_, fun i hl hh ho => ?_, fun o i ho hkeysne => ?_, ⟨by rw [hb], by rw [hb]; rfl⟩,
      ⟨by rw [ht], by rw [ht]; rfl⟩, fun k => ?_, fun _ => ⟨hsettings, fun k => ?_⟩, fun d => ?_, ?_⟩
    · rw [hread _ _ (by decide), hback i hi]
    · rw [hread _ _ (by decide), hkeep i hl hh ho]
    · rw [hread _ _ (hkeysne rfl), hother o i ho]
    · rw [hkey, hkeys, hpast, hsettings, htables]; rfl
    · rw [hrecord, hmissed, htables, State.missedRecord, hrecords, htables]
    · rw [hcounter, hmissed, hcounters, hcounters]
    · rw [honly, hrest]
  · obtain ⟨hb, ht, honly⟩ := afterWrite_other hset u
    have htab : (u.afterWrite n).tables = w := by rw [honly]; exact htables
    have hpast (k : Key) : past k = false := by
      show (n == TableName.settings && _) = false
      rw [beq_false_of_ne hset, Bool.false_and]
    have hmissed (k : Key) : missed k = false := by
      show (past k && _) = false
      rw [hpast, Bool.false_and]
    rw [hbass, htables] at hb
    rw [htreble, htables] at ht
    refine ⟨fun i hi => ?_, fun i hl hh ho => ?_, fun o i ho _ => ?_, ?_, ?_, fun k => ?_, fun h => absurd h hset, fun d => ?_, ?_⟩
    · rw [htab, hback i hi]
    · rw [htab, hkeep i hl hh ho]
    · rw [htab, hother o i ho]
    · rw [htab]; exact hb
    · rw [htab]; exact ht
    · rw [if_neg hset, hpast, honly]
      exact hkeys k
    · have hnone : ¬(d = .senseMiss ∧ ∃ k, missed k = true) := fun ⟨_, k, hk⟩ => by rw [hmissed] at hk; cases hk
      rw [if_neg hnone, honly]
      exact hcounters d
    · rw [honly, hrest]

end Sys2Proof.Machine
end

section
/-! PROOFS. O43, O45: the verdicts of strike sensing, the keys' cooling, and the groups FAULT CLEAR clears. -/

namespace Sys2Proof.Machine

open Sys2Proof.Safety

variable {s t u : State}

/-! Strike sensing -/

/-- Division that truncates toward zero, from the one that rounds down (R154). -/
theorem tdiv_eight (e : Int) : e.tdiv 8 = if 0 ≤ e then e / 8 else -(-e / 8) := by
  split
  case isTrue h => exact Int.tdiv_eq_ediv_of_nonneg h
  case isFalse h =>
    calc e.tdiv 8 = (-(-e)).tdiv 8 := by rw [neg_neg]
      _ = -((-e).tdiv 8) := Int.neg_tdiv ..
      _ = -(-e / 8) := by rw [Int.tdiv_eq_ediv_of_nonneg (by omega)]

theorem correctedLag_eq (lag : Nat) (e : Int) :
    (correctedLag lag e : Int) = max 0 (min 20000 ((lag : Int) + if 0 ≤ e then e / 8 else -(-e / 8))) := by
  rw [correctedLag, clampInt_eq (by decide), tdiv_eight]
  omega

/-- A match with adaptation: the counter, the lag, nothing else (R154). -/
theorem senseMatch_adapts (s : State) (k : Key) (e : Int) (hadapt : s.tables.settings.adaptEnable = true) :
    let t := s.senseMatch k e
    Counted s t .senseAdapted 1 ∧ t.record k = { s.record k with lag := correctedLag (s.record k).lag e }
      ∧ (∀ j, j ≠ k → t.record j = s.record j)
      ∧ t = { s with counters := t.counters, tables := { s.tables with keys := t.tables.keys } } := by
  rw [State.senseMatch, if_pos hadapt]
  refine ⟨counted_bump (s.withRecord k _) .senseAdapted, ?_, fun j hj => ?_, rfl⟩
  · rw [State.record_bump, State.record_withRecord, if_pos rfl]
  · rw [State.record_bump, State.record_withRecord, if_neg hj]

/-- A miss: the counter, the velocity floor while AdaptEnable is set, nothing else (R156). -/
theorem senseMiss_effect (s : State) (k : Key) :
    let t := s.senseMiss k
    let g := s.tables.settings
    let r := s.record k
    Counted s t .senseMiss 1
      ∧ t.record k = { r with
          vFloor := if g.adaptEnable then min (r.vFloor + g.vStep) (min g.vFloorMax r.vMax) else r.vFloor }
      ∧ (∀ j, j ≠ k → t.record j = s.record j)
      ∧ t = { s with counters := t.counters, tables := { s.tables with keys := t.tables.keys } } := by
  unfold State.senseMiss
  dsimp only
  split
  · refine ⟨counted_bump s .senseMiss, ?_, fun j hj => ?_, rfl⟩
    · rw [State.record_withRecord, if_pos rfl]; rfl
    · rw [State.record_withRecord, if_neg hj]; rfl
  · exact ⟨counted_bump s .senseMiss, rfl, fun _ _ => rfl, rfl⟩

theorem deadlineDue_of {k : Key} {w : SenseWatch} (hw : (s.key k).sense = some w)
    (hpast : w.expected + s.tables.settings.senseWindow ≤ s.deviceTime) : s.deadlineDue k = true := by
  rw [State.deadlineDue, hw]
  exact decide_eq_true hpast

/-- Settles O45: an edge is judged by its watch, the watch by its deadline. -/
theorem senseVerdicts : Obligations.SenseVerdicts := by
  intro s k hp g r closed
  have edge : exec (.senseEdge k) s = .next (if (s.record k).senseFitted then s.judgeEdge k else s) := exec_senseEdge hp k
  refine ⟨fun hfit => ?_, fun hfit hwatch => ?_, fun w hfit hwatch => ?_, fun w hwatch hpast => ⟨fun hfit => ?_, fun hfit => ?_⟩⟩
  · rw [edge, if_neg (by rw [show (s.record k).senseFitted = false from hfit]; decide)]
  · refine ⟨s.bump .senseStray, ?_, counted_bump s _, rfl⟩
    rw [edge, if_pos hfit, State.judgeEdge, hwatch]
  · intro e
    have hjudge : s.judgeEdge k = if s.tables.settings.senseWindow < e.natAbs then closed.bump .senseOutlier
        else closed.senseMatch k e := by
      rw [State.judgeEdge, hwatch]; rfl
    rw [edge, if_pos hfit, hjudge, Int.abs_eq_natAbs]
    refine ⟨fun hout => ?_, fun hin hadapt => ?_, fun hin hadapt => ?_⟩
    · rw [if_pos (Int.ofNat_lt.1 hout)]
      exact ⟨_, rfl, counted_bump closed _, rfl⟩
    · rw [if_neg (Nat.not_lt.2 (Int.ofNat_le.1 hin)), State.senseMatch]
      exact congrArg _ (if_neg ((Bool.not_eq_true _).mpr hadapt))
    · rw [if_neg (Nat.not_lt.2 (Int.ofNat_le.1 hin))]
      obtain ⟨hcount, hrecord, hothers, honly⟩ := senseMatch_adapts closed k e hadapt
      refine ⟨_, rfl, hcount, ?_, ?_, hothers, honly⟩
      · rw [hrecord]; exact correctedLag_eq r.lag e
      · rw [hrecord]; rfl
  · rw [exec_senseDeadline k hp (deadlineDue_of hwatch hpast), State.reachDeadline]
    exact congrArg _ (if_neg ((Bool.not_eq_true _).mpr hfit))
  · obtain ⟨hcount, hrecord, hothers, honly⟩ := senseMiss_effect closed k
    refine ⟨_, ?_, hcount, hrecord, hothers, honly⟩
    rw [exec_senseDeadline k hp (deadlineDue_of hwatch hpast), State.reachDeadline]
    exact congrArg _ (if_pos hfit)

/-! Heat and faults -/

/-- Clearing the faults of a mask (R132). -/
theorem faulted_clearFaults (s : State) (mask : BitVec 16) (g : Group) :
    (s.clearFaults mask).faulted g = (s.faulted g && !(mask.getLsbD g.val && !s.faultLines[g.val])) := by
  simp only [State.faulted, State.clearFaults, maskNames, Vector.getElem_ofFn]

/-- How a FAULT CLEAR with a mask of groups is answered (R132). -/
theorem judgeFaultClear_named (mask : BitVec 16) (hmask : mask.toNat < 4096) (s : State) :
    judgeFaultClear mask s = accept
      (if ∃ g : Group, mask.getLsbD g.val = true ∧ s.faulted g = true ∧ s.faultLines[g.val] = true then .faultActive else .done)
      fun t => t.clearFaults mask := by
  have hany : ((List.finRange 12).any fun g => maskNames mask g && s.faulted g && s.faultLines[g.val]) = true
      ↔ ∃ g : Group, mask.getLsbD g.val = true ∧ s.faulted g = true ∧ s.faultLines[g.val] = true := by
    simp only [List.any_eq_true, List.mem_finRange, true_and, maskNames, Bool.and_eq_true, and_assoc]
  rw [judgeFaultClear, if_neg (by omega)]
  simp only [hany]

/-- Settles O43: every key's heat is its own; FAULT CLEAR judges its mask and clears group by group. -/
theorem heatCoolsAndFaultsClear : Obligations.HeatCoolsAndFaultsClear := by
  intro s hp
  refine ⟨fun hcool => ⟨s.cool, exec_heatCooling hp (decide_eq_true hcool), State.key_cool s, State.cool_eq s⟩,
    fun tag mask hq hmask => ?_⟩
  obtain ⟨code, hjudge, hcode⟩ : ∃ code, judgeFaultClear mask s.validFrame = accept code (fun t => t.clearFaults mask)
      ∧ code.byte = if ∃ g : Group, mask.getLsbD g.val = true ∧ s.faulted g = true ∧ s.faultLines[g.val] = true
        then 0x08#8 else 0x00#8 := by
    refine ⟨_, judgeFaultClear_named mask hmask s.validFrame, ?_⟩
    split
    case isTrue hstays => exact (if_pos hstays).symm
    case isFalse hnone => exact (if_neg hnone).symm
  refine ⟨_, (exec_faultClear hp ..).trans (congrArg _ (control_accept s tag _ _ code _ hq hjudge)),
    faulted_clearFaults _ mask, ?_⟩
  rw [← hcode]
  rfl

end Sys2Proof.Machine
end

section
/-! PROOFS. How a key's kick starts, waits or is refused, in the statements' words; O36 and O40: KEY_FIRE, GAP_END and
DEFER_EXPIRY. -/

namespace Sys2Proof.Machine

open Sys2Proof.Safety

variable {s t u : State} {k : Key} {n m : Note}

/-! Late kicks and the kick count in the statements' words -/

theorem lateKick_eq (now : RollTime) (n : Note) : lateKick now n.fire = startsLate now n := by
  unfold lateKick startsLate
  cases n.fire <;> rfl

/-- A key whose channel is not kicking before or after leaves the kick count as it is. -/
theorem kickCount_withKey {c : KeyChannel} (hs : (s.key k).state ≠ .kick) (hc : c.state ≠ .kick) :
    (s.withKey k c).kickCount = s.kickCount := by
  have h := (changesOnly_withKey s k c).kickCount
  have hbefore : channelState s (.key k) ≠ .kick := hs
  have hafter : channelState (s.withKey k c) (.key k) ≠ .kick := by
    show ((s.withKey k c).key k).state ≠ .kick
    rw [State.key_withKey_self]; exact hc
  rwa [if_neg hbefore, if_neg hafter] at h

/-! A kick that starts -/

/-- A note's kick as KickMax caps it (R106). -/
def State.capped (s : State) (k : Key) (n : Note) : Nat := min n.kick (s.record k).kickMax

/-- The heat headroom of a key (R125). -/
def State.room (s : State) (k : Key) : Nat := s.tables.settings.heatLimit - (s.key k).heat

theorem startKick_kicked (s : State) (k : Key) (n : Note) (kick : Nat) (b : Bool) :
    s.startKick k n kick b = { s.withKey k (KickedKey (s.key k) n s.deviceTime kick b s.clockStopped) with
      counters := (s.startKick k n kick b).counters } := startKick_eq ..

/-- The counters after a kick start: a late strike (R92), and a grant from the list (R121). -/
theorem counter_started (s : State) (k : Key) (n : Note) (kick : Nat) (b : Bool) (d : Counter) :
    (s.startKick k n kick b).counter d = if d = .lateStrike then lateCount s n
      else if d = .deferred ∧ b = true then min 65535 (s.counter .deferred + 1) else s.counter d := by
  rw [counter_startKick, lateKick_eq]
  by_cases hd : d = .lateStrike
  · subst hd
    unfold lateCount
    split <;> simp_all [Config.counterTop]
  · simp [hd, Config.counterTop]

/-- A trimmed kick start: that of the whole one, and the counter of heat trims (R125). -/
theorem trimmed_kicked (s : State) (k : Key) (n : Note) (kick : Nat) (b : Bool) :
    (s.bump .heatTrim).startKick k n kick b
      = { s.withKey k (KickedKey (s.key k) n s.deviceTime kick b s.clockStopped) with
          counters := ((s.bump .heatTrim).startKick k n kick b).counters } := startKick_eq ..

theorem counter_trimmed (s : State) (k : Key) (n : Note) (kick : Nat) (b : Bool) (d : Counter) :
    ((s.bump .heatTrim).startKick k n kick b).counter d = if d = .lateStrike then lateCount s n
      else if d = .deferred ∧ b = true then min 65535 (s.counter .deferred + 1)
      else if d = .heatTrim then min 65535 (s.counter .heatTrim + 1) else s.counter d := by
  have hbump (e : Counter) := counted_bump s .heatTrim e
  have hlate : lateCount (s.bump .heatTrim) n = lateCount s n := by
    unfold lateCount
    rw [hbump .lateStrike]
    rfl
  rw [counter_started, hlate, hbump d, hbump .deferred]
  rfl

/-! What a grant does with a note (R106, R125) -/

theorem kickStart_whole (hn : (s.key k).current = some n) (hroom : s.capped k n ≤ s.room k) (b : Bool) :
    s.kickStart k b = (true, s.startKick k n (s.capped k n) b) := by
  simp only [State.kickStart, hn]
  exact if_pos hroom

theorem kickStart_trimmed (hn : (s.key k).current = some n) (hroom : s.room k < s.capped k n) (hfloor : 500 ≤ s.room k)
    (b : Bool) : s.kickStart k b = (true, (s.bump .heatTrim).startKick k n (s.room k) b) := by
  simp only [State.kickStart, hn]
  exact (if_neg (Nat.not_le.2 hroom)).trans (if_pos hfloor)

theorem kickStart_refused (hn : (s.key k).current = some n) (hroom : s.room k < s.capped k n) (hfloor : s.room k < 500)
    (b : Bool) : s.kickStart k b = (false, s.bump .heatDrop) := by
  simp only [State.kickStart, hn]
  exact (if_neg (Nat.not_le.2 hroom)).trans (if_neg (Nat.not_le.2 hfloor))

/-! What a request does (R105, R119) -/

theorem attempt_faulted (hf : s.faulted (keyGroup k) = true) : s.attempt k = (false, s.bump .faultDrop) := if_pos hf

theorem attempt_free (hok : s.faulted (keyGroup k) = false) (hfree : s.kickCount < s.tables.settings.kickSlots) :
    s.attempt k = s.kickStart k false := by
  rw [State.attempt, if_neg ((Bool.not_eq_true _).mpr hok), if_pos hfree]

theorem attempt_full (hok : s.faulted (keyGroup k) = false) (hfull : ¬s.kickCount < s.tables.settings.kickSlots) :
    s.attempt k = (true, s.wait k) := by
  rw [State.attempt, if_neg ((Bool.not_eq_true _).mpr hok), if_neg hfull]

/-! Promotion (R108, R109) -/

theorem nothingToFire_cases (h : nothingToFire s k) : ((s.key k).pending = none ∧ s.promote k = s.goIdle k)
    ∨ ∃ n f, (s.key k).pending = some n ∧ n.fire = some f
      ∧ s.promote k = (s.withKey k (PromotedKey (s.key k) n)).armFire (.key k) f := by
  rcases promote_cases s k with hidle | ⟨n, hn, ⟨f, hf, -, hp⟩ | ⟨hreached, -⟩⟩
  · exact .inl hidle
  · exact .inr ⟨n, f, hn, hf, hp⟩
  · obtain ⟨f, hf, hnot⟩ := h n hn
    rw [hreached f hf] at hnot
    cases hnot

/-- A current note that is gone with nothing behind it that fires (R108, R109). -/
theorem movesOn_promote (h : nothingToFire s k) :
    MovesOn s (s.promote k) k s.fireList
      ∧ s.promote k = { s with keys := (s.promote k).keys, fireList := (s.promote k).fireList } := by
  rcases nothingToFire_cases h with ⟨hnone, hp⟩ | ⟨n, f, hn, hf, hp⟩
  · rw [hp]
    refine ⟨⟨fun j hj => State.key_withKey_ne _ _ _ _ hj, fun _ => ⟨State.key_withKey_self .., rfl⟩, fun n f hn _ => ?_⟩, rfl⟩
    rw [hnone] at hn; cases hn
  · rw [hp]
    refine ⟨⟨fun j hj => State.key_withKey_ne _ _ _ _ hj, fun hnone => ?_, fun n' f' hn' hf' => ?_⟩, rfl⟩
    · rw [hn] at hnone; cases hnone
    · cases hn.symm.trans hn'
      cases hf.symm.trans hf'
      exact ⟨State.key_withKey_self .., rfl⟩

theorem promote_fires (h : firesPending s k n) : s.promote k = (s.withKey k (PromotedKey (s.key k) n)).fireLast k := by
  obtain ⟨hn, hreached⟩ := h
  rcases promote_cases s k with ⟨hnone, -⟩ | ⟨n', hn', ⟨f, hf, hnot, -⟩ | ⟨-, hp⟩⟩
  · rw [hn] at hnone; cases hnone
  · cases hn.symm.trans hn'
    rw [hreached f hf] at hnot
    cases hnot
  · cases hn.symm.trans hn'
    exact hp

/-- A promoted note that fires meets its group, the slots and the heat check in turn (R105, R109, R119, R125). -/
theorem promotedFires_fireLast (hkick : (s.key k).state ≠ .kick) :
    PromotedFires s ((s.withKey k (PromotedKey (s.key k) n)).fireLast k) k n := by
  generalize hu : s.withKey k (PromotedKey (s.key k) n) = u
  have hself : u.key k = PromotedKey (s.key k) n := by rw [← hu]; exact State.key_withKey_self ..
  have hcount : u.kickCount = s.kickCount := by rw [← hu]; exact kickCount_withKey hkick nofun
  have hcurrent : (u.key k).current = some n := by rw [hself]; rfl
  have hfaulted : u.faulted (keyGroup k) = s.faulted (keyGroup k) := by rw [← hu]; rfl
  have hslots : u.tables = s.tables := by rw [← hu]; rfl
  have hcapped : u.capped k n = min n.kick (s.record k).kickMax := by rw [← hu]; rfl
  have hroom : u.room k = s.tables.settings.heatLimit - (s.key k).heat := by rw [State.room, hself, hslots]; rfl
  have hcounter (d : Counter) : u.counter d = s.counter d := by rw [← hu]; rfl
  have hkey (c : KeyChannel) : u.withKey k c = s.withKey k c := by rw [← hu]; exact State.withKey_withKey ..
  have hlate : lateCount u n = lateCount s n := by rw [← hu]; rfl
  have hstopped : u.clockStopped = s.clockStopped := by rw [← hu]; rfl
  have htime : u.deviceTime = s.deviceTime := by rw [← hu]; rfl
  have dropped {d : Counter} (h : u.attempt k = (false, u.bump d)) :
      Counted s (u.fireLast k) d 1
        ∧ u.fireLast k = { s.withKey k (IdleKey (s.key k)) with counters := (u.fireLast k).counters } := by
    have hlast : u.fireLast k = (u.bump d).goIdle k := by rw [State.fireLast, h]; rfl
    rw [hlast]
    refine ⟨fun e => ?_, ?_⟩
    · rw [← hcounter, ← hcounter]
      exact counted_bump u d e
    · have hidle : ((u.bump d).key k).toIdle = IdleKey (s.key k) := by rw [State.key_bump, hself]; rfl
      rw [State.goIdle, hidle, ← hkey]
      rfl
  refine ⟨fun hbad => ?_, fun hok hfree hwhole => ?_, fun hok hfree hover hfloor => ?_, fun hok hfree hover hfloor => ?_,
    fun hok hfull => ?_⟩
  · exact dropped (attempt_faulted (hfaulted.trans (Bool.eq_true_of_not_eq_false hbad)))
  · have hlast : u.fireLast k = u.startKick k n (u.capped k n) false := by
      rw [State.fireLast, attempt_free (hfaulted.trans hok) (by rw [hcount, hslots]; exact hfree),
        kickStart_whole hcurrent (by rw [hcapped, hroom]; exact hwhole)]
      rfl
    rw [hlast]
    refine ⟨?_, fun d => ?_⟩
    · rw [startKick_kicked, hkey, hself, hcapped, htime, hstopped, ← hu]
    · rw [counter_started, hlate]; simp [hcounter]
  · have hlast : u.fireLast k = (u.bump .heatTrim).startKick k n (u.room k) false := by
      rw [State.fireLast, attempt_free (hfaulted.trans hok) (by rw [hcount, hslots]; exact hfree),
        kickStart_trimmed hcurrent (by rw [hcapped, hroom]; exact hover) (by rw [hroom]; exact hfloor)]
      rfl
    rw [hlast]
    refine ⟨?_, fun d => ?_⟩
    · rw [trimmed_kicked, hkey, hself, hroom, htime, hstopped, ← hu]
    · rw [counter_trimmed, hlate]; simp [hcounter]
  · refine dropped ?_
    rw [attempt_free (hfaulted.trans hok) (by rw [hcount, hslots]; exact hfree)]
    exact kickStart_refused hcurrent (by rw [hcapped, hroom]; exact hover) (by rw [hroom]; exact hfloor) _
  · have hlast : u.fireLast k = u.wait k := by
      rw [State.fireLast, attempt_full (hfaulted.trans hok) (by rw [hcount, hslots]; exact hfull)]
      rfl
    rw [hlast, State.wait, hkey, hself, htime, ← hu]
    rfl

theorem promotedFires_promote (h : firesPending s k n) (hkick : (s.key k).state ≠ .kick) : PromotedFires s (s.promote k) k n := by
  rw [promote_fires h]
  exact promotedFires_fireLast hkick

/-! The events of the card's own -/

theorem keyFireDue_of {e : FireEntry} {rest : List FireEntry} (ha : (s.key k).state = .armed) (hl : s.fireList = e :: rest)
    (hc : e.channel = .key k) (hr : reached s.roll.rollTime e.time = true) : s.keyFireDue k = true := by
  simp [State.keyFireDue, ha, hl, hc, hr]

theorem passed_of {now e : Nat} {x : Option Nat} (hx : x = some e) (h : e ≤ now) : passed now x = true := by
  subst hx; exact decide_eq_true h

/-- Settles O36: the firing's request meets its group, the slots and the heat check; a dropped note promotes. -/
theorem keyFireStartsWaitsOrDrops : Obligations.KeyFireStartsWaitsOrDrops := by
  intro s k e rest m hp ha hm hl hc hr c capped room free ok starts drops
  let u : State := { s with fireList := rest }
  have hexec : exec (.keyFire k) s = .next (u.fireKey k) := by
    rw [exec_keyFire k hp (keyFireDue_of ha hl hc hr), hl]; rfl
  have hcurrent : (u.key k).current = some m := hm
  have hkick : (u.key k).state ≠ .kick := by
    rw [show (u.key k).state = .armed from ha]; decide
  have taken {v : State} (h : u.attempt k = (true, v)) : u.fireKey k = v := by rw [State.fireKey, h]; rfl
  have dropped {d : Counter} (h : u.attempt k = (false, u.bump d)) : drops d := by
    have hfire : u.fireKey k = (u.bump d).promote k := by rw [State.fireKey, h]; rfl
    rw [hfire] at hexec
    refine ⟨fun hnone => ?_, fun n hn => ⟨u.bump d, _, rfl, counted_bump u d, hexec, promotedFires_promote (s := u.bump d) hn hkick⟩⟩
    obtain ⟨hmoves, honly⟩ := movesOn_promote (s := u.bump d) hnone
    refine ⟨_, hexec, fun x => ?_, hmoves, ?_⟩
    · have hcounters : ((u.bump d).promote k).counters = (u.bump d).counters := by rw [honly]
      rw [State.counter, hcounters]
      exact counted_bump u d x
    · rw [honly]; rfl
  refine ⟨fun hok hfree hwhole => ?_, fun hok hfree hover hfloor => ?_, fun hok hfree hover hfloor => ?_, fun hok hfull => ?_,
    fun hbad => dropped (attempt_faulted (Bool.eq_true_of_not_eq_false hbad))⟩
  · rw [taken ((attempt_free (s := u) hok hfree).trans (kickStart_whole (s := u) hcurrent hwhole _))] at hexec
    refine ⟨_, hexec, ?_, fun d => ?_⟩
    · rw [startKick_kicked]; rfl
    · rw [counter_started, show lateCount u m = lateCount s m from rfl]; simp; rfl
  · rw [taken ((attempt_free (s := u) hok hfree).trans (kickStart_trimmed (s := u) hcurrent hover hfloor _))] at hexec
    refine ⟨_, hexec, ?_, fun d => ?_⟩
    · rw [trimmed_kicked]; rfl
    · rw [counter_trimmed, show lateCount u m = lateCount s m from rfl]; simp; rfl
  · exact dropped ((attempt_free (s := u) hok hfree).trans (kickStart_refused (s := u) hcurrent hover hfloor _))
  · rw [taken (attempt_full (s := u) hok hfull)] at hexec
    exact hexec

/-- Settles O40: both events end in the promotion of the pending note. -/
theorem gapEndAndDeferExpiryMoveOn : Obligations.GapEndAndDeferExpiryMoveOn := by
  intro s k hp c g
  refine ⟨fun e hstate he hpast => ?_, fun w hstate hlimit hw hpast => ?_⟩
  · have hkick : (s.key k).state ≠ .kick := by
      rw [show (s.key k).state = .release from hstate]; decide
    have hdue : s.gapDue k = true := by
      rw [State.gapDue, show (s.key k).state = .release from hstate, passed_of he hpast]; rfl
    refine ⟨fun hnone => ?_, fun n hn => ⟨_, exec_gapEnd k hp hdue, promotedFires_promote hn hkick⟩⟩
    exact ⟨_, exec_gapEnd k hp hdue, movesOn_promote hnone⟩
  · have hkick : (s.key k).state ≠ .kick := by
      rw [show (s.key k).state = .waiting from hstate]; decide
    have hdue : s.deferDue k = true := by
      have hpassed : passed s.deviceTime ((s.key k).waitStart.map (· + s.tables.settings.deferLimit)) = true :=
        passed_of (by rw [show (s.key k).waitStart = some w from hw]; rfl) hpast
      rw [State.deferDue, show (s.key k).state = .waiting from hstate, decide_eq_true hlimit, hpassed]; rfl
    let u : State := (s.dropWait (.key k)).bump .deferDrop
    have hexec : exec (.deferExpiry k) s = .next (u.promote k) := exec_deferExpiry k hp hdue
    intro waiting
    refine ⟨fun hnone => ?_, fun n hn => ⟨u, _, rfl, counted_bump (s.dropWait (.key k)) _, hexec,
      promotedFires_promote (s := u) hn hkick⟩⟩
    obtain ⟨hmoves, honly⟩ := movesOn_promote (s := u) hnone
    refine ⟨_, hexec, fun x => ?_, hmoves, ?_⟩
    · have hcounters : (u.promote k).counters = u.counters := by rw [honly]
      rw [State.counter, hcounters]
      exact counted_bump (s.dropWait (.key k)) _ x
    · rw [honly]; rfl

end Sys2Proof.Machine
end

section
/-! PROOFS. O37, O39, O41: a kick's end, the releases of a held key, and KEY TEST. -/

namespace Sys2Proof.Machine

open Sys2Proof.Safety

variable {s t u : State} {k : Key} {n m : Note}

/-! The end of a kick and the release of a held key -/

/-- A key released by the hold limit (R57, R113). -/
theorem limitRelease_eq (s : State) (k : Key) : s.limitRelease k = s.withKey k
    { Released (s.key k) s.deviceTime (s.record k).repeatGap with
      holdReleased := true, current := (s.key k).current.map fun m => { m with release := none } } := by
  unfold State.limitRelease State.enterRelease
  dsimp only
  rw [State.withKey_withKey, State.key_withKey_self]
  rfl

/-- A key channel as its kick ends and the key is held (R97, R103, R107, R116). -/
def HeldKey (c : KeyChannel) (now minHold holdDuty : Nat) : KeyChannel :=
  { c with
    state := .hold, appliedKick := none, kickEnd := none, minHoldEnd := some (now + minHold)
    testRelease := match c.current with
      | some m => if m.fire = none then some (now + 100000) else none
      | none => none
    duty := holdDuty }

theorem toHold_eq (c : KeyChannel) (now minHold holdDuty : Nat) :
    c.toHold now minHold holdDuty = HeldKey c now minHold holdDuty := by
  have htest : (if (c.current.map Note.isTest).getD false then some (now + Config.testHold) else none)
      = match c.current with
        | some m => if m.fire = none then some (now + 100000) else none
        | none => none := by
    cases c.current with
    | none => rfl
    | some m =>
      show (if m.fire.isNone = true then some (now + 100000) else none) = if m.fire = none then some (now + 100000) else none
      cases m.fire <;> rfl
  rw [KeyChannel.toHold, htest]
  rfl

theorem endKick_held (h : (s.key k).holdWatch.map (·.expired) ≠ some true) : s.endKick k
    = s.withKey k (HeldKey (s.key k) s.deviceTime s.tables.settings.minHold (s.record k).holdDuty) := by
  have hnot (x : Option Bool) (hx : x ≠ some true) : ¬x.getD false = true := by
    cases x with
    | none => decide
    | some b => exact fun hb => hx (congrArg _ hb)
  rw [State.endKick, if_neg (hnot _ h), toHold_eq]

theorem endKick_expired (h : (s.key k).holdWatch.map (·.expired) = some true) : s.endKick k = s.limitRelease k := by
  rw [State.endKick, h]
  exact if_pos rfl

theorem kickEndDue_of {e : Nat} (hstate : (s.key k).state = .kick) (he : (s.key k).kickEnd = some e) (hpast : e ≤ s.deviceTime) :
    s.kickEndDue k = true := by
  rw [State.kickEndDue, hstate, passed_of he hpast]; rfl

/-- Settles O37: with nobody waiting the freed slot goes to nobody. -/
theorem kickEndEntersHold : Obligations.KickEndEntersHold := by
  intro s k e hp hstate he hpast hlist c expired
  have hexec := exec_kickEnd k hp (kickEndDue_of hstate he hpast)
  refine ⟨fun hheld => ?_, fun hover => ?_⟩
  · rw [hexec, endKick_held hheld, handOn_nil (by exact hlist)]
    rfl
  · rw [hexec, endKick_expired hover, limitRelease_eq, handOn_nil (by exact hlist)]

/-- Settles O39: each release is `enterRelease`, by the hold limit with the release time discarded. -/
theorem heldKeysAreReleased : Obligations.HeldKeysAreReleased := by
  intro s k hp c released
  refine ⟨fun m r e hstate hm hr hreached he hpast => ?_, fun e hstate he hpast => ?_, fun w hstopped hw hpast => ?_⟩
  · refine exec_holdRelease k hp ?_
    have hrelease : releaseReached s.roll.rollTime (s.key k).current = true := by
      rw [show (s.key k).current = some m from hm, releaseReached, hr]
      exact hreached
    rw [State.releaseDue, show (s.key k).state = .hold from hstate, hrelease, passed_of he hpast]; rfl
  · refine exec_testRelease k hp ?_
    rw [State.testReleaseDue, show (s.key k).state = .hold from hstate, passed_of he hpast]; rfl
  · have due (h : (s.key k).state = .kick ∨ (s.key k).state = .hold) : s.holdLimitDue k = true := by
      have hbusy : ((s.key k).state == .kick || (s.key k).state == .hold) = true := by
        rcases h with h | h <;> rw [h] <;> rfl
      rw [State.holdLimitDue, hbusy, hstopped, show (s.key k).holdWatch = some ⟨w, false⟩ from hw]
      exact decide_eq_true hpast
    refine ⟨fun hstate => ?_, fun hstate => ?_⟩
    · rw [exec_holdLimitExpiry k hp (due (.inr hstate)), if_pos hstate, limitRelease_eq]
    · rw [exec_holdLimitExpiry k hp (due (.inl hstate)), if_neg (by rw [show (s.key k).state = .kick from hstate]; decide),
        show (s.key k).holdWatch = some ⟨w, false⟩ from hw]
      rfl

/-! KEY TEST -/

theorem clampVelocity_eq {r : KeyRecord} (h : r.vFloor ≤ r.vMax) (v : Nat) :
    clampVelocity r v = max r.vFloor (min r.vMax v) := by
  unfold clampVelocity
  split
  · omega
  · split <;> omega

theorem kickFor_eq {r : KeyRecord} (h : 500 ≤ r.kickMax) (v : Nat) :
    kickFor r v = max 500 (min r.kickMax (r.k0 + v * r.kg / 1024)) := by
  have clamp (x : Nat) : (if x < 500 then 500 else if r.kickMax < x then r.kickMax else x) = max 500 (min r.kickMax x) := by
    split
    · omega
    · split <;> omega
  exact clamp _

/-- The kick of a note without a fire time, outside the list, counts nothing (R92). -/
theorem startKick_test (hf : n.fire = none) (s : State) (k : Key) (kick : Nat) :
    s.startKick k n kick false = s.withKey k (KickedKey (s.key k) n s.deviceTime kick false s.clockStopped) := by
  rw [State.startKick, hf]
  rfl

/-- How a KEY TEST that is taken is answered (R114). -/
theorem judgeKeyTest_taken {key : Byte} {velocity : BitVec 16} (hroll : s.roll.rollState = .noRoll)
    (hkey : key.toNat = k.number) (hidle : (s.key k).state = .idle) :
    judgeKeyTest key velocity s = accept .done fun t =>
      State.fireLast (t.withKey k { t.key k with
        current := some (testNote (t.record k) velocity.toNat), holdReleased := false }) k := by
  have hrun : ¬s.rollActive = true := fun h => bne_iff_ne.1 h hroll
  rw [judgeKeyTest, if_neg hrun, hkey, keyOfNumber_number]
  exact if_neg (not_not.2 hidle)

/-- Settles O41: the test note meets its group, the slots and the heat check as any note does, with nothing behind it. -/
theorem keyTestStrikes : Obligations.KeyTestStrikes := by
  intro s tag key velocity k hp hq hroll hkey hidle hrange hmax r v kick note c replied room
  have hnote : testNote r velocity.toNat = note := by
    rw [testNote, clampVelocity_eq hrange, kickFor_eq (le_trans (by decide) hmax), lead, flight]
  have hexec : exec (.keyTest tag key velocity) s = .next ((replied.withKey k c).fireLast k) := by
    refine (exec_keyTest hp ..).trans (congrArg _
      ((control_accept s tag _ _ .done _ hq (judgeKeyTest_taken hroll hkey hidle)).trans ?_))
    rw [show testNote ((s.validFrame.queueReply tag 0x33#8 .done []).record k) velocity.toNat = note from hnote]
    rfl
  rw [hexec]
  have hself : (replied.withKey k c).key k = c := State.key_withKey_self ..
  have hbefore : (replied.key k).state ≠ .kick := by
    rw [show (replied.key k).state = .idle from hidle]; decide
  have hafter : c.state ≠ .kick := hbefore
  have hcount : (replied.withKey k c).kickCount = s.kickCount := kickCount_withKey hbefore hafter
  have hcurrent : ((replied.withKey k c).key k).current = some note := by rw [hself]
  have hcapped : (replied.withKey k c).capped k note = kick := by
    have hle : kick ≤ r.kickMax := max_le (le_trans (by decide) hmax) (min_le_left ..)
    exact min_eq_left hle
  have hroom : (replied.withKey k c).room k = room := by rw [State.room, hself]; rfl
  have hstopped : (replied.withKey k c).clockStopped = false := by
    show (s.validFrame.clocked && _) = false
    rw [show s.validFrame.clocked = s.clocked from rfl, State.clocked, hroll]; rfl
  have dropped {d : Counter} (h : (replied.withKey k c).attempt k = (false, (replied.withKey k c).bump d)) :
      (replied.withKey k c).fireLast k = (replied.withKey k (IdleKey c)).bump d := by
    rw [State.fireLast, h]
    show ((replied.withKey k c).bump d).goIdle k = _
    rw [State.goIdle, State.key_bump, hself]
    show ((replied.withKey k c).withKey k c.toIdle).bump d = _
    rw [State.withKey_withKey]
    rfl
  have taken {w : State} (h : (replied.withKey k c).attempt k = (true, w)) : (replied.withKey k c).fireLast k = w := by
    rw [State.fireLast, h]; rfl
  refine ⟨fun hok hfree => ?_, fun hok hfull => ?_, fun hbad => congrArg _ (dropped (attempt_faulted hbad))⟩
  · have hslot := attempt_free (s := replied.withKey k c) (k := k) hok (by rw [hcount]; exact hfree)
    refine ⟨fun hwhole => ?_, fun hover hfloor => ?_, fun hover hfloor => ?_⟩
    · rw [taken (hslot.trans (kickStart_whole hcurrent (by rw [hcapped, hroom]; exact hwhole) _)),
        startKick_test rfl, hself, hcapped, hstopped, State.withKey_withKey]
      rfl
    · rw [taken (hslot.trans (kickStart_trimmed hcurrent (by rw [hcapped, hroom]; exact hover) (by rw [hroom]; exact hfloor) _)),
        startKick_test rfl, State.key_bump, hself, hroom, State.clockStopped_bump, hstopped]
      show Host.Outcome.next (((replied.withKey k c).withKey k _).bump .heatTrim) = _
      rw [State.withKey_withKey]
      rfl
    · exact congrArg _ (dropped (hslot.trans
        (kickStart_refused hcurrent (by rw [hcapped, hroom]; exact hover) (by rw [hroom]; exact hfloor) _)))
  · rw [taken (attempt_full (s := replied.withKey k c) (k := k) hok (by rw [hcount]; exact Nat.not_lt.2 hfull)), State.wait,
      hself, State.withKey_withKey]
    rfl

end Sys2Proof.Machine
end

section
/-! PROOFS. O32: the numbers of a planned note. -/

namespace Sys2Proof.Machine

open Sys2Proof.Safety

variable {s t u : State}

/-- An accented line, as a match on the last accent line (R75). -/
theorem accentedOn_eq (r : ExprRecord) (p : ExprProfile) (n : Nat) : r.accentedOn p n = match r.lastAccent with
    | some a => decide ((n : Int) - p.accentReach ≤ a)
    | none => false := by
  unfold ExprRecord.accentedOn
  cases r.lastAccent with
  | none => rfl
  | some a => exact decide_eq_decide.2 (by omega)

theorem noteLevel_le {intensity boost scale : Nat} {accented soft : Bool} (hi : intensity ≤ 1023) (hs : scale ≤ 256) :
    noteLevel intensity accented boost soft scale ≤ 1023 := by
  have hlifted : (if accented then min 1023 (intensity + boost) else intensity) ≤ 1023 := by
    split
    · exact min_le_left ..
    · exact hi
  unfold noteLevel
  generalize (if accented then min 1023 (intensity + boost) else intensity) = lifted at hlifted ⊢
  split
  · refine Nat.div_le_of_le_mul ?_
    calc lifted * scale ≤ 1023 * 256 := Nat.mul_le_mul hlifted hs
      _ = 256 * 1023 := by decide
  · exact hlifted

/-- A quotient rounded half up does not rise with its divisor. -/
theorem roundedDiv_antitone (T : Nat) {v w : Nat} (hv : 0 < v) (h : v ≤ w) : (T + w / 2) / w ≤ (T + v / 2) / v := by
  rw [Nat.le_div_iff_mul_le hv]
  rcases hq : (T + w / 2) / w with _ | q
  · omega
  · have hqw : (q + 1) * w ≤ T + w / 2 := hq ▸ Nat.div_mul_le_self ..
    have hexp (x : Nat) : (q + 1) * x = q * x + x := Nat.succ_mul q x
    have hmono : q * v ≤ q * w := Nat.mul_le_mul_left q h
    rw [hexp] at hqw ⊢
    omega

theorem flight_antitone (r : KeyRecord) {v w : Nat} (hv : 0 < v) (h : v ≤ w) : flight r w ≤ flight r v :=
  roundedDiv_antitone _ hv h

theorem kickFor_mono {r : KeyRecord} (hmax : 500 ≤ r.kickMax) {v w : Nat} (h : v ≤ w) : kickFor r v ≤ kickFor r w := by
  rw [kickFor_eq hmax, kickFor_eq hmax]
  have hraw : r.k0 + v * r.kg / 1024 ≤ r.k0 + w * r.kg / 1024 :=
    Nat.add_le_add_left (Nat.div_le_div_right (Nat.mul_le_mul_right _ h)) _
  exact max_le_max le_rfl (min_le_min le_rfl hraw)

/-- A note is computed from the record and the profile of its key's half (R67, R84). -/
theorem noteFor_eq (s : State) (k : Key) (n : Nat) :
    let bass := k.number ≤ s.tables.exprBass.splitKey
    let half := if bass then s.exprBass else s.exprTreble
    let profile := if bass then s.tables.exprBass else s.tables.exprTreble
    s.noteFor k n = rollNote (s.record k) s.tables.velocity n (s.due n)
      (noteLevel (half.intensity / 256) (half.accentedOn profile n) profile.accentBoost s.pedalUnit.planned.soft
        s.tables.exprBass.softScale) (half.accentedOn profile n) := by
  intro bass half profile
  have hrecord : s.exprRecord (s.half k) = half := by
    show s.exprRecord (s.half k) = if k.number ≤ s.tables.exprBass.splitKey then s.exprBass else s.exprTreble
    unfold State.half
    split <;> rfl
  have hprofile : s.tables.profile (s.half k) = profile := by
    show s.tables.profile (s.half k)
      = if k.number ≤ s.tables.exprBass.splitKey then s.tables.exprBass else s.tables.exprTreble
    unfold State.half
    split <;> rfl
  rw [State.noteFor, hrecord, hprofile]
  rfl

/-- Settles O32: one formula after another, from the level of the key's half. -/
theorem noteNumbersByTheirFormulas : Obligations.NoteNumbersByTheirFormulas := by
  intro s k n r note bass half profile accented lifted level hrange hfloor hmax
  have haccented : half.accentedOn profile n = accented := accentedOn_eq half profile n
  have hnote : note = rollNote r s.tables.velocity n (s.due n) level accented := by
    refine (noteFor_eq s k n).trans ?_
    show rollNote r _ n _ (noteLevel _ (half.accentedOn profile n) _ _ _) (half.accentedOn profile n) = _
    rw [haccented]
    rfl
  have hkick : 500 ≤ r.kickMax := le_trans (by decide) hmax
  have hvelocity : note.velocity = max r.vFloor (min r.vMax (mappedVelocity s.tables.velocity level)) := by
    rw [hnote]; exact clampVelocity_eq hrange _
  have hkicked : note.kick = max 500 (min r.kickMax (r.k0 + note.velocity * r.kg / 1024)) := by
    rw [hnote]; exact kickFor_eq hkick _
  refine ⟨by rw [hnote]; rfl, hvelocity, by rw [hnote]; rfl, hkicked, ?_, ?_, ?_, ?_, by rw [hnote]; rfl, by rw [hnote]; rfl,
    by rw [hnote]; rfl, by rw [hnote]; rfl, by rw [hnote]; rfl, fun hint hscale => ?_, fun v w hv hvw =>
      ⟨flight_antitone r (by omega) hvw, kickFor_mono hkick hvw⟩⟩
  · rw [hvelocity]; exact le_max_left ..
  · rw [hvelocity]; exact max_le hrange (min_le_left ..)
  · rw [hkicked]; exact le_max_left ..
  · rw [hkicked]; exact max_le hkick (min_le_left ..)
  · have hlevel : level = noteLevel (half.intensity / 256) accented profile.accentBoost s.pedalUnit.planned.soft
        s.tables.exprBass.softScale := rfl
    rw [hlevel]
    exact noteLevel_le (Nat.div_le_of_le_mul (by omega)) hscale

end Sys2Proof.Machine
end

section
/-! PROOFS. O42: the phases of a pedal channel. -/

namespace Sys2Proof.Machine

open Sys2Proof.Safety

variable {s t u : State} {p : Pedal} {f : Press}

/-- A pedal channel kicking with its press f from a device time on (R141). -/
def KickedPedal (c : PedalChannel) (now : Nat) (f : Press) : PedalChannel :=
  { c with state := .kick, current := some f, kickEnd := some (now + f.kick), waitStart := none, duty := 255 }

theorem toKick_pedal {c : PedalChannel} (hf : c.current = some f) (now : Nat) : c.toKick now = KickedPedal c now f := by
  obtain ⟨state, current, pending, kickEnd, waitStart, releaseEnd, duty⟩ := c
  cases hf
  rfl

/-- A pedal whose channel is not kicking before or after leaves the kick count as it is. -/
theorem kickCount_withPedal {c : PedalChannel} (hs : (s.pedal p).state ≠ .kick) (hc : c.state ≠ .kick) :
    (s.withPedal p c).kickCount = s.kickCount := by
  have h := (changesOnly_withPedal s p c).kickCount
  have hbefore : channelState s (.pedal p) ≠ .kick := hs
  have hafter : channelState (s.withPedal p c) (.pedal p) ≠ .kick := by
    show ((s.withPedal p c).pedal p).state ≠ .kick
    rw [State.pedal_withPedal_self]; exact hc
  rwa [if_neg hbefore, if_neg hafter] at h

theorem firePedal_free (hf : (s.pedal p).current = some f) (hfree : s.kickCount < s.tables.settings.kickSlots) :
    s.firePedal p = s.withPedal p (KickedPedal (s.pedal p) s.deviceTime f) := by
  rw [State.firePedal, if_pos hfree, State.startPedal, toKick_pedal hf]

theorem firePedal_full (hfull : ¬s.kickCount < s.tables.settings.kickSlots) :
    s.firePedal p = { s.withPedal p { s.pedal p with state := .waiting, waitStart := some s.deviceTime } with
      waitList := insertWait ⟨.pedal p, .pedal, s.deviceTime⟩ s.waitList } := if_neg hfull

/-- A pedal channel ARMED with a press, everything else at rest (R140). -/
def ArmedPedal (f : Press) : PedalChannel := ⟨.armed, some f, none, none, none, none, 0⟩

theorem armPedal_ahead (h : reached s.roll.rollTime f.fire = false) :
    s.armPedal p f = { s.withPedal p (ArmedPedal f) with fireList := insertFire ⟨.pedal p, f.fire⟩ s.fireList } :=
  if_neg ((Bool.not_eq_true _).mpr h)

theorem armPedal_fires (h : reached s.roll.rollTime f.fire = true) :
    s.armPedal p f = (s.withPedal p (ArmedPedal f)).firePedal p := if_pos h

theorem armPedal_free (h : reached s.roll.rollTime f.fire = true) (hidle : (s.pedal p).state ≠ .kick)
    (hfree : s.kickCount < s.tables.settings.kickSlots) :
    s.armPedal p f = s.withPedal p (KickedPedal (ArmedPedal f) s.deviceTime f) := by
  have hcount : (s.withPedal p (ArmedPedal f)).kickCount = s.kickCount := kickCount_withPedal hidle nofun
  have hself := State.pedal_withPedal_self (s := s) p (ArmedPedal f)
  rw [armPedal_fires h, firePedal_free (by rw [hself]; rfl) (by rw [hcount]; exact hfree), hself, State.withPedal_withPedal]
  rfl

theorem armPedal_full (h : reached s.roll.rollTime f.fire = true) (hidle : (s.pedal p).state ≠ .kick)
    (hfull : ¬s.kickCount < s.tables.settings.kickSlots) :
    s.armPedal p f = { s.withPedal p ⟨.waiting, some f, none, none, some s.deviceTime, none, 0⟩ with
      waitList := insertWait ⟨.pedal p, .pedal, s.deviceTime⟩ s.waitList } := by
  have hcount : (s.withPedal p (ArmedPedal f)).kickCount = s.kickCount := kickCount_withPedal hidle nofun
  have hself := State.pedal_withPedal_self (s := s) p (ArmedPedal f)
  rw [armPedal_fires h, firePedal_full (by rw [hcount]; exact hfull), hself, State.withPedal_withPedal]
  rfl

theorem liftReached_iff (hf : (s.pedal p).current = some f) :
    s.liftReached p = true ↔ ∃ t, f.lift = some t ∧ reached s.roll.rollTime t = true := by
  rw [State.liftReached, hf]
  dsimp only
  cases f.lift with
  | none => exact iff_of_false nofun fun ⟨_, h, _⟩ => nomatch h
  | some t => exact ⟨fun h => ⟨t, rfl, h⟩, fun ⟨_, h, hr⟩ => by cases h; exact hr⟩

/-- Settles O42: each phase is one operation of the pedal channel. -/
theorem pedalChannelPhases : Obligations.PedalChannelPhases := by
  intro s p hp c free kicked released lifted
  refine ⟨fun e rest f hstate hf hl hc hr => ?_, fun f e hstate hf he hpast => ?_, fun f hstate hf hlift => ?_,
    fun e hstate he hpast => ?_⟩
  · have hdue : s.pedalFireDue p = true := by
      simp [State.pedalFireDue, show (s.pedal p).state = .armed from hstate, hl, hc, hr]
    have hexec : exec (.pedalFire p) s = .next (State.firePedal { s with fireList := rest } p) := by
      rw [exec_pedalFire p hp hdue, hl]; rfl
    rw [hexec]
    exact ⟨fun hfree => congrArg _ (firePedal_free (s := { s with fireList := rest }) hf hfree),
      fun hfull => congrArg _ (firePedal_full (s := { s with fireList := rest }) hfull)⟩
  · intro held
    have hdue : s.pedalKickEndDue p = true := by
      rw [State.pedalKickEndDue, show (s.pedal p).state = .kick from hstate, passed_of he hpast]; rfl
    have hlifted (h : lifted f) : exec (.pedalKickEnd p) s = .next (s.withPedal p released).handOn := by
      rw [exec_pedalKickEnd p hp hdue, State.endPedalKick, if_pos ((liftReached_iff hf).2 h)]
      rfl
    have hheld (h : ¬lifted f) : exec (.pedalKickEnd p) s = .next (s.withPedal p held).handOn := by
      rw [exec_pedalKickEnd p hp hdue, State.endPedalKick, if_neg fun hr => h ((liftReached_iff hf).1 hr)]
    refine ⟨hlifted, hheld, fun hlist => ⟨fun h => ?_, fun h => ?_⟩⟩
    · rw [hlifted h, handOn_nil (by exact hlist)]
    · rw [hheld h, handOn_nil (by exact hlist)]
  · refine exec_pedalLift p hp ?_
    rw [State.pedalLiftDue, show (s.pedal p).state = .hold from hstate, (liftReached_iff hf).2 hlift]; rfl
  · have hdue : s.pedalReleaseDue p = true := by
      rw [State.pedalReleaseDue, show (s.pedal p).state = .release from hstate, passed_of he hpast]; rfl
    have hkick : (s.pedal p).state ≠ .kick := by
      rw [show (s.pedal p).state = .release from hstate]; decide
    have armed {f : Press} (hf : c.pending = some f) : exec (.pedalReleaseEnd p) s = .next (s.armPedal p f) := by
      rw [exec_pedalReleaseEnd p hp hdue, State.endPedalRelease, show (s.pedal p).pending = some f from hf]
    refine ⟨fun hnone => ?_, fun f hf hahead => ?_, fun f hf hreached => ⟨fun hfree => ?_, fun hfull => ?_⟩⟩
    · rw [exec_pedalReleaseEnd p hp hdue, State.endPedalRelease, show (s.pedal p).pending = none from hnone]
      rfl
    · rw [armed hf, armPedal_ahead hahead]; rfl
    · rw [armed hf, armPedal_free hreached hkick hfree]; rfl
    · rw [armed hf, armPedal_full hreached hkick hfull]

end Sys2Proof.Machine
end

section
/-! PROOFS. What an operation on one channel leaves of every other, and which channels request a kick slot (R119). -/

namespace Sys2Proof.Machine

open Sys2Proof.Safety

variable {s t u : State} {k : Key} {p : Pedal} {c d : Channel}

/-! One channel acts -/

/-- A channel's record and its entries in the two lists stand. -/
structure SameChannel (d : Channel) (s t : State) : Prop where
  key : ∀ k, d = .key k → t.key k = s.key k
  pedal : ∀ p, d = .pedal p → t.pedal p = s.pedal p
  fire : ∀ e, e.channel = d → (e ∈ t.fireList ↔ e ∈ s.fireList)
  wait : ∀ e, e.channel = d → (e ∈ t.waitList ↔ e ∈ s.waitList)

theorem SameChannel.refl (d : Channel) (s : State) : SameChannel d s s :=
  ⟨fun _ _ => rfl, fun _ _ => rfl, fun _ _ => Iff.rfl, fun _ _ => Iff.rfl⟩

theorem SameChannel.trans (h : SameChannel d s t) (h' : SameChannel d t u) : SameChannel d s u :=
  ⟨fun k e => (h'.key k e).trans (h.key k e), fun p e => (h'.pedal p e).trans (h.pedal p e),
    fun x e => (h'.fire x e).trans (h.fire x e), fun x e => (h'.wait x e).trans (h.wait x e)⟩

/-- One channel acts: its own record, its entries in the lists and counters may change, nothing else. -/
structure ActsOn (c : Channel) (s t : State) : Prop where
  only : OnlyChannels s t
  others : ∀ d, d ≠ c → SameChannel d s t

theorem ActsOn.refl (c : Channel) (s : State) : ActsOn c s s := ⟨OnlyChannels.refl s, fun d _ => SameChannel.refl d s⟩

theorem ActsOn.trans (h : ActsOn c s t) (h' : ActsOn c t u) : ActsOn c s u :=
  ⟨h.only.trans h'.only, fun d hd => (h.others d hd).trans (h'.others d hd)⟩

theorem ActsOn.ite {b : Prop} [Decidable b] (h : ActsOn c s t) (h' : ActsOn c s u) : ActsOn c s (if b then t else u) := by
  split <;> assumption

theorem actsOn_withKey (s : State) (k : Key) (r : KeyChannel) : ActsOn (.key k) s (s.withKey k r) :=
  ⟨rfl, fun d hd => ⟨fun j e => State.key_withKey_ne s k j r fun h => hd (by rw [e, h]), fun _ _ => rfl, fun _ _ => Iff.rfl,
    fun _ _ => Iff.rfl⟩⟩

theorem actsOn_withPedal (s : State) (p : Pedal) (r : PedalChannel) : ActsOn (.pedal p) s (s.withPedal p r) :=
  ⟨rfl, fun d hd => ⟨fun _ _ => rfl, fun q e => by rw [State.pedal_withPedal, if_neg fun h => hd (by rw [e, h])],
    fun _ _ => Iff.rfl, fun _ _ => Iff.rfl⟩⟩

theorem actsOn_bump (s : State) (n : Counter) (c : Channel) : ActsOn c s (s.bump n) :=
  ⟨rfl, fun _ _ => ⟨fun _ _ => rfl, fun _ _ => rfl, fun _ _ => Iff.rfl, fun _ _ => Iff.rfl⟩⟩

theorem actsOn_armFire (s : State) (c : Channel) (r : RollTime) : ActsOn c s (s.armFire c r) := by
  refine ⟨rfl, fun d hd => ⟨fun _ _ => rfl, fun _ _ => rfl, fun e he => ?_, fun _ _ => Iff.rfl⟩⟩
  show e ∈ insertFire ⟨c, r⟩ s.fireList ↔ _
  rw [(insertFire_perm _ _).mem_iff, List.mem_cons]
  exact or_iff_right fun h => hd (by rw [← he, h])

theorem actsOn_joinWait (s : State) (c : Channel) (w : WaitClass) : ActsOn c s (s.joinWait c w) := by
  refine ⟨rfl, fun d hd => ⟨fun _ _ => rfl, fun _ _ => rfl, fun _ _ => Iff.rfl, fun e he => ?_⟩⟩
  show e ∈ insertWait ⟨c, w, s.deviceTime⟩ s.waitList ↔ _
  rw [(insertWait_perm _ _).mem_iff, List.mem_cons]
  exact or_iff_right fun h => hd (by rw [← he, h])

theorem actsOn_dropFire (s : State) (c : Channel) : ActsOn c s (s.dropFire c) := by
  refine ⟨rfl, fun d hd => ⟨fun _ _ => rfl, fun _ _ => rfl, fun e he => ?_, fun _ _ => Iff.rfl⟩⟩
  show e ∈ s.fireList.filter _ ↔ _
  rw [List.mem_filter, he]
  exact and_iff_left (bne_iff_ne.2 hd)

theorem actsOn_dropWait (s : State) (c : Channel) : ActsOn c s (s.dropWait c) := by
  refine ⟨rfl, fun d hd => ⟨fun _ _ => rfl, fun _ _ => rfl, fun _ _ => Iff.rfl, fun e he => ?_⟩⟩
  show e ∈ s.waitList.filter _ ↔ _
  rw [List.mem_filter, he]
  exact and_iff_left (bne_iff_ne.2 hd)

/-- The head of the Kick Wait List leaves it. -/
theorem actsOn_waitHead {e : WaitEntry} {es : List WaitEntry} (h : s.waitList = e :: es) :
    ActsOn e.channel s { s with waitList := es } := by
  refine ⟨rfl, fun d hd => ⟨fun _ _ => rfl, fun _ _ => rfl, fun _ _ => Iff.rfl, fun x hx => ?_⟩⟩
  rw [h, List.mem_cons]
  exact (or_iff_right fun e' => hd (by rw [← hx, e'])).symm

theorem actsOn_startKick (s : State) (k : Key) (n : Note) (kick : Nat) (b : Bool) :
    ActsOn (.key k) s (s.startKick k n kick b) := by
  refine ⟨onlyChannels_startKick .., fun d hd => ?_⟩
  rw [startKick_eq]
  have h := (actsOn_withKey s k ((s.key k).toKick n s.deviceTime kick b s.clockStopped)).others d hd
  exact ⟨h.key, h.pedal, h.fire, h.wait⟩

theorem actsOn_kickStart (s : State) (k : Key) (b : Bool) : ActsOn (.key k) s (s.kickStart k b).2 := by
  rcases kickStart_cases s k b with ⟨-, e⟩ | ⟨n, -, ⟨-, e⟩ | ⟨-, -, e⟩ | ⟨-, -, e⟩⟩
  · rw [e]; exact ActsOn.refl ..
  · rw [e]; exact actsOn_startKick ..
  · rw [e]; exact (actsOn_bump ..).trans (actsOn_startKick ..)
  · rw [e]; exact actsOn_bump ..

theorem actsOn_attempt (s : State) (k : Key) : ActsOn (.key k) s (s.attempt k).2 := by
  rcases attempt_cases s k with ⟨-, e⟩ | ⟨-, -, e⟩ | ⟨-, -, e⟩
  · rw [e]; exact actsOn_bump ..
  · rw [e]; exact actsOn_kickStart ..
  · rw [e]; exact (actsOn_withKey ..).trans (actsOn_joinWait ..)

theorem actsOn_goIdle (s : State) (k : Key) : ActsOn (.key k) s (s.goIdle k) := actsOn_withKey ..

theorem actsOn_fireLast (s : State) (k : Key) : ActsOn (.key k) s (s.fireLast k) :=
  ActsOn.ite (actsOn_attempt s k) ((actsOn_attempt s k).trans (actsOn_goIdle _ k))

theorem actsOn_promote (s : State) (k : Key) : ActsOn (.key k) s (s.promote k) := by
  rcases promote_cases s k with ⟨-, e⟩ | ⟨n, -, ⟨f, -, -, e⟩ | ⟨-, e⟩⟩
  · rw [e]; exact actsOn_goIdle ..
  · rw [e]; exact (actsOn_withKey ..).trans (actsOn_armFire ..)
  · rw [e]; exact (actsOn_withKey ..).trans (actsOn_fireLast ..)

theorem actsOn_fireKey (s : State) (k : Key) : ActsOn (.key k) s (s.fireKey k) :=
  ActsOn.ite (actsOn_attempt s k) ((actsOn_attempt s k).trans (actsOn_promote _ k))

theorem actsOn_expireWait (s : State) (k : Key) : ActsOn (.key k) s (s.expireWait k) :=
  ((actsOn_dropWait s _).trans (actsOn_bump ..)).trans (actsOn_promote _ k)

theorem actsOn_rearm (s : State) (k : Key) : ActsOn (.key k) s (s.rearm k) := by
  rcases rearm_cases s k with ⟨-, e⟩ | ⟨n, -, e⟩
  · rw [e]; exact actsOn_goIdle ..
  · rw [e]; exact (actsOn_withKey ..).trans (actsOn_armFire ..)

theorem actsOn_firePedal (s : State) (p : Pedal) : ActsOn (.pedal p) s (s.firePedal p) :=
  ActsOn.ite (actsOn_withPedal ..) ((actsOn_withPedal ..).trans (actsOn_joinWait ..))

theorem actsOn_armPedal (s : State) (p : Pedal) (f : Press) : ActsOn (.pedal p) s (s.armPedal p f) :=
  ActsOn.ite ((actsOn_withPedal ..).trans (actsOn_firePedal ..)) ((actsOn_withPedal ..).trans (actsOn_armFire ..))

theorem actsOn_endPedalRelease (s : State) (p : Pedal) : ActsOn (.pedal p) s (s.endPedalRelease p) := by
  unfold State.endPedalRelease
  split
  · exact actsOn_armPedal ..
  · exact actsOn_withPedal ..

/-- Judging a channel's request moves that channel only (R119). -/
theorem actsOn_judge (s : State) (c : Channel) : ActsOn c s (s.judge c) := by
  rcases judge_cases s c with ⟨-, e⟩ | ⟨-, ⟨p, rfl, -, e⟩ | ⟨k, rfl, -, e⟩ | ⟨p, rfl, -, e⟩ | ⟨k, rfl, -, -, e⟩ | ⟨k, rfl, -, -, e⟩⟩
  · rw [e]; exact ActsOn.refl ..
  · rw [e]; exact (actsOn_dropFire ..).trans (actsOn_firePedal ..)
  · rw [e]; exact (actsOn_dropFire ..).trans (actsOn_fireKey ..)
  · rw [e]; exact actsOn_endPedalRelease ..
  · rw [e]; exact actsOn_promote ..
  · rw [e]; exact actsOn_expireWait ..

/-! Requests -/

theorem any_fire_iff (s : State) (c : Channel) :
    (s.fireList.any fun e => e.channel == c && reached s.roll.rollTime e.time) = true
      ↔ ∃ e ∈ s.fireList, e.channel = c ∧ reached s.roll.rollTime e.time = true := by
  simp only [List.any_eq_true, Bool.and_eq_true, beq_iff_eq]

theorem firesNow_iff (s : State) (c : Channel) : s.firesNow c = true
    ↔ channelState s c = .armed ∧ ∃ e ∈ s.fireList, e.channel = c ∧ reached s.roll.rollTime e.time = true := by
  rw [← any_fire_iff]
  cases c <;> simp only [State.firesNow, channelState, Bool.and_eq_true, beq_iff_eq]

theorem passed_iff {now : Nat} {x : Option Nat} : passed now x = true ↔ ∃ e, x = some e ∧ e ≤ now := by
  cases x with
  | none => exact iff_of_false nofun fun ⟨_, h, _⟩ => nomatch h
  | some e => exact ⟨fun h => ⟨e, rfl, of_decide_eq_true h⟩, fun ⟨_, h, hle⟩ => by cases h; exact decide_eq_true hle⟩

theorem gapDue_iff : s.gapDue k = true ↔ (s.key k).state = .release ∧ ∃ e, (s.key k).gapEnd = some e ∧ e ≤ s.deviceTime := by
  rw [State.gapDue, Bool.and_eq_true, beq_iff_eq, passed_iff]

theorem deferDue_iff : s.deferDue k = true ↔ (s.key k).state = .waiting ∧ 0 < s.tables.settings.deferLimit
    ∧ ∃ w, (s.key k).waitStart = some w ∧ w + s.tables.settings.deferLimit ≤ s.deviceTime := by
  rw [State.deferDue, Bool.and_eq_true, Bool.and_eq_true, beq_iff_eq, decide_eq_true_iff, passed_iff, and_assoc]
  simp only [Option.map_eq_some_iff]
  exact and_congr_right fun _ => and_congr_right fun _ =>
    ⟨fun ⟨e, ⟨w, hw, he⟩, hle⟩ => ⟨w, hw, he ▸ hle⟩, fun ⟨w, hw, hle⟩ => ⟨_, ⟨w, hw, rfl⟩, hle⟩⟩

theorem pedalReleaseDue_iff : s.pedalReleaseDue p = true
    ↔ (s.pedal p).state = .release ∧ ∃ e, (s.pedal p).releaseEnd = some e ∧ e ≤ s.deviceTime := by
  rw [State.pedalReleaseDue, Bool.and_eq_true, beq_iff_eq, passed_iff]

theorem promotesToFire_iff : s.promotesToFire k = true ↔ ∃ n, firesPending s k n := by
  unfold State.promotesToFire firesPending
  cases hn : (s.key k).pending with
  | none => exact iff_of_false nofun fun ⟨_, h, _⟩ => nomatch h
  | some n =>
    dsimp only
    cases hf : n.fire with
    | none => exact iff_of_true rfl ⟨n, rfl, fun f h => by rw [hf] at h; cases h⟩
    | some f =>
      exact ⟨fun h => ⟨n, rfl, fun x hx => by rw [hf] at hx; cases hx; exact h⟩,
        fun ⟨m, hm, h⟩ => by cases hm; exact h f hf⟩

theorem armsToFire_iff : s.armsToFire p = true
    ↔ ∃ f, (s.pedal p).pending = some f ∧ reached s.roll.rollTime f.fire = true := by
  unfold State.armsToFire
  cases (s.pedal p).pending with
  | none => exact iff_of_false nofun fun ⟨_, h, _⟩ => nomatch h
  | some f => exact ⟨fun h => ⟨f, rfl, h⟩, fun ⟨m, hm, h⟩ => by cases hm; exact h⟩

/-- The machine's requests are the statements' (R98, R105, R109, R119, R123, R143). -/
theorem requestsNow_iff (s : State) (c : Channel) : s.requestsNow c = true ↔ Requests s c := by
  unfold State.requestsNow
  rw [Bool.or_eq_true, firesNow_iff]
  refine or_congr Iff.rfl ?_
  cases c with
  | pedal p =>
    rw [Bool.and_eq_true, pedalReleaseDue_iff, armsToFire_iff]
    constructor
    · rintro ⟨⟨hs, e, he, hle⟩, f, hf, hr⟩
      exact .inl ⟨p, f, e, rfl, hs, he, hle, hf, hr⟩
    · rintro (⟨q, f, e, hq, hs, he, hle, hf, hr⟩ | ⟨k, n, hk, -⟩)
      · cases hq; exact ⟨⟨hs, e, he, hle⟩, f, hf, hr⟩
      · cases hk
  | key k =>
    rw [Bool.and_eq_true, Bool.or_eq_true, gapDue_iff, deferDue_iff, promotesToFire_iff]
    constructor
    · rintro ⟨hdue, n, hn⟩
      exact .inr ⟨k, n, rfl, hn, hdue⟩
    · rintro (⟨q, f, e, hq, -⟩ | ⟨j, n, hj, hn, hdue⟩)
      · cases hq
      · cases hj; exact ⟨hdue, n, hn⟩

/-- A channel that stands fires now as before. -/
theorem firesNow_same (h : SameChannel d s t) (ho : OnlyChannels s t) : t.firesNow d = s.firesNow d := by
  have hstate : channelState t d = channelState s d := by
    cases d with
    | key k => exact congrArg KeyChannel.state (h.key k rfl)
    | pedal p => exact congrArg PedalChannel.state (h.pedal p rfl)
  rw [Bool.eq_iff_iff, firesNow_iff, firesNow_iff, hstate, ho.roll]
  refine and_congr_right fun _ => ⟨?_, ?_⟩
  · rintro ⟨e, he, hc, hr⟩; exact ⟨e, (h.fire e hc).1 he, hc, hr⟩
  · rintro ⟨e, he, hc, hr⟩; exact ⟨e, (h.fire e hc).2 he, hc, hr⟩

/-- A channel that stands requests as before. -/
theorem requestsNow_same (h : SameChannel d s t) (ho : OnlyChannels s t) : t.requestsNow d = s.requestsNow d := by
  unfold State.requestsNow
  rw [firesNow_same h ho]
  cases d with
  | pedal p =>
    simp only [State.pedalReleaseDue, State.armsToFire, h.pedal p rfl, ho.deviceTime, ho.roll]
  | key k =>
    simp only [State.gapDue, State.deferDue, State.promotesToFire, h.key k rfl, ho.deviceTime, ho.roll, ho.tables]

/-- A channel at rest requests nothing. -/
theorem requestsNow_of_atRest (h : atRest s c) : s.requestsNow c = false := by
  rw [← Bool.not_eq_true, requestsNow_iff]
  rintro (⟨ha, -⟩ | ⟨p, f, e, rfl, hs, -, -, hf, -⟩ | ⟨k, n, rfl, ⟨hn, -⟩, hdue⟩)
  · rcases h with h | ⟨h, -⟩ <;> rw [h] at ha <;> cases ha
  · rcases h with h | ⟨-, h⟩
    · exact absurd (h.symm.trans hs) nofun
    · exact absurd (Eq.symm h |>.trans hf) nofun
  · rcases h with h | ⟨h, hnone⟩
    · rcases hdue with ⟨hs, -⟩ | ⟨hs, -⟩ <;> exact absurd (h.symm.trans hs) nofun
    · exact absurd (Eq.symm hnone |>.trans hn) nofun

/-- A channel that stands is at rest as before. -/
theorem atRest_same (h : SameChannel d s t) : atRest t d ↔ atRest s d := by
  unfold atRest
  cases d with
  | key k => simp only [channelState, nothingPends, h.key k rfl]
  | pedal p => simp only [channelState, nothingPends, h.pedal p rfl]

/-- Where a channel is at rest, judging requests leaves it alone. -/
theorem sameChannel_judges (cs : List Channel) (h : atRest s d) : SameChannel d s (cs.foldl State.judge s) := by
  induction cs generalizing s with
  | nil => exact SameChannel.refl d s
  | cons c cs ih =>
    have hstep : SameChannel d s (s.judge c) := by
      by_cases hd : d = c
      · subst hd
        have hidle : s.judge d = s := by
          unfold State.judge
          rw [requestsNow_of_atRest h]
          rfl
        rw [hidle]
        exact SameChannel.refl d s
      · exact (actsOn_judge s c).others d hd
    exact hstep.trans (ih ((atRest_same hstep).2 h))

/-- A full card hands no slot on (R121). -/
theorem handOnLoop_full (h : ¬s.kickCount < s.tables.settings.kickSlots) (n : Nat) (ks : List Key) :
    State.handOnLoop n s ks = (s, ks) := by
  cases n with
  | zero => rfl
  | succ n =>
    unfold State.handOnLoop
    split
    · rfl
    · exact if_neg h

/-- With nobody waiting no slot is handed on (R121). -/
theorem handOnLoop_nil (h : s.waitList = []) (n : Nat) (ks : List Key) : State.handOnLoop n s ks = (s, ks) := by
  cases n with
  | zero => rfl
  | succ n => unfold State.handOnLoop; rw [h]

/-- A slot offered to the head of the list, a key: its kick start, or a note dropped (R121, R125). -/
theorem handOnLoop_key {e : WaitEntry} {rest : List WaitEntry} (hl : s.waitList = e :: rest) (hc : e.channel = .key k)
    (hfree : s.kickCount < s.tables.settings.kickSlots) (n : Nat) (ks : List Key) :
    State.handOnLoop (n + 1) s ks = State.handOnLoop n (State.kickStart { s with waitList := rest } k true).2
      (if (State.kickStart { s with waitList := rest } k true).1 then ks else k :: ks) := by
  conv_lhs => unfold State.handOnLoop
  rw [hl]
  dsimp only
  rw [if_pos hfree, hc]

/-- A slot offered to the head of the list, a pedal (R121, R141). -/
theorem handOnLoop_pedal {e : WaitEntry} {rest : List WaitEntry} (hl : s.waitList = e :: rest) (hc : e.channel = .pedal p)
    (hfree : s.kickCount < s.tables.settings.kickSlots) (n : Nat) (ks : List Key) :
    State.handOnLoop (n + 1) s ks = State.handOnLoop n (State.startPedal { s with waitList := rest } p) ks := by
  conv_lhs => unfold State.handOnLoop
  rw [hl]
  dsimp only
  rw [if_pos hfree, hc]

end Sys2Proof.Machine
end

section
/-! PROOFS. O38: a freed slot handed on. -/

namespace Sys2Proof.Machine

open Sys2Proof.Safety

variable {s t u b : State} {i j k : Key} {p : Pedal} {m n q : Note}

/-! A kick start, field by field -/

theorem startKick_key (s : State) (k : Key) (n : Note) (kick : Nat) (fromList : Bool) :
    (s.startKick k n kick fromList).key k = KickedKey (s.key k) n s.deviceTime kick fromList s.clockStopped := by
  rw [startKick_kicked]
  exact State.key_withKey_self ..

theorem startKick_otherKey (s : State) {j k : Key} (h : j ≠ k) (n : Note) (kick : Nat) (fromList : Bool) :
    (s.startKick k n kick fromList).key j = s.key j :=
  ((actsOn_startKick s k n kick fromList).others (.key j) fun e => h (Channel.key.inj e)).key j rfl

theorem startKick_only (s : State) (k : Key) (n : Note) (kick : Nat) (fromList : Bool) :
    s.startKick k n kick fromList = { s with
      keys := (s.startKick k n kick fromList).keys, counters := (s.startKick k n kick fromList).counters } := by
  rw [startKick_kicked]
  rfl

theorem kickCount_startKick (h : (s.key k).state ≠ .kick) (n : Note) (kick : Nat) (fromList : Bool) :
    (s.startKick k n kick fromList).kickCount = s.kickCount + 1 := by
  have hmove := (changesOnly_startKick s k n kick fromList).kickCount
  have hbefore : channelState s (.key k) ≠ .kick := h
  have hafter : channelState (s.startKick k n kick fromList) (.key k) = .kick := by
    show ((s.startKick k n kick fromList).key k).state = .kick
    rw [startKick_key]; rfl
  rwa [if_neg hbefore, if_pos hafter] at hmove

theorem tables_startKick (s : State) (k : Key) (n : Note) (kick : Nat) (fromList : Bool) :
    (s.startKick k n kick fromList).tables = s.tables := (onlyChannels_startKick ..).tables

/-! Slots handed on -/

theorem handOn_of_loop (h : State.handOnLoop s.waitList.length s [] = (b, [])) : s.handOn = b := by
  have hnone : (allKeys.filter fun k => ([] : List Key).contains k) = [] := List.filter_eq_nil_iff.2 fun k _ => by simp
  unfold State.handOn
  rw [h]
  dsimp only
  rw [hnone]
  exact judgeUpTo_nil b

/-- Where the heat check refused one head, that key is rearmed, and requests a slot if its fire time is reached (R121). -/
theorem handOn_dropped (h : State.handOnLoop s.waitList.length s [] = (b, [j])) :
    s.handOn = (b.rearm j).judgeUpTo ([Channel.key j].filter (b.rearm j).firesNow) := by
  have hone : (allKeys.filter fun k => [j].contains k) = [j] := by
    have hfun : (fun k => [j].contains k) = fun k => k == j := funext fun k => by simp [beq_eq_decide]
    rw [hfun, List.filter_beq, allKeys, List.count_eq_one_of_mem (List.nodup_finRange 88) (List.mem_finRange j)]
    rfl
  unfold State.handOn
  rw [h]
  dsimp only
  rw [hone]
  rfl

/-- A rearmed key without an entry of its own in the list fires now exactly when the fire time of its pending note is reached. -/
theorem firesNow_rearm (hlist : ∀ x ∈ b.fireList, x.channel ≠ .key j) : (b.rearm j).firesNow (.key j) = true
    ↔ ∃ n, (b.key j).pending = some n ∧ reached b.roll.rollTime (n.fire.getD b.roll.rollTime) = true := by
  rw [firesNow_iff]
  rcases rearm_cases b j with ⟨hnone, e⟩ | ⟨n, hn, e⟩
  · rw [e]
    refine iff_of_false (fun h => ?_) fun ⟨n, hn, _⟩ => by rw [hnone] at hn; cases hn
    have hstate : (b.goIdle j).key j = (b.key j).toIdle := State.key_withKey_self ..
    rw [channelState, hstate] at h
    exact absurd h.1 nofun
  · rw [e]
    have hstate : channelState ((b.withKey j ((b.key j).promoted n)).armFire (.key j) (n.fire.getD b.roll.rollTime)) (.key j)
        = .armed := by
      show ((b.withKey j ((b.key j).promoted n)).key j).state = .armed
      rw [State.key_withKey_self]; rfl
    have hmem (x : FireEntry) : x ∈ insertFire ⟨.key j, n.fire.getD b.roll.rollTime⟩ b.fireList
        ↔ x = ⟨.key j, n.fire.getD b.roll.rollTime⟩ ∨ x ∈ b.fireList := by
      rw [(insertFire_perm _ _).mem_iff, List.mem_cons]
    refine ⟨fun ⟨_, x, hx, hc, hr⟩ => ⟨n, hn, ?_⟩, fun ⟨n', hn', hr⟩ => ⟨hstate, ⟨.key j, n.fire.getD b.roll.rollTime⟩, ?_, rfl, ?_⟩⟩
    · rcases (hmem x).1 hx with rfl | hold
      · exact hr
      · exact absurd hc (hlist x hold)
    · exact (hmem _).2 (.inl rfl)
    · cases hn.symm.trans hn'; exact hr

/-- A refused head with nothing behind it that fires is rearmed as a promotion is, and nothing more happens. -/
theorem handOn_moves (h : State.handOnLoop s.waitList.length s [] = (b, [j])) (hnone : nothingToFire b j)
    (hlist : ∀ x ∈ b.fireList, x.channel ≠ .key j) : s.handOn = b.promote j := by
  have hquiet : (b.rearm j).firesNow (.key j) = false := by
    rw [← Bool.not_eq_true, firesNow_rearm hlist]
    rintro ⟨n, hn, hr⟩
    obtain ⟨f, hf, hnot⟩ := hnone n hn
    rw [hf, Option.getD_some, hnot] at hr
    cases hr
  have hrearm : b.rearm j = b.promote j := by
    rcases nothingToFire_cases hnone with ⟨hp, e⟩ | ⟨n, f, hn, hf, e⟩
    · rw [e, State.rearm, hp]
    · rw [e, State.rearm, hn]
      dsimp only
      rw [hf]
      rfl
  rw [handOn_dropped h, List.filter_singleton, hquiet, ← hrearm]
  exact judgeUpTo_nil _

/-- Taking out an entry just put into a list that had none of its channel. -/
theorem filter_insertFire {c : Channel} {r : RollTime} {l : List FireEntry} (h : ∀ x ∈ l, x.channel ≠ c) :
    (insertFire ⟨c, r⟩ l).filter (fun e => e.channel != c) = l := by
  induction l with
  | nil => simp [insertFire]
  | cons x xs ih =>
    have hkeep : (x :: xs).filter (fun e => e.channel != c) = x :: xs :=
      List.filter_eq_self.2 fun y hy => bne_iff_ne.2 (h y hy)
    unfold insertFire
    split
    · rw [List.filter_cons_of_neg (by simp)]
      exact hkeep
    · rw [List.filter_cons_of_pos (p := fun e : FireEntry => e.channel != c) (bne_iff_ne.2 (h x (List.mem_cons_self ..))), ih fun y hy => h y (List.mem_cons_of_mem _ hy)]

/-- A key ARMED in the Fire List with a note that has nothing behind it, judged: it fires as its last note (R105, R109). -/
theorem judge_rearmed (hn : (b.key j).pending = some n) (hlist : ∀ x ∈ b.fireList, x.channel ≠ .key j)
    (hfires : (b.rearm j).firesNow (.key j) = true) :
    (b.rearm j).judge (.key j) = (b.withKey j (PromotedKey (b.key j) n)).fireLast j := by
  have hrearm : b.rearm j = (b.withKey j (PromotedKey (b.key j) n)).armFire (.key j) (n.fire.getD b.roll.rollTime) := by
    rw [State.rearm, hn]; rfl
  have hjudge : (b.rearm j).judge (.key j) = ((b.rearm j).dropFire (.key j)).fireKey j := by
    have hrequest : (b.rearm j).requestsNow (.key j) = true := by
      unfold State.requestsNow; rw [hfires]; rfl
    unfold State.judge
    rw [hrequest, hfires]
    rfl
  have hdrop : (b.rearm j).dropFire (.key j) = b.withKey j (PromotedKey (b.key j) n) := by
    rw [hrearm]
    show { b.withKey j (PromotedKey (b.key j) n) with
      fireList := (insertFire ⟨.key j, n.fire.getD b.roll.rollTime⟩ b.fireList).filter fun e => e.channel != Channel.key j } = _
    rw [filter_insertFire hlist]
    rfl
  rw [hjudge, hdrop, State.fireKey, State.fireLast]
  generalize hu : b.withKey j (PromotedKey (b.key j) n) = u
  have hnone : (u.attempt j).1 = false → ((u.attempt j).2.key j).pending = none := by
    intro hfail
    have hself : (u.key j).pending = none := by rw [← hu, State.key_withKey_self]; rfl
    rcases attempt_cases u j with ⟨-, e⟩ | ⟨-, -, e⟩ | ⟨-, -, e⟩
    · rw [e]; exact hself
    · rw [e] at hfail ⊢
      rcases kickStart_cases u j false with ⟨-, e'⟩ | ⟨n, -, ⟨-, e'⟩ | ⟨-, -, e'⟩ | ⟨-, -, e'⟩⟩
      · rw [e']; exact hself
      · rw [e'] at hfail; cases hfail
      · rw [e'] at hfail; cases hfail
      · rw [e']; exact hself
    · rw [e] at hfail; cases hfail
  cases hres : (u.attempt j).1 with
  | true => rfl
  | false =>
    show (u.attempt j).2.promote j = (u.attempt j).2.goIdle j
    rw [State.promote, hnone hres]

/-- A refused head whose pending note is reached requests a slot once the others have theirs (R109, R119, R121). -/
theorem handOn_fires (h : State.handOnLoop s.waitList.length s [] = (b, [j])) (hn : firesPending b j n)
    (hkick : (b.key j).state ≠ .kick) (hlist : ∀ x ∈ b.fireList, x.channel ≠ .key j)
    (hfirst : ∀ d : Channel, d.rank < (Channel.key j).rank → b.requestsNow d = false) : PromotedFires b s.handOn j n := by
  have hreached : reached b.roll.rollTime (n.fire.getD b.roll.rollTime) = true := by
    cases hf : n.fire with
    | none => simp [reached]
    | some f => exact hn.2 f hf
  have hfires : (b.rearm j).firesNow (.key j) = true := (firesNow_rearm hlist).2 ⟨n, hn.1, hreached⟩
  have hothers (d : Channel) (hd : d.rank < (Channel.key j).rank) : (b.rearm j).requestsNow d = false := by
    have hne : d ≠ .key j := fun e => by rw [e] at hd; exact Nat.lt_irrefl _ hd
    rw [requestsNow_same ((actsOn_rearm b j).others d hne) (actsOn_rearm b j).only]
    exact hfirst d hd
  rw [handOn_dropped h, List.filter_singleton, hfires]
  show PromotedFires b ((b.rearm j).judgeUpTo [.key j]) j n
  rw [judgeUpTo_single _ _ hothers, judge_rearmed hn.1 hlist hfires]
  exact promotedFires_fireLast hkick

/-- A channel that stands before another and is not among the exceptions requests nothing. -/
theorem requestsNow_of_noneBefore {c d : Channel} {but : List Channel} (h : noneBefore s c but) (hd : d.rank < c.rank)
    (hnot : d ∉ but) : s.requestsNow d = false := by
  rw [← Bool.not_eq_true, requestsNow_iff]
  exact h d hd hnot

/-- A kicking channel requests nothing. -/
theorem requestsNow_of_kick {c : Channel} (h : channelState s c = .kick) : s.requestsNow c = false := by
  rw [← Bool.not_eq_true, requestsNow_iff]
  rintro (⟨ha, -⟩ | ⟨p, f, e, rfl, hs, -⟩ | ⟨k, n, rfl, -, ⟨hs, -⟩ | ⟨hs, -⟩⟩)
  · exact absurd (h.symm.trans ha) nofun
  · exact absurd (h.symm.trans hs) nofun
  · exact absurd (h.symm.trans hs) nofun
  · exact absurd (h.symm.trans hs) nofun

/-! One slot free -/

/-- The one free slot goes to a key at the head of the list, whose kick starts: the card is full again (R121). -/
theorem handOnLoop_started {e : WaitEntry} {rest : List WaitEntry} {v : State} {kick : Nat} (hl : s.waitList = e :: rest)
    (hc : e.channel = .key k) (hone : s.kickCount + 1 = s.tables.settings.kickSlots)
    (hstart : State.kickStart { s with waitList := rest } k true = (true, v.startKick k n kick true))
    (hcount : v.kickCount = s.kickCount) (htables : v.tables = s.tables) (hw : (v.key k).state ≠ .kick) (ks : List Key) :
    State.handOnLoop s.waitList.length s ks = (v.startKick k n kick true, ks) := by
  have hfull : ¬(v.startKick k n kick true).kickCount < (v.startKick k n kick true).tables.settings.kickSlots := by
    rw [kickCount_startKick hw, tables_startKick, hcount, htables]; omega
  rw [show s.waitList.length = rest.length + 1 by rw [hl]; rfl, handOnLoop_key hl hc (by omega), hstart]
  exact handOnLoop_full hfull _ _

/-- The heat check refuses the head, a key: the slot is offered to the next (R121, R125). -/
theorem handOnLoop_refused {e : WaitEntry} {rest : List WaitEntry} (hl : s.waitList = e :: rest) (hc : e.channel = .key k)
    (hone : s.kickCount + 1 = s.tables.settings.kickSlots) (hn : (s.key k).current = some n)
    (hroom : s.room k < s.capped k n) (hfloor : s.room k < 500) (ks : List Key) :
    State.handOnLoop s.waitList.length s ks
      = State.handOnLoop rest.length (State.bump { s with waitList := rest } .heatDrop) (k :: ks) := by
  rw [show s.waitList.length = rest.length + 1 by rw [hl]; rfl, handOnLoop_key hl hc (by omega),
    kickStart_refused (s := { s with waitList := rest }) hn hroom hfloor]
  rfl

/-- A promotion that fires nothing leaves the kick count as it is. -/
theorem kickCount_promote (h : nothingToFire s k) (hkick : (s.key k).state ≠ .kick) :
    (s.promote k).kickCount = s.kickCount := by
  rcases nothingToFire_cases h with ⟨-, e⟩ | ⟨n, f, -, -, e⟩
  · rw [e]; exact kickCount_withKey hkick nofun
  · rw [e]
    exact kickCount_withKey (c := PromotedKey (s.key k) n) hkick nofun

/-- The state once the head was refused and the slot went to the next key in the list. -/
def State.grantedNext (s : State) (more : List WaitEntry) (i : Key) (q : Note) : State :=
  (State.bump { s with waitList := more } .heatDrop).startKick i q (s.capped i q) true

theorem grantedNext_spec (s : State) (more : List WaitEntry) {i : Key} (q : Note) (hi : (s.key i).state ≠ .kick) :
    let b := s.grantedNext more i q
    b.key i = KickedKey (s.key i) q s.deviceTime (s.capped i q) true s.clockStopped ∧ b.kickCount = s.kickCount + 1
      ∧ b = { s with keys := b.keys, waitList := more, counters := b.counters }
      ∧ (∀ x, x ≠ i → b.key x = s.key x)
      ∧ ∀ d : Counter, b.counter d = if d = .lateStrike then lateCount s q
          else if d = .deferred ∨ d = .heatDrop then min 65535 (s.counter d + 1) else s.counter d := by
  intro b
  obtain ⟨w, hw⟩ : ∃ w, State.bump { s with waitList := more } .heatDrop = w := ⟨_, rfl⟩
  have hb : b = w.startKick i q (s.capped i q) true := by rw [← hw]; rfl
  have hcount : w.kickCount = s.kickCount := by rw [← hw]; rfl
  have hkey (x : Key) : w.key x = s.key x := by rw [← hw]; rfl
  have htime : w.deviceTime = s.deviceTime := by rw [← hw]; rfl
  have hstopped : w.clockStopped = s.clockStopped := by rw [← hw]; rfl
  have honly : w = { s with waitList := more, counters := w.counters } := by rw [← hw]; rfl
  have hbump : Counted s w .heatDrop 1 := by rw [← hw]; exact counted_bump { s with waitList := more } .heatDrop
  have hlate : lateCount w q = lateCount s q := by
    unfold lateCount
    rw [hbump .lateStrike, honly]
    rfl
  clear hw
  clear_value b
  subst hb
  refine ⟨?_, ?_, ?_, fun x hx => ?_, fun d => ?_⟩
  · rw [startKick_key, hkey, htime, hstopped]
  · rw [kickCount_startKick (by rw [hkey]; exact hi), hcount]
  · generalize hc : w.startKick i q (s.capped i q) true = b
    have h := startKick_only w i q (s.capped i q) true
    rw [hc] at h
    rw [h, honly]
  · rw [startKick_otherKey _ hx, hkey]
  · rw [counter_started, hlate, hbump d, hbump .deferred]
    by_cases hdef : d = .deferred
    · subst hdef; rfl
    · by_cases hheat : d = .heatDrop
      · subst hheat; rfl
      · simp only [hdef, hheat, false_and, or_self, if_false]

/-- Settles O38: the loop hands one slot on; a refused head moves on after it. -/
theorem kickEndHandsTheSlotOn : Obligations.KickEndHandsTheSlotOn := by
  refine ⟨fun s k e hp hstate he hpast => ?_, fun s head rest hone hl => ?_⟩
  · intro c expired
    have hexec := exec_kickEnd k hp (kickEndDue_of hstate he hpast)
    refine ⟨fun hheld => ?_, fun hover => ?_⟩
    · rw [hexec, endKick_held hheld]; rfl
    · rw [hexec, endKick_expired hover, limitRelease_eq]
  intro capped room waits kicks moved
  refine ⟨fun j m hc hwaits => ?_, fun p hc hwaiting => ?_⟩
  · obtain ⟨hstate, hm⟩ := hwaits
    have hkick : (s.key j).state ≠ .kick := by rw [hstate]; decide
    have hslots : s.kickCount + 1 = s.tables.settings.kickSlots := hone
    refine ⟨fun hwhole => ?_, fun hover hfloor => ?_, fun hover hfloor hnone hlist => ⟨fun hrest => ?_, fun next more i q hrest hi hne hq hroom => ?_⟩,
      fun hover hfloor hlist n hn => ⟨fun hrest hfirst => ?_, fun next more i q hrest hi hne hq hroom hfirst => ?_⟩⟩
    · have hloop := handOnLoop_started hl hc hone (kickStart_whole (s := { s with waitList := rest }) hm hwhole true) rfl rfl hkick []
      rw [handOn_of_loop hloop]
      refine ⟨⟨startKick_key .., ?_⟩, fun d => ?_, fun i hi => startKick_otherKey _ hi .., startKick_only ..⟩
      · rw [kickCount_startKick (s := { s with waitList := rest }) hkick]; exact hslots
      · refine (counter_started ..).trans ?_
        simp only [and_true]
        rfl
    · have hloop := handOnLoop_started hl hc hone (kickStart_trimmed (s := { s with waitList := rest }) hm hover hfloor true) rfl rfl hkick []
      rw [handOn_of_loop hloop]
      refine ⟨⟨startKick_key .., ?_⟩, fun d => ?_, fun i hi => startKick_otherKey _ hi .., startKick_only ..⟩
      · rw [kickCount_startKick (s := State.bump { s with waitList := rest } .heatTrim) hkick]; exact hslots
      · refine (counter_trimmed ..).trans ?_
        by_cases hdef : d = .deferred
        · subst hdef; rfl
        · simp only [hdef, false_and, false_or, if_false]
          by_cases hheat : d = .heatTrim
          · subst hheat; rfl
          · simp only [hheat, if_false]; rfl
    · subst hrest
      have hloop := (handOnLoop_refused hl hc hone hm hover hfloor []).trans (handOnLoop_nil rfl _ _)
      let b := State.bump { s with waitList := [] } .heatDrop
      have hfire : nothingToFire b j := hnone
      rw [handOn_moves hloop hfire hlist]
      obtain ⟨⟨hothers, hmoved⟩, honly⟩ := movesOn_promote hfire
      refine ⟨hmoved, fun d => ?_, hothers, ?_⟩
      · have hcounters : (b.promote j).counters = b.counters := by rw [honly]
        rw [State.counter, hcounters]
        exact counted_bump { s with waitList := [] } .heatDrop d
      · rw [honly]; rfl
    · subst hrest
      obtain ⟨hi', hq'⟩ := hq
      have hikick : (s.key i).state ≠ .kick := by rw [hi']; decide
      have hloop := (handOnLoop_refused hl hc hone hm hover hfloor []).trans
        (handOnLoop_started (s := State.bump { s with waitList := next :: more } .heatDrop) rfl hi hone
          (kickStart_whole (s := State.bump { s with waitList := more } .heatDrop) hq' hroom true) rfl rfl hikick [j])
      obtain ⟨hkeyi, hcount, honlyb, hothersb, hcounterb⟩ := grantedNext_spec s more q hikick
      have hloop' : State.handOnLoop s.waitList.length s [] = (s.grantedNext more i q, [j]) := hloop
      generalize s.grantedNext more i q = b at *
      have hkeyj : b.key j = s.key j := hothersb j hne.symm
      have hfire : nothingToFire b j := by
        intro n hn
        rw [hkeyj] at hn
        obtain ⟨f, hf, hnot⟩ := hnone n hn
        exact ⟨f, hf, by rw [honlyb]; exact hnot⟩
      have hlistb : ∀ x ∈ b.fireList, x.channel ≠ .key j := by rw [honlyb]; exact hlist
      rw [handOn_moves hloop' hfire hlistb]
      obtain ⟨⟨hothers, hmoved⟩, honly⟩ := movesOn_promote hfire
      have hlists : b.fireList = s.fireList := by rw [honlyb]
      have hcounters : (b.promote j).counters = b.counters := by rw [honly]
      rw [hkeyj, hlists] at hmoved
      refine ⟨hmoved, ⟨(hothers i hne).trans hkeyi, ?_⟩, fun d => ?_, fun x hxi hxj => (hothers x hxj).trans (hothersb x hxi), ?_⟩
      · rw [kickCount_promote hfire (by rw [hkeyj]; exact hkick), hcount]; exact hslots
      · rw [State.counter, hcounters]; exact hcounterb d
      · rw [honly, honlyb]
    · subst hrest
      have hloop := (handOnLoop_refused hl hc hone hm hover hfloor []).trans (handOnLoop_nil rfl _ _)
      let b := State.bump { s with waitList := [] } .heatDrop
      refine ⟨b, rfl, counted_bump { s with waitList := [] } .heatDrop, handOn_fires hloop hn hkick hlist fun d hd => ?_⟩
      have hne : d ≠ .key j := fun e => Nat.lt_irrefl _ (e ▸ hd)
      have hacts : ActsOn (.key j) s b := by
        rw [← hc]
        exact (actsOn_waitHead hl).trans (actsOn_bump ..)
      rw [requestsNow_same (hacts.others d hne) hacts.only]
      exact requestsNow_of_noneBefore hfirst hd List.not_mem_nil
    · subst hrest
      obtain ⟨hi', hq'⟩ := hq
      have hikick : (s.key i).state ≠ .kick := by rw [hi']; decide
      have hloop := (handOnLoop_refused hl hc hone hm hover hfloor []).trans
        (handOnLoop_started (s := State.bump { s with waitList := next :: more } .heatDrop) rfl hi hone
          (kickStart_whole (s := State.bump { s with waitList := more } .heatDrop) hq' hroom true) rfl rfl hikick [j])
      obtain ⟨hkeyi, hcount, honlyb, hothersb, hcounterb⟩ := grantedNext_spec s more q hikick
      have hloop' : State.handOnLoop s.waitList.length s [] = (s.grantedNext more i q, [j]) := hloop
      generalize s.grantedNext more i q = b at *
      have hkeyj : b.key j = s.key j := hothersb j hne.symm
      have hpending : firesPending b j n := by
        refine ⟨by rw [hkeyj]; exact hn.1, fun f hf => ?_⟩
        rw [honlyb]
        exact hn.2 f hf
      refine ⟨b, ⟨hkeyi, hcount.trans hslots⟩, honlyb, hothersb, hcounterb,
        handOn_fires hloop' hpending (by rw [hkeyj]; exact hkick) (by rw [honlyb]; exact hlist) fun d hd => ?_⟩
      have hnej : d ≠ .key j := fun e => Nat.lt_irrefl _ (e ▸ hd)
      by_cases hdi : d = .key i
      · subst hdi
        exact requestsNow_of_kick (congrArg KeyChannel.state hkeyi)
      · have honly : OnlyChannels s b := by unfold OnlyChannels; rw [honlyb]
        have hsame : SameChannel d s b := by
          refine ⟨fun x hx => hothersb x fun e => hdi (by rw [hx, e]), fun p _ => by rw [honlyb]; rfl, fun e _ => by rw [honlyb],
            fun e he => ?_⟩
          have hwait : b.waitList = more := by rw [honlyb]
          rw [hwait, hl, List.mem_cons, List.mem_cons]
          have hnehead : e ≠ head := fun h => hnej (by rw [← he, h, hc])
          have hnenext : e ≠ next := fun h => hdi (by rw [← he, h, hi])
          simp only [hnehead, hnenext, false_or]
        rw [requestsNow_same hsame honly]
        exact requestsNow_of_noneBefore hfirst hd fun h => hdi (List.mem_singleton.1 h)
  · let u : State := { s with waitList := rest }
    have hmove := (changesOnly_withPedal u p ((u.pedal p).toKick u.deviceTime)).kickCount
    have hbefore : channelState u (.pedal p) ≠ .kick := by
      show (s.pedal p).state ≠ .kick
      rw [hwaiting]; decide
    have hafter : channelState (u.startPedal p) (.pedal p) = .kick := by
      show ((u.startPedal p).pedal p).state = .kick
      rw [State.startPedal, State.pedal_withPedal_self]; rfl
    have hcount : (u.startPedal p).kickCount = s.tables.settings.kickSlots := by
      rw [if_neg hbefore, show u.withPedal p ((u.pedal p).toKick u.deviceTime) = u.startPedal p from rfl, if_pos hafter] at hmove
      exact hmove.trans hone
    have hloop : State.handOnLoop s.waitList.length s [] = (u.startPedal p, []) := by
      rw [show s.waitList.length = rest.length + 1 by rw [hl]; rfl, handOnLoop_pedal hl hc (by omega)]
      refine handOnLoop_full ?_ _ _
      show ¬(u.startPedal p).kickCount < s.tables.settings.kickSlots
      omega
    rw [handOn_of_loop hloop]
    exact ⟨rfl, hcount⟩

end Sys2Proof.Machine
end

section
/-! PROOFS. O44: a fault line sweeps its group once, and freed slots pass the group by. -/

namespace Sys2Proof.Machine

open Sys2Proof.Safety

variable {s t u : State} {d : Channel}

/-! Freed slots pass by a channel at rest that does not wait -/

theorem handOnLoop_passes (n : Nat) (ks : List Key) (hwait : ∀ e ∈ s.waitList, e.channel ≠ d) :
    SameChannel d s (State.handOnLoop n s ks).1
      ∧ ∀ k, d = .key k → k ∈ (State.handOnLoop n s ks).2 → k ∈ ks := by
  induction n generalizing s ks with
  | zero => exact ⟨SameChannel.refl d s, fun _ _ h => h⟩
  | succ n ih =>
    cases hl : s.waitList with
    | nil => rw [handOnLoop_nil hl]; exact ⟨SameChannel.refl d s, fun _ _ h => h⟩
    | cons e rest =>
      by_cases hfree : s.kickCount < s.tables.settings.kickSlots
      · have hd : e.channel ≠ d := hwait e (by rw [hl]; exact List.mem_cons_self ..)
        have hrest : ∀ x ∈ rest, x.channel ≠ d := fun x hx => hwait x (by rw [hl]; exact List.mem_cons_of_mem _ hx)
        have hhead := (actsOn_waitHead hl).others d hd.symm
        cases hc : e.channel with
        | pedal p =>
          rw [handOnLoop_pedal hl hc hfree]
          have hstart := (actsOn_withPedal { s with waitList := rest } p ((s.pedal p).toKick s.deviceTime)).others d
            (hc ▸ hd.symm)
          obtain ⟨hsame, hkeys⟩ := ih (s := State.startPedal { s with waitList := rest } p) ks hrest
          exact ⟨(hhead.trans hstart).trans hsame, hkeys⟩
        | key k =>
          rw [handOnLoop_key hl hc hfree]
          have hstart := (actsOn_kickStart { s with waitList := rest } k true).others d (hc ▸ hd.symm)
          have hlist : (State.kickStart { s with waitList := rest } k true).2.waitList = rest :=
            (kickStart_others { s with waitList := rest } k true).2.2.2
          obtain ⟨hsame, hkeys⟩ := ih (s := (State.kickStart { s with waitList := rest } k true).2)
            (if (State.kickStart { s with waitList := rest } k true).1 then ks else k :: ks) (by rw [hlist]; exact hrest)
          refine ⟨(hhead.trans hstart).trans hsame, fun j hj hmem => ?_⟩
          have hin := hkeys j hj hmem
          split at hin
          · exact hin
          · exact (List.mem_cons.1 hin).resolve_left fun h => hd (by rw [hc, hj, h])
      · rw [handOnLoop_full hfree]; exact ⟨SameChannel.refl d s, fun _ _ h => h⟩

theorem sameChannel_rearms (ks : List Key) (h : ∀ k ∈ ks, d ≠ .key k) : SameChannel d s (ks.foldl State.rearm s) := by
  induction ks generalizing s with
  | nil => exact SameChannel.refl d s
  | cons k ks ih =>
    exact ((actsOn_rearm s k).others d (h k (List.mem_cons_self ..))).trans (ih fun j hj => h j (List.mem_cons_of_mem _ hj))

/-- Freed slots leave a channel alone that is at rest and does not wait (R121). -/
theorem sameChannel_handOn (hrest : atRest s d) (hwait : ∀ e ∈ s.waitList, e.channel ≠ d) : SameChannel d s s.handOn := by
  obtain ⟨hloop, hdropped⟩ := handOnLoop_passes s.waitList.length [] hwait
  unfold State.handOn State.judgeUpTo
  dsimp only
  have hrearm := sameChannel_rearms (s := (State.handOnLoop s.waitList.length s []).1) (d := d)
    (allKeys.filter fun k => (State.handOnLoop s.waitList.length s []).2.contains k) fun k hk hd => by
      have hmem := (List.mem_filter.1 hk).2
      rw [List.contains_iff_mem] at hmem
      cases hdropped k hd hmem
  have hboth := hloop.trans hrearm
  exact hboth.trans (sameChannel_judges _ ((atRest_same hboth).2 hrest))

/-- Two states whose pedal channels read the same hold the same vector of them. -/
theorem pedals_ext (h : ∀ p, t.pedal p = s.pedal p) : t.pedals = s.pedals := by
  refine Vector.ext fun i hi => ?_
  match i, hi with
  | 0, _ => exact h .sustain
  | 1, _ => exact h .soft
  | 2, _ => exact h .sostenuto

/-! The sweep -/

theorem swept_eq (c : KeyChannel) (now gap : Nat) : c.swept (now + gap) = FaultedKey c now gap := by
  obtain ⟨state, -, -, -, -, -, -, -, -, -, -, -, -, -, -⟩ := c
  cases state <;> rfl

theorem dropCount_eq (c : KeyChannel) : c.dropCount = if c.state ≠ .idle then
    (if c.current.isSome then 1 else 0) + (if c.pending.isSome then 1 else 0) else 0 := by
  have hlength (x : Option Note) : x.toList.length = if x.isSome then 1 else 0 := by cases x <;> rfl
  rw [KeyChannel.dropCount, hlength, hlength]
  by_cases h : c.state = .idle
  · rw [if_pos h, if_neg (not_not.2 h)]
  · rw [if_neg h, if_pos h]

/-- The notes a group's fault drops (R110). -/
theorem faultDrops_eq (s : State) (g : Group) : s.faultDrops g
    = ((List.finRange 88).map fun k => if keyGroup k = g ∧ (s.key k).state ≠ .idle then
        (if (s.key k).current.isSome then 1 else 0) + (if (s.key k).pending.isSome then 1 else 0) else 0).sum := by
  have hfilter : (fun k => keyGroup k == g) = fun k => decide (keyGroup k = g) := funext fun _ => beq_eq_decide ..
  have hsum := List.sum_map_ite (fun k => keyGroup k = g) (fun k => (s.key k).dropCount) (fun _ => 0) allKeys
  rw [List.map_const', List.sum_replicate, smul_zero, Nat.add_zero] at hsum
  rw [State.faultDrops, hfilter, ← hsum]
  refine congrArg List.sum (List.map_congr_left fun k _ => ?_)
  by_cases hg : keyGroup k = g
  · rw [if_pos hg, dropCount_eq]
    simp only [hg, true_and]
  · rw [if_neg hg, if_neg fun h => hg h.1]

/-- What a sweep leaves of the Pedal Unit and of the counters (R110, R144). -/
theorem sweepGroup_unit (s : State) (g : Group) :
    (s.sweepGroup g).counters = (s.bumpBy .faultDrop (s.faultDrops g)).counters
      ∧ (g = pedalGroup → (s.sweepGroup g).pedalUnit
          = { s.pedalUnit with planned := ⟨false, false, false⟩, capture := [], window := none })
      ∧ (g ≠ pedalGroup → (s.sweepGroup g).pedals = s.pedals ∧ (s.sweepGroup g).pedalUnit = s.pedalUnit) := by
  unfold State.sweepGroup
  generalize hx : (s.bumpBy .faultDrop (s.faultDrops g)).mapKeys _ = x
  have hunit : x.counters = (s.bumpBy .faultDrop (s.faultDrops g)).counters ∧ x.pedals = s.pedals
      ∧ x.pedalUnit = s.pedalUnit := by
    rw [← hx]; simp
  obtain ⟨h1, h2, h3⟩ := hunit
  rw [← h1, ← h2, ← h3]
  split
  case isTrue h => exact ⟨rfl, fun _ => rfl, fun hne => absurd h hne⟩
  case isFalse h => exact ⟨rfl, fun he => absurd he h, fun _ => ⟨rfl, rfl⟩⟩

theorem faulted_setFaulted (s : State) (g h : Group) : (s.setFaulted g true).faulted h = (s.faulted h || decide (h = g)) := by
  unfold State.setFaulted State.faulted
  by_cases he : h = g
  · subst he
    simp
  · have hne : g.val ≠ h.val := fun e => he (Fin.ext e.symm)
    simp [he, hne]

/-- Settles O44: the sweep is one group's; what it frees goes to channels of other groups. -/
theorem faultLinesSweepTheirGroup : Obligations.FaultLinesSweepTheirGroup := by
  intro s g
  refine ⟨rfl, fun hactive => congrArg _ (if_pos hactive), fun hline hp => ?_, fun hline hp hbad => ?_, fun hline hp hok => ?_⟩
  · refine congrArg _ ((if_neg ((Bool.not_eq_true _).mpr hline)).trans (if_neg hp))
  · refine ⟨(s.setFaultLine g true).bump .repeatFault, ?_, counted_bump (s.setFaultLine g true) _, rfl⟩
    rw [exec_faultLineActive g hp hline, State.raiseFault]
    exact congrArg _ (if_pos hbad)
  · obtain ⟨v, hv⟩ : ∃ v, ((s.setFaultLine g true).setFaulted g true).bump .groupFault = v := ⟨_, rfl⟩
    have hexec : exec (.faultLineActive g) s = .next (v.sweepGroup g).handOn := by
      rw [exec_faultLineActive g hp hline, State.raiseFault, ← hv]
      exact congrArg _ (if_neg ((Bool.not_eq_true _).mpr hok))
    have honlyv : v = { s with
        faultLines := s.faultLines.set g.val true g.isLt, groupFaulted := v.groupFaulted, counters := v.counters } := by
      rw [← hv]; rfl
    have hfaulted (h : Group) : v.faulted h = (s.faulted h || decide (h = g)) := by
      rw [← hv]; exact faulted_setFaulted _ g h
    have hcounted : Counted s v .groupFault 1 := by
      rw [← hv]; exact counted_bump ((s.setFaultLine g true).setFaulted g true) .groupFault
    have hkeyv (k : Key) : v.key k = s.key k := by rw [← hv]; rfl
    have hpedalv (p : Pedal) : v.pedal p = s.pedal p := by rw [← hv]; rfl
    have htime : v.deviceTime = s.deviceTime := by rw [← hv]; rfl
    have hrecord (k : Key) : v.record k = s.record k := by rw [← hv]; rfl
    have hdrops : v.faultDrops g = s.faultDrops g := by rw [← hv]; rfl
    clear hv
    obtain ⟨hkeys, hpedals⟩ := sweepGroup_channels v g
    obtain ⟨hfire, hwait, hgroups, htables⟩ := sweepGroup_rest v g
    obtain ⟨hcounters, hunit, hother⟩ := sweepGroup_unit v g
    have honly : OnlyPedalUnit v (v.sweepGroup g) := (onlyPedalUnit_sweepGroup v g).1
    have hrest (c : Channel) (hc : c.group = g) : SameChannel c (v.sweepGroup g) (v.sweepGroup g).handOn := by
      refine sameChannel_handOn ((sweepGroup_state v g c).1 hc) fun e he hce => ?_
      rw [hwait, List.mem_filter] at he
      have hin : e.channel.inGroup g = true := (inGroup_iff _ _).2 (hce ▸ hc)
      rw [hin] at he
      exact absurd he.2 (by decide)
    generalize v.sweepGroup g = u at *
    refine ⟨u, hexec, ?_, fun h => ?_, fun k => ?_, fun hg => ⟨fun p => ?_, ?_⟩, fun hg => ?_, ?_, fun d => ?_, ?_,
      fun hnil => handOn_nil hnil, fun k hk => (hrest (.key k) hk).key k rfl, fun hg => ?_⟩
    · rw [honly, honlyv]
    · rw [State.faulted, hgroups]; exact hfaulted h
    · rw [hkeys, hkeyv, htime, hrecord, swept_eq]
    · rw [hpedals, if_pos hg, hpedalv, htime, sweptPedal_eq]
    · rw [hunit hg, honlyv]
    · obtain ⟨hp', hu'⟩ := hother hg
      rw [hp', hu', honlyv]
      exact ⟨rfl, rfl⟩
    · have hstays (c : Channel) : (!c.inGroup g) = match c with
          | .pedal _ => decide (g ≠ pedalGroup)
          | .key k => decide (keyGroup k ≠ g) := by
        cases c with
        | pedal p => simp [Channel.inGroup, beq_eq_decide]
        | key k => simp [Channel.inGroup, beq_eq_decide, eq_comm]
      rw [hfire, hwait, honlyv]
      exact ⟨List.filter_congr fun e _ => hstays e.channel, List.filter_congr fun e _ => hstays e.channel⟩
    · have hcount : u.counter d = (v.bumpBy .faultDrop (v.faultDrops g)).counter d := by
        rw [State.counter, hcounters]; rfl
      rw [hcount, counted_bumpBy v .faultDrop (v.faultDrops g) d, hcounted d, hcounted .faultDrop, hdrops, faultDrops_eq]
      have hne : Counter.faultDrop ≠ Counter.groupFault := by decide
      by_cases hd : d = .faultDrop
      · rw [if_pos hd, if_neg hne, hd, if_neg hne, if_pos rfl]
      · rw [if_neg hd, if_neg hd]
    · rw [honly, honlyv]
    · exact pedals_ext fun p => (hrest (.pedal p) hg.symm).pedal p rfl

end Sys2Proof.Machine
end

section
/-! PROOFS. O33: a line's KEY events, one by one, and when none of the notes they arm is late. -/

namespace Sys2Proof.Machine

open Sys2Proof.Safety

variable {s t u : State} {k : Key} {n : Nat} {e : HoleEvent}

/-! What a note depends on -/

theorem due_same (h : OnlyChannels s t) (n : Nat) : t.due n = s.due n := by
  unfold OnlyChannels at h; rw [h]; rfl

theorem noteFor_same (h : OnlyChannels s t) (k : Key) (n : Nat) : t.noteFor k n = s.noteFor k n := by
  unfold OnlyChannels at h; rw [h]; rfl

/-- The fire time of a planned note: its due time less its lead (R89). -/
def State.fireTime (s : State) (k : Key) (n : Nat) : RollTime := s.due n - BitVec.ofNat 32 (s.noteFor k n).lead

theorem fireTime_same (h : OnlyChannels s t) (k : Key) (n : Nat) : t.fireTime k n = s.fireTime k n := by
  rw [State.fireTime, State.fireTime, due_same h, noteFor_same h]

/-! One KEY event -/

theorem planKey_other (h : ∀ k, e.function ≠ .key k) : s.planKey n e = s := by
  unfold State.planKey
  split
  case h_1 k hk => exact absurd hk (h k)
  · rfl

theorem planKey_opens (hf : e.function = .key k) (ho : e.kind = .opens) : s.planKey n e = s.noteOn k (s.noteFor k n) := by
  unfold State.planKey
  rw [hf]
  exact if_pos ho

theorem planKey_closes (hf : e.function = .key k) (hc : e.kind = .closes) :
    s.planKey n e = s.noteOff k (s.due n - BitVec.ofNat 32 (s.record k).releaseLead) := by
  unfold State.planKey
  rw [hf]
  exact if_neg (by rw [hc]; decide)

/-! A note-on (R99, R100) -/

theorem noteOn_faulted (hf : s.faulted (keyGroup k) = true) (m : Note) :
    s.noteOn k m = (s.withKey k { s.key k with target := .nothing }).bump .faultDrop := if_pos hf

theorem noteOn_idle (hok : s.faulted (keyGroup k) = false) (hi : (s.key k).state = .idle) (m : Note) : s.noteOn k m
    = (s.withKey k { s.key k with state := .armed, current := some m, target := .current, holdReleased := false }).armFire
      (.key k) (m.fire.getD s.roll.rollTime) :=
  (if_neg ((Bool.not_eq_true _).mpr hok)).trans (if_pos hi)

theorem noteOn_busy (hok : s.faulted (keyGroup k) = false) (hi : (s.key k).state ≠ .idle) (hp : (s.key k).pending = none)
    (m : Note) : s.noteOn k m = s.withKey k { s.key k with pending := some m, target := .pending } :=
  ((if_neg ((Bool.not_eq_true _).mpr hok)).trans (if_neg hi)).trans (if_pos (by rw [hp]; rfl))

theorem noteOn_full (hok : s.faulted (keyGroup k) = false) (hi : (s.key k).state ≠ .idle)
    (hp : (s.key k).pending.isSome = true) (m : Note) :
    s.noteOn k m = (s.withKey k { s.key k with target := .nothing }).bump .repeatDrop := by
  have hnot : ¬(s.key k).pending.isNone = true := by
    obtain ⟨x, hx⟩ := Option.isSome_iff_exists.1 hp
    rw [hx]; exact nofun
  exact ((if_neg ((Bool.not_eq_true _).mpr hok)).trans (if_neg hi)).trans (if_neg hnot)

/-! A note-off (R93, R101, R104, R149) -/

theorem catchNote_off (s : State) (k : Key) (n : Nat) (m : Note) :
    s.catchNote k { m with release := some (s.due n - BitVec.ofNat 32 (s.record k).releaseLead) }
      = { m with release := some (noteOffTime s k n) } := by
  unfold State.catchNote noteOffTime
  cases s.pedalUnit.window with
  | none => rfl
  | some w =>
    dsimp only
    by_cases hk : k ∈ s.pedalUnit.capture
    · rw [if_pos (List.contains_iff_mem.2 hk), Note.caught]
      dsimp only
      by_cases hw : earlier (s.due n - BitVec.ofNat 32 (s.record k).releaseLead) w = true
      · rw [if_pos hw, if_pos ⟨hk, hw⟩]
      · rw [if_neg hw, if_neg fun h => hw h.2]
    · rw [if_neg fun h => hk (List.contains_iff_mem.1 h), if_neg fun h => hk h.1]

theorem releaseReached_iff {now : RollTime} {x : Option Note} :
    releaseReached now x = true ↔ ∃ m r, x = some m ∧ m.release = some r ∧ reached now r = true := by
  unfold releaseReached
  cases x with
  | none => exact iff_of_false nofun fun ⟨_, _, h, _⟩ => nomatch h
  | some m =>
    dsimp only
    cases hr : m.release with
    | none => exact iff_of_false nofun fun ⟨_, _, h, h', _⟩ => by cases h; rw [hr] at h'; cases h'
    | some r => exact ⟨fun h => ⟨m, r, rfl, hr, h⟩, fun ⟨_, _, h, h', hh⟩ => by
        cases h; rw [hr] at h'; cases h'; exact hh⟩

/-- The conditions of R104, in the statements' words. -/
theorem releaseDue_iff : s.releaseDue k = true ↔ Releases s (s.key k) := by
  rw [State.releaseDue, Bool.and_eq_true, Bool.and_eq_true, beq_iff_eq, releaseReached_iff, passed_iff, and_assoc]
  rfl

/-- A channel record put in place and its release checked: RELEASE where R104 is met, the record otherwise. -/
theorem checkRelease_withKey (s : State) (k : Key) (d : KeyChannel) :
    (Releases s d → (s.withKey k d).checkRelease k = s.withKey k (Released d s.deviceTime (s.record k).repeatGap))
      ∧ (¬Releases s d → (s.withKey k d).checkRelease k = s.withKey k d) := by
  have hdue : (s.withKey k d).releaseDue k = true ↔ Releases s d := by
    rw [releaseDue_iff, State.key_withKey_self]
    exact Iff.rfl
  refine ⟨fun h => ?_, fun h => if_neg fun hd => h (hdue.1 hd)⟩
  rw [State.checkRelease, if_pos (hdue.2 h), State.enterRelease, State.key_withKey_self, State.withKey_withKey]
  rfl

/-! The line's events, none of whose notes is late -/

theorem fireList_checkRelease (s : State) (k : Key) : (s.checkRelease k).fireList = s.fireList := by
  unfold State.checkRelease
  split <;> rfl

theorem fireList_noteOff (s : State) (k : Key) (r : RollTime) : (s.noteOff k r).fireList = s.fireList := by
  unfold State.noteOff
  dsimp only
  split
  · exact fireList_checkRelease ..
  · rfl

/-- A KEY event puts at most the entry of its own key into the Fire List, at the fire time of its note (R98, R99). -/
theorem mem_fireList_planKey {x : FireEntry} (hx : x ∈ (s.planKey n e).fireList) :
    x ∈ s.fireList ∨ ∃ k, x = ⟨.key k, s.fireTime k n⟩ := by
  by_cases hkey : ∃ k, e.function = .key k
  · obtain ⟨k, hf⟩ := hkey
    cases hkind : e.kind with
    | closes =>
      rw [planKey_closes hf hkind, fireList_noteOff] at hx
      exact .inl hx
    | opens =>
      rw [planKey_opens hf hkind] at hx
      unfold State.noteOn at hx
      dsimp only at hx
      split at hx
      · exact .inl hx
      · split at hx
        · have hx' : x ∈ insertFire ⟨.key k, s.fireTime k n⟩ s.fireList := hx
          rw [(insertFire_perm _ _).mem_iff, List.mem_cons] at hx'
          exact hx'.symm.imp_right fun h => ⟨k, h⟩
        · split at hx <;> exact .inl hx
  · rw [planKey_other fun k h => hkey ⟨k, h⟩] at hx
    exact .inl hx

theorem mem_fireList_takeKeys (es : List HoleEvent) {x : FireEntry} (hx : x ∈ (s.takeKeys n es).fireList) :
    x ∈ s.fireList ∨ ∃ k, x = ⟨.key k, s.fireTime k n⟩ := by
  induction es generalizing s with
  | nil => exact .inl hx
  | cons e es ih =>
    rcases ih (s := s.planKey n e) hx with h | ⟨k, rfl⟩
    · exact mem_fireList_planKey h
    · rw [fireTime_same (onlyChannels_planKey s n e)]
      exact .inr ⟨k, rfl⟩

/-- Nothing late among channels none of which fires now. -/
theorem fireLate_of_none {cs : List Channel} (h : ∀ c ∈ cs, s.firesNow c = false) : s.fireLate cs = s := by
  have hnone : s.lateAmong cs = [] := List.filter_eq_nil_iff.2 fun c hc => by rw [h c hc]; decide
  rw [State.fireLate, hnone]
  exact judgeUpTo_nil s

theorem mem_struckKeys {es : List HoleEvent} {c : Channel} (h : c ∈ s.struckKeys es) :
    ∃ k, c = .key k ∧ (s.key k).state = .idle ∧ ∃ e ∈ es, e.function = .key k ∧ e.kind = .opens := by
  obtain ⟨k, hk, rfl⟩ := List.mem_map.1 h
  obtain ⟨-, hk⟩ := List.mem_filter.1 hk
  rw [Bool.and_eq_true, beq_iff_eq, List.any_eq_true] at hk
  obtain ⟨hi, e, he, hfe⟩ := hk
  rw [Bool.and_eq_true, beq_iff_eq, beq_iff_eq] at hfe
  exact ⟨k, rfl, hi, e, he, hfe⟩

theorem planKeys_of_none_late {es : List HoleEvent}
    (h : ∀ k, (s.key k).state = .idle → (∃ e ∈ es, e.function = .key k ∧ e.kind = .opens) →
      (∀ x ∈ s.fireList, x.channel ≠ .key k) ∧ reached s.roll.rollTime (s.fireTime k n) = false) :
    s.planKeys n es = s.takeKeys n es := by
  refine fireLate_of_none fun c hc => ?_
  obtain ⟨k, rfl, hi, hnamed⟩ := mem_struckKeys hc
  obtain ⟨hfree, hahead⟩ := h k hi hnamed
  rw [← Bool.not_eq_true, firesNow_iff]
  rintro ⟨-, x, hx, hxk, hr⟩
  rw [(onlyChannels_takeKeys s n es).roll] at hr
  rcases mem_fireList_takeKeys es hx with hold | ⟨j, rfl⟩
  · exact hfree x hold hxk
  · cases hxk
    rw [hahead] at hr
    cases hr

/-- Settles O33: event by event; the fold is the whole line where no armed note is late. -/
theorem keyEventsReachTheirChannel : Obligations.KeyEventsReachTheirChannel := by
  refine ⟨fun s n es h => planKeys_of_none_late h, fun s n e h => planKey_other h, fun s k n e hf => ?_⟩
  intro c note stored acts
  have off (hc : e.kind = .closes) : s.planKey n e
      = s.noteOff k (s.due n - BitVec.ofNat 32 (s.record k).releaseLead) := planKey_closes hf hc
  refine ⟨fun ho hbad => ?_, fun ho hok hi => ?_, fun ho hok hi hp => ?_, fun ho hok hi hp => ?_, fun hc m ht hm => ?_,
    fun hc m ht hh hm => ?_, fun hc ht => ?_⟩
  · rw [planKey_opens hf ho]; exact noteOn_faulted hbad _
  · rw [planKey_opens hf ho, noteOn_idle hok hi]; rfl
  · rw [planKey_opens hf ho]; exact noteOn_busy hok hi hp _
  · rw [planKey_opens hf ho]; exact noteOn_full hok hi hp _
  · have htarget : (s.key k).target = .pending := ht
    have hnot : ¬((s.key k).target = .current ∧ (s.key k).holdReleased = false) := fun h => by
      rw [htarget] at h
      exact absurd h.1 nofun
    rw [off hc, State.noteOff, if_neg hnot, KeyChannel.changeNamed, htarget]
    dsimp only
    rw [show (s.key k).pending = some m from hm, Option.map_some, catchNote_off]
  · have htarget : (s.key k).target = .current := ht
    have hheld : (s.key k).holdReleased = false := hh
    have hnamed : (s.key k).changeNamed (fun m => s.catchNote k { m with
          release := some (s.due n - BitVec.ofNat 32 (s.record k).releaseLead) })
        = { c with current := some { m with release := some stored } } := by
      rw [KeyChannel.changeNamed, htarget]
      dsimp only
      rw [if_neg (by rw [hheld]; decide), show (s.key k).current = some m from hm, Option.map_some, catchNote_off]
    obtain ⟨hreleases, hstays⟩ := checkRelease_withKey s k { c with current := some { m with release := some stored } }
    have hplan : s.planKey n e = (s.withKey k { c with current := some { m with release := some stored } }).checkRelease k := by
      rw [off hc, State.noteOff, if_pos ⟨htarget, hheld⟩, hnamed]
    exact ⟨fun h => hplan.trans (hreleases h), fun h => hplan.trans (hstays h)⟩
  · have hsame (f : Note → Note) : (s.key k).changeNamed f = s.key k := by
      rcases ht with ht | ⟨ht, hh⟩
      · rw [KeyChannel.changeNamed, show (s.key k).target = .nothing from ht]
      · rw [KeyChannel.changeNamed, show (s.key k).target = .current from ht]
        exact if_pos hh
    have hnot : ¬((s.key k).target = .current ∧ (s.key k).holdReleased = false) := by
      rintro ⟨h1, h2⟩
      rcases ht with ht | ⟨-, hh⟩
      · exact absurd (ht.symm.trans h1) nofun
      · exact absurd (hh.symm.trans h2) nofun
    rw [off hc, State.noteOff, if_neg hnot, hsame, State.withKey_key]

end Sys2Proof.Machine
end

section
/-! PROOFS. O34: a line's PEDAL events, one by one, and when none of the presses they arm is late. -/

namespace Sys2Proof.Machine

open Sys2Proof.Safety

variable {s t u : State} {k : Key} {p : Pedal} {n : Nat} {e : HoleEvent} {r : RollTime}

/-! The window check and the roll key states (R137, R146, R147) -/

theorem closeWindow_open {w : RollTime} (h : s.pedalUnit.window = some w) : s.closeWindow n = if earlier w (s.due n) = true
    then { s with pedalUnit := { s.pedalUnit with window := none } } else s := by
  rw [State.closeWindow, h]

theorem closeWindow_none (h : s.pedalUnit.window = none) : s.closeWindow n = s := by
  rw [State.closeWindow, h]

/-- One KEY event's effect on the roll key states. -/
def rollKeySet (v : Vector Bool 88) (e : HoleEvent) : Vector Bool 88 :=
  match e.function with
  | .key k => v.set k.val (e.kind == .opens) k.isLt
  | _ => v

theorem applyRollKeys_eq (s : State) (es : List HoleEvent) : s.applyRollKeys es
    = { s with pedalUnit := { s.pedalUnit with rollKeys := es.foldl rollKeySet s.pedalUnit.rollKeys } } := rfl

theorem rollKeySet_get (v : Vector Bool 88) (e : HoleEvent) (k : Key) :
    (rollKeySet v e)[k.val] = if e.function = .key k then e.kind == .opens else v[k.val] := by
  unfold rollKeySet
  split
  case h_1 j hj =>
    rw [hj, Vector.getElem_set]
    by_cases h : j = k
    · rw [if_pos (congrArg _ h), if_pos (congrArg _ h)]
    · rw [if_neg fun e => h (Fin.ext e), if_neg fun e => h (ColumnFunction.key.inj e)]
  case h_2 hne =>
    rw [if_neg fun h => hne k h]

theorem rollKeys_unnamed {es : List HoleEvent} {v : Vector Bool 88} (h : ∀ e ∈ es, e.function ≠ .key k) :
    (es.foldl rollKeySet v)[k.val] = v[k.val] := by
  induction es generalizing v with
  | nil => rfl
  | cons e es ih =>
    rw [List.foldl_cons, ih fun x hx => h x (List.mem_cons_of_mem _ hx), rollKeySet_get, if_neg (h e (List.mem_cons_self ..))]

theorem rollKeys_named {es : List HoleEvent} {v : Vector Bool 88} {kind : EventKind} (hn : ∃ e ∈ es, e.function = .key k)
    (h : ∀ e ∈ es, e.function = .key k → e.kind = kind) :
    (es.foldl rollKeySet v)[k.val] = decide (kind = .opens) := by
  induction es generalizing v with
  | nil => obtain ⟨e, he, -⟩ := hn; cases he
  | cons e es ih =>
    rw [List.foldl_cons]
    have htail : ∀ x ∈ es, x.function = .key k → x.kind = kind := fun x hx => h x (List.mem_cons_of_mem _ hx)
    by_cases hlater : ∃ x ∈ es, x.function = .key k
    · exact ih hlater htail
    · have hhead : e.function = .key k := by
        obtain ⟨x, hx, hf⟩ := hn
        rcases List.mem_cons.1 hx with rfl | hx
        · exact hf
        · exact absurd ⟨x, hx, hf⟩ hlater
      rw [rollKeys_unnamed fun x hx hf => hlater ⟨x, hx, hf⟩, rollKeySet_get, if_pos hhead, h e (List.mem_cons_self ..) hhead,
        beq_eq_decide]

/-! A press or a lift handed to its channel -/

/-- Only pedal channel p and the lists differ. -/
structure PedalHanded (p : Pedal) (s t : State) : Prop where
  only : t = { s with pedals := t.pedals, fireList := t.fireList, waitList := t.waitList }
  others : ∀ q, q ≠ p → t.pedal q = s.pedal q

theorem PedalHanded.refl (p : Pedal) (s : State) : PedalHanded p s s := ⟨rfl, fun _ _ => rfl⟩

theorem pedalHanded_withPedal (s : State) (p : Pedal) (c : PedalChannel) : PedalHanded p s (s.withPedal p c) :=
  ⟨rfl, fun q h => by rw [State.pedal_withPedal, if_neg h]⟩

theorem pedalHanded_handPress (s : State) (p : Pedal) (press : Press) : PedalHanded p s (s.handPress p press) := by
  unfold State.handPress
  dsimp only
  split
  · exact ⟨rfl, fun q h => (pedalHanded_withPedal s p _).others q h⟩
  · split
    · exact pedalHanded_withPedal ..
    · exact PedalHanded.refl ..

theorem pedalHanded_handLift (s : State) (p : Pedal) (r : RollTime) : PedalHanded p s (s.handLift p r) := by
  unfold State.handLift
  dsimp only
  split
  · exact pedalHanded_withPedal ..
  · split
    · exact ⟨rfl, fun q h => (pedalHanded_withPedal s p _).others q h⟩
    · exact ⟨rfl, fun q h => (pedalHanded_withPedal s p _).others q h⟩
    · split
      · exact pedalHanded_withPedal ..
      · exact PedalHanded.refl ..
    · split
      · split
        · rw [State.releasePedal, State.withPedal_withPedal]
          exact pedalHanded_withPedal ..
        · exact pedalHanded_withPedal ..
      · exact PedalHanded.refl ..
    · exact PedalHanded.refl ..

/-- Pedal channel p has become d, and neither list has moved. -/
def PedalBecomes (p : Pedal) (s t : State) (d : PedalChannel) : Prop :=
  t.pedal p = d ∧ t.fireList = s.fireList ∧ t.waitList = s.waitList

theorem pedalBecomes_withPedal (s : State) (p : Pedal) (c : PedalChannel) : PedalBecomes p s (s.withPedal p c) c :=
  ⟨State.pedal_withPedal_self .., rfl, rfl⟩

theorem handPress_idle (h : (s.pedal p).state = .idle) (f : Press) : s.handPress p f
    = (s.withPedal p (ArmedPedal f)).armFire (.pedal p) f.fire := if_pos h

theorem handPress_busy (h : (s.pedal p).state ≠ .idle) (hp : (s.pedal p).pending = none) (f : Press) :
    s.handPress p f = s.withPedal p { s.pedal p with pending := some f } :=
  (if_neg h).trans (if_pos (by rw [hp]; rfl))

theorem handPress_full (h : (s.pedal p).state ≠ .idle) (hp : (s.pedal p).pending.isSome = true) (f : Press) :
    s.handPress p f = s := by
  have hnot : ¬(s.pedal p).pending.isNone = true := by
    obtain ⟨x, hx⟩ := Option.isSome_iff_exists.1 hp
    rw [hx]; exact nofun
  exact (if_neg h).trans (if_neg hnot)

theorem handLift_pending (h : (s.pedal p).pending.isSome = true) (r : RollTime) :
    s.handLift p r = s.withPedal p { s.pedal p with pending := none } := if_pos h

/-- A lift with nothing pending goes by the channel's state (R139). -/
theorem handLift_current (h : (s.pedal p).pending = none) (r : RollTime) : s.handLift p r =
    match (s.pedal p).state, (s.pedal p).current with
    | .armed, _ => (s.withPedal p PedalChannel.fresh).dropFire (.pedal p)
    | .waiting, _ => (s.withPedal p PedalChannel.fresh).dropWait (.pedal p)
    | .kick, some press =>
      if press.lift.isNone then s.withPedal p { s.pedal p with current := some { press with lift := some r } } else s
    | .hold, some press =>
      if press.lift.isNone then
        let u := s.withPedal p { s.pedal p with current := some { press with lift := some r } }
        if u.liftReached p then u.releasePedal p else u
      else s
    | _, _ => s := if_neg (by rw [h]; exact nofun)

/-- A lift stored in a held press acts at once where its time is reached (R142). -/
theorem handLift_held {f : Press} (hp : (s.pedal p).pending = none) (hs : (s.pedal p).state = .hold)
    (hf : (s.pedal p).current = some f) (hl : f.lift = none) :
    (reached s.roll.rollTime r = false →
        s.handLift p r = s.withPedal p { s.pedal p with current := some { f with lift := some r } })
      ∧ (reached s.roll.rollTime r = true → s.handLift p r
        = s.withPedal p ({ s.pedal p with current := some { f with lift := some r } }.toRelease s.deviceTime)) := by
  have hlift : (s.withPedal p { s.pedal p with current := some { f with lift := some r } }).liftReached p
      = reached s.roll.rollTime r := by
    rw [State.liftReached, State.pedal_withPedal_self]; rfl
  rw [handLift_current hp, hs, hf]
  dsimp only
  rw [if_pos (by rw [hl]; rfl), hlift]
  refine ⟨fun h => if_neg ((Bool.not_eq_true _).mpr h), fun h => ?_⟩
  rw [if_pos h, State.releasePedal, State.withPedal_withPedal, State.pedal_withPedal_self]
  rfl

/-! The sostenuto catch (R146, R148) -/

theorem changeNamed_caught (c : KeyChannel) (w : RollTime) : c.changeNamed (Note.caught w) = CaughtKey c w := by
  unfold KeyChannel.changeNamed CaughtKey Note.caught
  cases c.target <;> rfl

/-- What a SOSTENUTO OPEN does beyond its press (R146 to R148). -/
theorem formCapture_spec (s : State) (n : Nat) :
    let t := s.formCapture n
    let w : RollTime := s.due n + BitVec.ofNat 32 s.tables.settings.catchMargin
    t.pedalUnit.window = some w ∧ t.pedalUnit.capture.Pairwise (· < ·)
      ∧ (∀ k : Key, k ∈ t.pedalUnit.capture ↔ s.pedalUnit.rollKeys[k.val] = true)
      ∧ (∀ k : Key, s.pedalUnit.rollKeys[k.val] = true → t.key k = CaughtKey (s.key k) w)
      ∧ (∀ k : Key, ¬s.pedalUnit.rollKeys[k.val] = true → t.key k = s.key k)
      ∧ t = { s with pedalUnit := { s.pedalUnit with capture := t.pedalUnit.capture, window := t.pedalUnit.window }
                     keys := t.keys } := by
  have hmem (k : Key) : k ∈ (allKeys.filter fun k => s.pedalUnit.rollKeys[k.val]) ↔ s.pedalUnit.rollKeys[k.val] = true := by
    rw [List.mem_filter]
    exact and_iff_right (List.mem_finRange k)
  have hkey (k : Key) : (s.formCapture n).key k = if s.pedalUnit.rollKeys[k.val] = true
      then CaughtKey (s.key k) (s.due n + BitVec.ofNat 32 s.tables.settings.catchMargin) else s.key k := by
    unfold State.formCapture
    dsimp only
    rw [State.key_mapKeys]
    simp only [List.contains_iff_mem, hmem, changeNamed_caught]
    rfl
  have hunit : (s.formCapture n).pedalUnit = { s.pedalUnit with
      capture := allKeys.filter fun k => s.pedalUnit.rollKeys[k.val]
      window := some (s.due n + BitVec.ofNat 32 s.tables.settings.catchMargin) } := by
    unfold State.formCapture State.mapKeys
    rfl
  have honly : s.formCapture n = { s with pedalUnit := (s.formCapture n).pedalUnit, keys := (s.formCapture n).keys } := by
    unfold State.formCapture State.mapKeys
    rfl
  generalize s.formCapture n = t at *
  refine ⟨by rw [hunit], ?_, fun k => by rw [hunit]; exact hmem k,
    fun k h => by rw [hkey, if_pos h], fun k h => by rw [hkey, if_neg h], ?_⟩
  · rw [hunit]
    exact List.Pairwise.filter (fun k : Key => s.pedalUnit.rollKeys[k.val]) (List.pairwise_lt_finRange 88)
  · rw [honly, hunit]

/-! One PEDAL event -/

theorem planPedal_other (h : ∀ p, e.function ≠ .pedal p) : s.planPedal n e = s := by
  unfold State.planPedal
  split
  case h_1 p hp => exact absurd hp (h p)
  · rfl

theorem planPedal_opens (hf : e.function = .pedal p) (ho : e.kind = .opens) : s.planPedal n e = s.planPress p n := by
  unfold State.planPedal
  rw [hf]
  exact if_pos ho

theorem planPedal_closes (hf : e.function = .pedal p) (hc : e.kind = .closes) : s.planPedal n e = s.planLift p n := by
  unfold State.planPedal
  rw [hf]
  exact if_neg (by rw [hc]; decide)

/-- The press that a PEDAL OPEN of line n hands to its channel (R138). -/
def State.pressOf (s : State) (p : Pedal) (n : Nat) : Press :=
  ⟨n, s.due n - BitVec.ofNat 32 (s.pedalRecord p).lead, (s.pedalRecord p).kick, none⟩

/-- The lift time of a PEDAL CLOSE of line n (R139). -/
def State.liftOf (s : State) (p : Pedal) (n : Nat) : RollTime := s.due n - BitVec.ofNat 32 (s.pedalRecord p).releaseLead

/-- Of the Pedal Unit and the keys, what a PEDAL event moves once its press or lift is handed on: the planned state, and
the sostenuto's catch (R135, R146, R147). -/
structure PedalPlanned (p : Pedal) (down : Bool) (s T t : State) : Prop where
  pedals : t.pedals = T.pedals
  fire : t.fireList = T.fireList
  wait : t.waitList = T.waitList
  planned : t.pedalUnit.planned = s.pedalUnit.planned.put p down
  rollKeys : t.pedalUnit.rollKeys = s.pedalUnit.rollKeys
  only : t = { s with pedalUnit := t.pedalUnit, keys := t.keys, pedals := t.pedals, fireList := t.fireList
                      waitList := t.waitList }
  plain : p ≠ .sostenuto →
    t.keys = s.keys ∧ t.pedalUnit.capture = s.pedalUnit.capture ∧ t.pedalUnit.window = s.pedalUnit.window

/-- A press or a lift handed on with the planned state set, and nothing more. -/
theorem pedalPlanned_handed {down : Bool} {T : State} (h : PedalHanded p (s.putPlanned p down) T) : PedalPlanned p down s T T := by
  obtain ⟨honly, -⟩ := h
  refine ⟨rfl, rfl, rfl, by rw [honly]; rfl, by rw [honly]; rfl, ?_, fun _ => ?_⟩
  · have hunit : T.pedalUnit = (s.putPlanned p down).pedalUnit := by rw [honly]
    have hkeys : T.keys = s.keys := by rw [honly]; rfl
    rw [hunit, hkeys]
    exact honly
  · rw [honly]
    exact ⟨rfl, rfl, rfl⟩

theorem planPress_eq (hok : s.faulted pedalGroup = false) (p : Pedal) (n : Nat) : s.planPress p n
    = if p = .sostenuto then ((s.putPlanned p true).handPress p (s.pressOf p n)).formCapture n
      else (s.putPlanned p true).handPress p (s.pressOf p n) := if_neg ((Bool.not_eq_true _).mpr hok)

theorem planLift_eq (hok : s.faulted pedalGroup = false) (p : Pedal) (n : Nat) : s.planLift p n
    = if p = .sostenuto then ((s.putPlanned p false).handLift p (s.liftOf p n)).emptyCapture
      else (s.putPlanned p false).handLift p (s.liftOf p n) := if_neg ((Bool.not_eq_true _).mpr hok)

theorem planPress_spec (hok : s.faulted pedalGroup = false) (p : Pedal) (n : Nat) :
    let T := (s.putPlanned p true).handPress p (s.pressOf p n)
    let t := s.planPress p n
    let w : RollTime := s.due n + BitVec.ofNat 32 s.tables.settings.catchMargin
    PedalPlanned p true s T t ∧ (p = .sostenuto → t.pedalUnit.window = some w ∧ t.pedalUnit.capture.Pairwise (· < ·)
      ∧ (∀ k : Key, k ∈ t.pedalUnit.capture ↔ s.pedalUnit.rollKeys[k.val] = true)
      ∧ (∀ k : Key, s.pedalUnit.rollKeys[k.val] = true → t.key k = CaughtKey (s.key k) w)
      ∧ ∀ k : Key, ¬s.pedalUnit.rollKeys[k.val] = true → t.key k = s.key k) := by
  have hhanded := pedalHanded_handPress (s.putPlanned p true) p (s.pressOf p n)
  rw [planPress_eq hok]
  generalize (s.putPlanned p true).handPress p (s.pressOf p n) = T at hhanded ⊢
  have hT := pedalPlanned_handed hhanded
  dsimp only
  by_cases hp : p = .sostenuto
  · rw [if_pos hp]
    obtain ⟨honlyT, -⟩ := hhanded
    have hkeys (k : Key) : T.key k = s.key k := by rw [honlyT]; rfl
    have hdue : T.due n = s.due n := by rw [honlyT]; rfl
    have htables : T.tables = s.tables := by rw [honlyT]; rfl
    obtain ⟨hw, hsorted, hmem, hcaught, hfree, honly⟩ := formCapture_spec T n
    rw [hdue, htables] at hw hcaught
    simp only [hT.rollKeys, hkeys] at hmem hcaught hfree
    refine ⟨⟨by rw [honly], by rw [honly], by rw [honly], by rw [honly]; exact hT.planned, by rw [honly]; exact hT.rollKeys, ?_,
      fun h => absurd hp h⟩, fun _ => ⟨hw, hsorted, hmem, hcaught, hfree⟩⟩
    have hpedals : (T.formCapture n).pedals = T.pedals := by rw [honly]
    have hfire : (T.formCapture n).fireList = T.fireList := by rw [honly]
    have hwait : (T.formCapture n).waitList = T.waitList := by rw [honly]
    generalize T.formCapture n = t at *
    rw [hpedals, hfire, hwait, honly, honlyT]
    rfl
  · rw [if_neg hp]
    exact ⟨hT, fun h => absurd h hp⟩

theorem planLift_spec (hok : s.faulted pedalGroup = false) (p : Pedal) (n : Nat) :
    let T := (s.putPlanned p false).handLift p (s.liftOf p n)
    let t := s.planLift p n
    PedalPlanned p false s T t
      ∧ (p = .sostenuto → t.keys = s.keys ∧ t.pedalUnit.capture = [] ∧ t.pedalUnit.window = none) := by
  have hhanded := pedalHanded_handLift (s.putPlanned p false) p (s.liftOf p n)
  rw [planLift_eq hok]
  generalize (s.putPlanned p false).handLift p (s.liftOf p n) = T at hhanded ⊢
  have hT := pedalPlanned_handed hhanded
  dsimp only
  by_cases hp : p = .sostenuto
  · rw [if_pos hp]
    obtain ⟨honlyT, -⟩ := hhanded
    have hkeys : T.keys = s.keys := by rw [honlyT]; rfl
    refine ⟨⟨rfl, rfl, rfl, hT.planned, hT.rollKeys, ?_, fun h => absurd hp h⟩, fun _ => ⟨hkeys, rfl, rfl⟩⟩
    rw [State.emptyCapture]
    rw [honlyT]
    rfl
  · rw [if_neg hp]
    exact ⟨hT, fun h => absurd h hp⟩

/-! The line's events, none of whose presses is late -/

theorem fireList_handLift (s : State) (p : Pedal) (r : RollTime) : ∀ x ∈ (s.handLift p r).fireList, x ∈ s.fireList := by
  unfold State.handLift
  dsimp only
  intro x hx
  split at hx
  · exact hx
  · split at hx
    · exact List.mem_of_mem_filter hx
    · exact hx
    · split at hx <;> exact hx
    · split at hx
      · split at hx <;> exact hx
      · exact hx
    · exact hx

/-- A PEDAL event puts at most the entry of its own press into the Fire List (R98, R138). -/
theorem mem_fireList_planPedal {x : FireEntry} (hx : x ∈ (s.planPedal n e).fireList) :
    x ∈ s.fireList ∨ ∃ p, x = ⟨.pedal p, (s.pressOf p n).fire⟩ := by
  by_cases hpedal : ∃ p, e.function = .pedal p
  · obtain ⟨p, hf⟩ := hpedal
    cases hkind : e.kind with
    | closes =>
      rw [planPedal_closes hf hkind] at hx
      cases hgroup : s.faulted pedalGroup with
      | true => rw [State.planLift, if_pos hgroup] at hx; exact .inl hx
      | false =>
        rw [(planLift_spec hgroup p n).1.fire] at hx
        exact .inl (fireList_handLift (s.putPlanned p false) _ _ x hx)
    | opens =>
      rw [planPedal_opens hf hkind] at hx
      cases hgroup : s.faulted pedalGroup with
      | true => rw [State.planPress, if_pos hgroup] at hx; exact .inl hx
      | false =>
        rw [(planPress_spec hgroup p n).1.fire] at hx
        unfold State.handPress at hx
        dsimp only at hx
        split at hx
        · have hx' : x ∈ insertFire ⟨.pedal p, (s.pressOf p n).fire⟩ s.fireList := hx
          rw [(insertFire_perm _ _).mem_iff, List.mem_cons] at hx'
          exact hx'.symm.imp_right fun h => ⟨p, h⟩
        · split at hx <;> exact .inl hx
  · rw [planPedal_other fun p h => hpedal ⟨p, h⟩] at hx
    exact .inl hx

theorem pressOf_same (h : OnlyPedalUnit s t) (p : Pedal) (n : Nat) : t.pressOf p n = s.pressOf p n := by
  unfold OnlyPedalUnit OnlyChannels at h
  rw [h]
  rfl

theorem mem_fireList_planPedals (es : List HoleEvent) {x : FireEntry}
    (hx : x ∈ (es.foldl (fun t e => t.planPedal n e) s).fireList) :
    x ∈ s.fireList ∨ ∃ p, x = ⟨.pedal p, (s.pressOf p n).fire⟩ := by
  induction es generalizing s with
  | nil => exact .inl hx
  | cons e es ih =>
    rcases ih (s := s.planPedal n e) hx with h | ⟨p, rfl⟩
    · exact mem_fireList_planPedal h
    · rw [pressOf_same (onlyPedalUnit_planPedal s n e)]
      exact .inr ⟨p, rfl⟩

theorem mem_pressedPedals {es : List HoleEvent} {c : Channel} (h : c ∈ s.pressedPedals es) :
    ∃ p, c = .pedal p ∧ (s.pedal p).state = .idle ∧ ∃ e ∈ es, e.function = .pedal p ∧ e.kind = .opens := by
  obtain ⟨p, hp, rfl⟩ := List.mem_map.1 h
  obtain ⟨-, hp⟩ := List.mem_filter.1 hp
  rw [Bool.and_eq_true, beq_iff_eq, List.any_eq_true] at hp
  obtain ⟨hi, e, he, hfe⟩ := hp
  rw [Bool.and_eq_true, beq_iff_eq, beq_iff_eq] at hfe
  exact ⟨p, rfl, hi, e, he, hfe⟩

theorem planPedals_of_none_late {es : List HoleEvent}
    (h : ∀ p, (s.pedal p).state = .idle → (∃ e ∈ es, e.function = .pedal p ∧ e.kind = .opens) →
      (∀ x ∈ s.fireList, x.channel ≠ .pedal p) ∧ reached s.roll.rollTime (s.pressOf p n).fire = false) :
    s.planPedals n es = s.takePedals n es := by
  refine fireLate_of_none fun c hc => ?_
  obtain ⟨p, rfl, hi, hnamed⟩ := mem_pressedPedals hc
  obtain ⟨hfree, hahead⟩ := h p hi hnamed
  have hbefore : OnlyPedalUnit s ((s.closeWindow n).applyRollKeys es) :=
    (onlyPedalUnit_closeWindow s n).trans (onlyPedalUnit_applyRollKeys _ es)
  have hlists : ((s.closeWindow n).applyRollKeys es).fireList = s.fireList := (sameDrives_closeWindow s n).fireList
  have htaken : OnlyPedalUnit s (s.takePedals n es) :=
    hbefore.trans (OnlyPedalUnit.foldl (fun s e => onlyPedalUnit_planPedal s n e) es _)
  rw [← Bool.not_eq_true, firesNow_iff]
  rintro ⟨-, x, hx, hxp, hr⟩
  have hroll : (s.takePedals n es).roll = s.roll := by
    unfold OnlyPedalUnit OnlyChannels at htaken
    rw [htaken]
  rw [hroll] at hr
  rcases mem_fireList_planPedals es hx with hold | ⟨q, rfl⟩
  · rw [hlists] at hold
    exact hfree x hold hxp
  · cases hxp
    rw [pressOf_same hbefore, hahead] at hr
    cases hr

/-- Settles O34: the records before the events, then event by event; the fold is the whole line where no press is late. -/
theorem pedalEventsReachTheirChannel : Obligations.PedalEventsReachTheirChannel := by
  intro s n
  refine ⟨fun es h => planPedals_of_none_late h, fun e h => planPedal_other h, fun w hw => closeWindow_open hw, closeWindow_none,
    fun es k => ⟨rfl, rollKeys_unnamed, fun kind => rollKeys_named⟩, fun p e hf => ?_⟩
  intro c t r press lift idle window captured becomes
  refine ⟨fun hbad => ?_, fun hok => ?_⟩
  · cases hkind : e.kind with
    | opens => exact (planPedal_opens hf hkind).trans (if_pos hbad)
    | closes => exact (planPedal_closes hf hkind).trans (if_pos hbad)
  · cases hkind : e.kind with
    | opens =>
      have ht : t = s.planPress p n := planPedal_opens hf hkind
      obtain ⟨hP, hcapture⟩ := planPress_spec hok p n
      have hhanded := pedalHanded_handPress (s.putPlanned p true) p press
      have hidle (hi : c.state = .idle) := handPress_idle (s := s.putPlanned p true) (p := p) hi press
      have hbusy (hi : c.state ≠ .idle) (hp : c.pending = none) := handPress_busy (s := s.putPlanned p true) hi hp press
      have hfull (hi : c.state ≠ .idle) (hp : c.pending.isSome = true) := handPress_full (s := s.putPlanned p true) hi hp press
      change PedalPlanned p true s ((s.putPlanned p true).handPress p press) (s.planPress p n) at hP
      rw [← ht] at hP hcapture
      clear_value t
      generalize (s.putPlanned p true).handPress p press = T at hP hhanded hidle hbusy hfull
      have hpedal (q : Pedal) : t.pedal q = T.pedal q := by rw [State.pedal, hP.pedals]; rfl
      have hbecomes {d : PedalChannel} (h : PedalBecomes p s T d) : becomes d :=
        ⟨(hpedal p).trans h.1, hP.fire.trans h.2.1, hP.wait.trans h.2.2⟩
      refine ⟨hP.planned, hP.rollKeys, fun q hq => (hpedal q).trans (hhanded.others q hq), hP.only, hP.plain,
        fun hp _ => hcapture hp, (fun _ hc => nomatch hc), fun _ => ⟨fun hi => ?_, fun hi hp => ?_, fun hi hp => ?_⟩,
        (fun hc => nomatch hc)⟩
      · rw [hpedal, hP.fire, hP.wait, hidle hi]
        exact ⟨State.pedal_withPedal_self .., rfl, rfl⟩
      · exact hbecomes (by rw [hbusy hi hp]; exact pedalBecomes_withPedal ..)
      · exact hbecomes (by rw [hfull hi hp]; exact ⟨rfl, rfl, rfl⟩)
    | closes =>
      have ht : t = s.planLift p n := planPedal_closes hf hkind
      obtain ⟨hP, hcapture⟩ := planLift_spec hok p n
      have hhanded := pedalHanded_handLift (s.putPlanned p false) p lift
      have hpending (hp : c.pending.isSome = true) := handLift_pending (s := s.putPlanned p false) (p := p) hp lift
      have hcurrent (hp : c.pending = none) := handLift_current (s := s.putPlanned p false) (p := p) hp lift
      have hheld {f : Press} (hp : c.pending = none) (hs : c.state = .hold) (hcur : c.current = some f) (hl : f.lift = none) :=
        handLift_held (s := s.putPlanned p false) (p := p) (r := lift) hp hs hcur hl
      change PedalPlanned p false s ((s.putPlanned p false).handLift p lift) (s.planLift p n) at hP
      rw [← ht] at hP hcapture
      clear_value t
      generalize (s.putPlanned p false).handLift p lift = T at hP hhanded hpending hcurrent hheld
      have hpedal (q : Pedal) : t.pedal q = T.pedal q := by rw [State.pedal, hP.pedals]; rfl
      have hbecomes {d : PedalChannel} (h : PedalBecomes p s T d) : becomes d :=
        ⟨(hpedal p).trans h.1, hP.fire.trans h.2.1, hP.wait.trans h.2.2⟩
      have hv : (s.putPlanned p false).pedal p = c := rfl
      refine ⟨hP.planned, hP.rollKeys, fun q hq => (hpedal q).trans (hhanded.others q hq), hP.only, hP.plain,
        (fun _ hc => nomatch hc), fun hp _ => hcapture hp, (fun hc => nomatch hc), fun _ => ⟨fun hp => ?_, fun hp hs => ?_,
          fun hp hs => ?_, fun f hp hcur hl => ⟨fun hs => ?_, fun hs hr => ?_, fun hs hr => ?_⟩, fun hp hrest => ?_⟩⟩
      · exact hbecomes (by rw [hpending hp]; exact pedalBecomes_withPedal ..)
      · have hT := hcurrent hp
        rw [hv, hs] at hT
        rw [hpedal, hP.fire, hP.wait, hT]
        exact ⟨State.pedal_withPedal_self .., rfl, rfl⟩
      · have hT := hcurrent hp
        rw [hv, hs] at hT
        rw [hpedal, hP.fire, hP.wait, hT]
        exact ⟨State.pedal_withPedal_self .., rfl, rfl⟩
      · have hT := hcurrent hp
        rw [hv, hs, hcur] at hT
        dsimp only at hT
        rw [if_pos (by rw [hl]; rfl)] at hT
        exact hbecomes (by rw [hT]; exact pedalBecomes_withPedal ..)
      · exact hbecomes (by rw [(hheld hp hs hcur hl).1 hr]; exact pedalBecomes_withPedal ..)
      · exact hbecomes (by rw [(hheld hp hs hcur hl).2 hr]; exact pedalBecomes_withPedal ..)
      · refine hbecomes ?_
        have hT := hcurrent hp
        rw [hv] at hT
        rcases hrest with hs | hs | ⟨hs | hs, f, hcur, hl⟩
        · rw [hs] at hT; rw [hT]; exact ⟨rfl, rfl, rfl⟩
        · rw [hs] at hT; rw [hT]; exact ⟨rfl, rfl, rfl⟩
        · rw [hs, hcur] at hT
          dsimp only at hT
          rw [if_neg (by rw [Option.isNone_iff_eq_none]; exact fun h => by rw [h] at hl; cases hl)] at hT
          rw [hT]; exact ⟨rfl, rfl, rfl⟩
        · rw [hs, hcur] at hT
          dsimp only at hT
          rw [if_neg (by rw [Option.isNone_iff_eq_none]; exact fun h => by rw [h] at hl; cases hl)] at hT
          rw [hT]; exact ⟨rfl, rfl, rfl⟩

end Sys2Proof.Machine
end

section
/-! PROOFS. The order of the two lists, and which due event that requests a kick slot comes first (R98, R119, R120). -/

namespace Sys2Proof.Machine

open Sys2Proof.Safety

variable {s t u : State} {k : Key} {p : Pedal} {n : Nat} {c d : Channel} {i : Instr}

/-! The order of the Fire List (R98) -/

/-- Of two roll times within half the range of a base, the one nearer the base is the earlier. -/
theorem earlier_iff {base x y : RollTime} (hx : (x - base).toNat < 2 ^ 31) (hy : (y - base).toNat < 2 ^ 31) :
    earlier x y = true ↔ (x - base).toNat < (y - base).toNat := by
  unfold earlier
  rw [decide_eq_true_iff, BitVec.toInt_eq_toNat_cond]
  simp only [BitVec.toNat_sub] at hx hy ⊢
  split <;> omega

/-- One entry of the Fire List stands at or before another, from a base on. -/
def FiresNoLater (base : RollTime) (a b : FireEntry) : Prop :=
  (a.time - base).toNat < (b.time - base).toNat ∨ (a.time = b.time ∧ a.channel.rank ≤ b.channel.rank)

theorem firesNoLater_of_not_before {base : RollTime} {a b : FireEntry} (ha : (a.time - base).toNat < 2 ^ 31)
    (hb : (b.time - base).toNat < 2 ^ 31) (h : b.before a = false) : FiresNoLater base a b := by
  rw [FireEntry.before, Bool.or_eq_false_iff, Bool.and_eq_false_imp] at h
  obtain ⟨hearlier, hrank⟩ := h
  have hle : (a.time - base).toNat ≤ (b.time - base).toNat := by
    by_contra hlt
    rw [(earlier_iff hb ha).2 (by omega)] at hearlier
    cases hearlier
  rcases Nat.lt_or_eq_of_le hle with hlt | heq
  · exact .inl hlt
  · have htime : a.time = b.time := by
      have hsub := BitVec.eq_of_toNat_eq heq
      calc a.time = a.time - base + base := (BitVec.sub_add_cancel ..).symm
        _ = b.time - base + base := by rw [hsub]
        _ = b.time := BitVec.sub_add_cancel ..
    have hnot := of_decide_eq_false (hrank (beq_iff_eq.2 htime.symm))
    exact .inr ⟨htime, by omega⟩

theorem firesNoLater_of_before {base : RollTime} {a b : FireEntry} (ha : (a.time - base).toNat < 2 ^ 31)
    (hb : (b.time - base).toNat < 2 ^ 31) (h : a.before b = true) : FiresNoLater base a b := by
  rw [FireEntry.before, Bool.or_eq_true, Bool.and_eq_true, beq_iff_eq, decide_eq_true_iff] at h
  exact h.imp (earlier_iff ha hb).1 fun ⟨ht, hr⟩ => ⟨ht, hr.le⟩

theorem firesNoLater_trans {base : RollTime} {a b c : FireEntry} (h : FiresNoLater base a b) (h' : FiresNoLater base b c) :
    FiresNoLater base a c := by
  unfold FiresNoLater at *
  rcases h with h | ⟨ht, hr⟩
  · rcases h' with h' | ⟨ht', -⟩
    · exact .inl (h.trans h')
    · rw [ht'] at h; exact .inl h
  · rcases h' with h' | ⟨ht', hr'⟩
    · rw [ht]; exact .inl h'
    · exact .inr ⟨ht.trans ht', hr.trans hr'⟩

theorem insertFire_sorted {base : RollTime} {e : FireEntry} {l : List FireEntry}
    (hnear : ∀ x ∈ e :: l, (x.time - base).toNat < 2 ^ 31) (h : l.Pairwise (FiresNoLater base)) :
    (insertFire e l).Pairwise (FiresNoLater base) := by
  induction l with
  | nil => exact List.pairwise_singleton ..
  | cons x xs ih =>
    have he := hnear e (List.mem_cons_self ..)
    have hx := hnear x (List.mem_cons_of_mem _ (List.mem_cons_self ..))
    have hxs := List.pairwise_cons.1 h
    unfold insertFire
    split
    case isTrue hb =>
      have hex := firesNoLater_of_before he hx hb
      refine List.pairwise_cons.2 ⟨fun y hy => ?_, h⟩
      rcases List.mem_cons.1 hy with rfl | hy
      · exact hex
      · exact firesNoLater_trans hex (hxs.1 y hy)
    case isFalse hb =>
      have hxe := firesNoLater_of_not_before hx he ((Bool.not_eq_true _).mp hb)
      refine List.pairwise_cons.2 ⟨fun y hy => ?_, ih (fun y hy => hnear y ?_) hxs.2⟩
      · rcases List.mem_cons.1 ((insertFire_perm e xs).mem_iff.1 hy) with rfl | hy
        · exact hxe
        · exact hxs.1 y hy
      · rcases List.mem_cons.1 hy with rfl | hy
        · exact List.mem_cons_self ..
        · exact List.mem_cons_of_mem _ (List.mem_cons_of_mem _ hy)

/-- A list whose later entries are not before the earlier ones, in the order from a base. -/
theorem firesNoLater_pairwise {base : RollTime} {l : List FireEntry} (hnear : ∀ x ∈ l, (x.time - base).toNat < 2 ^ 31)
    (h : l.Pairwise fun a b => b.before a = false) : l.Pairwise (FiresNoLater base) :=
  h.imp_of_mem fun ha hb hab => firesNoLater_of_not_before (hnear _ ha) (hnear _ hb) hab

/-! The order of the Kick Wait List (R120) -/

theorem insertWait_sorted_of_comparable {e : WaitEntry} {l : List WaitEntry} (h : l.Pairwise GrantsBefore)
    (htotal : ∀ x ∈ l, GrantsBefore x e ∨ GrantsBefore e x) : (insertWait e l).Pairwise GrantsBefore := by
  induction l with
  | nil => exact List.pairwise_singleton ..
  | cons x xs ih =>
    have hxs := List.pairwise_cons.1 h
    unfold insertWait
    split
    case isTrue hb =>
      have hex := (before_iff_grantsBefore e x).1 hb
      refine List.pairwise_cons.2 ⟨fun y hy => ?_, h⟩
      rcases List.mem_cons.1 hy with rfl | hy
      · exact hex
      · exact grantsBefore_trans hex (hxs.1 y hy)
    case isFalse hb =>
      have hxe : GrantsBefore x e :=
        (htotal x (List.mem_cons_self ..)).resolve_right fun h => hb ((before_iff_grantsBefore e x).2 h)
      refine List.pairwise_cons.2 ⟨fun y hy => ?_, ih hxs.2 fun y hy => htotal y (List.mem_cons_of_mem _ hy)⟩
      rcases List.mem_cons.1 ((insertWait_perm e xs).mem_iff.1 hy) with rfl | hy
      · exact hxe
      · exact hxs.1 y hy

/-! Which due event can come next (R119) -/

theorem isKickEnd_iff (i : Instr) : isKickEnd i = true ↔ (∃ k, i = .kickEnd k) ∨ ∃ p, i = .pedalKickEnd p := by
  constructor
  · intro h
    unfold isKickEnd at h
    split at h
    · exact .inl ⟨_, rfl⟩
    · exact .inr ⟨_, rfl⟩
    · cases h
  · rintro (⟨k, rfl⟩ | ⟨p, rfl⟩) <;> rfl

theorem mem_requesters (s : State) (d : Channel) : d ∈ s.requesters
    ↔ (∃ j ∈ s.dueEvents, ¬((∃ k, j = .kickEnd k) ∨ ∃ p, j = .pedalKickEnd p) ∧ d ∈ s.requests j) ∨ d ∈ s.kickEndRequests := by
  simp only [State.requesters, List.mem_append, List.mem_flatMap, List.mem_filter, Bool.not_eq_true', ← isKickEnd_iff,
    Bool.not_eq_true, and_assoc]

/-- An event judged first among some channels: none of them is before all of its own. -/
theorem judgedFirst_le {others : List Channel} (h : s.judgedFirst i others = true) (hc : c ∈ s.requests i) (hd : d ∈ others) :
    ∃ c', c' ∈ s.requests i ∧ c'.rank ≤ d.rank := by
  rcases judgedFirst_iff.1 h with hnone | hfirst
  · rw [hnone] at hc; cases hc
  · exact hfirst d hd

/-- Planning a line takes the plan line up to it and leaves the settled line (R50). -/
theorem planNext_planLine (s : State) : s.planNext.roll.planLine = s.nextLine ∧ s.planNext.holes.settled = s.holes.settled := by
  have htaken : s.lineTaken.holes.settled = s.holes.settled := by rw [(sameRoll_lineTaken s).holes]
  rw [planNext_eq]
  generalize s.lineTaken = y at htaken
  have hadv := sameRoll_advancePlan y s.nextLine
  have hline : (y.advancePlan s.nextLine).roll.planLine = s.nextLine := hadv.planLine
  have hsettled : (y.advancePlan s.nextLine).holes.settled = s.holes.settled := by rw [hadv.holes]; exact htaken
  generalize y.advancePlan s.nextLine = x at hline hsettled
  split
  · have hend := sameRoll_enterEnding x s.nextLine
    exact ⟨hend.planLine.trans hline, by rw [hend.holes]; exact hsettled⟩
  · exact ⟨hline, hsettled⟩

/-- The lines that are settled above the plan line: one at least while a line can be planned, and one fewer after it. -/
theorem linesLeft_planNext (h : s.planDue = true) : (s.planNext.holes.settled - s.planNext.roll.planLine).toNat + 1
    ≤ (s.holes.settled - s.roll.planLine).toNat := by
  obtain ⟨hline, hsettled⟩ := planNext_planLine s
  rw [State.planDue, Bool.and_eq_true, Bool.and_eq_true, State.lineSettled, decide_eq_true_iff] at h
  obtain ⟨⟨-, hle⟩, -⟩ := h
  rw [hline, hsettled]
  unfold State.nextLine at hle ⊢
  omega

/-- A request of a line ahead is among those the card looks at (R119). -/
theorem mem_requestsAhead {lines bound : Nat} (hdue : ∀ j, j ≤ lines → ((State.planNext)^[j] s).planDue = true)
    (hbound : (s.holes.settled - s.roll.planLine).toNat ≤ bound)
    (hd : d ∈ ((State.planNext)^[lines] s).lateRequests ∨ d ∈ ((State.planNext)^[lines + 1] s).requesters) :
    d ∈ s.requestsAhead bound := by
  induction lines generalizing s bound with
  | zero =>
    have hnow : s.planDue = true := hdue 0 le_rfl
    have hleft := linesLeft_planNext hnow
    cases bound with
    | zero => omega
    | succ bound =>
      rw [State.requestsAhead, if_pos hnow, List.mem_append, List.mem_append]
      exact .inl hd
  | succ lines ih =>
    have hnow : s.planDue = true := hdue 0 (Nat.zero_le _)
    have hleft := linesLeft_planNext hnow
    cases bound with
    | zero => omega
    | succ bound =>
      rw [State.requestsAhead, if_pos hnow, List.mem_append]
      exact .inr (ih (s := s.planNext) (fun j hj => hdue (j + 1) (Nat.succ_le_succ hj)) (by omega) hd)

/-- The requests of the lines that can be planned now (R119). -/
theorem mem_lineRequests (h : ∃ lines : Nat, (∀ j, j ≤ lines → ((State.planNext)^[j] s).planDue = true)
    ∧ (d ∈ ((State.planNext)^[lines] s).lateRequests ∨ d ∈ ((State.planNext)^[lines + 1] s).requesters)) :
    d ∈ s.lineRequests := by
  obtain ⟨lines, hdue, hd⟩ := h
  exact mem_requestsAhead hdue le_rfl hd

/-- An event that can come next requests a slot that no other channel's request comes before (R119). -/
theorem firstRequest_of_choice (hi : i ∈ s.nextEventChoices) (hc : c ∈ s.requests i)
    (h : (isKickEnd i = false ∧ (d ∈ s.requesters ∨ d ∈ s.lineRequests))
      ∨ (isKickEnd i = true ∧ d ∉ s.requesters ∧ d ∈ s.lineRequests)) : ∃ c', c' ∈ s.requests i ∧ c'.rank ≤ d.rank := by
  obtain ⟨-, hlines, hnow⟩ := mem_nextEventChoices.1 hi
  have ofLine (hd : d ∈ s.lineRequests) (hnot : d ∉ s.requesters) : ∃ c', c' ∈ s.requests i ∧ c'.rank ≤ d.rank := by
    refine judgedFirst_le hlines hc (List.mem_filter.2 ⟨hd, ?_⟩)
    rw [Bool.not_eq_true', ← Bool.not_eq_true, List.contains_iff_mem]
    exact hnot
  rcases h with ⟨hends, hd⟩ | ⟨-, hnot, hd⟩
  · have hfirst : s.judgedFirst i s.requesters = true := hnow.resolve_left (by rw [hends]; decide)
    by_cases hmem : d ∈ s.requesters
    · exact judgedFirst_le hfirst hc hmem
    · exact ofLine (hd.resolve_left hmem) hmem
  · exact ofLine hd hnot

theorem planLine_choice (h : s.planDue = true) : .planLine ∈ s.nextEventChoices := by
  have hfirst (others : List Channel) : s.judgedFirst .planLine others = true := rfl
  refine mem_nextEventChoices.2 ⟨?_, hfirst _, .inr (hfirst _)⟩
  have hmem : Instr.planLine ∈ dueIf s.planDue .planLine := by rw [h]; exact List.mem_singleton_self _
  unfold State.dueEvents
  simp only [List.mem_append]
  tauto

end Sys2Proof.Machine
end

section
/-! PROOFS. O35: late notes and presses fire at once, each in its turn. -/

namespace Sys2Proof.Machine

open Sys2Proof.Safety

variable {s t u v : State} {i j k : Key} {p : Pedal} {n : Nat} {c d : Channel} {e : HoleEvent}

/-! Judging one or two channels of all -/

/-- Of channels none of which requests but one, that one alone is judged. -/
theorem foldl_judge_one {cs : List Channel} (hnodup : cs.Nodup) (hc : c ∈ cs)
    (h : ∀ d ∈ cs, d ≠ c → s.requestsNow d = false) : cs.foldl State.judge s = s.judge c := by
  induction cs with
  | nil => cases hc
  | cons x xs ih =>
    obtain ⟨hx, hxs⟩ := List.nodup_cons.1 hnodup
    rw [List.foldl_cons]
    by_cases hxc : x = c
    · subst hxc
      refine foldl_judge_idle xs fun d hd => ?_
      have hne : d ≠ x := fun e => hx (e ▸ hd)
      rw [requestsNow_same ((actsOn_judge s x).others d hne) (actsOn_judge s x).only]
      exact h d (List.mem_cons_of_mem _ hd) hne
    · have hidle : s.judge x = s := by
        unfold State.judge
        rw [h x (List.mem_cons_self ..) hxc]
        rfl
      rw [hidle]
      exact ih hxs ((List.mem_cons.1 hc).resolve_left fun e => hxc e.symm) fun d hd => h d (List.mem_cons_of_mem _ hd)

/-- Where among the channels before d only c requests, a step for d and perhaps c judges the two in turn (R119). -/
theorem judgeUpTo_two {own : List Channel} (hown : ∀ x : Channel, (∃ o ∈ own, x.rank ≤ o.rank) ↔ x.rank ≤ d.rank)
    (hcd : c.rank < d.rank) (h : ∀ x : Channel, x.rank < d.rank → x ≠ c → s.requestsNow x = false) :
    s.judgeUpTo own = (s.judge c).judge d := by
  have hfun : (fun x : Channel => own.any fun o => decide (x.rank ≤ o.rank)) = fun x => decide (x.rank ≤ d.rank) := by
    funext x
    rw [Bool.eq_iff_iff, List.any_eq_true, decide_eq_true_iff, ← hown]
    simp only [decide_eq_true_eq]
  have hmem : c ∈ allChannels.filter fun x => decide (x.rank < d.rank) :=
    List.mem_filter.2 ⟨mem_allChannels c, decide_eq_true hcd⟩
  rw [State.judgeUpTo, hfun, filter_upTo allChannels_sorted (mem_allChannels d), List.foldl_append,
    foldl_judge_one (allChannels_nodup.filter _) hmem fun x hx => h x (of_decide_eq_true (List.mem_filter.1 hx).2)]
  rfl

theorem judge_firesKey (h : s.firesNow (.key k) = true) : s.judge (.key k) = (s.dropFire (.key k)).fireKey k := by
  have hrequest : s.requestsNow (.key k) = true := by
    unfold State.requestsNow; rw [h]; rfl
  unfold State.judge
  rw [hrequest, h]
  rfl

theorem judge_firesPedal (h : s.firesNow (.pedal p) = true) : s.judge (.pedal p) = (s.dropFire (.pedal p)).firePedal p := by
  have hrequest : s.requestsNow (.pedal p) = true := by
    unfold State.requestsNow; rw [h]; rfl
  unfold State.judge
  rw [hrequest, h]
  rfl

/-! A channel just armed -/

theorem dropFire_armFire (h : ∀ x ∈ v.fireList, x.channel ≠ c) (r : RollTime) : (v.armFire c r).dropFire c = v := by
  show { v with fireList := (insertFire ⟨c, r⟩ v.fireList).filter fun e => e.channel != c } = v
  rw [filter_insertFire h]

theorem firesNow_armFire (ha : channelState v c = .armed) {r : RollTime} (hr : reached v.roll.rollTime r = true) :
    (v.armFire c r).firesNow c = true := by
  refine (firesNow_iff _ c).2 ⟨by cases c <;> exact ha, ⟨c, r⟩, ?_, rfl, hr⟩
  exact (insertFire_perm _ _).mem_iff.2 (List.mem_cons_self ..)

/-- Only a late channel stands out among those a line arms, and it is judged with those before it (R98, R119). -/
theorem fireLate_single (h : s.firesNow c = true) : s.fireLate [c] = s.judgeUpTo [c] := by
  rw [State.fireLate, State.lateAmong, List.filter_singleton, h]
  rfl

/-- The key channel that a note-on arms (R99). -/
def StruckKey (c : KeyChannel) (m : Note) : KeyChannel :=
  { c with state := .armed, current := some m, target := .current, holdReleased := false }

/-- The state with key k struck by its note of line n, its entry not yet in the Fire List. -/
def State.struck (s : State) (k : Key) (n : Nat) : State := s.withKey k (StruckKey (s.key k) (s.noteFor k n))

theorem planKey_strikes (hf : e.function = .key k) (ho : e.kind = .opens) (hi : (s.key k).state = .idle)
    (hok : s.faulted (keyGroup k) = false) : s.planKey n e = (s.struck k n).armFire (.key k) (s.fireTime k n) := by
  rw [planKey_opens hf ho, noteOn_idle hok hi]
  rfl

theorem struckKeys_eq {es : List HoleEvent} {ks : List Key} (hks : ks.Pairwise (· < ·))
    (h : ∀ k, (s.key k).state = .idle ∧ (∃ e ∈ es, e.function = .key k ∧ e.kind = .opens) ↔ k ∈ ks) :
    s.struckKeys es = ks.map .key := by
  have hmem (k : Key) : ((s.key k).state == .idle && es.any fun e => e.function == .key k && e.kind == .opens) = true
      ↔ k ∈ ks := by
    rw [← h k]
    simp only [Bool.and_eq_true, beq_iff_eq, List.any_eq_true]
  have heq : (allKeys.filter fun k => (s.key k).state == .idle && es.any fun e => e.function == .key k && e.kind == .opens)
      = ks := by
    refine List.Perm.eq_of_pairwise (le := (· < ·)) (fun a b _ _ hab hba => absurd (lt_trans hab hba) (lt_irrefl a))
      ((List.pairwise_lt_finRange 88).filter _) hks ?_
    refine (List.perm_ext_iff_of_nodup ((List.nodup_finRange 88).filter _) (hks.imp fun hab => ne_of_lt hab)).2 fun k => ?_
    rw [List.mem_filter, hmem]
    exact and_iff_right (List.mem_finRange k)
  rw [State.struckKeys, heq]

theorem struckKeys_singleton (hf : e.function = .key k) (ho : e.kind = .opens) (hi : (s.key k).state = .idle) :
    s.struckKeys [e] = [Channel.key k] := by
  refine struckKeys_eq (ks := [k]) (List.pairwise_singleton ..) fun j => ?_
  rw [List.mem_singleton]
  constructor
  · rintro ⟨-, x, hx, hxj, -⟩
    rw [List.mem_singleton.1 hx, hf] at hxj
    exact (ColumnFunction.key.inj hxj).symm
  · rintro rfl
    exact ⟨hi, e, List.mem_singleton_self _, hf, ho⟩

theorem fireKey_started {w : State} (h : s.attempt k = (true, w)) : s.fireKey k = w := by
  rw [State.fireKey, h]
  rfl

theorem kickCount_struck (hi : (s.key k).state = .idle) (n : Nat) : (s.struck k n).kickCount = s.kickCount :=
  kickCount_withKey (by rw [hi]; decide) nofun

theorem actsOn_struck (s : State) (k : Key) (n : Nat) (r : RollTime) :
    ActsOn (.key k) s ((s.struck k n).armFire (.key k) r) := (actsOn_withKey ..).trans (actsOn_armFire ..)

/-- One note-on that is late, nobody before it requesting: it fires at once (R99). -/
theorem planKeys_late (hf : e.function = .key k) (ho : e.kind = .opens) (hi : (s.key k).state = .idle)
    (hok : s.faulted (keyGroup k) = false) (hfree : ∀ x ∈ s.fireList, x.channel ≠ .key k)
    (hlate : reached s.roll.rollTime (s.fireTime k n) = true) (hfirst : noneBefore s (.key k) []) :
    s.planKeys n [e] = (s.struck k n).fireKey k := by
  have hself : (s.struck k n).key k = StruckKey (s.key k) (s.noteFor k n) := State.key_withKey_self ..
  have harmed : channelState (s.struck k n) (.key k) = .armed := by rw [channelState, hself]; rfl
  have hfires : ((s.struck k n).armFire (.key k) (s.fireTime k n)).firesNow (.key k) = true := firesNow_armFire harmed hlate
  have hothers (d : Channel) (hd : d.rank < (Channel.key k).rank) :
      ((s.struck k n).armFire (.key k) (s.fireTime k n)).requestsNow d = false := by
    have hne : d ≠ .key k := fun e => Nat.lt_irrefl _ (e ▸ hd)
    rw [requestsNow_same ((actsOn_struck s k n _).others d hne) (actsOn_struck s k n _).only]
    exact requestsNow_of_noneBefore hfirst hd List.not_mem_nil
  show (s.planKey n e).fireLate (s.struckKeys [e]) = _
  rw [planKey_strikes hf ho hi hok, struckKeys_singleton hf ho hi, fireLate_single hfires, judgeUpTo_single _ _ hothers, judge_firesKey hfires,
    dropFire_armFire (by exact hfree)]

/-- Two keys that fire at one device time meet one free slot: the lower kicks and the higher waits (R119). -/
theorem judge_two_keys {own : List Channel} {m : Note} (hik : i < k)
    (hown : ∀ x : Channel, (∃ o ∈ own, x.rank ≤ o.rank) ↔ x.rank ≤ (Channel.key k).rank)
    (hfirst : ∀ x : Channel, x.rank < (Channel.key k).rank → x ≠ .key i → s.requestsNow x = false)
    (hi : s.firesNow (.key i) = true) (hk : s.firesNow (.key k) = true) (hm : (s.key i).current = some m)
    (hoki : s.faulted (keyGroup i) = false) (hokk : s.faulted (keyGroup k) = false)
    (hone : s.kickCount + 1 = s.tables.settings.kickSlots) (hroom : s.capped i m ≤ s.room i) :
    let t := s.judgeUpTo own
    t.key i = KickedKey (s.key i) m s.deviceTime (s.capped i m) false s.clockStopped
      ∧ t.key k = { s.key k with state := .waiting, waitStart := some s.deviceTime }
      ∧ t.fireList = (s.fireList.filter fun x => x.channel != .key i).filter (fun x => x.channel != .key k)
      ∧ t.waitList = insertWait ⟨.key k, .key (s.record k).priority, s.deviceTime⟩ s.waitList := by
  have hne : k ≠ i := ne_of_gt hik
  have hrank : (Channel.key i).rank < (Channel.key k).rank := Nat.add_lt_add_left hik 3
  have hstate : (s.key i).state ≠ .kick := by
    rw [show (s.key i).state = .armed from state_of_firesNow hi]; decide
  have hlow : s.judge (.key i) = (s.dropFire (.key i)).startKick i m (s.capped i m) false := by
    rw [judge_firesKey hi]
    refine fireKey_started ((attempt_free (s := s.dropFire (.key i)) hoki ?_).trans
      (kickStart_whole (s := s.dropFire (.key i)) hm hroom false))
    show s.kickCount < s.tables.settings.kickSlots
    omega
  have hkeyi : (s.judge (.key i)).key i = KickedKey (s.key i) m s.deviceTime (s.capped i m) false s.clockStopped := by
    rw [hlow]; exact startKick_key ..
  have hacts := actsOn_judge s (.key i)
  have hsame := hacts.others (.key k) fun e => hne (Channel.key.inj e)
  have hkeyk : (s.judge (.key i)).key k = s.key k := hsame.key k rfl
  have hfireslow : (s.judge (.key i)).fireList = s.fireList.filter fun x => x.channel != .key i := by
    rw [hlow, startKick_only]; rfl
  have hwaitlow : (s.judge (.key i)).waitList = s.waitList := by rw [hlow, startKick_only]; rfl
  have hcount : (s.judge (.key i)).kickCount = s.tables.settings.kickSlots := by
    rw [hlow, kickCount_startKick (s := s.dropFire (.key i)) hstate]; exact hone
  have hfull : ¬(s.judge (.key i)).kickCount < (s.judge (.key i)).tables.settings.kickSlots := by
    rw [hcount, hacts.only.tables]; exact Nat.lt_irrefl _
  have htime : (s.judge (.key i)).deviceTime = s.deviceTime := hacts.only.deviceTime
  have hrecord : (s.judge (.key i)).record k = s.record k := hacts.only.record k
  have hfaulted : (s.judge (.key i)).faulted (keyGroup k) = false := by rw [hacts.only.faulted]; exact hokk
  have hfiresk : (s.judge (.key i)).firesNow (.key k) = true := by rw [firesNow_same hsame hacts.only]; exact hk
  intro t
  have ht : t = ((s.judge (.key i)).dropFire (.key k)).wait k := by
    show s.judgeUpTo own = _
    rw [judgeUpTo_two hown hrank hfirst, judge_firesKey hfiresk]
    exact fireKey_started (attempt_full (s := (s.judge (.key i)).dropFire (.key k)) hfaulted hfull)
  clear_value t
  subst ht
  generalize s.judge (.key i) = w at *
  refine ⟨?_, ?_, ?_, ?_⟩
  · exact (State.key_withKey_ne (w.dropFire (.key k)) k i _ hne.symm).trans hkeyi
  · refine (State.key_withKey_self (s := w.dropFire (.key k)) k _).trans ?_
    show { w.key k with state := .waiting, waitStart := some w.deviceTime } = _
    rw [hkeyk, htime]
  · show w.fireList.filter _ = _
    rw [hfireslow]
  · show insertWait ⟨.key k, .key (w.record k).priority, w.deviceTime⟩ w.waitList = _
    rw [hrecord, htime, hwaitlow]

/-! Clauses of two channels -/

/-- Key k is IDLE in an OK group with no entry in the Fire List, and its note of line n would be late (R99). -/
structure StrikesLate (s : State) (n : Nat) (k : Key) : Prop where
  idle : (s.key k).state = .idle
  ok : s.faulted (keyGroup k) = false
  free : ∀ x ∈ s.fireList, x.channel ≠ .key k
  late : reached s.roll.rollTime (s.fireTime k n) = true

/-- Key k has been armed with its late note of line n, and no other channel has moved. -/
structure Armed (s : State) (n : Nat) (k : Key) (v : State) : Prop where
  acts : ActsOn (.key k) s v
  record : v.key k = StruckKey (s.key k) (s.noteFor k n)
  fires : v.firesNow (.key k) = true
  count : v.kickCount = s.kickCount

theorem armed_planKey (h : StrikesLate s n k) (hf : e.function = .key k) (ho : e.kind = .opens) :
    Armed s n k (s.planKey n e) := by
  have hself : (s.struck k n).key k = StruckKey (s.key k) (s.noteFor k n) := State.key_withKey_self ..
  rw [planKey_strikes hf ho h.idle h.ok]
  refine ⟨actsOn_struck .., hself, firesNow_armFire ?_ h.late, kickCount_struck h.idle n⟩
  rw [channelState, hself]
  rfl

/-- A late note stays late while another key is armed. -/
theorem strikesLate_armed (hkj : k ≠ j) (h : StrikesLate s n k) (hv : Armed s n j v) : StrikesLate v n k := by
  have hsame := hv.acts.others (.key k) fun e => hkj (Channel.key.inj e)
  have honly := hv.acts.only
  refine ⟨?_, ?_, fun x hx hc => h.free x ((hsame.fire x hc).1 hx) hc, ?_⟩
  · rw [hsame.key k rfl]; exact h.idle
  · rw [honly.faulted]; exact h.ok
  · rw [honly.roll, fireTime_same honly]; exact h.late

/-- Both keys have been armed with their late notes of line n, and no other channel has moved. -/
structure BothArmed (s : State) (n : Nat) (k j : Key) (v : State) : Prop where
  only : OnlyChannels s v
  others : ∀ d, d ≠ .key k → d ≠ .key j → SameChannel d s v
  record : ∀ x, x = k ∨ x = j → v.key x = StruckKey (s.key x) (s.noteFor x n) ∧ v.firesNow (.key x) = true
  count : v.kickCount = s.kickCount

theorem bothArmed_of_armed (hkj : k ≠ j) (hv : Armed s n k v) (hu : Armed v n j u) : BothArmed s n k j u := by
  have hk := hu.acts.others (.key k) fun e => hkj (Channel.key.inj e)
  have hj := hv.acts.others (.key j) fun e => hkj (Channel.key.inj e).symm
  refine ⟨hv.acts.only.trans hu.acts.only, fun d hdk hdj => (hv.acts.others d hdk).trans (hu.acts.others d hdj), ?_,
    hu.count.trans hv.count⟩
  rintro x (rfl | rfl)
  · exact ⟨(hk.key x rfl).trans hv.record, (firesNow_same hk hu.acts.only).trans hv.fires⟩
  · exact ⟨by rw [hu.record, hj.key x rfl, noteFor_same hv.acts.only], hu.fires⟩

theorem BothArmed.symm (h : BothArmed s n k j v) : BothArmed s n j k v :=
  ⟨h.only, fun d hdj hdk => h.others d hdk hdj, fun x hx => h.record x hx.symm, h.count⟩

theorem upTo_last (hkj : k < j) (x : Channel) :
    (∃ o ∈ [Channel.key k, .key j], x.rank ≤ o.rank) ↔ x.rank ≤ (Channel.key j).rank := by
  have hrank : (Channel.key k).rank < (Channel.key j).rank := Nat.add_lt_add_left hkj 3
  constructor
  · rintro ⟨o, ho, hx⟩
    rcases List.mem_cons.1 ho with rfl | ho
    · exact hx.trans hrank.le
    · rwa [List.mem_singleton.1 ho] at hx
  · exact fun hx => ⟨.key j, List.mem_cons_of_mem _ (List.mem_singleton_self _), hx⟩

/-- Two late notes of one line that meet one free slot: the lower key kicks, the higher waits (R98, R99, R119). -/
theorem fireLate_two (hkj : k < j) (h : BothArmed s n k j v) (hone : s.kickCount + 1 = s.tables.settings.kickSlots)
    (hok : ∀ x, x = k ∨ x = j → s.faulted (keyGroup x) = false) (hfirst : noneBefore s (.key j) [.key k])
    (hroom : s.capped k (s.noteFor k n) ≤ s.room k) :
    ((v.fireLate [.key k, .key j]).key k).state = .kick ∧ ((v.fireLate [.key k, .key j]).key j).state = .waiting := by
  obtain ⟨hk, hfk⟩ := h.record k (.inl rfl)
  obtain ⟨-, hfj⟩ := h.record j (.inr rfl)
  have hlate : v.lateAmong [.key k, .key j] = [.key k, .key j] := by
    rw [State.lateAmong, List.filter_cons_of_pos hfk, List.filter_cons_of_pos hfj, List.filter_nil]
  have hcapped : v.capped k (s.noteFor k n) ≤ v.room k := by
    rw [State.capped, State.room, h.only.record, h.only.tables, hk]
    exact hroom
  have hbefore (x : Channel) (hx : x.rank < (Channel.key j).rank) (hne : x ≠ .key k) : v.requestsNow x = false := by
    rw [requestsNow_same (h.others x hne fun e => Nat.lt_irrefl _ (e ▸ hx)) h.only]
    exact requestsNow_of_noneBefore hfirst hx fun hmem => hne (List.mem_singleton.1 hmem)
  obtain ⟨hkicks, hwaits, -⟩ := judge_two_keys hkj (upTo_last hkj) hbefore hfk hfj (congrArg KeyChannel.current hk)
    (by rw [h.only.faulted]; exact hok k (.inl rfl)) (by rw [h.only.faulted]; exact hok j (.inr rfl))
    (by rw [h.count, h.only.tables]; exact hone) hcapped
  rw [State.fireLate, hlate]
  exact ⟨congrArg KeyChannel.state hkicks, congrArg KeyChannel.state hwaits⟩

/-- Two late notes of one line, in either order of their events. -/
theorem planKeys_two_late {f : HoleEvent} (hkj : k < j) (hfk : e.function = .key k) (hfj : f.function = .key j)
    (hok : e.kind = .opens) (hoj : f.kind = .opens) (h : ∀ x, x = k ∨ x = j → StrikesLate s n x)
    (hone : s.kickCount + 1 = s.tables.settings.kickSlots) (hfirst : noneBefore s (.key j) [.key k])
    (hroom : s.capped k (s.noteFor k n) ≤ s.room k) (es : List HoleEvent) (hes : es = [e, f] ∨ es = [f, e]) :
    ((s.planKeys n es).key k).state = .kick ∧ ((s.planKeys n es).key j).state = .waiting := by
  have hk := h k (.inl rfl)
  have hj := h j (.inr rfl)
  have hne : k ≠ j := ne_of_lt hkj
  have hmem (x : HoleEvent) : x ∈ es ↔ x = e ∨ x = f := by
    rcases hes with rfl | rfl
    · rw [List.mem_cons, List.mem_singleton]
    · rw [List.mem_cons, List.mem_singleton, or_comm]
  have hstruck : s.struckKeys es = [Channel.key k, .key j] := by
    refine struckKeys_eq (ks := [k, j]) (List.pairwise_pair.2 hkj) fun x => ?_
    rw [List.mem_cons, List.mem_singleton]
    constructor
    · rintro ⟨-, y, hy, hyx, -⟩
      rcases (hmem y).1 hy with rfl | rfl
      · exact .inl (ColumnFunction.key.inj (hyx.symm.trans hfk))
      · exact .inr (ColumnFunction.key.inj (hyx.symm.trans hfj))
    · rintro (rfl | rfl)
      · exact ⟨hk.idle, e, (hmem e).2 (.inl rfl), hfk, hok⟩
      · exact ⟨hj.idle, f, (hmem f).2 (.inr rfl), hfj, hoj⟩
  have hboth : BothArmed s n k j (s.takeKeys n es) := by
    rcases hes with rfl | rfl
    · have hv := armed_planKey hk hfk hok
      exact bothArmed_of_armed hne hv (armed_planKey (strikesLate_armed hne.symm hj hv) hfj hoj)
    · have hv := armed_planKey hj hfj hoj
      exact (bothArmed_of_armed hne.symm hv (armed_planKey (strikesLate_armed hne hk hv) hfk hok)).symm
  rw [State.planKeys, hstruck]
  exact fireLate_two hkj hboth hone (fun x hx => (h x hx).ok) hfirst hroom

/-- A late note and a lower key whose fire time is reached too meet one free slot: the lower key kicks (R119). -/
theorem planKeys_late_behind {x : FireEntry} {m : Note} (hik : i < k) (hf : e.function = .key k) (ho : e.kind = .opens)
    (h : StrikesLate s n k) (hi : (s.key i).state = .armed) (hm : (s.key i).current = some m)
    (hoki : s.faulted (keyGroup i) = false) (hx : x ∈ s.fireList) (hxi : x.channel = .key i)
    (hr : reached s.roll.rollTime x.time = true) (hone : s.kickCount + 1 = s.tables.settings.kickSlots)
    (hfirst : noneBefore s (.key k) [.key i]) (hroom : s.capped i m ≤ s.room i) :
    let t := s.planKeys n [e]
    t.key i = KickedKey (s.key i) m s.deviceTime (s.capped i m) false s.clockStopped
      ∧ t.key k = { StruckKey (s.key k) (s.noteFor k n) with state := .waiting, waitStart := some s.deviceTime }
      ∧ t.fireList = s.fireList.filter (fun y => y.channel != .key i)
      ∧ t.waitList = insertWait ⟨.key k, .key (s.record k).priority, s.deviceTime⟩ s.waitList := by
  have harm := armed_planKey h hf ho
  have heq := planKey_strikes (s := s) (n := n) hf ho h.idle h.ok
  have hlists : (s.planKey n e).fireList = insertFire ⟨.key k, s.fireTime k n⟩ s.fireList
      ∧ (s.planKey n e).waitList = s.waitList := by rw [heq]; exact ⟨rfl, rfl⟩
  intro t
  have ht : t = (s.planKey n e).judgeUpTo [.key k] := by
    show (s.planKey n e).fireLate (s.struckKeys [e]) = _
    rw [struckKeys_singleton hf ho h.idle, fireLate_single harm.fires]
  clear_value t
  subst ht
  generalize s.planKey n e = v at harm hlists
  have honly := harm.acts.only
  have hsame := harm.acts.others (.key i) fun e => ne_of_lt hik (Channel.key.inj e)
  have hkey : v.key i = s.key i := hsame.key i rfl
  have hfires : v.firesNow (.key i) = true := by
    rw [firesNow_same hsame honly]
    exact (firesNow_iff s _).2 ⟨hi, x, hx, hxi, hr⟩
  have hcapped : v.capped i m = s.capped i m := by rw [State.capped, State.capped, honly.record]
  have hbefore (x : Channel) (hx : x.rank < (Channel.key k).rank) (hne : x ≠ .key i) : v.requestsNow x = false := by
    rw [requestsNow_same (harm.acts.others x fun e => Nat.lt_irrefl _ (e ▸ hx)) honly]
    exact requestsNow_of_noneBefore hfirst hx fun hmem => hne (List.mem_singleton.1 hmem)
  obtain ⟨hkicks, hwaits, hfire, hwait⟩ := judge_two_keys (own := [.key k]) (s := v) hik (fun x => by simp) hbefore hfires
    harm.fires (by rw [hkey]; exact hm) (by rw [honly.faulted]; exact hoki) (by rw [honly.faulted]; exact h.ok)
    (by rw [harm.count, honly.tables]; exact hone)
    (by rw [hcapped, State.room, hkey, honly.tables]; exact hroom)
  refine ⟨?_, ?_, ?_, ?_⟩
  · rw [hkicks, hkey, hcapped, honly.deviceTime]
    unfold State.clockStopped State.clocked
    rw [honly.roll]
  · rw [hwaits, harm.record, honly.deviceTime]
  · rw [hfire, hlists.1, List.filter_comm, filter_insertFire h.free]
  · rw [hwait, hlists.2, honly.record, honly.deviceTime]

/-! A late press -/

theorem pressedPedals_singleton (hf : e.function = .pedal p) (ho : e.kind = .opens) (hi : (s.pedal p).state = .idle) :
    s.pressedPedals [e] = [Channel.pedal p] := by
  have hsel : (fun q : Pedal => (s.pedal q).state == .idle && [e].any fun e => e.function == .pedal q && e.kind == .opens)
      = (· == p) := by
    funext q
    rw [Bool.eq_iff_iff, Bool.and_eq_true, beq_iff_eq, List.any_cons, List.any_nil, Bool.or_false, Bool.and_eq_true,
      beq_iff_eq, beq_iff_eq, beq_iff_eq, hf]
    constructor
    · rintro ⟨-, hq, -⟩; exact (ColumnFunction.pedal.inj hq).symm
    · rintro rfl; exact ⟨hi, rfl, ho⟩
  rw [State.pressedPedals, hsel]
  cases p <;> rfl

/-- The press of one PEDAL OPEN while no window is open (R135, R138). -/
theorem takePedals_press (hf : e.function = .pedal p) (ho : e.kind = .opens) (hp : p ≠ .sostenuto)
    (hi : (s.pedal p).state = .idle) (hok : s.faulted pedalGroup = false) (hw : s.pedalUnit.window = none) :
    s.takePedals n [e] = ((s.putPlanned p true).withPedal p (ArmedPedal (s.pressOf p n))).armFire (.pedal p)
      (s.pressOf p n).fire := by
  have hkeys : s.applyRollKeys [e] = s := by
    rw [applyRollKeys_eq, List.foldl_cons, List.foldl_nil, rollKeySet, hf]
  show ((s.closeWindow n).applyRollKeys [e]).planPedal n e = _
  rw [closeWindow_none hw, hkeys, planPedal_opens hf ho, planPress_eq hok, if_neg hp]
  exact handPress_idle (s := s.putPlanned p true) hi _

/-- One press that is late, nobody before it requesting: it fires at once (R138). -/
theorem planPedals_late (hf : e.function = .pedal p) (ho : e.kind = .opens) (hp : p ≠ .sostenuto)
    (hi : (s.pedal p).state = .idle) (hok : s.faulted pedalGroup = false) (hw : s.pedalUnit.window = none)
    (hfree : ∀ x ∈ s.fireList, x.channel ≠ .pedal p) (hlate : reached s.roll.rollTime (s.pressOf p n).fire = true)
    (hfirst : noneBefore s (.pedal p) []) :
    s.planPedals n [e] = ((s.putPlanned p true).withPedal p (ArmedPedal (s.pressOf p n))).firePedal p := by
  have hrequests (d : Channel) (hd : d.rank < (Channel.pedal p).rank) : (s.putPlanned p true).requestsNow d = false :=
    requestsNow_of_noneBefore hfirst hd List.not_mem_nil
  rw [State.planPedals, takePedals_press hf ho hp hi hok hw, pressedPedals_singleton hf ho hi]
  generalize hv : s.putPlanned p true = v at hrequests
  have hself : (v.withPedal p (ArmedPedal (s.pressOf p n))).pedal p = ArmedPedal (s.pressOf p n) := State.pedal_withPedal_self ..
  have hnow : reached v.roll.rollTime (s.pressOf p n).fire = true := by rw [← hv]; exact hlate
  have hlist : ∀ x ∈ v.fireList, x.channel ≠ .pedal p := by rw [← hv]; exact hfree
  have hacts := (actsOn_withPedal v p (ArmedPedal (s.pressOf p n))).trans (actsOn_armFire _ (.pedal p) (s.pressOf p n).fire)
  have hfires := firesNow_armFire (v := v.withPedal p (ArmedPedal (s.pressOf p n))) (c := .pedal p)
    (by rw [channelState, hself]; rfl) hnow
  have hothers (d : Channel) (hd : d.rank < (Channel.pedal p).rank) :
      ((v.withPedal p (ArmedPedal (s.pressOf p n))).armFire (.pedal p) (s.pressOf p n).fire).requestsNow d = false := by
    rw [requestsNow_same (hacts.others d fun e => Nat.lt_irrefl _ (e ▸ hd)) hacts.only]
    exact hrequests d hd
  rw [fireLate_single hfires, judgeUpTo_single _ _ hothers, judge_firesPedal hfires, dropFire_armFire (by exact hlist)]

/-- One press that is late: on a card with a slot free it kicks, on a full one it waits (R119, R138, R141). -/
theorem planPedals_late_becomes (hf : e.function = .pedal p) (ho : e.kind = .opens) (hp : p ≠ .sostenuto)
    (hi : (s.pedal p).state = .idle) (hok : s.faulted pedalGroup = false) (hw : s.pedalUnit.window = none)
    (hfree : ∀ x ∈ s.fireList, x.channel ≠ .pedal p) (hlate : reached s.roll.rollTime (s.pressOf p n).fire = true)
    (hfirst : noneBefore s (.pedal p) []) :
    (s.kickCount < s.tables.settings.kickSlots → s.planPedals n [e]
        = (s.putPlanned p true).withPedal p (KickedPedal (ArmedPedal (s.pressOf p n)) s.deviceTime (s.pressOf p n)))
      ∧ (s.tables.settings.kickSlots ≤ s.kickCount → s.planPedals n [e]
        = { (s.putPlanned p true).withPedal p ⟨.waiting, some (s.pressOf p n), none, none, some s.deviceTime, none, 0⟩ with
            waitList := insertWait ⟨.pedal p, .pedal, s.deviceTime⟩ s.waitList }) := by
  have hidle : ((s.putPlanned p true).pedal p).state ≠ .kick := by
    rw [show ((s.putPlanned p true).pedal p).state = .idle from hi]; decide
  have hplan := planPedals_late hf ho hp hi hok hw hfree hlate hfirst
  have harm := armPedal_fires (s := s.putPlanned p true) (p := p) (f := s.pressOf p n) hlate
  rw [hplan, ← harm]
  exact ⟨fun hslot => armPedal_free hlate hidle hslot, fun hfull => armPedal_full hlate hidle (Nat.not_lt.2 hfull)⟩

/-- One late note: on a card with a slot free and headroom it kicks, on a full one it waits (R99, R105, R119). -/
theorem planKeys_late_becomes (hf : e.function = .key k) (ho : e.kind = .opens) (h : StrikesLate s n k)
    (hfirst : noneBefore s (.key k) []) :
    (s.kickCount < s.tables.settings.kickSlots → s.capped k (s.noteFor k n) ≤ s.room k →
        s.planKeys n [e] = (s.struck k n).startKick k (s.noteFor k n) (s.capped k (s.noteFor k n)) false)
      ∧ (s.tables.settings.kickSlots ≤ s.kickCount → s.planKeys n [e] = (s.struck k n).wait k) := by
  have hplan := planKeys_late hf ho h.idle h.ok h.free h.late hfirst
  have hcount := kickCount_struck h.idle n
  have hself : (s.struck k n).key k = StruckKey (s.key k) (s.noteFor k n) := State.key_withKey_self ..
  refine ⟨fun hslot hroom => hplan.trans (fireKey_started ?_), fun hfull => hplan.trans (fireKey_started ?_)⟩
  · refine (attempt_free (s := s.struck k n) h.ok (by rw [hcount]; exact hslot)).trans
      (kickStart_whole (by rw [hself]; rfl) ?_ false)
    rw [State.capped, State.room, hself]
    exact hroom
  · exact attempt_full (s := s.struck k n) h.ok (by rw [hcount]; exact Nat.not_lt.2 hfull)

theorem startKick_struck (s : State) (k : Key) (n kick : Nat) (m : Note) : (s.struck k n).startKick k m kick false
    = { s.withKey k (KickedKey (StruckKey (s.key k) (s.noteFor k n)) m s.deviceTime kick false s.clockStopped) with
        counters := ((s.struck k n).startKick k m kick false).counters } := by
  have hself : (s.struck k n).key k = StruckKey (s.key k) (s.noteFor k n) := State.key_withKey_self ..
  rw [startKick_kicked, hself, State.struck, State.withKey_withKey]
  rfl

theorem counter_startKick_struck (s : State) (k : Key) (n kick : Nat) (m : Note) (d : Counter) :
    ((s.struck k n).startKick k m kick false).counter d = if d = .lateStrike then lateCount s m else s.counter d := by
  rw [counter_started]
  exact if_congr Iff.rfl rfl (if_neg fun h => nomatch h.2)

theorem wait_struck (s : State) (k : Key) (n : Nat) : (s.struck k n).wait k
    = { s.withKey k { StruckKey (s.key k) (s.noteFor k n) with state := .waiting, waitStart := some s.deviceTime } with
        waitList := insertWait ⟨.key k, .key (s.record k).priority, s.deviceTime⟩ s.waitList } := by
  have hself : (s.struck k n).key k = StruckKey (s.key k) (s.noteFor k n) := State.key_withKey_self ..
  rw [State.wait, hself, State.struck, State.withKey_withKey]
  rfl

/-- Settles O35: the two orders by insertion, late channels by judging them with those before them, and the choice of the
next event by the judgement among all that request. -/
theorem lateChannelsFireAtOnceInOrder : Obligations.LateChannelsFireAtOnceInOrder := by
  refine ⟨fun e l base hnear hl => ⟨insertFire_perm e l, ?_⟩,
    fun e l hl htotal => ⟨insertWait_perm e l, insertWait_sorted_of_comparable hl htotal⟩, ?_, ?_, ?_, ?_, ?_,
    fun s h => planLine_choice h⟩
  · exact insertFire_sorted hnear (firesNoLater_pairwise (fun x hx => hnear x (List.mem_cons_of_mem _ hx)) hl)
  · intro s n k e hf ho hi hok hfree c note armed hlate hfirst
    obtain ⟨hkicks, hwaits⟩ := planKeys_late_becomes hf ho ⟨hi, hok, hfree, hlate⟩ hfirst
    exact ⟨fun hslot hroom => ⟨_, hkicks hslot hroom, startKick_struck .., counter_startKick_struck s k n _ note⟩,
      fun hfull => (hwaits hfull).trans (wait_struck s k n)⟩
  · intro s n k j e f hkj hfk hfj h hok hoj hone hfirst hroom es hes
    refine planKeys_two_late hkj hfk hfj hok hoj (fun x hx => ?_) hone hfirst hroom es hes
    obtain ⟨hi, hok, hfree, hlate⟩ := h x hx
    exact ⟨hi, hok, hfree, hlate⟩
  · intro s n i k e x m hik hf ho hk hok hfree hlate hi hm hoki hx hxi hr hone hfirst kick hroom t
    obtain ⟨hkicks, hwaits, hfire, hwait⟩ :=
      planKeys_late_behind hik hf ho ⟨hk, hok, hfree, hlate⟩ hi hm hoki hx hxi hr hone hfirst hroom
    exact ⟨hkicks, congrArg KeyChannel.state hwaits, congrArg KeyChannel.current hwaits, hfire, hwait⟩
  · intro s n p e hf ho hp hi hok hw hfree r press down hlate hfirst
    exact planPedals_late_becomes hf ho hp hi hok hw hfree hlate hfirst
  · intro s i c d hi hc ends now ahead h
    have hends : isKickEnd i = true ↔ ends i := isKickEnd_iff i
    have hnow (t : State) : d ∈ t.requesters ↔ now t := mem_requesters t d
    have hahead (h : ahead) : d ∈ s.lineRequests := by
      obtain ⟨lines, hdue, hd⟩ := h
      exact mem_lineRequests ⟨lines, hdue, hd.imp_right (hnow _).2⟩
    refine firstRequest_of_choice hi hc (h.imp ?_ ?_)
    · rintro ⟨hnot, hd⟩
      exact ⟨by rwa [← Bool.not_eq_true, hends], hd.imp (hnow s).2 hahead⟩
    · rintro ⟨hend, hnot, hd⟩
      exact ⟨hends.2 hend, fun h => hnot ((hnow s).1 h), hahead hd⟩

end Sys2Proof.Machine
end

section
/-! PROOFS. O2: what the card does by itself with no command waiting. -/

namespace Sys2Proof.Machine

open Sys2Proof.Safety

variable {s t u : State} {k : Key} {p : Pedal} {b : Bool} {i j : Instr}

/-! The due events -/

theorem mem_dueIf : i ∈ dueIf b j ↔ b = true ∧ i = j := by
  cases b <;> simp [dueIf]

theorem mem_allPedals (p : Pedal) : p ∈ allPedals := by cases p <;> decide

theorem dueIf_due (h : ownEventDue s j = some b) : ∀ i ∈ dueIf b j, ownEventDue s i = some true := by
  intro i hi
  obtain ⟨rfl, rfl⟩ := mem_dueIf.1 hi
  exact h

/-- Each of the due events is due (entry 3). -/
theorem due_of_mem_dueEvents : ∀ i ∈ s.dueEvents, ownEventDue s i = some true := by
  unfold State.dueEvents
  simp only [List.forall_mem_append]
  refine ⟨⟨⟨⟨⟨⟨⟨⟨⟨⟨⟨⟨?_, dueIf_due rfl⟩, dueIf_due rfl⟩, dueIf_due rfl⟩, dueIf_due rfl⟩, dueIf_due rfl⟩, dueIf_due rfl⟩,
    dueIf_due rfl⟩, dueIf_due rfl⟩, dueIf_due rfl⟩, dueIf_due rfl⟩, fun i hi => ?_⟩, fun i hi => ?_⟩
  · intro i hi
    obtain ⟨hsend, rfl⟩ := mem_dueIf.1 hi
    exact congrArg some (Bool.and_eq_true_iff.1 hsend).1
  · obtain ⟨p, -, hi⟩ := List.mem_flatMap.1 hi
    have hall : ∀ i ∈ dueIf (s.pedalFireDue p) (.pedalFire p) ++ dueIf (s.pedalKickEndDue p) (.pedalKickEnd p)
        ++ dueIf (s.pedalLiftDue p) (.pedalLift p) ++ dueIf (s.pedalReleaseDue p) (.pedalReleaseEnd p),
        ownEventDue s i = some true := by
      simp only [List.forall_mem_append]
      exact ⟨⟨⟨dueIf_due rfl, dueIf_due rfl⟩, dueIf_due rfl⟩, dueIf_due rfl⟩
    exact hall i hi
  · obtain ⟨k, -, hi⟩ := List.mem_flatMap.1 hi
    have hall : ∀ i ∈ dueIf (s.keyFireDue k) (.keyFire k) ++ dueIf (s.kickEndDue k) (.kickEnd k)
        ++ dueIf (s.releaseDue k) (.holdRelease k) ++ dueIf (s.testReleaseDue k) (.testRelease k)
        ++ dueIf (s.gapDue k) (.gapEnd k) ++ dueIf (s.deferDue k) (.deferExpiry k)
        ++ dueIf (s.holdLimitDue k) (.holdLimitExpiry k) ++ dueIf (s.deadlineDue k) (.senseDeadline k),
        ownEventDue s i = some true := by
      simp only [List.forall_mem_append]
      exact ⟨⟨⟨⟨⟨⟨⟨dueIf_due rfl, dueIf_due rfl⟩, dueIf_due rfl⟩, dueIf_due rfl⟩, dueIf_due rfl⟩, dueIf_due rfl⟩,
        dueIf_due rfl⟩, dueIf_due rfl⟩
    exact hall i hi

/-- An event that is due is among the due events, but for a frame whose lane is taken yet and for the read-back that a
store completion is posted with (entries 3 and 8). -/
theorem mem_dueEvents_of_due (h : ownEventDue s i = some true) : i ∈ s.dueEvents ∨ (i = .returnSend ∧ s.laneIdle = false)
    ∨ (∃ good, i = .storeSaveComplete good ∧ ∃ good', .storeSaveComplete good' ∈ s.dueEvents)
    ∨ (∃ good, i = .storeLockdownComplete good ∧ ∃ good', .storeLockdownComplete good' ∈ s.dueEvents) := by
  have hkey (k : Key) : k ∈ allKeys := List.mem_finRange k
  cases i with
  | returnSend =>
    by_cases hidle : s.laneIdle = true
    · refine .inl ?_
      rw [ownEventDue, Option.some.injEq] at h
      simp [State.dueEvents, mem_dueIf, h, hidle]
    · exact .inr (.inl ⟨rfl, by rwa [Bool.not_eq_true] at hidle⟩)
  | storeSaveComplete good =>
    refine .inr (.inr (.inl ⟨good, rfl, Config.readBack s.freeIndex, ?_⟩))
    rw [ownEventDue, Option.some.injEq] at h
    simp [State.dueEvents, mem_dueIf, h]
  | storeLockdownComplete good =>
    refine .inr (.inr (.inr ⟨good, rfl, Config.readBack s.freeIndex, ?_⟩))
    rw [ownEventDue, Option.some.injEq] at h
    simp [State.dueEvents, mem_dueIf, h]
  | _ =>
    -- Every other event of the card's own has its one place in the list, and no other command is due at all.
    simp only [ownEventDue, Option.some.injEq, reduceCtorEq] at h <;>
      simp [State.dueEvents, mem_dueIf, h, mem_allPedals, hkey]

/-! While an event is due one can come next -/

/-- Without a line to plan no line brings a request. -/
theorem lineRequests_nil (h : s.planDue = false) : s.lineRequests = [] := by
  unfold State.lineRequests
  cases (s.holes.settled - s.roll.planLine).toNat with
  | zero => rfl
  | succ n => rw [State.requestsAhead, if_neg ((Bool.not_eq_true _).mpr h)]

theorem judgedFirst_nil (s : State) (i : Instr) : s.judgedFirst i [] = true :=
  judgedFirst_iff.2 (.inr fun _ hd => absurd hd List.not_mem_nil)

theorem choice_of_no_request (hi : i ∈ s.dueEvents) (h : s.requests i = []) : i ∈ s.nextEventChoices :=
  mem_nextEventChoices.2 ⟨hi, judgedFirst_iff.2 (.inl h), .inr (judgedFirst_iff.2 (.inl h))⟩

/-- Without a kick end due no freed slot makes a request. -/
theorem kickEndRequests_nil (h : ∀ i ∈ s.dueEvents, isKickEnd i = false) : s.kickEndRequests = [] := by
  have hnone : s.dueEvents.filter isKickEnd = [] := List.filter_eq_nil_iff.2 fun i hi => by rw [h i hi]; decide
  unfold State.kickEndRequests
  rw [hnone]
  rfl

/-- Of all the requests of the due events one is first (R119). -/
theorem exists_first_request (h : s.dueEvents ≠ []) (hreq : ∀ i ∈ s.dueEvents, s.requests i ≠ []) :
    ∃ i ∈ s.dueEvents, ∃ c ∈ s.requests i, ∀ j ∈ s.dueEvents, ∀ d ∈ s.requests j, c.rank ≤ d.rank := by
  obtain ⟨i, hi⟩ := List.exists_mem_of_ne_nil _ h
  obtain ⟨c, hc⟩ := List.exists_mem_of_ne_nil _ (hreq i hi)
  have hmem {d : Channel} : d ∈ (s.dueEvents.flatMap s.requests).toFinset ↔ ∃ j ∈ s.dueEvents, d ∈ s.requests j := by
    rw [List.mem_toFinset, List.mem_flatMap]
  obtain ⟨d, hd, hmin⟩ := Finset.exists_min_image (s.dueEvents.flatMap s.requests).toFinset Channel.rank
    ⟨c, hmem.2 ⟨i, hi, hc⟩⟩
  obtain ⟨j, hj, hdj⟩ := hmem.1 hd
  exact ⟨j, hj, d, hdj, fun i hi e he => hmin e (hmem.2 ⟨i, hi, he⟩)⟩

theorem nextEventChoices_ne_nil (h : s.dueEvents ≠ []) : s.nextEventChoices ≠ [] := by
  by_cases hfree : ∃ i ∈ s.dueEvents, s.requests i = []
  · obtain ⟨i, hi, hnone⟩ := hfree
    exact List.ne_nil_of_mem (choice_of_no_request hi hnone)
  · have hreq (i : Instr) (hi : i ∈ s.dueEvents) : s.requests i ≠ [] := fun e => hfree ⟨i, hi, e⟩
    have hplan : s.planDue = false := by
      rw [← Bool.not_eq_true]
      intro hdue
      have hmem := (mem_nextEventChoices.1 (planLine_choice hdue)).1
      exact hreq _ hmem rfl
    have hlines (i : Instr) : s.judgedFirst i (s.lineRequests.filter fun c => !s.requesters.contains c) = true := by
      rw [lineRequests_nil hplan]
      exact judgedFirst_nil s i
    by_cases hend : ∃ i ∈ s.dueEvents, isKickEnd i = true
    · obtain ⟨i, hi, hk⟩ := hend
      exact List.ne_nil_of_mem (mem_nextEventChoices.2 ⟨hi, hlines i, .inl hk⟩)
    · obtain ⟨i, hi, c, hc, hmin⟩ := exists_first_request h hreq
      have hnone : s.kickEndRequests = [] :=
        kickEndRequests_nil fun j hj => by rw [← Bool.not_eq_true]; exact fun hk => hend ⟨j, hj, hk⟩
      refine List.ne_nil_of_mem (mem_nextEventChoices.2 ⟨hi, hlines i, .inr (judgedFirst_iff.2 (.inr fun d hd => ?_))⟩)
      rw [State.requesters, hnone, List.append_nil] at hd
      obtain ⟨j, hj, hdj⟩ := List.mem_flatMap.1 hd
      exact ⟨c, hc, hmin j (List.mem_of_mem_filter hj) d hdj⟩

/-! What can happen with no command waiting -/

/-- The receiver takes the byte at the front of the forward lane. -/
def TakesByte (s u : State) : Prop :=
  ∃ b rest, s.link.forwardLane = b :: rest ∧ u = { s with
    link := { s.link with forwardLane := rest, receiver := (s.link.receiver.take b).1 }
    pending := s.pending ++ (s.link.receiver.take b).2.toList }

theorem mem_takeByte : u ∈ (if s.link.forwardLane.isEmpty then [] else [s.takeByte]) ↔ TakesByte s u := by
  unfold TakesByte State.takeByte
  cases hl : s.link.forwardLane with
  | nil => simp
  | cons b rest =>
    rw [if_neg (by simp), List.mem_singleton]
    constructor
    · intro h; exact ⟨b, rest, rfl, h⟩
    · rintro ⟨b', rest', heq, h⟩
      cases heq
      exact h

theorem mem_idleChoices : u ∈ s.idleChoices ↔ TakesByte s u ∨ (∃ i ∈ s.nextEventChoices, u = s.post i)
    ∨ (s.link.forwardLane = [] ∧ s.nextEventChoices = [] ∧ s.sendDue = true ∧ u = s.post .returnSend) := by
  have hposts : u ∈ s.nextEventChoices.map s.post ↔ ∃ i ∈ s.nextEventChoices, u = s.post i := by
    simp only [List.mem_map, eq_comm]
  have hsend : u ∈ (dueIf s.sendDue .returnSend).map s.post ↔ s.sendDue = true ∧ u = s.post .returnSend := by
    cases s.sendDue <;> simp [dueIf]
  by_cases hnow : s.link.forwardLane = [] ∧ s.nextEventChoices = []
  · obtain ⟨hlane, hnone⟩ := hnow
    have hbyte : ¬TakesByte s u := fun ⟨b, rest, h, _⟩ => by rw [hlane] at h; cases h
    have hempty : s.idleChoices = (dueIf s.sendDue .returnSend).map s.post := by
      simp [State.idleChoices, hlane, hnone]
    rw [hempty, hsend]
    simp [hlane, hnone, hbyte]
  · have hsome : s.idleChoices
        = (if s.link.forwardLane.isEmpty then [] else [s.takeByte]) ++ s.nextEventChoices.map s.post := by
      refine if_neg fun h => hnow ?_
      rw [List.isEmpty_iff, List.append_eq_nil_iff, List.map_eq_nil_iff] at h
      refine ⟨?_, h.2⟩
      by_contra hlane
      rw [if_neg (by rwa [List.isEmpty_iff])] at h
      exact List.cons_ne_nil _ _ h.1
    rw [hsome, List.mem_append, mem_takeByte, hposts]
    refine or_congr Iff.rfl (iff_self_or.2 ?_)
    rintro ⟨hlane, hnone, -⟩
    exact absurd ⟨hlane, hnone⟩ hnow

/-! The step -/

theorem step_idle (h : s.pending = []) : step s = .next s.idle := by
  rw [step, h]

theorem advance_eq (s : State) : s.advance = { s with
    deviceTime := s.deviceTime + 1
    roll := { s.roll with rollTime := if (s.roll.rollState = .playing ∨ s.roll.rollState = .ending)
      ∧ s.roll.operator = false ∧ s.roll.starved = false then s.roll.rollTime + 1 else s.roll.rollTime } } := by
  have hruns : s.clockRuns = true ↔ (s.roll.rollState = .playing ∨ s.roll.rollState = .ending)
      ∧ s.roll.operator = false ∧ s.roll.starved = false := by
    rw [State.clockRuns, Bool.and_eq_true, clocked_iff, Bool.not_eq_true', Bool.or_eq_false_iff]
  unfold State.advance
  by_cases h : s.clockRuns = true
  · rw [if_pos h, if_pos (hruns.1 h)]
  · rw [if_neg h, if_neg fun h' => h (hruns.2 h')]

theorem idle_chooses (hp : s.power = .running) (h : s.idleChoices ≠ []) :
    ∃ u ∈ s.idleChoices, s.idle = { u with freeIndex := s.idle.freeIndex } := by
  unfold State.idle
  rw [hp]
  dsimp only
  split
  case h_1 hnil => exact absurd hnil h
  case h_2 u hone => exact ⟨u, by rw [hone]; exact List.mem_singleton_self u, rfl⟩
  case h_3 =>
    have hlt := Nat.mod_lt (Config.tieBreak s.freeIndex) (List.length_pos_iff.2 h)
    rw [List.getElem?_eq_getElem hlt]
    exact ⟨_, List.getElem_mem hlt, rfl⟩

/-- Settles O2: an idle step takes one of the choices or advances the clocks; some due event always comes first. -/
theorem idleMicrosecondMovesTheClocks : Obligations.IdleMicrosecondMovesTheClocks := by
  refine ⟨fun s hq => ⟨fun hp hnone => ?_, fun hp hsome => ?_, fun hp => ?_⟩, fun s => ?_⟩
  · rw [step_idle hq, ← advance_eq, State.idle, hp]
    dsimp only
    rw [hnone]
  · obtain ⟨u, hu, hidle⟩ := idle_chooses hp hsome
    exact ⟨s.idle, u, step_idle hq, hu, hidle⟩
  · have hidle : s.idle = s.advanceInReset := by rw [State.idle, hp]
    refine ⟨s.advanceInReset, by rw [step_idle hq, hidle], fun hbefore => ?_, fun hdue => ?_⟩
    · rw [State.advanceInReset, if_neg (by simpa [State.coolDue] using hbefore)]
    · have hcool : s.advanceInReset = { s.cool with deviceTime := s.cool.deviceTime + 1 } := by
        rw [State.advanceInReset, if_pos (show s.coolDue = true from decide_eq_true hdue)]
      have hkeys := State.key_cool s
      have heq := State.cool_eq s
      rw [hcool]
      generalize s.cool = c at hkeys heq
      refine ⟨hkeys, ?_⟩
      dsimp only
      rw [heq]
  · intro posted
    exact ⟨fun u => mem_idleChoices, fun i hi => (mem_nextEventChoices.1 hi).1, due_of_mem_dueEvents,
      fun i => mem_dueEvents_of_due, nextEventChoices_ne_nil⟩

end Sys2Proof.Machine
end

section
/-! PROOFS. O21: what an arrival moves, its lines apart, and the frames that are dropped. -/

namespace Sys2Proof.Machine

open Sys2Proof.Safety

variable {s t u w x : State} {set : ColumnSet}

/-! The starve episode after an arrival -/

/-- What an episode leaves depends on the timeline, the link and the keys before it alone. -/
theorem episodeLeft_of_same {ends : Prop} (hr : x.roll = w.roll) (hl : x.link = w.link) (hk : x.keys = w.keys)
    (h : EpisodeLeft x t ends) : EpisodeLeft w t ends := by
  unfold EpisodeLeft WatchesRemoved State.key at h ⊢
  rw [← hr, ← hl, ← hk]
  exact h

theorem checkEpisode_goesOn (h : ¬(x.roll.starveStart.isSome = true ∧ x.planReached x.nextLine = false)) :
    x.checkEpisode = x := by
  refine if_neg fun h' => h ?_
  rw [Bool.and_eq_true, Bool.not_eq_true'] at h'
  exact h'

theorem checkEpisode_ends (h : x.roll.starveStart.isSome = true ∧ x.planReached x.nextLine = false) :
    x.checkEpisode = State.setHolds { x with roll := { x.roll with starveStart := none } } x.roll.operator false := by
  refine if_pos ?_
  rw [Bool.and_eq_true, Bool.not_eq_true']
  exact h

/-- The check of the episode (R52, R55, R56). -/
theorem episodeLeft_checkEpisode (x : State) :
    EpisodeLeft x x.checkEpisode (x.roll.starveStart.isSome = true ∧ x.planReached x.nextLine = false) := by
  by_cases hends : x.roll.starveStart.isSome = true ∧ x.planReached x.nextLine = false
  · rw [checkEpisode_ends hends]
    obtain ⟨y, hy⟩ : ∃ y : State, { x with roll := { x.roll with starveStart := none } } = y := ⟨_, rfl⟩
    have hroll : y.roll = { x.roll with starveStart := none } := by rw [← hy]
    have hlink : y.link = x.link := by rw [← hy]
    have hkeys : y.keys = x.keys := by rw [← hy]
    have hop : x.roll.operator = y.roll.operator := by rw [hroll]
    have hst : x.roll.starved = y.roll.starved := by rw [hroll]
    rw [hy, hop]
    cases hstarved : y.roll.starved with
    | false =>
      rw [setHolds_same rfl hstarved.symm]
      refine ⟨fun _ => ?_, fun h => absurd hends h, fun _ h => ?_, fun _ => hlink, fun _ h => ?_, fun _ => hkeys⟩
      · rw [hroll, ← hstarved, ← hst]
      · rw [hst, hstarved] at h; cases h
      · rw [hst, hstarved] at h; cases h
    | true =>
      obtain ⟨hkeep, hremove, hform⟩ := setHolds_unstarved hstarved
      have htroll : (y.setHolds y.roll.operator false).roll = { y.roll with starved := false } := by rw [hform]; rfl
      have htlink : (y.setHolds y.roll.operator false).link = { y.link with
          reportSeq := y.link.reportSeq + 1
          queue := y.link.queue.filter (fun e => !e.isState)
            ++ [.state (y.link.reportSeq + 1) (y.setHolds y.roll.operator false).stateBytes] } := by
        rw [hform]; rfl
      generalize y.setHolds y.roll.operator false = t at hkeep hremove htroll htlink
      refine ⟨fun _ => ?_, fun h => absurd hends h, fun _ _ => ?_, fun h => ?_, fun _ _ ho => ?_, fun h => ?_⟩
      · rw [htroll, hroll]
      · rw [htlink, hlink]
      · exact absurd ⟨hends, hst.trans hstarved⟩ h
      · intro k
        rw [hremove (hop.symm.trans ho) k]
        unfold State.key
        rw [hkeys]
      · rw [← hkeys]
        refine hkeep (by_contra fun ho => h ⟨hends, hst.trans hstarved, ?_⟩)
        rw [hop]
        exact (Bool.not_eq_true _).mp ho
  · rw [checkEpisode_goesOn hends]
    exact ⟨fun h => absurd h hends, fun _ => rfl, fun h => absurd h hends, fun _ => rfl, fun h => absurd h hends, fun _ => rfl⟩

/-! What lines move, taken or filled -/

/-- A counter that lines may move: missing lines, refused lines, and those of registration (R174). -/
def CountsLines (d : Counter) : Prop :=
  d = .missingLine ∨ d = .eventOverflow ∨ d = .edgeLost ∨ d = .shiftLimited ∨ d = .widthLimited

/-- Lines have been taken or filled: their column set stays there to take more, no counter but those of lines has
moved, and outside a leader the timeline, the link and the set stand. -/
structure Lined (s t : State) : Prop where
  set : t.currentSet.isSome = true
  counters : ∀ d, ¬CountsLines d → t.counter d = s.counter d
  stands : s.roll.rollState ≠ .leader → t.roll = s.roll ∧ t.link = s.link ∧ t.holes.activeSet = s.holes.activeSet

theorem Lined.refl (h : s.currentSet.isSome = true) : Lined s s := ⟨h, fun _ _ => rfl, fun _ => ⟨rfl, rfl, rfl⟩⟩

theorem Lined.trans (h : Lined s t) (h' : Lined t u) : Lined s u := by
  refine ⟨h'.set, fun d hd => (h'.counters d hd).trans (h.counters d hd), fun hl => ?_⟩
  obtain ⟨hroll, hlink, hset⟩ := h.stands hl
  obtain ⟨hroll', hlink', hset'⟩ := h'.stands (by rw [hroll]; exact hl)
  exact ⟨hroll'.trans hroll, hlink'.trans hlink, hset'.trans hset⟩

theorem lined_bump {c : Counter} (hc : CountsLines c) (h : s.currentSet.isSome = true) : Lined s (s.bump c) :=
  ⟨h, fun d hd => counter_bump_other (fun e => hd (by rw [e]; exact hc)) s, fun _ => ⟨rfl, rfl, rfl⟩⟩

theorem lined_bumpIf {c : Counter} (hc : CountsLines c) (h : s.currentSet.isSome = true) (b : Bool) :
    Lined s (s.bumpIf b c) := by
  unfold State.bumpIf
  split
  · exact lined_bump hc h
  · exact Lined.refl h

theorem lined_playLine (h : s.currentSet.isSome = true) (m : MapNo) (xs : List Bool) (n : Nat) :
    Lined s (s.playLine m xs n) ∧ (s.playLine m xs n).front.newest = n
      ∧ (s.playLine m xs n).counter .missingLine = s.counter .missingLine := by
  have hset {r r' : HoleRecognizer} {cols : List Column} {xs : List Bool} (hp : r.pass cols xs n = some r') :
      r'.activeSet = r.activeSet := pass_activeSet hp
  have hcurrent {t : State} (hroll : t.roll = s.roll) (ha : t.holes.activeSet = s.holes.activeSet) :
      t.currentSet.isSome = true := by
    unfold State.currentSet
    rw [hroll, ha]
    exact h
  have hbump (d : Counter) (hd : d ≠ .eventOverflow) : (s.bump .eventOverflow).counter d = s.counter d :=
    counter_bump_other hd s
  unfold State.playLine
  dsimp only
  split
  case h_1 r hr =>
    exact ⟨⟨hcurrent rfl (hset hr), fun _ _ => rfl, fun _ => ⟨rfl, rfl, hset hr⟩⟩, rfl, rfl⟩
  case h_2 =>
    have hover (d : Counter) (hd : ¬CountsLines d) : (s.bump .eventOverflow).counter d = s.counter d :=
      hbump d fun e => hd (.inr (.inl e))
    split
    case h_1 r hr =>
      exact ⟨⟨hcurrent rfl (hset hr), hover, fun _ => ⟨rfl, rfl, hset hr⟩⟩, rfl, hbump _ (by decide)⟩
    case h_2 => exact ⟨⟨hcurrent rfl rfl, hover, fun _ => ⟨rfl, rfl, rfl⟩⟩, rfl, hbump _ (by decide)⟩

theorem endLeader_cases (s : State) (n : Nat) : s.endLeader n = s
    ∨ ∃ (code : Nat) (m : MapNo), s.endLeader n = State.enterPlaying { s with holes := { s.holes with code := code } } (n + 1) m := by
  unfold State.endLeader
  dsimp only
  split
  · exact .inr ⟨_, _, rfl⟩
  · split
    · exact .inr ⟨_, _, rfl⟩
    · exact .inl rfl

/-- A line of a leader: held, and read by the code reader, which may end the leader (R33 to R35). -/
theorem recognize_leader (h : s.roll.rollState = .leader) (set : ColumnSet) (xs : List Bool) (n : Nat) :
    s.recognize set xs n = State.endLeader { s.hold n set xs with holes := { s.holes with
      reader := s.holes.reader.update (bitsToNat xs) } } n := by
  unfold State.recognize
  rw [h]
  rfl

theorem recognize_playing (h : s.roll.rollState = .playing) (m : MapNo) (xs : List Bool) (n : Nat) :
    s.recognize (.map m) xs n = s.playLine m xs n := by
  unfold State.recognize
  rw [h]

theorem recognize_ending (h : s.roll.rollState = .ending) (set : ColumnSet) (xs : List Bool) (n : Nat) :
    s.recognize set xs n = s.hold n set xs := by
  unfold State.recognize
  rw [h]

theorem currentSet_leader (h : s.roll.rollState = .leader) : s.currentSet = some .code := by
  rw [State.currentSet, h]

theorem currentSet_roll (h : s.roll.rollState = .playing ∨ s.roll.rollState = .ending) :
    s.currentSet = s.holes.activeSet.map .map := by
  rcases h with h | h <;> rw [State.currentSet, h]

theorem lined_recognize (hset : s.currentSet = some set) (xs : List Bool) (n : Nat) :
    Lined s (s.recognize set xs n) ∧ (s.recognize set xs n).front.newest = n
      ∧ (s.recognize set xs n).counter .missingLine = s.counter .missingLine := by
  have hsome : s.currentSet.isSome = true := by rw [hset]; rfl
  cases hstate : s.roll.rollState with
  | noRoll =>
    unfold State.currentSet at hset
    rw [hstate] at hset
    cases hset
  | leader =>
    rw [recognize_leader hstate]
    obtain ⟨y, hy⟩ : ∃ y : State, { s.hold n set xs with holes := { s.holes with
      reader := s.holes.reader.update (bitsToNat xs) } } = y := ⟨_, rfl⟩
    have hnewest : y.front.newest = n := by rw [← hy]; rfl
    have hcount (d : Counter) : y.counter d = s.counter d := by rw [← hy]; rfl
    have hleader : y.roll.rollState = .leader := by rw [← hy]; exact hstate
    rw [hy]
    rcases endLeader_cases y n with e | ⟨code, m, e⟩ <;> rw [e]
    · exact ⟨⟨by rw [currentSet_leader hleader]; rfl, fun d _ => hcount d, fun h => absurd hstate h⟩, hnewest, hcount _⟩
    · exact ⟨⟨rfl, fun d _ => hcount d, fun h => absurd hstate h⟩, hnewest, hcount _⟩
  | playing =>
    rw [currentSet_roll (.inl hstate)] at hset
    obtain ⟨m, -, rfl⟩ := Option.map_eq_some_iff.1 hset
    rw [recognize_playing hstate]
    exact lined_playLine hsome m xs n
  | ending =>
    rw [recognize_ending hstate]
    exact ⟨⟨hsome, fun _ _ => rfl, fun _ => ⟨rfl, rfl, rfl⟩⟩, rfl, rfl⟩

/-- A line filled counts as missing, once (R7). -/
theorem lined_fillLine (h : s.currentSet.isSome = true) (n : Nat) :
    Lined s (s.fillLine n) ∧ (s.fillLine n).counter .missingLine = min 65535 (s.counter .missingLine + 1) := by
  obtain ⟨set, hset⟩ := Option.isSome_iff_exists.1 h
  unfold State.fillLine
  rw [hset]
  obtain ⟨hlined, -, hcount⟩ := lined_recognize (s := s.bump .missingLine) hset (s.copySamples set) n
  exact ⟨(lined_bump (.inl rfl) h).trans hlined, hcount.trans (State.counter_bumpBy_self s .missingLine 1)⟩

theorem lined_fillLines (count : Nat) {s : State} (n : Nat) (h : s.currentSet.isSome = true)
    (hc : s.counter .missingLine ≤ 65535) : Lined s (s.fillLines n count)
      ∧ (s.fillLines n count).counter .missingLine = min 65535 (s.counter .missingLine + count) := by
  induction count generalizing s n with
  | zero => exact ⟨Lined.refl h, (min_eq_right hc).symm⟩
  | succ count ih =>
    obtain ⟨hline, hcount⟩ := lined_fillLine h n
    obtain ⟨hlines, hcounts⟩ := ih (n + 1) hline.set (by rw [hcount]; exact min_le_left _ _)
    refine ⟨hline.trans hlines, hcounts.trans ?_⟩
    rw [hcount]
    omega

theorem lined_trackEdges (h : s.currentSet.isSome = true) (px : List Nat) : Lined s (s.trackEdges px)
    ∧ (s.trackEdges px).counter .missingLine = s.counter .missingLine ∧ (s.trackEdges px).currentSet = s.currentSet := by
  unfold State.trackEdges
  split
  · exact ⟨⟨h, fun _ _ => rfl, fun _ => ⟨rfl, rfl, rfl⟩⟩, rfl, rfl⟩
  · exact ⟨lined_bump (.inr (.inr (.inl rfl))) h, counter_bump_other (by decide) s, rfl⟩

theorem currentSet_bumpIf (s : State) (b : Bool) (c : Counter) : (s.bumpIf b c).currentSet = s.currentSet := by
  unfold State.bumpIf
  split <;> rfl

theorem lined_takeLine (h : s.currentSet.isSome = true) (n : Nat) (px : List Nat) : Lined s (s.takeLine n px)
    ∧ (s.takeLine n px).front.newest = n ∧ (s.takeLine n px).counter .missingLine = s.counter .missingLine := by
  obtain ⟨set, hset⟩ := Option.isSome_iff_exists.1 h
  obtain ⟨htracked, hcount, hcurrent⟩ := lined_trackEdges h px
  unfold State.takeLine
  rw [hset]
  dsimp only
  generalize s.trackEdges px = y at htracked hcount hcurrent
  obtain ⟨tr, htr⟩ : ∃ tr, registration (y.tables.columnPlan set).nl (y.tables.columnPlan set).nr
    y.tables.settings.maxShift y.tables.settings.widthTol y.front.edges = tr := ⟨_, rfl⟩
  rw [htr]
  have hone := lined_bumpIf (c := .shiftLimited) (.inr (.inr (.inr (.inl rfl)))) htracked.set tr.shiftLimited
  have htwo := lined_bumpIf (c := .widthLimited) (.inr (.inr (.inr (.inr rfl)))) hone.set tr.widthLimited
  have hset' : ((y.bumpIf tr.shiftLimited .shiftLimited).bumpIf tr.widthLimited .widthLimited).currentSet = some set := by
    rw [currentSet_bumpIf, currentSet_bumpIf, hcurrent, hset]
  obtain ⟨hlined, hnewest, hmissing⟩ := lined_recognize hset'
    ((y.tables.columnPlan set).sample tr y.tables.settings.holeThreshold px) n
  refine ⟨((htracked.trans hone).trans htwo).trans hlined, hnewest, ?_⟩
  rw [hmissing, counter_bumpIf_other (by decide), counter_bumpIf_other (by decide), hcount]

/-- The lines of an arrival inside the window: the gap filled and counted, the line taken (R6, R7). -/
theorem lined_lines (h : s.currentSet.isSome = true) (hc : s.counter .missingLine ≤ 65535) (n : Nat) (px : List Nat) :
    Lined s (s.lines n px) ∧ (s.lines n px).front.newest = n ∧ (s.lines n px).counter .missingLine
      = min 65535 (s.counter .missingLine + (n - (s.front.newest + 1).toNat)) := by
  unfold State.lines
  obtain ⟨hfilled, hcount⟩ := lined_fillLines (n - (s.front.newest + 1).toNat) (s.front.newest + 1).toNat h hc
  obtain ⟨htaken, hnewest, hsame⟩ := lined_takeLine hfilled.set n px
  exact ⟨hfilled.trans htaken, hnewest, hsame.trans hcount⟩

/-! The frame -/

theorem windowTop_eq (s : State) :
    s.windowTop = (if s.roll.rollState = .leader then s.front.newest else s.roll.planLine) + 2048 := rfl

/-- A SCAN frame that stands inside the window is taken (R1, R3, R5). -/
theorem exec_scanFrame_taken {line : Tag} {payload : List Byte} (hp : s.power = .running)
    (ha : s.roll.rollState ≠ .noRoll) (hlen : payload.length = 256) (hnew : s.front.newest < (line.toNat : Int))
    (htop : (line.toNat : Int) ≤ s.windowTop) :
    exec (.scanFrame line payload) s = .next (s.validFrame.arrive line.toNat (pixelsOf payload)) := by
  rw [exec_scanFrame hp, State.scan, if_neg (by exact ha), if_neg (by simpa using hlen),
    if_neg (show ¬(line.toNat : Int) ≤ s.validFrame.front.newest from not_le.2 hnew),
    if_neg (show ¬s.validFrame.windowTop < (line.toNat : Int) from not_lt.2 htop)]

/-- An arrival's records beside its lines: the settled line and the queue, then the episode's check (R31, R52). -/
theorem arrive_spec (s : State) (n : Nat) (px : List Nat) :
    (s.arrive n px).front = (s.lines n px).front ∧ (s.arrive n px).counters = (s.lines n px).counters
      ∧ (s.arrive n px).holes = { (s.lines n px).holes with settled := (s.lines n px).front.newest - 8, queue := (s.lines n px).queueToPlan }
      ∧ s.arrive n px = { s with
          link := (s.arrive n px).link, counters := (s.arrive n px).counters, front := (s.arrive n px).front
          holes := (s.arrive n px).holes, roll := (s.arrive n px).roll, keys := (s.arrive n px).keys }
      ∧ (∀ k, (s.arrive n px).key k = { s.key k with holdWatch := ((s.arrive n px).key k).holdWatch }) := by
  have hpaper := onlyPaper_lines s n px
  rw [arrive_eq]
  generalize s.lines n px = y at hpaper
  obtain ⟨hform, hkeys⟩ := onlyHolds_checkEpisode
    { y with holes := { y.holes with settled := y.front.newest - 8, queue := y.queueToPlan } }
  generalize State.checkEpisode { y with holes := { y.holes with settled := y.front.newest - 8, queue := y.queueToPlan } } = z
    at hform hkeys
  have hkey (k : Key) : y.key k = s.key k := by unfold State.key; rw [hpaper.keys]
  refine ⟨by rw [hform], by rw [hform], by rw [hform], ?_, fun k => ?_⟩
  · unfold OnlyPaper at hpaper
    rw [hform, hpaper]
  · rw [← hkey]
    exact hkeys k

/-- Settles O21: the judgement of a SCAN frame, then what its lines and the episode's check move. -/
theorem scanFramesDroppedOrTaken : Obligations.ScanFramesDroppedOrTaken := by
  refine ⟨?_, fun s line payload hp ha hset hlow hlen hnew htop hcount => ?_⟩
  · intro s line payload hp top drops
    have hdrop {c : Counter} (h : s.validFrame.scan line payload = s.validFrame.bump c) : drops c :=
      ⟨_, (exec_scanFrame hp ..).trans (congrArg _ h), counted_bump s.validFrame c, rfl⟩
    refine ⟨fun hno => hdrop (if_pos hno), fun ha hlen => hdrop ?_, fun ha hlen hold => hdrop ?_,
      fun ha hlen hnew hover => hdrop ?_⟩
    · rw [State.scan, if_neg (by exact ha), if_pos hlen]
    · rw [State.scan, if_neg (by exact ha), if_neg (by simpa using hlen), if_pos (by exact hold)]
    · rw [State.scan, if_neg (by exact ha), if_neg (by simpa using hlen), if_neg (by exact not_le.2 hnew), if_pos (by exact hover)]
  · have hcurrent : s.validFrame.currentSet.isSome = true := by
      show s.currentSet.isSome = true
      unfold State.currentSet
      split
      · rfl
      case h_2 hno => exact absurd hno ha
      case h_3 hnl _ => exact (Option.isSome_map ..).trans (hset hnl)
    obtain ⟨hfront, hcounters, hholes, hpaper, hkeys⟩ := arrive_spec s.validFrame line.toNat (pixelsOf payload)
    obtain ⟨hlined, hnewest, hmissing⟩ := lined_lines hcurrent hcount line.toNat (pixelsOf payload)
    have hlane := (reported_arrive s.validFrame line.toNat (pixelsOf payload)).lane
    have hcounter (d : Counter) : (s.validFrame.arrive line.toNat (pixelsOf payload)).counter d
        = (s.validFrame.lines line.toNat (pixelsOf payload)).counter d := by unfold State.counter; rw [hcounters]
    refine ⟨_, exec_scanFrame_taken hp ha hlen hnew htop, by rw [hfront]; exact hnewest, by rw [hholes, hnewest], ?_, ?_, ?_, hkeys, hlane,
      fun hleader => ⟨?_, fun d h1 h2 h3 h4 h5 => ?_⟩, ?_⟩
    · rw [hcounter, hmissing]
      show ((min 65535 (s.counter .missingLine + (line.toNat - (s.front.newest + 1).toNat)) : Nat) : Int) = _
      omega
    · exact (hcounter _).trans (hlined.counters _ (by simp [CountsLines]))
    · exact (hcounter _).trans (hlined.counters _ (by simp [CountsLines]))
    · obtain ⟨hroll, hlink, -⟩ := hlined.stands hleader
      have hkeep := (onlyPaper_lines s.validFrame line.toNat (pixelsOf payload)).keys
      have htables := (onlyPaper_lines s.validFrame line.toNat (pixelsOf payload)).tables
      rw [arrive_eq]
      generalize s.validFrame.lines line.toNat (pixelsOf payload) = y at hroll hlink hkeep htables
      have hleft := episodeLeft_checkEpisode
        { y with holes := { y.holes with settled := y.front.newest - 8, queue := y.queueToPlan } }
      refine episodeLeft_of_same hroll hlink hkeep ?_
      have hends : (y.roll.starveStart.isSome = true ∧ y.planReached y.nextLine = false)
          ↔ (s.roll.starveStart.isSome = true ∧ s.planReached s.nextLine = false) := by
        unfold State.planReached State.nextLine State.due
        rw [hroll, htables]
        exact Iff.rfl
      rw [← hends]
      exact hleft
    · exact (hcounter _).trans (hlined.counters _ (by simp [CountsLines, h1, h2, h3, h4, h5]))
    · exact hpaper

end Sys2Proof.Machine
end

section
/-! PROOFS. O22: lines of a roll, taken and filled, in PLAYING and in ENDING. -/

namespace Sys2Proof.Machine

open Sys2Proof.Safety

variable {s t u w x : State} {set : ColumnSet} {m : MapNo} {h r : HoleRecognizer} {n : Nat} {xs : List Bool} {px : List Nat}

/-! A taken line before its recognition -/

/-- The edge history with a line's edges, where it has a pair (R10, R11). -/
def State.edgesAfter (s : State) (px : List Nat) : List (Nat × Nat) :=
  match findEdges s.tables.settings.edgeThreshold px with
  | some pair => appendEdge s.front.edges pair
  | none => s.front.edges

/-- The transform of a line for a column set (R12 to R15). -/
def State.transformOf (s : State) (set : ColumnSet) (px : List Nat) : Transform :=
  registration (s.tables.columnPlan set).nl (s.tables.columnPlan set).nr s.tables.settings.maxShift s.tables.settings.widthTol
    (s.edgesAfter px)

/-- The registered samples of a line for a column set (R16, R17). -/
def State.samplesOf (s : State) (set : ColumnSet) (px : List Nat) : List Bool :=
  (s.tables.columnPlan set).sample (s.transformOf set px) s.tables.settings.holeThreshold px

/-- A line counts in a counter of registration: its edges are lost, or one of its clamps was met (R11, R14). -/
def State.Registers (s : State) (set : ColumnSet) (px : List Nat) (d : Counter) : Prop :=
  (d = .edgeLost ∧ findEdges s.tables.settings.edgeThreshold px = none)
    ∨ (d = .shiftLimited ∧ (s.transformOf set px).shiftLimited = true)
    ∨ (d = .widthLimited ∧ (s.transformOf set px).widthLimited = true)

/-- The counters after a line's registration: those it counts in, once each (R11, R14). -/
def Registered (s t : State) (set : ColumnSet) (px : List Nat) : Prop :=
  ∀ d : Counter, (s.Registers set px d → t.counter d = min 65535 (s.counter d + 1))
    ∧ (¬s.Registers set px d → t.counter d = s.counter d)

theorem counter_trackEdges (s : State) (px : List Nat) (d : Counter) : (s.trackEdges px).counter d
    = if d = .edgeLost ∧ findEdges s.tables.settings.edgeThreshold px = none then min 65535 (s.counter d + 1)
      else s.counter d := by
  unfold State.trackEdges
  cases findEdges s.tables.settings.edgeThreshold px with
  | some pair => exact (if_neg fun h => nomatch h.2).symm
  | none =>
    rw [counted_bump s .edgeLost d]
    by_cases h : d = .edgeLost
    · subst h; simp
    · simp [h]

/-- A line taken: its edges and its counters of registration, then its samples recognized (R10 to R17). -/
theorem takeLine_eq (hset : s.currentSet = some set) (n : Nat) (px : List Nat) : ∃ c,
    s.takeLine n px = State.recognize { s with front := { s.front with edges := s.edgesAfter px }, counters := c } set
        (s.samplesOf set px) n
      ∧ Registered s { s with counters := c } set px := by
  have htrack : s.trackEdges px
      = { s with front := { s.front with edges := s.edgesAfter px }, counters := (s.trackEdges px).counters } := by
    unfold State.trackEdges State.edgesAfter
    cases findEdges s.tables.settings.edgeThreshold px <;> rfl
  have hcount := counter_trackEdges s px
  obtain ⟨c, hc⟩ : ∃ c, (s.trackEdges px).counters = c := ⟨_, rfl⟩
  rw [hc] at htrack
  rw [htrack] at hcount
  obtain ⟨y, hy⟩ : ∃ y : State, { s with front := { s.front with edges := s.edgesAfter px }, counters := c } = y := ⟨_, rfl⟩
  rw [hy] at htrack hcount
  have htake : s.takeLine n px = ((y.bumpIf (s.transformOf set px).shiftLimited .shiftLimited).bumpIf
      (s.transformOf set px).widthLimited .widthLimited).recognize set (s.samplesOf set px) n := by
    unfold State.takeLine
    rw [hset, htrack, ← hy]
    rfl
  obtain ⟨c', hc'⟩ : ∃ c', ((y.bumpIf (s.transformOf set px).shiftLimited .shiftLimited).bumpIf
      (s.transformOf set px).widthLimited .widthLimited) = { y with counters := c' } := by
    unfold State.bumpIf
    cases (s.transformOf set px).shiftLimited <;> cases (s.transformOf set px).widthLimited <;> exact ⟨_, rfl⟩
  refine ⟨c', by rw [htake, hc', ← hy], fun d => ?_⟩
  have hflags : ({ s with counters := c' } : State).counter d = ((y.bumpIf (s.transformOf set px).shiftLimited
      .shiftLimited).bumpIf (s.transformOf set px).widthLimited .widthLimited).counter d := by rw [hc']; rfl
  rw [hflags]
  unfold State.Registers
  by_cases hshift : d = .shiftLimited
  · subst hshift
    cases (s.transformOf set px).shiftLimited <;> simp [State.counter_bumpIf, hcount, Config.counterTop]
  · by_cases hwidth : d = .widthLimited
    · subst hwidth
      cases (s.transformOf set px).widthLimited <;> simp [State.counter_bumpIf, hcount, Config.counterTop]
    · simp only [State.counter_bumpIf, hcount, hshift, hwidth, false_and, or_false, if_false]
      exact ⟨fun h => if_pos h, fun h => if_neg h⟩

/-! A line of PLAYING (R25, R28) -/

theorem pass_eq (h : HoleRecognizer) (cols : List Column) (xs : List Bool) (n : Nat) : h.pass cols xs n
    = (offerEvents h.queue (debounceLine 1 cols h.debounce xs n).2).map
      fun q => { h with debounce := (debounceLine 1 cols h.debounce xs n).1, queue := q } := rfl

theorem playLine_fits (hp : s.holes.pass s.tables.maps[m.val].columns.toList xs n = some h) :
    s.playLine m xs n = State.hold { s with holes := h } n (.map m) xs := by
  unfold State.playLine
  dsimp only
  rw [hp]

/-- A line that does not fit is read again as a copy of the line before (R28). -/
theorem playLine_copied (hp : s.holes.pass s.tables.maps[m.val].columns.toList xs n = none)
    (hc : s.holes.pass s.tables.maps[m.val].columns.toList (s.copySamples (.map m)) n = some h) :
    s.playLine m xs n = { s with
      holes := h, counters := (s.bump .eventOverflow).counters, front := { s.front with newest := n } } := by
  unfold State.playLine
  dsimp only
  rw [hp, hc]
  rfl

theorem playLine_refused (hp : s.holes.pass s.tables.maps[m.val].columns.toList xs n = none)
    (hc : s.holes.pass s.tables.maps[m.val].columns.toList (s.copySamples (.map m)) n = none) :
    s.playLine m xs n
      = { s with counters := (s.bump .eventOverflow).counters, front := { s.front with newest := n } } := by
  unfold State.playLine
  dsimp only
  rw [hp, hc]
  rfl

theorem copySamples_map (s : State) (m : MapNo) : s.copySamples (.map m)
    = if s.front.heldSet = some (.map m) then s.front.heldSamples else List.replicate 128 false := by
  unfold State.copySamples
  refine if_congr Iff.rfl rfl ?_
  simp [ColumnPlan.closed, Tables.columnPlan]

/-- A line of PLAYING moves the debounce records, the queue, the newest line with its samples, and the counter of
overflows. -/
structure Played (m : MapNo) (xs : List Bool) (n : Nat) (s t : State) : Prop where
  form : t = { s with holes := t.holes, front := t.front, counters := t.counters }
  holes : t.holes = { s.holes with debounce := t.holes.debounce, queue := t.holes.queue }
  edges : t.front.edges = s.front.edges
  newest : t.front.newest = n
  fits : ∀ h, s.holes.pass s.tables.maps[m.val].columns.toList xs n = some h →
    t.holes = h ∧ t.front = { s.front with newest := n, heldSamples := xs, heldSet := some (.map m) }
      ∧ ∀ d, t.counter d = s.counter d
  overflows : s.holes.pass s.tables.maps[m.val].columns.toList xs n = none →
    t.front = { s.front with newest := n } ∧ Counted s t .eventOverflow 1
      ∧ (∀ h, s.holes.pass s.tables.maps[m.val].columns.toList (s.copySamples (.map m)) n = some h → t.holes = h)
      ∧ (s.holes.pass s.tables.maps[m.val].columns.toList (s.copySamples (.map m)) n = none → t.holes = s.holes)

theorem pass_holes {cols : List Column} (hp : r.pass cols xs n = some h) :
    h = { r with debounce := h.debounce, queue := h.queue } := by
  rw [pass_eq] at hp
  obtain ⟨q, -, rfl⟩ := Option.map_eq_some_iff.1 hp
  rfl

theorem played_playLine (s : State) (m : MapNo) (xs : List Bool) (n : Nat) : Played m xs n s (s.playLine m xs n) := by
  have hcount := counted_bump s .eventOverflow
  cases hp : s.holes.pass s.tables.maps[m.val].columns.toList xs n with
  | some h =>
    rw [playLine_fits hp]
    refine ⟨rfl, pass_holes hp, rfl, rfl, fun h' hh => ?_, fun hh => ?_⟩
    · rw [hp] at hh
      cases hh
      exact ⟨rfl, rfl, fun _ => rfl⟩
    · rw [hp] at hh
      cases hh
  | none =>
    have hno {h : HoleRecognizer} (hh : s.holes.pass s.tables.maps[m.val].columns.toList xs n = some h) : False := by
      rw [hp] at hh
      cases hh
    cases hc : s.holes.pass s.tables.maps[m.val].columns.toList (s.copySamples (.map m)) n with
    | some h =>
      rw [playLine_copied hp hc]
      refine ⟨rfl, pass_holes hc, rfl, rfl, fun h' hh => (hno hh).elim, fun _ => ⟨rfl, hcount, fun h' hh => ?_, fun hh => ?_⟩⟩
      · rw [hc] at hh
        exact Option.some.inj hh
      · rw [hc] at hh
        cases hh
    | none =>
      rw [playLine_refused hp hc]
      refine ⟨rfl, rfl, rfl, rfl, fun h' hh => (hno hh).elim, fun _ => ⟨rfl, hcount, fun h' hh => ?_, fun _ => rfl⟩⟩
      rw [hc] at hh
      cases hh

/-! A gap is filled line by line (R7) -/

/-- An arrival behind a gap is as it would be once the first line of the gap is filled. -/
theorem arrive_gap {first : Nat} (hfirst : (s.front.newest + 1).toNat = first) (hlt : first < n)
    (hnewest : (s.fillLine first).front.newest = first) (px : List Nat) :
    s.arrive n px = (s.fillLine first).arrive n px := by
  have hlines : s.lines n px = (s.fillLine first).lines n px := by
    unfold State.lines
    rw [hfirst, hnewest, show n - first = n - (first + 1) + 1 by omega]
    rfl
  rw [arrive_eq, arrive_eq, hlines]

/-! The end of a leader (R34, R35) -/

/-- The code that the code reader has read last has settled (R34). -/
def State.Settles (s : State) : Prop :=
  s.holes.reader.lastCode ≠ 0 ∧ s.tables.format.codeLines ≤ s.holes.reader.codeRun

/-- The map set that a settled code chooses (R34). -/
def Format.chosen (f : Format) (code : Nat) : MapNo :=
  match f.codes[code]? with
  | some (some m) => m
  | _ => f.defaultSet

/-- The map set that the last code chooses (R34). -/
def State.chosenMap (s : State) : MapNo := s.tables.format.chosen s.holes.reader.lastCode

theorem endLeader_settles (h : s.Settles) (n : Nat) : s.endLeader n
    = State.enterPlaying { s with holes := { s.holes with code := s.holes.reader.lastCode } } (n + 1) s.chosenMap := if_pos h

theorem endLeader_max (h : ¬s.Settles) (hm : s.tables.format.leaderMax ≤ s.holes.reader.linesRead) (n : Nat) : s.endLeader n
    = State.enterPlaying { s with holes := { s.holes with code := 0 } } (n + 1) s.tables.format.defaultSet :=
  (if_neg h).trans (if_pos hm)

theorem endLeader_goesOn (h : ¬s.Settles) (hm : ¬s.tables.format.leaderMax ≤ s.holes.reader.linesRead) (n : Nat) :
    s.endLeader n = s := (if_neg h).trans (if_neg hm)

/-- A frame that counts as valid before a line is filled, or after it. -/
theorem validFrame_enterPlaying (s : State) (f : Nat) (m : MapNo) :
    (s.enterPlaying f m).validFrame = s.validFrame.enterPlaying f m := rfl

theorem validFrame_endLeader (s : State) (n : Nat) : (s.endLeader n).validFrame = s.validFrame.endLeader n := by
  by_cases hs : s.Settles
  · rw [endLeader_settles hs, endLeader_settles (s := s.validFrame) hs]
    exact validFrame_enterPlaying _ _ _
  · by_cases hm : s.tables.format.leaderMax ≤ s.holes.reader.linesRead
    · rw [endLeader_max hs hm, endLeader_max (s := s.validFrame) hs hm]
      exact validFrame_enterPlaying _ _ _
    · rw [endLeader_goesOn hs hm, endLeader_goesOn (s := s.validFrame) hs hm]

theorem validFrame_playLine (s : State) (m : MapNo) (xs : List Bool) (n : Nat) :
    (s.playLine m xs n).validFrame = s.validFrame.playLine m xs n := by
  have hcopy : s.validFrame.copySamples (.map m) = s.copySamples (.map m) := rfl
  unfold State.playLine
  dsimp only
  rw [hcopy]
  simp only [State.validFrame_holes, State.validFrame_tables]
  cases s.holes.pass s.tables.maps[m.val].columns.toList xs n with
  | some h => rfl
  | none =>
    cases s.holes.pass s.tables.maps[m.val].columns.toList (s.copySamples (.map m)) n <;> rfl

theorem validFrame_recognize (hset : s.currentSet = some set) (xs : List Bool) (n : Nat) :
    (s.recognize set xs n).validFrame = s.validFrame.recognize set xs n := by
  cases hstate : s.roll.rollState with
  | noRoll =>
    unfold State.currentSet at hset
    rw [hstate] at hset
    cases hset
  | leader =>
    rw [recognize_leader hstate, recognize_leader (s := s.validFrame) hstate, validFrame_endLeader]
    rfl
  | playing =>
    rw [currentSet_roll (.inl hstate)] at hset
    obtain ⟨m, -, rfl⟩ := Option.map_eq_some_iff.1 hset
    rw [recognize_playing hstate, recognize_playing (s := s.validFrame) hstate, validFrame_playLine]
  | ending =>
    rw [recognize_ending hstate, recognize_ending (s := s.validFrame) hstate]
    rfl

theorem fillLine_eq (hset : s.currentSet = some set) (n : Nat) :
    s.fillLine n = (s.bump .missingLine).recognize set (s.copySamples set) n := by
  unfold State.fillLine
  rw [hset]

theorem validFrame_fillLine (hset : s.currentSet = some set) (n : Nat) :
    (s.fillLine n).validFrame = s.validFrame.fillLine n := by
  rw [fillLine_eq hset, fillLine_eq (s := s.validFrame) hset, validFrame_recognize (s := s.bump .missingLine) hset]
  rfl

/-- A frame behind a gap is taken as it would be once the first line of the gap is filled (R7). -/
theorem exec_scanFrame_gap {line : Tag} {payload : List Byte} (hp : s.power = .running) (hset : s.currentSet = some set)
    (hlen : payload.length = 256) {first : Nat} (hfirst : (first : Int) = s.front.newest + 1) (hlt : first < line.toNat)
    (htop : (line.toNat : Int) ≤ s.windowTop) (htop' : (line.toNat : Int) ≤ (s.fillLine first).windowTop) :
    exec (.scanFrame line payload) s = exec (.scanFrame line payload) (s.fillLine first) := by
  have active {x : State} (h : x.currentSet.isSome = true) : x.roll.rollState ≠ .noRoll := by
    intro hno
    unfold State.currentSet at h
    rw [hno] at h
    cases h
  have hsome : s.currentSet.isSome = true := by rw [hset]; rfl
  have hnewest : (s.fillLine first).front.newest = first := by
    rw [fillLine_eq hset]
    exact (lined_recognize (s := s.bump .missingLine) hset _ first).2.1
  have hvalid := validFrame_fillLine hset first
  have hpower : (s.fillLine first).power = .running := by rw [onlyPaper_fillLine s first]; exact hp
  rw [exec_scanFrame_taken hp (active hsome) hlen (by omega) htop,
    exec_scanFrame_taken hpower (active (lined_fillLine hsome first).1.set) hlen (by omega) htop', hvalid]
  refine congrArg _ (arrive_gap (s := s.validFrame) (show (s.front.newest + 1).toNat = first by omega) hlt ?_ _)
  rw [← hvalid]
  exact hnewest

/-! Lines of ENDING -/

/-- Lines of ENDING filled: the newest line and the samples held, and the missing lines counted (R6, R7). -/
theorem fillLines_ending (hstate : s.roll.rollState = .ending) (hset : s.currentSet = some set) (count : Nat) (n : Nat) :
    ∃ front counters, s.fillLines n count = { s with front := front, counters := counters } ∧ front.edges = s.front.edges
      ∧ ∀ d, d ≠ .missingLine → ({ s with counters := counters } : State).counter d = s.counter d := by
  induction count generalizing s n with
  | zero => exact ⟨s.front, s.counters, rfl, rfl, fun _ _ => rfl⟩
  | succ count ih =>
    have hline : s.fillLine n = State.hold (s.bump .missingLine) n set (s.copySamples set) := by
      rw [fillLine_eq hset, recognize_ending (s := s.bump .missingLine) hstate]
    have hbump (d : Counter) (hd : d ≠ .missingLine) : (s.bump .missingLine).counter d = s.counter d :=
      counter_bump_other hd s
    obtain ⟨front, counters, heq, hedges, hcount⟩ := ih (s := s.fillLine n) (by rw [hline]; exact hstate)
      (by rw [hline]; exact hset) (n + 1)
    refine ⟨front, counters, ?_, ?_, fun d hd => (hcount d hd).trans ?_⟩
    · show (s.fillLine n).fillLines (n + 1) count = _
      rw [heq, hline]
      rfl
    · rw [hedges, hline]
      rfl
    · rw [hline]
      exact hbump d hd


/-! An arrival in PLAYING and in ENDING -/

theorem registers_iff (s : State) (set : ColumnSet) (px : List Nat) (d : Counter) : s.Registers set px d
    ↔ ((d == .edgeLost && (findEdges s.tables.settings.edgeThreshold px).isNone)
      || (d == .shiftLimited && (s.transformOf set px).shiftLimited)
      || (d == .widthLimited && (s.transformOf set px).widthLimited)) = true := by
  simp only [State.Registers, Bool.or_eq_true, Bool.and_eq_true, beq_iff_eq, Option.isNone_iff_eq_none, or_assoc]

/-- The line after the newest arrives without a gap. -/
theorem lines_next (h : (n : Int) = s.front.newest + 1) (px : List Nat) : s.lines n px = s.takeLine n px := by
  unfold State.lines
  rw [show (s.front.newest + 1).toNat = n by omega, Nat.sub_self]
  rfl

theorem rollState_arrive (s : State) (n : Nat) (px : List Nat) :
    (s.arrive n px).roll.rollState = (s.lines n px).roll.rollState := by
  rw [arrive_eq]
  exact (sameRoll_checkEpisode _).rollState

theorem counter_arrive (s : State) (n : Nat) (px : List Nat) (d : Counter) :
    (s.arrive n px).counter d = (s.lines n px).counter d := by
  unfold State.counter
  rw [(arrive_spec s n px).2.1]

/-- A line of PLAYING taken: its registration, then its events (R10 to R17, R25, R28). -/
theorem lines_playing (hstate : s.roll.rollState = .playing) (hset : s.holes.activeSet = some m)
    (hnext : (n : Int) = s.front.newest + 1) (px : List Nat) : ∃ x, Played m (s.samplesOf (.map m) px) n x (s.lines n px)
      ∧ x = { s with front := { s.front with edges := s.edgesAfter px }, counters := x.counters }
      ∧ Registered s x (.map m) px := by
  have hcurrent : s.currentSet = some (.map m) := by rw [currentSet_roll (.inl hstate), hset]; rfl
  obtain ⟨c, htake, hcount⟩ := takeLine_eq hcurrent n px
  rw [lines_next hnext, htake, recognize_playing (by exact hstate)]
  exact ⟨_, played_playLine _ m _ n, rfl, hcount⟩

/-- A line of PLAYING filled (R7). -/
theorem fillLine_playing (hstate : s.roll.rollState = .playing) (hset : s.holes.activeSet = some m) (n : Nat) :
    Played m (s.copySamples (.map m)) n (s.bump .missingLine) (s.fillLine n) := by
  have hcurrent : s.currentSet = some (.map m) := by rw [currentSet_roll (.inl hstate), hset]; rfl
  rw [fillLine_eq hcurrent, recognize_playing (s := s.bump .missingLine) hstate]
  exact played_playLine ..

/-- The lines of an arrival in ENDING: held, and nothing else but their counters (R6, R7, R10 to R17). -/
theorem lines_ending (hstate : s.roll.rollState = .ending) (hset : s.holes.activeSet = some m) (n : Nat) (px : List Nat) :
    (s.lines n px).front = ⟨(n : Int), s.samplesOf (.map m) px, some (.map m), s.edgesAfter px⟩
      ∧ (s.lines n px).holes = s.holes ∧ (s.lines n px).roll = s.roll
      ∧ ∀ d, d ≠ .missingLine → (s.Registers (.map m) px d → (s.lines n px).counter d = min 65535 (s.counter d + 1))
        ∧ (¬s.Registers (.map m) px d → (s.lines n px).counter d = s.counter d) := by
  have hcurrent : s.currentSet = some (.map m) := by rw [currentSet_roll (.inr hstate), hset]; rfl
  unfold State.lines
  obtain ⟨front, counters, hfill, hedges, hcount⟩ := fillLines_ending hstate hcurrent (n - (s.front.newest + 1).toNat)
    (s.front.newest + 1).toNat
  obtain ⟨f, hf⟩ : ∃ f : State, { s with front := front, counters := counters } = f := ⟨_, rfl⟩
  have hsame : f.edgesAfter px = s.edgesAfter px := by
    unfold State.edgesAfter
    rw [← hf, hedges]
  have htransform : f.transformOf (.map m) px = s.transformOf (.map m) px := by
    unfold State.transformOf
    rw [hsame, ← hf]
  have hsamples : f.samplesOf (.map m) px = s.samplesOf (.map m) px := by
    unfold State.samplesOf
    rw [htransform, ← hf]
  have hregisters (d : Counter) : f.Registers (.map m) px d ↔ s.Registers (.map m) px d := by
    unfold State.Registers
    rw [htransform, ← hf]
  have hfcount (d : Counter) (hd : d ≠ .missingLine) : f.counter d = s.counter d := by
    rw [← hf]
    exact hcount d hd
  obtain ⟨c, htake, hregistered⟩ := takeLine_eq (s := f) (set := .map m) (by rw [← hf]; exact hcurrent) n px
  rw [hfill, hf, htake, recognize_ending (by rw [← hf]; exact hstate), hsame, hsamples]
  refine ⟨rfl, by rw [← hf]; rfl, by rw [← hf]; rfl, fun d hd => ?_⟩
  obtain ⟨hyes, hno⟩ := hregistered d
  rw [hregisters, hfcount d hd] at hyes hno
  exact ⟨hyes, hno⟩

theorem not_registers_overflow (s : State) (set : ColumnSet) (px : List Nat) : ¬s.Registers set px .eventOverflow := by
  rintro (⟨h, -⟩ | ⟨h, -⟩ | ⟨h, -⟩) <;> cases h

theorem eq_ite_of_iff {α : Type} {p q : Prop} [Decidable q] {a b c : α} (h : p ↔ q) (hyes : p → a = b) (hno : ¬p → a = c) :
    a = if q then b else c := by
  by_cases hq : q
  · rw [if_pos hq]; exact hyes (h.2 hq)
  · rw [if_neg hq]; exact hno fun hp => hq (h.1 hp)

/-- Settles O22: the one line of PLAYING by `played_playLine`, a gap by its first line, ENDING by holding its lines. -/
theorem playingLineMakesItsEvents : Obligations.PlayingLineMakesItsEvents := by
  intro s line payload m hp hset hlen htop hlow g plan cols pass toPlan edges tr samples copy registers
  have hregisters (d : Counter) : s.validFrame.Registers (.map m) (pixelsOf payload) d ↔ registers d = true :=
    registers_iff ..
  have hcopy : s.copySamples (.map m) = copy := copySamples_map s m
  refine ⟨fun hstate hnext => ?_, fun hstate hgap => ?_, fun hstate hnew => ?_⟩
  · have hwindow : (line.toNat : Int) ≤ s.windowTop := by
      rw [windowTop_eq, hstate]
      exact htop
    refine ⟨_, exec_scanFrame_taken hp (by rw [hstate]; decide) hlen (by omega) hwindow, ?_⟩
    obtain ⟨hfront, -, hholes, -⟩ := arrive_spec s.validFrame line.toNat (pixelsOf payload)
    have hcounter := counter_arrive s.validFrame line.toNat (pixelsOf payload)
    have hrolls := rollState_arrive s.validFrame line.toNat (pixelsOf payload)
    obtain ⟨x, hplayed, hx, hcount⟩ := lines_playing (s := s.validFrame) hstate hset hnext (pixelsOf payload)
    generalize s.validFrame.arrive line.toNat (pixelsOf payload) = t at hfront hholes hcounter hrolls
    generalize s.validFrame.lines line.toNat (pixelsOf payload) = y at hfront hholes hcounter hrolls hplayed
    have hroll : y.roll = s.validFrame.roll := by rw [hplayed.form, hx]
    have hqueue : y.queueToPlan = toPlan y.holes.queue := by
      unfold State.queueToPlan
      rw [hroll]
      exact if_pos hstate
    have hxpass (xs : List Bool) : x.holes.pass x.tables.maps[m.val].columns.toList xs line.toNat = pass xs line.toNat := by
      rw [hx]; rfl
    have hxcopy : x.copySamples (.map m) = copy := by rw [← hcopy, hx]; rfl
    have hxholes : x.holes = s.holes := by rw [hx]; rfl
    have hxfront : x.front = { s.front with edges := edges } := by rw [hx]; rfl
    have hfits := hplayed.fits
    have hover := hplayed.overflows
    rw [hxcopy] at hover
    simp only [hxpass] at hfits hover
    have hedge : x.counter .eventOverflow = s.counter .eventOverflow :=
      (hcount .eventOverflow).2 (not_registers_overflow s.validFrame _ _)
    refine ⟨by rw [hfront, hplayed.newest], by rw [hfront, hplayed.edges, hxfront], fun h hh => ?_, fun hh => ?_,
      fun d hd => ?_, ?_, ?_⟩
    · obtain ⟨hyh, hyf, hyc⟩ := hfits h hh
      rw [hholes, hfront, hqueue, hyh, hyf, hcounter, hyc]
      exact ⟨rfl, rfl, rfl, rfl, hedge⟩
    · obtain ⟨hyf, hyc, hfit, hnone⟩ := hover hh
      have hcounted := hyc .eventOverflow
      rw [if_pos rfl, hedge] at hcounted
      rw [hholes, hfront, hqueue, hyf, hxfront, hcounter]
      refine ⟨rfl, rfl, hcounted, fun h hc => ?_, fun hc => ?_⟩
      · rw [hfit h hc]
        exact ⟨rfl, rfl⟩
      · rw [hnone hc, hxholes]
        exact ⟨rfl, rfl⟩
    · have hplays : y.counter d = x.counter d := by
        cases hh : pass samples line.toNat with
        | some h => exact (hfits h hh).2.2 d
        | none => exact ((hover hh).2.1 d).trans (if_neg hd)
      rw [hcounter, hplays]
      exact eq_ite_of_iff (hregisters d) (hcount d).1 (hcount d).2
    · rw [hholes, hplayed.holes, hxholes, hplayed.newest]
    · rw [hrolls, hroll]
      exact hstate
  · intro n filled
    have hfirst : (n : Int) = s.front.newest + 1 := by
      show ((s.front.newest + 1).toNat : Int) = _
      omega
    have hplayed := fillLine_playing hstate hset n
    have hcurrent : s.currentSet = some (.map m) := by rw [currentSet_roll (.inl hstate), hset]; rfl
    have hroll : (s.fillLine n).roll = s.roll := by rw [hplayed.form]; rfl
    have hwindow : (line.toNat : Int) ≤ s.windowTop := by
      rw [windowTop_eq, hstate]
      exact htop
    refine ⟨s.fillLine n, ?_, exec_scanFrame_gap hp hcurrent hlen hfirst (by omega) hwindow ?_⟩
    · have hfits := hplayed.fits
      have hover := hplayed.overflows
      have hcopied : (s.bump .missingLine).copySamples (.map m) = s.copySamples (.map m) := rfl
      have hmissing := counted_bump s .missingLine
      rw [hcopied, hcopy] at hover
      rw [hcopy] at hfits
      have hform := hplayed.form
      generalize s.fillLine n = u at hform hfits hover
      refine ⟨hform, fun h hh => ?_, fun hh => ?_⟩
      · obtain ⟨huh, huf, huc⟩ := hfits h hh
        exact ⟨huh, huf, fun d => (huc d).trans (hmissing d)⟩
      · obtain ⟨huf, huc, -, hnone⟩ := hover hh
        refine ⟨hnone hh, huf, fun d => (huc d).trans ?_⟩
        rw [hmissing, hmissing]
        by_cases ho : d = .eventOverflow
        · subst ho; simp
        · by_cases hd : d = .missingLine
          · subst hd; simp
          · simp [ho, hd]
    · rw [windowTop_eq, hroll, hstate]
      exact htop
  · have hwindow : (line.toNat : Int) ≤ s.windowTop := by
      rw [windowTop_eq, hstate]
      exact htop
    refine ⟨_, exec_scanFrame_taken hp (by rw [hstate]; decide) hlen hnew hwindow, ?_⟩
    obtain ⟨hfront, -, hholes, -⟩ := arrive_spec s.validFrame line.toNat (pixelsOf payload)
    have hcounter := counter_arrive s.validFrame line.toNat (pixelsOf payload)
    have hrolls := rollState_arrive s.validFrame line.toNat (pixelsOf payload)
    obtain ⟨hyf, hyh, hyr, hyc⟩ := lines_ending (s := s.validFrame) hstate hset line.toNat (pixelsOf payload)
    generalize s.validFrame.arrive line.toNat (pixelsOf payload) = t at hfront hholes hcounter hrolls
    generalize s.validFrame.lines line.toNat (pixelsOf payload) = y at hfront hholes hcounter hrolls hyf hyh hyr hyc
    have hqueue : y.queueToPlan = s.holes.queue := by
      unfold State.queueToPlan
      rw [hyr, hyh]
      exact if_neg (by rw [show s.validFrame.roll.rollState = .ending from hstate]; decide)
    refine ⟨by rw [hholes, hqueue, hyh, hyf]; rfl, by rw [hfront, hyf]; rfl, fun d hd => ?_, ?_⟩
    · rw [hcounter]
      exact eq_ite_of_iff (hregisters d) (hyc d hd).1 (hyc d hd).2
    · rw [hrolls, hyr]
      exact hstate

end Sys2Proof.Machine
end

section
/-! PROOFS. O23: lines of a leader, taken and filled, and the end of the leader. -/

namespace Sys2Proof.Machine

open Sys2Proof.Safety

variable {s t u w x : State} {n : Nat} {xs : List Bool} {px : List Nat}

/-! The code reader's line -/

/-- A state enters PLAYING in the roll of w: the entry itself, with the settled line its reports have shown (R24, R44). -/
def Enters (w v : State) (f : Nat) (m : MapNo) : Prop :=
  EnteredPlaying v f m w.roll.startTempo w.link.reportSeq (w.link.queue.filter (·.isReply)) w.holes.settled

/-- A line of a leader has been read: the reader and the held samples, and what else the end of the leader may move (R33 to R35). -/
structure LeaderRead (xs : List Bool) (n : Nat) (x v : State) : Prop where
  reader : v.holes.reader = x.holes.reader.update (bitsToNat xs)
  front : v.front = { x.front with newest := n, heldSamples := xs, heldSet := some .code }
  lane : v.link = { x.link with reportSeq := v.link.reportSeq, queue := v.link.queue }
  holes : v.holes = { x.holes with
    reader := v.holes.reader, code := v.holes.code, activeSet := v.holes.activeSet, debounce := v.holes.debounce }
  form : v = { x with front := v.front, holes := v.holes, roll := v.roll, link := v.link }
  starve : v.roll.starveStart = x.roll.starveStart
  plan : v.roll.rollState ≠ .leader → v.roll.rollState = .playing ∧ v.roll.planLine = n

/-- A line of a leader has been read, and the leader has ended where its end has come (R34, R35). -/
structure LeaderLined (xs : List Bool) (n : Nat) (x v : State) : Prop extends LeaderRead xs n x v where
  settles : v.Settles → Enters x v (n + 1) v.chosenMap ∧ v.holes.code = v.holes.reader.lastCode
  max : ¬v.Settles → v.tables.format.leaderMax ≤ v.holes.reader.linesRead →
    Enters x v (n + 1) v.tables.format.defaultSet ∧ v.holes.code = 0
  goesOn : ¬v.Settles → ¬v.tables.format.leaderMax ≤ v.holes.reader.linesRead →
    v.roll = x.roll ∧ v.link = x.link ∧ v.holes = { x.holes with reader := v.holes.reader }

/-- Entering PLAYING as the end of a leader after line n (R24, R34, R35). -/
theorem enterPlaying_after (y : State) (code : Nat) (m : MapNo) (n : Nat) :
    let v := State.enterPlaying { y with holes := { y.holes with code := code } } (n + 1) m
    v.holes = { y.holes with code := code, activeSet := some m, debounce := List.replicate 128 ⟨false, none⟩ }
      ∧ v.link = { y.link with reportSeq := v.link.reportSeq, queue := v.link.queue }
      ∧ v = { y with holes := v.holes, roll := v.roll, link := v.link }
      ∧ v.roll.starveStart = y.roll.starveStart ∧ v.roll.rollState = .playing ∧ v.roll.planLine = n
      ∧ Enters y v (n + 1) m :=
  ⟨rfl, rfl, rfl, rfl, rfl, Int.add_sub_cancel (n : Int) 1, enteredPlaying_enterPlaying ..⟩

theorem leaderLined_recognize (h : x.roll.rollState = .leader) (xs : List Bool) (n : Nat) :
    LeaderLined xs n x (x.recognize .code xs n) := by
  rw [recognize_leader h]
  obtain ⟨y, hy⟩ : ∃ y : State, { x.hold n .code xs with holes := { x.holes with
    reader := x.holes.reader.update (bitsToNat xs) } } = y := ⟨_, rfl⟩
  have hfront : y.front = { x.front with newest := n, heldSamples := xs, heldSet := some .code } := by rw [← hy]; rfl
  have hholes : y.holes = { x.holes with reader := x.holes.reader.update (bitsToNat xs) } := by rw [← hy]
  have hroll : y.roll = x.roll := by rw [← hy]; rfl
  have hlink : y.link = x.link := by rw [← hy]; rfl
  have hform : y = { x with front := y.front, holes := y.holes } := by rw [← hy]; rfl
  have hleader : y.roll.rollState = .leader := by rw [hroll]; exact h
  have henters {v : State} {f : Nat} {m : MapNo} (hv : Enters y v f m) : Enters x v f m := by
    unfold Enters at hv ⊢
    rwa [hroll, hlink, hholes] at hv
  have hentered (code : Nat) (m : MapNo) : LeaderRead xs n x
      (State.enterPlaying { y with holes := { y.holes with code := code } } (n + 1) m) := by
    obtain ⟨hvh, hvl, hvf, hvs, hvp, hvn, -⟩ := enterPlaying_after y code m n
    generalize State.enterPlaying { y with holes := { y.holes with code := code } } (n + 1) m = v at *
    refine ⟨by rw [hvh, hholes], by rw [hvf, hfront], by rw [hvl, hlink], by rw [hvh, hholes], by rw [hvf, hform],
      by rw [hvs, hroll], fun _ => ⟨hvp, hvn⟩⟩
  rw [hy]
  by_cases hset : y.Settles
  · rw [endLeader_settles hset]
    have hread := hentered y.holes.reader.lastCode y.chosenMap
    obtain ⟨-, -, -, -, -, -, henter⟩ := enterPlaying_after y y.holes.reader.lastCode y.chosenMap n
    exact { hread with
      settles := fun _ => ⟨henters henter, rfl⟩, max := fun h => absurd hset h, goesOn := fun h => absurd hset h }
  · by_cases hmax : y.tables.format.leaderMax ≤ y.holes.reader.linesRead
    · rw [endLeader_max hset hmax]
      have hread := hentered 0 y.tables.format.defaultSet
      obtain ⟨-, -, -, -, -, -, henter⟩ := enterPlaying_after y 0 y.tables.format.defaultSet n
      exact { hread with
        settles := fun h => absurd h hset, max := fun _ _ => ⟨henters henter, rfl⟩, goesOn := fun _ h => absurd hmax h }
    · rw [endLeader_goesOn hset hmax]
      exact ⟨⟨by rw [hholes], hfront, by rw [hlink], by rw [hholes], by rw [hform], by rw [hroll],
          fun hno => absurd hleader hno⟩,
        fun h => absurd h hset, fun _ h => absurd h hmax, fun _ _ => ⟨hroll, hlink, by rw [hholes]⟩⟩

/-! The arrival -/

/-- The end of the arrival leaves what the entry into PLAYING says of the settled line its reports have shown (entry 11). -/
theorem enters_settled {f : Nat} {m : MapNo} (h : Enters w u f m) (k : Int) (q : List HoleEvent) :
    Enters w { u with holes := { u.holes with settled := k, queue := q } } f m := h

theorem copySamples_code (s : State) : s.copySamples .code
    = if s.front.heldSet = some .code then s.front.heldSamples else List.replicate 6 false := by
  unfold State.copySamples
  refine if_congr Iff.rfl rfl ?_
  simp [ColumnPlan.closed, Tables.columnPlan]

/-- A line of a leader taken: its registration, then its code (R10 to R17, R33). -/
theorem lines_leader (h : s.roll.rollState = .leader) (hnext : (n : Int) = s.front.newest + 1) (px : List Nat) :
    ∃ x, LeaderLined (s.samplesOf .code px) n x (s.lines n px)
      ∧ x = { s with front := { s.front with edges := s.edgesAfter px }, counters := x.counters }
      ∧ Registered s x .code px := by
  obtain ⟨c, htake, hcount⟩ := takeLine_eq (currentSet_leader h) n px
  rw [lines_next hnext, htake]
  exact ⟨_, leaderLined_recognize (by exact h) _ n, rfl, hcount⟩

/-- A line of a leader filled (R7). -/
theorem fillLine_leader (h : s.roll.rollState = .leader) (n : Nat) :
    LeaderLined (s.copySamples .code) n (s.bump .missingLine) (s.fillLine n) := by
  rw [fillLine_eq (currentSet_leader h)]
  exact leaderLined_recognize (x := s.bump .missingLine) h _ n

/-- Without a starve episode an arrival is its lines, the settled line and the queue. -/
theorem arrive_calm (h : (s.lines n px).roll.starveStart = none) : s.arrive n px = { s.lines n px with
    holes := { (s.lines n px).holes with
      settled := (s.lines n px).front.newest - 8, queue := (s.lines n px).queueToPlan } } := by
  rw [arrive_eq]
  refine checkEpisode_goesOn fun hopen => ?_
  have hsome : (s.lines n px).roll.starveStart.isSome = true := hopen.1
  rw [h] at hsome
  cases hsome

/-- Settles O23: a line of a leader by `leaderLined_recognize`, taken or filled; a gap by its first line. -/
theorem leaderLineAndLeaderMax : Obligations.LeaderLineAndLeaderMax := by
  refine ⟨?_, ?_, ?_⟩
  · intro s line payload hp hstate hcalm hlen hnext g f plan edges tr samples code run read settles
    have hwindow : (line.toNat : Int) ≤ s.windowTop := by
      rw [windowTop_eq, if_pos hstate]
      omega
    obtain ⟨x, hlined, hx, hcount⟩ := lines_leader (s := s.validFrame) hstate hnext (pixelsOf payload)
    have hxroll : x.roll = s.validFrame.roll := by rw [hx]
    have harrive := arrive_calm (s := s.validFrame) (n := line.toNat) (px := pixelsOf payload)
      (by rw [hlined.starve, hxroll]; exact hcalm)
    refine ⟨_, exec_scanFrame_taken hp (by rw [hstate]; decide) hlen (by omega) hwindow, ?_⟩
    rw [harrive]
    generalize s.validFrame.lines line.toNat (pixelsOf payload) = y at hlined
    have hxholes : x.holes = s.holes := by rw [hx]; rfl
    have hxlink : x.link = s.validFrame.link := by rw [hx]
    have hytables : y.tables = s.tables := by rw [hlined.form, hx]; rfl
    have hreader : y.holes.reader = ⟨code, run, read⟩ := by rw [hlined.reader, hxholes]; rfl
    have hsettles : y.Settles ↔ settles := by
      unfold State.Settles
      rw [hytables, hreader]
    have hmap : y.chosenMap = f.chosen code := by rw [State.chosenMap, hytables, hreader]
    have hxstate : x.roll.rollState = .leader := by rw [hxroll]; exact hstate
    have hfront : y.front = ⟨(line.toNat : Int), samples, some .code, edges⟩ := by rw [hlined.front, hx]; rfl
    have hqueue : y.holes.queue = s.holes.queue := by rw [hlined.holes, hxholes]
    have hform : y = { s with
        link := y.link, counters := y.counters, front := y.front, holes := y.holes, roll := y.roll } := by
      rw [hlined.form, hx]
      rfl
    refine ⟨hreader, hfront, fun d => ?_, ?_, ?_, ?_, ?_, fun h => ?_, fun h hmax => ?_, fun h hless => ?_⟩
    · have hy : y.counter d = x.counter d := by rw [hlined.form]; rfl
      refine Eq.trans hy (eq_ite_of_iff ?_ (hcount d).1 (hcount d).2)
      exact Iff.rfl
    · show y.link = _
      rw [hlined.lane, hxlink]
      rfl
    · show HoleRecognizer.mk .. = _
      rw [hlined.holes, hxholes, hfront]
    · show y.queueToPlan = if y.roll.rollState = .leader then _ else _
      by_cases hl : y.roll.rollState = .leader
      · rw [if_pos hl, State.queueToPlan, if_neg (by rw [hl]; decide), hqueue]
      · obtain ⟨hplays, hplan⟩ := hlined.plan hl
        rw [if_neg hl, State.queueToPlan, if_pos hplays, hplan, hqueue]
        exact List.filter_congr fun e _ => decide_eq_decide.2 Int.ofNat_lt
    · show State.mk .. = _
      rw [hform]
    · obtain ⟨henter, hcode⟩ := hlined.settles (hsettles.2 h)
      rw [hmap] at henter
      have henter' := enters_settled henter (y.front.newest - 8) y.queueToPlan
      unfold Enters at henter'
      rw [hxroll, hxlink, hxholes] at henter'
      exact ⟨henter', hcode.trans (congrArg CodeReader.lastCode hreader)⟩
    · obtain ⟨henter, hcode⟩ := hlined.max (fun h' => h (hsettles.1 h')) (by rw [hytables, hreader]; exact hmax)
      rw [hytables] at henter
      have henter' := enters_settled henter (y.front.newest - 8) y.queueToPlan
      unfold Enters at henter'
      rw [hxroll, hxlink, hxholes] at henter'
      exact ⟨henter', hcode⟩
    · obtain ⟨hroll, hlink, hholes⟩ := hlined.goesOn (fun h' => h (hsettles.1 h'))
        (by rw [hytables, hreader]; exact Nat.not_le.2 hless)
      refine ⟨hroll.trans hxroll, hlink.trans hxlink, ?_⟩
      show HoleRecognizer.mk .. = _
      rw [State.queueToPlan, if_neg (by rw [hroll, hxstate]; decide), hfront, hholes, hxholes]
  · intro s line payload hp hstate hlen hlow hgap htop f n copy code run read settles filled
    have hfirst : (n : Int) = s.front.newest + 1 := by
      show ((s.front.newest + 1).toNat : Int) = _
      omega
    have hwindow : (line.toNat : Int) ≤ s.windowTop := by
      rw [windowTop_eq, if_pos hstate]
      exact htop
    have hlined := fillLine_leader hstate n
    rw [copySamples_code] at hlined
    have hmissing := counted_bump s .missingLine
    have hgap' := exec_scanFrame_gap (payload := payload) hp (currentSet_leader hstate) hlen hfirst (by omega) hwindow
    refine ⟨s.fillLine n, ?_, hgap' ?_⟩
    · generalize s.fillLine n = u at hlined
      have hytables : u.tables = s.tables := by rw [hlined.form]; rfl
      have hreader : u.holes.reader = ⟨code, run, read⟩ := hlined.reader
      have hsettles : u.Settles ↔ settles := by
        unfold State.Settles
        rw [hytables, hreader]
      have hmap : u.chosenMap = f.chosen code := by rw [State.chosenMap, hytables, hreader]
      refine ⟨fun d => ?_, hlined.front, hreader, hlined.holes, hlined.lane, ?_, fun h => ?_, fun h hmax => ?_, fun h hless => ?_⟩
      · have hcount : u.counter d = (s.bump .missingLine).counter d := by rw [hlined.form]; rfl
        rw [hcount]
        exact hmissing d
      · rw [hlined.form]
        rfl
      · obtain ⟨henter, hcode⟩ := hlined.settles (hsettles.2 h)
        rw [hmap] at henter
        exact ⟨henter, hcode.trans (congrArg CodeReader.lastCode hreader)⟩
      · obtain ⟨henter, hcode⟩ := hlined.max (fun h' => h (hsettles.1 h')) (by rw [hytables, hreader]; exact hmax)
        rw [hytables] at henter
        exact ⟨henter, hcode⟩
      · exact hlined.goesOn (fun h' => h (hsettles.1 h')) (by rw [hytables, hreader]; exact Nat.not_le.2 hless)
    · rw [windowTop_eq]
      by_cases hl : (s.fillLine n).roll.rollState = .leader
      · rw [if_pos hl, hlined.front]
        show (line.toNat : Int) ≤ n + 2048
        omega
      · rw [if_neg hl, (hlined.plan hl).2]
        omega
  · intro s hp hstate hlow hmax
    have hdue : s.leaderMaxDue = true := by
      rw [State.leaderMaxDue, hstate, decide_eq_true hmax]
      rfl
    exact ⟨_, exec_leaderMaxExpiry hp hdue, enteredPlaying_enterPlaying .., rfl, rfl, rfl⟩

end Sys2Proof.Machine
end

section
/-! PROOFS. O27: the planning of a line beside what the units do with it. -/

namespace Sys2Proof.Machine

open Sys2Proof.Safety

variable {s t u v w x : State} {n : Nat} {q r : Timeline}

/-! The timeline's course -/

/-- Of the timeline, all but the roll state, the starve episode and the end line is the same. -/
structure SameCourse (q r : Timeline) : Prop where
  planLine : r.planLine = q.planLine
  schedule : r.schedule = q.schedule
  tempo : r.tempo = q.tempo
  rollTime : r.rollTime = q.rollTime
  operator : r.operator = q.operator
  startTempo : r.startTempo = q.startTempo
  abandonStart : r.abandonStart = q.abandonStart

theorem SameCourse.refl (q : Timeline) : SameCourse q q := ⟨rfl, rfl, rfl, rfl, rfl, rfl, rfl⟩

/-! The advance of the plan line (R47, R50, R52, R170) -/

/-- The tempo once line n is planned (R47). -/
def advancedTempo (n tempo : Nat) : List Segment → Nat
  | _ :: h :: _ => if h.origin = n then h.tempo else tempo
  | _ => tempo

/-- The plan line, the schedule and the tempo moved on to line n (R47, R50). -/
def State.movedOn (s : State) (n : Nat) : State :=
  { s with roll := { s.roll with
    planLine := n, schedule := advanced n s.roll.schedule, tempo := advancedTempo n s.roll.tempo s.roll.schedule } }

theorem advancePlan_eq (s : State) (n : Nat) : s.advancePlan n
    = if n % 64 = 0 then (s.movedOn n).checkEpisode.queueWindow ((n : Int) + 2048) else (s.movedOn n).checkEpisode := by
  unfold State.advancePlan State.movedOn advanced advancedTempo
  rfl

/-- The episode ends with line n: it is open, and the line after it is not reached (R52; entry 14). -/
def EndsAfter (s : State) (n : Nat) : Prop :=
  s.roll.starveStart.isSome = true ∧ (s.movedOn n).planReached (n + 1) = false

theorem episodeLeft_movedOn (s : State) (n : Nat) : EpisodeLeft (s.movedOn n) (s.movedOn n).checkEpisode (EndsAfter s n) :=
  episodeLeft_checkEpisode (s.movedOn n)

theorem sameCourse_checkEpisode (s : State) : SameCourse s.roll s.checkEpisode.roll := by
  obtain ⟨hends, hstays, -⟩ := episodeLeft_checkEpisode s
  by_cases h : s.roll.starveStart.isSome = true ∧ s.planReached s.nextLine = false
  · rw [hends h]
    exact ⟨rfl, rfl, rfl, rfl, rfl, rfl, rfl⟩
  · rw [hstays h]
    exact SameCourse.refl _

/-- The episode's check keeps the roll state and the end line, and ends the episode where it is over (R52). -/
theorem checkEpisode_roll (s : State) (n : Nat) : let c := (s.movedOn n).checkEpisode
    c.roll.rollState = s.roll.rollState ∧ c.roll.endLine = s.roll.endLine
      ∧ (¬EndsAfter s n → c.roll.starveStart = s.roll.starveStart ∧ c.roll.starved = s.roll.starved)
      ∧ (EndsAfter s n → c.roll.starveStart = none ∧ c.roll.starved = false) := by
  obtain ⟨hends, hstays, -⟩ := episodeLeft_movedOn s n
  dsimp only
  by_cases h : EndsAfter s n
  · rw [hends h]
    exact ⟨rfl, rfl, fun h' => absurd h h', fun _ => ⟨rfl, rfl⟩⟩
  · rw [hstays h]
    exact ⟨rfl, rfl, fun _ => ⟨rfl, rfl⟩, fun h' => absurd h' h⟩

/-- The advance of the plan line beside its WINDOW report (R170). -/
theorem advancePlan_form (s : State) (n : Nat) :
    s.advancePlan n = { (s.movedOn n).checkEpisode with link := (s.advancePlan n).link } := by
  rw [advancePlan_eq]
  split <;> rfl

/-- The return queue after the advance: the report of a lifted STARVED, then the WINDOW report (R52, R55, R169, R170; entry 15). -/
theorem link_advancePlan (s : State) (n : Nat) : ∃ q0 q1 : List ReturnEntry, ∃ seq0 seq1 : Tag,
    (EndsAfter s n ∧ s.roll.starved = true → seq0 = s.link.reportSeq + 1
      ∧ q0 = s.link.queue.filter (fun e => !e.isState) ++ [.state seq0 (s.advancePlan n).stateBytes])
    ∧ (¬(EndsAfter s n ∧ s.roll.starved = true) → seq0 = s.link.reportSeq ∧ q0 = s.link.queue)
    ∧ (n % 64 = 0 → seq1 = seq0 + 1 ∧ q1 = q0.filter (fun e => !e.isWindow)
        ++ [.window seq1 (lineBytes (min ((n : Int) + 2048) 16777215) ++ lineBytes n)])
    ∧ (n % 64 ≠ 0 → seq1 = seq0 ∧ q1 = q0)
    ∧ (s.advancePlan n).link = { s.link with reportSeq := seq1, queue := q1 } := by
  obtain ⟨-, -, hlifts, hstays, -⟩ := episodeLeft_movedOn s n
  have hplan : (s.movedOn n).checkEpisode.roll.planLine = n := (sameCourse_checkEpisode (s.movedOn n)).planLine
  have hlane := (reported_checkEpisode (s.movedOn n)).lane
  have hbytes : (s.advancePlan n).stateBytes = (s.movedOn n).checkEpisode.stateBytes := by
    rw [advancePlan_form]
    rfl
  rw [hbytes, advancePlan_eq]
  generalize (s.movedOn n).checkEpisode = c at hlifts hstays hplan hlane
  refine ⟨c.link.queue, (if n % 64 = 0 then c.queueWindow ((n : Int) + 2048) else c).link.queue, c.link.reportSeq,
    (if n % 64 = 0 then c.queueWindow ((n : Int) + 2048) else c).link.reportSeq, fun h => ?_, fun h => ?_, fun h => ?_,
    fun h => ?_, ?_⟩
  · rw [hlifts h.1 h.2]
    exact ⟨rfl, rfl⟩
  · rw [hstays h]
    exact ⟨rfl, rfl⟩
  · rw [if_pos h, ← hplan]
    exact ⟨rfl, rfl⟩
  · rw [if_neg h]
    exact ⟨rfl, rfl⟩
  · split
    · show Link.mk .. = _
      rw [hlane]
      rfl
    · rw [hlane]
      rfl

/-! The entry into ENDING (R58) -/

/-- The roll in ENDING at end line n, its channels not yet closed (R58). -/
def State.endingAt (s : State) (n : Nat) : State :=
  State.queueState { s.changeHolds s.roll.operator false with
    holes := { (s.changeHolds s.roll.operator false).holes with queue := [] }
    roll := { (s.changeHolds s.roll.operator false).roll with rollState := .ending, endLine := some n, starveStart := none } }

/-- The close of the keys and then of the pedals that are DOWN (R102, R145). -/
def State.closeChannels (s : State) (n : Nat) : State :=
  allPedals.foldl (fun q p => if q.pedalUnit.planned.get p then q.planLift p n else q)
    (allKeys.foldl (fun q k => q.closeKey k n) s)

theorem enterEnding_eq (s : State) (n : Nat) : s.enterEnding n = (s.endingAt n).closeChannels n := rfl

/-- The entry into ENDING beside the close of the channels: the timeline, the empty queue and the report (R58). -/
theorem enterEnding_spec (s : State) (n : Nat) :
    (s.enterEnding n).roll = { s.roll with rollState := .ending, endLine := some n, starveStart := none, starved := false }
      ∧ (s.enterEnding n).holes = { s.holes with queue := [] }
      ∧ (s.enterEnding n).link = { s.link with
          reportSeq := s.link.reportSeq + 1
          queue := s.link.queue.filter (fun e => !e.isState)
            ++ [.state (s.link.reportSeq + 1) (s.enterEnding n).stateBytes] } := by
  have hclosed : OnlyPedalUnit (s.endingAt n) (s.enterEnding n) := onlyPedalUnit_closeChannels (s.endingAt n) n
  have hstart : s.endingAt n = State.queueState { s with
      holes := { s.holes with queue := [] }
      roll := { s.roll with rollState := .ending, endLine := some n, starveStart := none, starved := false }
      keys := (s.endingAt n).keys } := by
    unfold State.endingAt
    rw [changeHolds_eq]
    rfl
  unfold OnlyPedalUnit OnlyChannels at hclosed
  rw [hstart] at hclosed
  generalize s.enterEnding n = t at hclosed
  have hroll : t.roll = { s.roll with rollState := .ending, endLine := some n, starveStart := none, starved := false } := by
    rw [hclosed]
    rfl
  have hholes : t.holes = { s.holes with queue := [] } := by
    rw [hclosed]
    rfl
  refine ⟨hroll, hholes, ?_⟩
  rw [hclosed]
  rfl

/-! The obligation -/

theorem endMarked_iff (es : List HoleEvent) : endMarked es = true ↔ ∃ e ∈ es, e.function = .endMark ∧ e.kind = .opens := by
  simp only [endMarked, List.any_eq_true, Bool.and_eq_true, beq_iff_eq]

/-- The units leave the timeline and the link, and of the paper's records take the line's events (R67). -/
theorem lineTaken_stands (s : State) : s.lineTaken.roll = s.roll ∧ s.lineTaken.link = s.link
    ∧ s.lineTaken.tables = s.tables
    ∧ s.lineTaken.holes = { s.holes with queue := s.holes.queue.dropWhile fun e => e.line == s.nextLine } := by
  have h := (onlyPedalUnit_planPedals (State.planExpression { s with holes := { s.holes with
    queue := s.holes.queue.dropWhile fun e => e.line == s.nextLine } } s.nextLine s.nextEvents) s.nextLine
      s.nextEvents).trans (onlyChannels_planKeys _ s.nextLine s.nextEvents).onlyPedalUnit
  unfold OnlyPedalUnit OnlyChannels at h
  unfold State.lineTaken
  exact ⟨by rw [h]; rfl, by rw [h]; rfl, by rw [h]; rfl, by rw [h]; rfl⟩

/-- What the planning of a line leaves of the roll's course, of the paper and of everything else (R47, R50, R67). -/
theorem planNext_course (s : State) :
    SameCourse (s.lineTaken.movedOn s.nextLine).roll s.planNext.roll
      ∧ s.planNext.holes = { s.holes with queue := s.planNext.holes.queue }
      ∧ s.planNext.exprBass = s.lineTaken.exprBass ∧ s.planNext.exprTreble = s.lineTaken.exprTreble := by
  have hunits : OnlyPlanned s.lineTaken s.planNext :=
    OnlyPlanned.ite ((onlyPlanned_advancePlan _ _).trans (onlyPlanned_enterEnding _ _)) (onlyPlanned_advancePlan _ _)
  obtain ⟨-, -, -, hholes⟩ := lineTaken_stands s
  refine ⟨?_, ?_, hunits.exprBass, hunits.exprTreble⟩
  · have hcourse : SameCourse (s.lineTaken.movedOn s.nextLine).roll (s.lineTaken.advancePlan s.nextLine).roll := by
      rw [advancePlan_form]
      exact sameCourse_checkEpisode _
    rw [planNext_eq]
    split
    · rw [(enterEnding_spec _ _).1]
      exact { hcourse with }
    · exact hcourse
  · have hkept : (s.lineTaken.advancePlan s.nextLine).holes = s.lineTaken.holes := by
      rw [(onlyHolds_advancePlan s.lineTaken s.nextLine).1]
    rw [planNext_eq]
    split
    · rw [(enterEnding_spec _ _).2.1, hkept, hholes]
    · rw [hkept, hholes]

/-- Settles O27: the units' line, then the advance of the plan line, then ENDING where the line has the end mark. -/
theorem planLinePlansTheNextLine : Obligations.PlanLinePlansTheNextLine := by
  intro s hp hstate hlow hsettled hreach n es rest ends schedule moved starves lifts u
  have hdue : s.planDue = true := by
    rw [State.planDue, hstate, State.lineSettled, decide_eq_true hsettled, hreach]
    rfl
  obtain ⟨huroll, hulink, hutables, huholes⟩ := lineTaken_stands s
  obtain ⟨hcourse, hholes, hbass, htreble⟩ := planNext_course s
  have hplanned := onlyPlanned_planNext s
  have hnext := planNext_eq s
  have hu : s.lineTaken = u := rfl
  have hmarked : endMarked s.nextEvents = true ↔ ends := endMarked_iff es
  rw [hu] at huroll hulink hutables huholes hcourse hbass htreble hnext
  clear_value u
  have hform := advancePlan_form u n
  obtain ⟨q0, q1, seq0, seq1, hlift, hnolift, hwindow, hnowindow, hlink⟩ := link_advancePlan u n
  obtain ⟨hrs, hel, hgo, hend⟩ := checkEpisode_roll u n
  obtain ⟨-, -, -, -, hwatches, hkeys⟩ := episodeLeft_movedOn u n
  have hstarves : EndsAfter u n ↔ s.roll.starveStart.isSome = true ∧ ¬starves := by
    have hmoved : (u.movedOn n).planReached (n + 1) = moved.planReached (n + 1) := by
      unfold State.movedOn State.planReached State.due
      rw [huroll, hutables]
      unfold advanced
      rfl
    rw [EndsAfter, hmoved, huroll, Bool.not_eq_true]
  have hlifts : (EndsAfter u n ∧ u.roll.starved = true) ↔ lifts := by
    rw [hstarves, huroll, and_assoc, and_comm (a := ¬starves)]
  rw [hlifts, hulink] at hlift hnolift
  rw [hulink] at hlink
  refine ⟨s.planNext, exec_planLine hp hdue, ?_, hbass, htreble, ?_, ?_, ?_, ?_, ?_, ?_, fun he => ?_, fun he => ?_, ?_, hholes, ?_⟩
  · rw [hcourse.planLine]
    show ((s.roll.planLine + 1).toNat : Int) = _
    omega
  · rw [hcourse.schedule]
    show advanced n u.roll.schedule = _
    rw [huroll]
    rfl
  · rw [hcourse.tempo]
    show advancedTempo n u.roll.tempo u.roll.schedule = _
    rw [huroll]
    rfl
  · exact hcourse.rollTime.trans (show u.roll.rollTime = _ by rw [huroll])
  · exact hcourse.operator.trans (show u.roll.operator = _ by rw [huroll])
  · exact hcourse.startTempo.trans (show u.roll.startTempo = _ by rw [huroll])
  · exact hcourse.abandonStart.trans (show u.roll.abandonStart = _ by rw [huroll])
  · rw [hnext, if_pos (hmarked.2 he)]
    obtain ⟨hroll, hq, -⟩ := enterEnding_spec (u.advancePlan n) n
    generalize (u.advancePlan n).enterEnding n = t at hroll hq
    rw [hroll, hq]
    exact ⟨rfl, rfl, rfl, rfl, rfl⟩
  · have hplain : s.planNext = u.advancePlan n := by rw [hnext, if_neg fun h => he (hmarked.1 h)]
    have hheld := (onlyHolds_checkEpisode (u.movedOn n)).1
    rw [hplain, hform]
    generalize (u.movedOn n).checkEpisode = c at hheld hrs hel hgo hend hwatches hkeys
    have hkept : c.holes = u.holes ∧ c.pedals = u.pedals ∧ c.fireList = u.fireList ∧ c.waitList = u.waitList
        ∧ c.pedalUnit = u.pedalUnit ∧ c.counters = u.counters := by
      rw [hheld]
      exact ⟨rfl, rfl, rfl, rfl, rfl, rfl⟩
    obtain ⟨hch, hcp, hcf, hcw, hcu, hcc⟩ := hkept
    refine ⟨hrs.trans (by rw [huroll, hstate]), hel.trans (by rw [huroll]), by rw [hch, huholes], fun hs => ?_, fun hs => ?_,
      fun hl ho => ?_, fun hl => ?_, hcp, hcf, hcw, hcu, hcc⟩
    · rw [huroll] at hgo
      exact hgo fun h => (hstarves.1 h).2 hs
    · by_cases hopen : s.roll.starveStart.isSome = true
      · obtain ⟨hnone, hunstarved⟩ := hend (hstarves.2 ⟨hopen, hs⟩)
        refine ⟨hnone, hunstarved.trans ?_⟩
        rw [Option.isNone_eq_false_iff.2 hopen, Bool.and_false]
      · obtain ⟨hsame, hst⟩ := hgo fun h => hopen (hstarves.1 h).1
        have hnone : s.roll.starveStart = none := Option.not_isSome_iff_eq_none.1 hopen
        refine ⟨hsame.trans (by rw [huroll, hnone]), hst.trans ?_⟩
        rw [huroll, hnone, Option.isNone_none, Bool.and_true]
    · obtain ⟨hopen, hst, hnot⟩ := hl
      refine hwatches (hstarves.2 ⟨hopen, hnot⟩) ?_ ?_
      · show u.roll.starved = true
        rw [huroll]; exact hst
      · show u.roll.operator = false
        rw [huroll]; exact ho
    · refine hkeys fun h => hl ⟨hlifts.1 ⟨h.1, h.2.1⟩, ?_⟩
      rw [← huroll]
      exact h.2.2
  · refine ⟨q0, q1, seq0, seq1, fun hl => ?_, hnolift, hwindow, hnowindow, fun he => ?_, fun he => ?_⟩
    · obtain ⟨hseq, hq0⟩ := hlift hl
      refine ⟨hseq, _, hq0, fun he => ?_⟩
      rw [hnext, if_neg fun h => he (hmarked.1 h)]
    · rw [hnext, if_neg fun h => he (hmarked.1 h)]
      exact hlink
    · rw [hnext, if_pos (hmarked.2 he)]
      obtain ⟨-, -, hended⟩ := enterEnding_spec (u.advancePlan n) n
      rw [hlink] at hended
      exact hended
  · unfold OnlyPlanned at hplanned
    generalize s.planNext = t at hplanned
    rw [hplanned]
    rfl

end Sys2Proof.Machine
end

section
/-! PROOFS. O28: the close of a roll, its keys and then its pedals. -/

namespace Sys2Proof.Machine

open Sys2Proof.Safety

variable {s t u v : State} {k : Key} {p : Pedal} {n : Nat} {c d : KeyChannel}

/-! The hold-limit watches as the roll's clock starts (R55, R56, R58) -/

/-- A key channel whose hold-limit watch goes, unless it has expired, where a clock that STARVED held starts (R56). -/
def KeyChannel.unwatched (c : KeyChannel) (starts : Bool) : KeyChannel :=
  { c with holdWatch := if starts = true ∧ (c.holdWatch.map (·.expired)) ≠ some true then none else c.holdWatch }

theorem unwatched_false (c : KeyChannel) : c.unwatched false = c := by
  unfold KeyChannel.unwatched
  rw [if_neg fun h => nomatch h.1]

theorem unwatched_true (c : KeyChannel) : c.unwatched true
    = if (c.holdWatch.map (·.expired)) = some true then c else { c with holdWatch := none } := by
  unfold KeyChannel.unwatched
  by_cases h : (c.holdWatch.map (·.expired)) = some true
  · rw [if_pos h, if_neg fun h' => h'.2 h]
  · rw [if_neg h, if_pos ⟨rfl, h⟩]

theorem key_of_watchesRemoved (h : WatchesRemoved s t) (k : Key) : t.key k = (s.key k).unwatched true := by
  rw [h k, unwatched_true]

/-- A clock that STARVED alone holds starts once STARVED goes (R55). -/
def State.unstarves (s : State) : Bool := s.roll.starved && !s.roll.operator

theorem unstarves_iff (s : State) : s.unstarves = true ↔ s.roll.starved = true ∧ s.roll.operator = false := by
  rw [State.unstarves, Bool.and_eq_true, Bool.not_eq_true']

theorem key_endingAt (s : State) (n : Nat) (k : Key) : (s.endingAt n).key k = (s.key k).unwatched s.unstarves := by
  show (s.changeHolds s.roll.operator false).key k = _
  cases hop : s.roll.operator with
  | true =>
    rw [changeHolds_stays (by simp [hop]), State.unstarves, hop, Bool.not_true, Bool.and_false, unwatched_false]
    rfl
  | false =>
    cases hst : s.roll.starved with
    | false =>
      rw [changeHolds_stays (by simp [hop, hst]), State.unstarves, hst, Bool.false_and, unwatched_false]
      rfl
    | true =>
      rw [changeHolds_starts (by simp [hst]), (unstarves_iff s).2 ⟨hst, hop⟩]
      exact key_of_watchesRemoved (watchesRemoved_dropWatches (s.holds false false)) k

/-- The entry into ENDING after the advance of the plan line: where STARVED was in force it has gone in one or the other (R52, R58). -/
theorem key_advanced_endingAt (s : State) (n : Nat) (k : Key) :
    ((s.advancePlan n).endingAt n).key k = (s.key k).unwatched s.unstarves := by
  have hcourse := sameCourse_checkEpisode (s.movedOn n)
  obtain ⟨-, -, hgo, hend⟩ := checkEpisode_roll s n
  obtain ⟨-, -, -, -, hremoved, hkept⟩ := episodeLeft_movedOn s n
  have hkey : (s.advancePlan n).key k = (s.movedOn n).checkEpisode.key k := by
    rw [advancePlan_form]
    rfl
  have hroll : (s.advancePlan n).roll = (s.movedOn n).checkEpisode.roll := by rw [advancePlan_form]
  have hop : (s.advancePlan n).roll.operator = s.roll.operator := by
    rw [hroll]
    exact hcourse.operator
  rw [key_endingAt, hkey]
  by_cases hlift : EndsAfter s n ∧ s.roll.starved = true ∧ s.roll.operator = false
  · have hst : (s.advancePlan n).unstarves = false := by
      rw [State.unstarves, hroll, (hend hlift.1).2]
      rfl
    rw [hst, unwatched_false, (unstarves_iff s).2 hlift.2]
    exact key_of_watchesRemoved (s := s.movedOn n) (hremoved hlift.1 hlift.2.1 hlift.2.2) k
  · have hsame : (s.movedOn n).checkEpisode.key k = s.key k := by
      unfold State.key
      rw [hkept hlift]
      rfl
    rw [hsame]
    congr 1
    rw [State.unstarves, State.unstarves, hop]
    by_cases hends : EndsAfter s n
    · rw [hroll, (hend hends).2]
      cases hst : s.roll.starved with
      | false => rfl
      | true =>
        cases ho : s.roll.operator with
        | true => rfl
        | false => exact absurd ⟨hends, hst, ho⟩ hlift
    · rw [hroll, (hgo hends).2]

/-! The due time of the end line -/

theorem governing_advanced (l : List Segment) (n : Nat) : governing (advanced n l) n = governing l n := by
  unfold advanced
  split
  case h_1 g h rest =>
    split
    case isTrue hn =>
      unfold governing
      simp [hn]
    · rfl
  · rfl

theorem due_movedOn (s : State) (n : Nat) : (s.movedOn n).due n = s.due n :=
  congrArg (fun g : Segment => g.due s.tables.settings.lpi n) (governing_advanced s.roll.schedule n)

/-! One key closed (R58, R102) -/

theorem needsClose_iff {m : Note} : m.needsClose = true ↔ m.fire.isSome = true ∧ m.release = none := by
  rw [Note.needsClose, Note.isTest, Bool.and_eq_true, Bool.not_eq_true', Option.isNone_iff_eq_none, Option.isNone_eq_false_iff,
    and_comm]

/-- A note as the close of its key leaves it (R102, R149). -/
def closedNote (s : State) (k : Key) (n : Nat) (m : Note) : Note :=
  if m.needsClose then { m with release := some (noteOffTime s k n) } else m

/-- The close gives the current note its note-off (R102). -/
def KeyChannel.closesCurrent (c : KeyChannel) : Bool := !c.holdReleased && (c.current.map Note.needsClose).getD false

/-- The close gives some note of the channel its note-off (R102). -/
def KeyChannel.closes (c : KeyChannel) : Bool := c.closesCurrent || (c.pending.map Note.needsClose).getD false

/-- A channel's record with the note-offs of the close (R102). -/
def closedRecord (s : State) (k : Key) (n : Nat) (c : KeyChannel) : KeyChannel :=
  { c with
    current := if c.holdReleased then c.current else c.current.map (closedNote s k n)
    pending := c.pending.map (closedNote s k n) }

/-- What the close makes of a channel's record c: its notes have their note-offs, and a current one that has got one is
acted on (R102, R104; entry 17). -/
def KeyClosed (s : State) (k : Key) (n : Nat) (c d : KeyChannel) : Prop :=
  (c.closesCurrent = true ∧ Releases s (closedRecord s k n c) →
      d = Released (closedRecord s k n c) s.deviceTime (s.record k).repeatGap)
    ∧ (¬(c.closesCurrent = true ∧ Releases s (closedRecord s k n c)) → d = closedRecord s k n c)

/-- The roll key states once key k is closed (R137). -/
def rollKeysClosed (s : State) (k : Key) : Vector Bool 88 :=
  if (s.key k).closes = true then s.pedalUnit.rollKeys.set k.val false k.isLt else s.pedalUnit.rollKeys

/-- The close of one key, in its own record and its roll key state. -/
theorem closeKey_spec (s : State) (k : Key) (n : Nat) : KeyClosed s k n (s.key k) ((s.closeKey k n).key k)
    ∧ s.closeKey k n = { s.withKey k ((s.closeKey k n).key k) with
        pedalUnit := { s.pedalUnit with rollKeys := rollKeysClosed s k } } := by
  have hnote : (fun m : Note => if m.needsClose then s.catchNote k { m with
      release := some (rollSub (s.due n) (s.record k).releaseLead) } else m) = closedNote s k n := by
    funext m
    unfold closedNote
    refine if_congr Iff.rfl ?_ rfl
    exact catchNote_off s k n m
  obtain ⟨w, hw⟩ : ∃ w : State, { s with pedalUnit := { s.pedalUnit with rollKeys := rollKeysClosed s k } } = w := ⟨_, rfl⟩
  have hclose : s.closeKey k n = if (s.key k).closesCurrent
      then (w.withKey k (closedRecord s k n (s.key k))).checkRelease k else w.withKey k (closedRecord s k n (s.key k)) := by
    have hput : (if (s.key k).closes = true then { s.withKey k (closedRecord s k n (s.key k)) with pedalUnit :=
          { s.pedalUnit with rollKeys := s.pedalUnit.rollKeys.set k.val false k.isLt } }
        else s.withKey k (closedRecord s k n (s.key k))) = w.withKey k (closedRecord s k n (s.key k)) := by
      rw [← hw, rollKeysClosed]
      split <;> rfl
    rw [← hput]
    unfold State.closeKey closedRecord
    rw [← hnote]
    rfl
  have hput {d : KeyChannel} (hd : KeyClosed s k n (s.key k) d) (heq : s.closeKey k n = w.withKey k d) :
      KeyClosed s k n (s.key k) ((s.closeKey k n).key k)
        ∧ s.closeKey k n = { s.withKey k ((s.closeKey k n).key k) with
          pedalUnit := { s.pedalUnit with rollKeys := rollKeysClosed s k } } := by
    rw [heq, State.key_withKey_self]
    exact ⟨hd, by rw [← hw]; rfl⟩
  have hreleases : Releases w (closedRecord s k n (s.key k)) ↔ Releases s (closedRecord s k n (s.key k)) := by
    rw [← hw]
    exact Iff.rfl
  have hgap : w.deviceTime = s.deviceTime ∧ w.record k = s.record k := by
    rw [← hw]
    exact ⟨rfl, rfl⟩
  obtain ⟨hacts, hstays⟩ := checkRelease_withKey w k (closedRecord s k n (s.key k))
  rw [hreleases, hgap.1, hgap.2] at hacts
  rw [hreleases] at hstays
  by_cases hc : (s.key k).closesCurrent = true
  · rw [if_pos hc] at hclose
    by_cases hr : Releases s (closedRecord s k n (s.key k))
    · exact hput ⟨fun _ => rfl, fun h => absurd ⟨hc, hr⟩ h⟩ (hclose.trans (hacts hr))
    · exact hput ⟨fun h => absurd h.2 hr, fun _ => rfl⟩ (hclose.trans (hstays hr))
  · rw [if_neg hc] at hclose
    exact hput ⟨fun h => absurd h.1 hc, fun _ => rfl⟩ hclose

/-! The keys in turn -/

/-- Only key channels and roll key states differ: what the close of some keys moves. -/
def OnlyKeysClosed (s t : State) : Prop :=
  t = { s with keys := t.keys, pedalUnit := { s.pedalUnit with rollKeys := t.pedalUnit.rollKeys } }

/-- Nothing that the close of a key depends on, its own record apart, is a matter of the other keys. -/
theorem keyClosed_same (h : OnlyKeysClosed s t) : KeyClosed t k n c d ↔ KeyClosed s k n c d := by
  unfold OnlyKeysClosed at h
  rw [h]
  exact Iff.rfl

theorem closeKeys_spec (ks : List Key) (hnodup : ks.Nodup) (s : State) (n : Nat) :
    let t := ks.foldl (fun q k => q.closeKey k n) s
    OnlyKeysClosed s t
      ∧ (∀ k ∈ ks, KeyClosed s k n (s.key k) (t.key k)
        ∧ t.pedalUnit.rollKeys[k.val] = if (s.key k).closes = true then false else s.pedalUnit.rollKeys[k.val])
      ∧ ∀ k, k ∉ ks → t.key k = s.key k ∧ t.pedalUnit.rollKeys[k.val] = s.pedalUnit.rollKeys[k.val] := by
  induction ks generalizing s with
  | nil => exact ⟨rfl, fun _ h => absurd h List.not_mem_nil, fun _ _ => ⟨rfl, rfl⟩⟩
  | cons j js ih =>
    obtain ⟨hj, hjs⟩ := List.nodup_cons.1 hnodup
    obtain ⟨hclosed, hform⟩ := closeKey_spec s j n
    obtain ⟨honly, hin, hout⟩ := ih hjs (s.closeKey j n)
    rw [List.foldl_cons]
    generalize js.foldl (fun q k => q.closeKey k n) (s.closeKey j n) = t at honly hin hout
    generalize s.closeKey j n = y at hclosed hform honly hin hout
    have hy : OnlyKeysClosed s y := by
      unfold OnlyKeysClosed
      rw [hform]
      rfl
    have hkeys : y.pedalUnit.rollKeys = rollKeysClosed s j := by rw [hform]
    have hother (k : Key) (hk : k ≠ j) : y.key k = s.key k ∧ y.pedalUnit.rollKeys[k.val] = s.pedalUnit.rollKeys[k.val] := by
      refine ⟨?_, ?_⟩
      · rw [hform]
        exact State.key_withKey_ne s j k _ hk
      · rw [hkeys, rollKeysClosed]
        split
        · rw [Vector.getElem_set, if_neg fun e => hk (Fin.ext e.symm)]
        · rfl
    refine ⟨?_, fun k hk => ?_, fun k hk => ?_⟩
    · unfold OnlyKeysClosed at honly hy ⊢
      rw [honly, hy]
    · rcases List.mem_cons.1 hk with rfl | hk
      · obtain ⟨hkey, hroll⟩ := hout k hj
        rw [hkey, hroll]
        refine ⟨hclosed, ?_⟩
        rw [hkeys, rollKeysClosed]
        split
        · rw [Vector.getElem_set, if_pos rfl]
        · rfl
      · have hne : k ≠ j := fun e => hj (e ▸ hk)
        obtain ⟨hkey, hroll⟩ := hother k hne
        have hthis := hin k hk
        rw [keyClosed_same hy, hkey, hroll] at hthis
        exact hthis
    · obtain ⟨hne, hnot⟩ := not_or.1 (List.mem_cons.not.1 hk)
      obtain ⟨hkey, hroll⟩ := hother k hne
      obtain ⟨hkey', hroll'⟩ := hout k hnot
      exact ⟨hkey'.trans hkey, hroll'.trans hroll⟩

/-! One pedal lifted (R139, R145) -/

theorem get_put (q : PlannedPedals) (p r : Pedal) (down : Bool) :
    (q.put p down).get r = if r = p then down else q.get r := by
  cases p <;> cases r <;> rfl

/-- A channel is that of pedal p, in a state, with no later press (R139). -/
def standsIn (s : State) (p : Pedal) (x : ChannelState) (c : Channel) : Bool :=
  c == .pedal p && (s.pedal p).pending.isNone && (s.pedal p).state == x

theorem filter_standsIn_of_not {α : Type} (l : List α) (f : α → Channel) {x : ChannelState}
    (h : ¬((s.pedal p).pending = none ∧ (s.pedal p).state = x)) : l.filter (fun e => !standsIn s p x (f e)) = l := by
  refine List.filter_eq_self.2 fun e _ => ?_
  rw [Bool.not_eq_true', ← Bool.not_eq_true, standsIn, Bool.and_eq_true, Bool.and_eq_true, Option.isNone_iff_eq_none,
    beq_iff_eq, beq_iff_eq]
  exact fun h' => h ⟨h'.1.2, h'.2⟩

theorem filter_standsIn {α : Type} (l : List α) (f : α → Channel) {x : ChannelState} (hp : (s.pedal p).pending = none)
    (hs : (s.pedal p).state = x) : l.filter (fun e => !standsIn s p x (f e)) = l.filter fun e => f e != .pedal p := by
  refine List.filter_congr fun e _ => ?_
  rw [standsIn, hp, hs]
  simp [bne]

/-- A lift takes the entry of a pedal that was ARMED or WAITING without a later press out of its list (R139). -/
theorem lists_handLift (s : State) (p : Pedal) (r : RollTime) :
    (s.handLift p r).fireList = s.fireList.filter (fun e => !standsIn s p .armed e.channel)
      ∧ (s.handLift p r).waitList = s.waitList.filter (fun e => !standsIn s p .waiting e.channel) := by
  by_cases hp : (s.pedal p).pending = none
  · have hstand {t : State} (ht : t.fireList = s.fireList ∧ t.waitList = s.waitList) (ha : (s.pedal p).state ≠ .armed)
        (hw : (s.pedal p).state ≠ .waiting) :
        t.fireList = s.fireList.filter (fun e => !standsIn s p .armed e.channel)
          ∧ t.waitList = s.waitList.filter (fun e => !standsIn s p .waiting e.channel) := by
      rw [filter_standsIn_of_not _ FireEntry.channel fun h => ha h.2, filter_standsIn_of_not _ WaitEntry.channel fun h => hw h.2]
      exact ht
    rw [handLift_current hp]
    cases hs : (s.pedal p).state with
    | armed =>
      rw [filter_standsIn _ FireEntry.channel hp hs, filter_standsIn_of_not _ WaitEntry.channel (by simp [hs])]
      exact ⟨rfl, rfl⟩
    | waiting =>
      rw [filter_standsIn _ WaitEntry.channel hp hs, filter_standsIn_of_not _ FireEntry.channel (by simp [hs])]
      exact ⟨rfl, rfl⟩
    | kick =>
      refine hstand ?_ (by simp [hs]) (by simp [hs])
      cases (s.pedal p).current with
      | none => exact ⟨rfl, rfl⟩
      | some f => dsimp only; split <;> exact ⟨rfl, rfl⟩
    | hold =>
      refine hstand ?_ (by simp [hs]) (by simp [hs])
      cases (s.pedal p).current with
      | none => exact ⟨rfl, rfl⟩
      | some f =>
        dsimp only
        split
        · split <;> exact ⟨rfl, rfl⟩
        · exact ⟨rfl, rfl⟩
    | idle => exact hstand ⟨rfl, rfl⟩ (by simp [hs]) (by simp [hs])
    | release => exact hstand ⟨rfl, rfl⟩ (by simp [hs]) (by simp [hs])
  · rw [handLift_pending (Option.isSome_iff_ne_none.2 hp), filter_standsIn_of_not _ FireEntry.channel fun h => hp h.1,
      filter_standsIn_of_not _ WaitEntry.channel fun h => hp h.1]
    exact ⟨rfl, rfl⟩

/-- A lift makes of its pedal's channel what that channel and the two clocks say. -/
theorem pedal_handLift_same (hp : t.pedal p = s.pedal p) (hr : t.roll.rollTime = s.roll.rollTime)
    (hd : t.deviceTime = s.deviceTime) (r : RollTime) : (t.handLift p r).pedal p = (s.handLift p r).pedal p := by
  by_cases hpending : (s.pedal p).pending = none
  · have hpending' : (t.pedal p).pending = none := by rw [hp]; exact hpending
    have hcurrent := handLift_current hpending r
    have hcurrent' := handLift_current hpending' r
    rw [hp] at hcurrent'
    cases hs : (s.pedal p).state with
    | armed =>
      rw [hs] at hcurrent hcurrent'
      rw [hcurrent, hcurrent']
      exact (State.pedal_withPedal_self (s := t) ..).trans (State.pedal_withPedal_self (s := s) ..).symm
    | waiting =>
      rw [hs] at hcurrent hcurrent'
      rw [hcurrent, hcurrent']
      exact (State.pedal_withPedal_self (s := t) ..).trans (State.pedal_withPedal_self (s := s) ..).symm
    | kick =>
      rw [hs] at hcurrent hcurrent'
      rw [hcurrent, hcurrent']
      cases (s.pedal p).current with
      | none => exact hp
      | some f =>
        dsimp only
        by_cases hl : f.lift.isNone = true
        · rw [if_pos hl, if_pos hl, State.pedal_withPedal_self, State.pedal_withPedal_self]
        · rw [if_neg hl, if_neg hl]
          exact hp
    | hold =>
      cases hf : (s.pedal p).current with
      | none =>
        rw [hs, hf] at hcurrent hcurrent'
        rw [hcurrent, hcurrent']
        exact hp
      | some f =>
        by_cases hl : f.lift = none
        · obtain ⟨hnot, hyes⟩ := handLift_held (r := r) hpending hs hf hl
          obtain ⟨hnot', hyes'⟩ := handLift_held (r := r) hpending' (by rw [hp]; exact hs) (by rw [hp]; exact hf) hl
          rw [hr, hp] at hnot' hyes'
          cases hreach : reached s.roll.rollTime r with
          | false => rw [hnot hreach, hnot' hreach, State.pedal_withPedal_self, State.pedal_withPedal_self]
          | true => rw [hyes hreach, hyes' hreach, State.pedal_withPedal_self, State.pedal_withPedal_self, hd]
        · have hsome : ¬f.lift.isNone = true := fun h => hl (Option.isNone_iff_eq_none.1 h)
          rw [hs, hf] at hcurrent hcurrent'
          dsimp only at hcurrent hcurrent'
          rw [if_neg hsome] at hcurrent hcurrent'
          rw [hcurrent, hcurrent']
          exact hp
    | idle =>
      rw [hs] at hcurrent hcurrent'
      rw [hcurrent, hcurrent']
      exact hp
    | release =>
      rw [hs] at hcurrent hcurrent'
      rw [hcurrent, hcurrent']
      exact hp
  · have hsome := Option.isSome_iff_ne_none.2 hpending
    rw [handLift_pending hsome, handLift_pending (s := t) (by rw [hp]; exact hsome), State.pedal_withPedal_self,
      State.pedal_withPedal_self, hp]

/-! The pedals in turn (R145) -/

/-- A pedal that is DOWN is handed its lift at the close (R145). -/
def State.liftIfDown (s : State) (n : Nat) (p : Pedal) : State :=
  if s.pedalUnit.planned.get p then s.planLift p n else s

/-- What the close of some pedals moves, with their group OK (R139, R145, R146). -/
structure PedalsClosed (ps : List Pedal) (n : Nat) (s t : State) : Prop where
  form : t = { s with
    pedalUnit := t.pedalUnit, pedals := t.pedals, fireList := t.fireList, waitList := t.waitList }
  rollKeys : t.pedalUnit.rollKeys = s.pedalUnit.rollKeys
  planned : ∀ p, t.pedalUnit.planned.get p = if p ∈ ps then false else s.pedalUnit.planned.get p
  lifted : ∀ p, p ∈ ps → s.pedalUnit.planned.get p = true → t.pedal p = (s.planLift p n).pedal p
  others : ∀ p, ¬(p ∈ ps ∧ s.pedalUnit.planned.get p = true) → t.pedal p = s.pedal p
  emptied : .sostenuto ∈ ps → s.pedalUnit.planned.sostenuto = true →
    t.pedalUnit.capture = [] ∧ t.pedalUnit.window = none
  caught : ¬(.sostenuto ∈ ps ∧ s.pedalUnit.planned.sostenuto = true) →
    t.pedalUnit.capture = s.pedalUnit.capture ∧ t.pedalUnit.window = s.pedalUnit.window
  fire : t.fireList = s.fireList.filter fun e =>
    !ps.any fun p => s.pedalUnit.planned.get p && standsIn s p .armed e.channel
  wait : t.waitList = s.waitList.filter fun e =>
    !ps.any fun p => s.pedalUnit.planned.get p && standsIn s p .waiting e.channel

theorem pedal_planLift (hok : s.faulted pedalGroup = false) (p q : Pedal) (n : Nat) :
    (s.planLift p n).pedal q = ((s.putPlanned p false).handLift p (s.liftOf p n)).pedal q := by
  obtain ⟨hplanned, -⟩ := planLift_spec hok p n
  unfold State.pedal
  rw [hplanned.pedals]

theorem pedalsClosed_liftIfDown (hok : s.faulted pedalGroup = false) (p : Pedal) (n : Nat) :
    PedalsClosed [p] n s (s.liftIfDown n p) := by
  unfold State.liftIfDown
  by_cases hdown : s.pedalUnit.planned.get p = true
  · rw [if_pos hdown]
    obtain ⟨hplanned, hsostenuto⟩ := planLift_spec hok p n
    obtain ⟨-, hothers⟩ := pedalHanded_handLift (s.putPlanned p false) p (s.liftOf p n)
    obtain ⟨hfire, hwait⟩ := lists_handLift (s.putPlanned p false) p (s.liftOf p n)
    have hpedal := pedal_planLift hok p
    have hkeys : (s.planLift p n).keys = s.keys := by
      by_cases hp : p = .sostenuto
      · exact (hsostenuto hp).1
      · exact (hplanned.plain hp).1
    have hany (x : ChannelState) (d : Channel) :
        ([p].any fun q => s.pedalUnit.planned.get q && standsIn s q x d) = standsIn s p x d := by
      rw [List.any_cons, List.any_nil, Bool.or_false, hdown, Bool.true_and]
    refine ⟨hkeys ▸ hplanned.only, hplanned.rollKeys, fun q => ?_, fun q hq _ => ?_, fun q hq => ?_, fun hmem _ => ?_, fun hnot => ?_,
      ?_, ?_⟩
    · rw [hplanned.planned, get_put]
      simp only [List.mem_singleton]
    · rw [List.mem_singleton.1 hq]
    · rw [hpedal q n]
      exact hothers q fun e => hq ⟨e ▸ List.mem_singleton_self p, e ▸ hdown⟩
    · exact (hsostenuto (List.mem_singleton.1 hmem).symm).2
    · exact (hplanned.plain fun e => hnot ⟨e ▸ List.mem_singleton_self p, by rw [e] at hdown; exact hdown⟩).2
    · simp only [hany]
      exact hplanned.fire.trans hfire
    · simp only [hany]
      exact hplanned.wait.trans hwait
  · rw [if_neg hdown]
    rw [Bool.not_eq_true] at hdown
    have hany (x : ChannelState) (d : Channel) :
        ([p].any fun q => s.pedalUnit.planned.get q && standsIn s q x d) = false := by
      rw [List.any_cons, List.any_nil, Bool.or_false, hdown, Bool.false_and]
    refine ⟨rfl, rfl, fun q => ?_, fun q hq hd => ?_, fun _ _ => rfl, fun hmem hd => ?_, fun _ => ⟨rfl, rfl⟩, ?_, ?_⟩
    · by_cases hq : q = p
      · rw [if_pos (List.mem_singleton.2 hq), hq, hdown]
      · rw [if_neg fun h => hq (List.mem_singleton.1 h)]
    · rw [List.mem_singleton.1 hq, hdown] at hd
      cases hd
    · rw [← List.mem_singleton.1 hmem] at hdown
      rw [show s.pedalUnit.planned.get .sostenuto = s.pedalUnit.planned.sostenuto from rfl, hd] at hdown
      cases hdown
    · simp [hany]
    · simp [hany]

theorem pedalsClosed_cons (hok : s.faulted pedalGroup = false) {ps : List Pedal} (hp : p ∉ ps) (h : PedalsClosed [p] n s t)
    (h' : PedalsClosed ps n t u) : PedalsClosed (p :: ps) n s u := by
  have hne {q : Pedal} (hq : q ∈ ps) : q ≠ p := fun e => hp (e ▸ hq)
  have hplanned {q : Pedal} (hq : q ∈ ps) : t.pedalUnit.planned.get q = s.pedalUnit.planned.get q := by
    rw [h.planned, if_neg fun hm => hne hq (List.mem_singleton.1 hm)]
  have hpedal {q : Pedal} (hq : q ≠ p) : t.pedal q = s.pedal q := h.others q fun hm => hq (List.mem_singleton.1 hm.1)
  have hokt : t.faulted pedalGroup = false := by rw [h.form]; exact hok
  have hlift {q : Pedal} (hq : q ∈ ps) : (t.planLift q n).pedal q = (s.planLift q n).pedal q := by
    have htime : t.liftOf q n = s.liftOf q n := by rw [h.form]; rfl
    rw [pedal_planLift hokt, pedal_planLift hok, htime]
    refine pedal_handLift_same (s := s.putPlanned q false) (t := t.putPlanned q false) (hpedal (hne hq)) ?_ ?_ _
    · show t.roll.rollTime = s.roll.rollTime
      rw [h.form]
    · show t.deviceTime = s.deviceTime
      rw [h.form]
  have hany (x : ChannelState) (d : Channel) : (ps.any fun q => t.pedalUnit.planned.get q && standsIn t q x d)
      = ps.any fun q => s.pedalUnit.planned.get q && standsIn s q x d := by
    rw [Bool.eq_iff_iff, List.any_eq_true, List.any_eq_true]
    refine exists_congr fun q => and_congr_right fun hq => ?_
    rw [hplanned hq, standsIn, standsIn, hpedal (hne hq)]
  have hfilter (x : ChannelState) (d : Channel) : (!(p :: ps).any fun q => s.pedalUnit.planned.get q && standsIn s q x d)
      = ((!ps.any fun q => t.pedalUnit.planned.get q && standsIn t q x d)
        && !([p].any fun q => s.pedalUnit.planned.get q && standsIn s q x d)) := by
    rw [hany, List.any_cons, List.any_cons, List.any_nil, Bool.or_false, Bool.not_or, Bool.and_comm]
  refine ⟨?_, h'.rollKeys.trans h.rollKeys, fun q => ?_, fun q hq hd => ?_, fun q hq => ?_, fun hmem hd => ?_, fun hnot => ?_,
    ?_, ?_⟩
  · rw [h'.form, h.form]
  · rw [h'.planned, h.planned]
    by_cases hq : q ∈ ps
    · rw [if_pos hq, if_pos (List.mem_cons_of_mem _ hq)]
    · rw [if_neg hq]
      simp only [List.mem_cons, List.not_mem_nil, hq, or_false]
  · rcases List.mem_cons.1 hq with rfl | hq
    · rw [h'.others q fun hm => hp hm.1]
      exact h.lifted q (List.mem_singleton_self q) hd
    · rw [h'.lifted q hq ((hplanned hq).trans hd), hlift hq]
  · rw [h'.others q fun hm => hq ⟨List.mem_cons_of_mem _ hm.1, (hplanned hm.1).symm.trans hm.2⟩]
    exact h.others q fun hm => hq ⟨List.mem_singleton.1 hm.1 ▸ List.mem_cons_self .., hm.2⟩
  · by_cases hin : Pedal.sostenuto ∈ ps
    · exact h'.emptied hin ((hplanned hin).trans hd)
    · obtain ⟨hcapture, hwindow⟩ := h'.caught fun hm => hin hm.1
      obtain ⟨hempty, hclosed⟩ := h.emptied (List.mem_singleton.2 ((List.mem_cons.1 hmem).resolve_right hin)) hd
      exact ⟨hcapture.trans hempty, hwindow.trans hclosed⟩
  · obtain ⟨hcapture, hwindow⟩ := h'.caught fun hm => hnot ⟨List.mem_cons_of_mem _ hm.1, (hplanned hm.1).symm.trans hm.2⟩
    obtain ⟨hcapture', hwindow'⟩ := h.caught fun hm => hnot ⟨List.mem_singleton.1 hm.1 ▸ List.mem_cons_self .., hm.2⟩
    exact ⟨hcapture.trans hcapture', hwindow.trans hwindow'⟩
  · rw [h'.fire, h.fire, List.filter_filter]
    exact List.filter_congr fun e _ => (hfilter ..).symm
  · rw [h'.wait, h.wait, List.filter_filter]
    exact List.filter_congr fun e _ => (hfilter ..).symm

/-- The close of the pedals in turn. -/
theorem closePedals_spec (ps : List Pedal) (hnodup : ps.Nodup) (hok : s.faulted pedalGroup = false) (n : Nat) :
    PedalsClosed ps n s (ps.foldl (fun q p => q.liftIfDown n p) s) := by
  induction ps generalizing s with
  | nil =>
    exact ⟨rfl, rfl, fun _ => (if_neg List.not_mem_nil).symm, fun _ h => absurd h List.not_mem_nil, fun _ _ => rfl,
      fun h => absurd h List.not_mem_nil, fun _ => ⟨rfl, rfl⟩, by simp, by simp⟩
  | cons p ps ih =>
    obtain ⟨hp, hps⟩ := List.nodup_cons.1 hnodup
    have hstep := pedalsClosed_liftIfDown hok p n
    rw [List.foldl_cons]
    refine pedalsClosed_cons hok hp hstep (ih hps ?_)
    rw [hstep.form]
    exact hok

/-- With the pedals' group FAULTED the close leaves the pedals alone (R145). -/
theorem closePedals_faulted (h : s.faulted pedalGroup = true) (ps : List Pedal) (n : Nat) :
    ps.foldl (fun q p => q.liftIfDown n p) s = s := by
  induction ps with
  | nil => rfl
  | cons p ps ih =>
    have hstep : s.liftIfDown n p = s := by
      unfold State.liftIfDown State.planLift
      rw [if_pos h]
      exact ite_self s
    rw [List.foldl_cons, hstep, ih]

/-! The obligation -/

/-- The state that the channels are closed in: that of the units' line, its clock started where STARVED alone held it. -/
structure ClosingState (u e : State) (n : Nat) : Prop where
  keys : ∀ k, e.key k = (u.key k).unwatched u.unstarves
  pedals : e.pedals = u.pedals
  fire : e.fireList = u.fireList
  wait : e.waitList = u.waitList
  unit : e.pedalUnit = u.pedalUnit
  counters : e.counters = u.counters
  tables : e.tables = u.tables
  groups : e.groupFaulted = u.groupFaulted
  deviceTime : e.deviceTime = u.deviceTime
  rollTime : e.roll.rollTime = u.roll.rollTime
  due : e.due n = u.due n

theorem closingState (s : State) (n : Nat) : ClosingState s ((s.advancePlan n).endingAt n) n := by
  have hcourse := sameCourse_checkEpisode (s.movedOn n)
  have hheld := (onlyHolds_advancePlan s n).1
  have hform : (s.advancePlan n).endingAt n = { s.advancePlan n with
      link := ((s.advancePlan n).endingAt n).link, holes := ((s.advancePlan n).endingAt n).holes
      roll := ((s.advancePlan n).endingAt n).roll, keys := ((s.advancePlan n).endingAt n).keys } := by
    unfold State.endingAt
    rw [changeHolds_eq]
    rfl
  have hroll : ((s.advancePlan n).endingAt n).roll.rollTime = s.roll.rollTime
      ∧ ((s.advancePlan n).endingAt n).roll.schedule = advanced n s.roll.schedule := by
    have hending : ((s.advancePlan n).endingAt n).roll.rollTime = (s.advancePlan n).roll.rollTime
        ∧ ((s.advancePlan n).endingAt n).roll.schedule = (s.advancePlan n).roll.schedule := by
      unfold State.endingAt
      rw [changeHolds_eq]
      exact ⟨rfl, rfl⟩
    rw [hending.1, hending.2, advancePlan_form]
    exact ⟨hcourse.rollTime, hcourse.schedule⟩
  have hkeys := key_advanced_endingAt s n
  generalize (s.advancePlan n).endingAt n = e at hform hroll hkeys
  generalize s.advancePlan n = v at hheld hform
  rw [hheld] at hform
  refine ⟨hkeys, ?_, ?_, ?_, ?_, ?_, ?_, ?_, ?_, hroll.1, ?_⟩
  case refine_9 =>
    rw [← due_movedOn s n]
    unfold State.due
    rw [hroll.2, hform]
    rfl
  all_goals rw [hform]

theorem noteOffTime_closing {e : State} (h : ClosingState u e n) (k : Key) : noteOffTime e k n = noteOffTime u k n := by
  unfold noteOffTime State.record
  rw [h.due, h.tables, h.unit]

theorem closedNote_closing {e : State} (h : ClosingState u e n) (k : Key) : closedNote e k n = closedNote u k n := by
  funext m
  rw [closedNote, closedNote, noteOffTime_closing h]

theorem closedNote_of_needs {m : Note} (hf : m.fire.isSome = true) (hr : m.release = none) :
    closedNote u k n m = { m with release := some (noteOffTime u k n) } := if_pos (needsClose_iff.2 ⟨hf, hr⟩)

theorem closedNote_of_not {m : Note} (h : m.fire = none ∨ m.release.isSome = true) : closedNote u k n m = m := by
  refine if_neg fun hn => ?_
  obtain ⟨hf, hr⟩ := needsClose_iff.1 hn
  rcases h with h | h
  · rw [h] at hf; cases hf
  · rw [hr] at h; cases h

theorem closesCurrent_iff : c.closesCurrent = true
    ↔ c.holdReleased = false ∧ ∃ m, c.current = some m ∧ m.fire.isSome = true ∧ m.release = none := by
  rw [KeyChannel.closesCurrent, Bool.and_eq_true, Bool.not_eq_true']
  refine and_congr_right fun _ => ?_
  cases c.current with
  | none => exact iff_of_false nofun fun ⟨_, h, _⟩ => nomatch h
  | some m => exact needsClose_iff.trans ⟨fun h => ⟨m, rfl, h⟩, fun ⟨_, h, h'⟩ => by cases h; exact h'⟩

theorem closes_iff : c.closes = true ↔ ∃ m, ((c.current = some m ∧ c.holdReleased = false) ∨ c.pending = some m)
    ∧ m.fire.isSome = true ∧ m.release = none := by
  have hpending : (c.pending.map Note.needsClose).getD false = true
      ↔ ∃ m, c.pending = some m ∧ m.fire.isSome = true ∧ m.release = none := by
    cases c.pending with
    | none => exact iff_of_false nofun fun ⟨_, h, _⟩ => nomatch h
    | some m => exact needsClose_iff.trans ⟨fun h => ⟨m, rfl, h⟩, fun ⟨_, h, h'⟩ => by cases h; exact h'⟩
  rw [KeyChannel.closes, Bool.or_eq_true, closesCurrent_iff, hpending]
  constructor
  · rintro (⟨hh, m, hm, h⟩ | ⟨m, hm, h⟩)
    · exact ⟨m, .inl ⟨hm, hh⟩, h⟩
    · exact ⟨m, .inr hm, h⟩
  · rintro ⟨m, ⟨hm, hh⟩ | hm, h⟩
    · exact .inl ⟨hh, m, hm, h⟩
    · exact .inr ⟨m, hm, h⟩

/-- The notes and the roll key state of a closed key (R102, R137), and its release where its note-off is due at once (entry 17). -/
theorem keyClosed_notes (h : KeyClosed s k n c d) : d.current = (closedRecord s k n c).current
    ∧ d.pending = (closedRecord s k n c).pending := by
  obtain ⟨hyes, hno⟩ := h
  by_cases hr : c.closesCurrent = true ∧ Releases s (closedRecord s k n c)
  · rw [hyes hr]; exact ⟨rfl, rfl⟩
  · rw [hno hr]; exact ⟨rfl, rfl⟩

/-- A key that the close releases is in HOLD with a current note that needed its note-off, which is due past MinHold (entry 17). -/
theorem releases_closing {e : State} (h : ClosingState u e n) (k : Key) (b : Bool) :
    ((u.key k).unwatched b).closesCurrent = true ∧ Releases e (closedRecord e k n ((u.key k).unwatched b))
      ↔ (u.key k).state = .hold ∧ (u.key k).holdReleased = false
        ∧ (∃ m, (u.key k).current = some m ∧ m.fire.isSome = true ∧ m.release = none)
        ∧ reached u.roll.rollTime (noteOffTime u k n) = true
        ∧ ∃ d, (u.key k).minHoldEnd = some d ∧ d ≤ u.deviceTime := by
  have hcloses : ((u.key k).unwatched b).closesCurrent = (u.key k).closesCurrent := rfl
  rw [hcloses, closesCurrent_iff]
  unfold Releases
  rw [h.rollTime, h.deviceTime]
  constructor
  · rintro ⟨⟨hheld, m, hm, hneeds⟩, hs, ⟨m', r, hm', hr, hreach⟩, hmin⟩
    refine ⟨hs, hheld, ⟨m, hm, hneeds⟩, ?_, hmin⟩
    have hnote : (closedRecord e k n ((u.key k).unwatched b)).current = some (closedNote u k n m) := by
      rw [← closedNote_closing h]
      show (if (u.key k).holdReleased then (u.key k).current else (u.key k).current.map (closedNote e k n)) = _
      rw [hheld, hm]
      rfl
    rw [hnote, closedNote_of_needs hneeds.1 hneeds.2] at hm'
    cases hm'
    cases hr
    exact hreach
  · rintro ⟨hs, hheld, ⟨m, hm, hneeds⟩, hreach, hmin⟩
    refine ⟨⟨hheld, m, hm, hneeds⟩, hs, ⟨{ m with release := some (noteOffTime u k n) }, _, ?_, rfl, hreach⟩, hmin⟩
    rw [← closedNote_of_needs hneeds.1 hneeds.2, ← closedNote_closing h]
    show (if (u.key k).holdReleased then (u.key k).current else (u.key k).current.map (closedNote e k n)) = _
    rw [hheld, hm]
    rfl

/-- The channels of a closed roll: each key by its own close, each pedal that was DOWN by its lift (R102, R145). -/
theorem closeChannels_spec (e : State) (n : Nat) : let t := e.closeChannels n
    (∀ k, KeyClosed e k n (e.key k) (t.key k)
      ∧ t.pedalUnit.rollKeys[k.val] = if (e.key k).closes = true then false else e.pedalUnit.rollKeys[k.val])
    ∧ t.counters = e.counters
    ∧ (e.faulted pedalGroup = true → t.pedals = e.pedals ∧ t.fireList = e.fireList ∧ t.waitList = e.waitList
      ∧ t.pedalUnit.planned = e.pedalUnit.planned ∧ t.pedalUnit.capture = e.pedalUnit.capture
      ∧ t.pedalUnit.window = e.pedalUnit.window)
    ∧ (e.faulted pedalGroup = false →
      ∃ w, OnlyKeysClosed e w ∧ PedalsClosed allPedals n w t) := by
  obtain ⟨honly, hkeys, -⟩ := closeKeys_spec allKeys (List.nodup_finRange 88) e n
  have hclose : e.closeChannels n
      = allPedals.foldl (fun q p => q.liftIfDown n p) (allKeys.foldl (fun q k => q.closeKey k n) e) := rfl
  rw [hclose]
  generalize allKeys.foldl (fun q k => q.closeKey k n) e = w at honly hkeys
  have hgroup : w.faulted pedalGroup = e.faulted pedalGroup := by rw [honly]; rfl
  have hcounters : w.counters = e.counters := by rw [honly]
  cases hf : e.faulted pedalGroup with
  | true =>
    rw [closePedals_faulted (hgroup.trans hf)]
    refine ⟨fun k => hkeys k (List.mem_finRange k), hcounters, fun _ => ?_, nofun⟩
    unfold OnlyKeysClosed at honly
    rw [honly]
    exact ⟨rfl, rfl, rfl, rfl, rfl, rfl⟩
  | false =>
    have hpedals := closePedals_spec allPedals (by decide) (hgroup.trans hf) n
    generalize allPedals.foldl (fun q p => q.liftIfDown n p) w = t at hpedals
    have hsame (k : Key) : t.key k = w.key k := by
      rw [hpedals.form]
      rfl
    refine ⟨fun k => ?_, ?_, nofun, fun _ => ⟨w, honly, hpedals⟩⟩
    · rw [hsame, hpedals.rollKeys]
      exact hkeys k (List.mem_finRange k)
    · rw [hpedals.form]
      exact hcounters

theorem lineTaken_frame (s : State) : s.lineTaken.deviceTime = s.deviceTime ∧ s.lineTaken.groupFaulted = s.groupFaulted := by
  have h := (onlyPedalUnit_planPedals (State.planExpression { s with holes := { s.holes with
    queue := s.holes.queue.dropWhile fun e => e.line == s.nextLine } } s.nextLine s.nextEvents) s.nextLine
      s.nextEvents).trans (onlyChannels_planKeys _ s.nextLine s.nextEvents).onlyPedalUnit
  unfold OnlyPedalUnit OnlyChannels at h
  unfold State.lineTaken
  exact ⟨by rw [h]; rfl, by rw [h]; rfl⟩

/-- A line that brings ENDING has the end mark (R50, R58). -/
theorem planNext_ending (hplays : s.roll.rollState = .playing) (h : s.planNext.roll.rollState = .ending) :
    s.planNext = ((s.lineTaken.advancePlan s.nextLine).endingAt s.nextLine).closeChannels s.nextLine := by
  have hstate : (s.lineTaken.advancePlan s.nextLine).roll.rollState = .playing := by
    have hsame := (checkEpisode_roll s.lineTaken s.nextLine).1
    have hroll := (lineTaken_stands s).1
    rw [advancePlan_form]
    generalize s.lineTaken = u at hsame hroll ⊢
    generalize (u.movedOn s.nextLine).checkEpisode = c at hsame ⊢
    show c.roll.rollState = .playing
    rw [hsame, hroll]
    exact hplays
  rw [planNext_eq] at h ⊢
  generalize s.lineTaken.advancePlan s.nextLine = v at hstate h ⊢
  by_cases hm : endMarked s.nextEvents = true
  · rw [if_pos hm, enterEnding_eq]
  · rw [if_neg hm, hstate] at h
    cases h

/-- Of the three pedals one at most is that of a channel. -/
theorem any_standsIn (w : State) (x : ChannelState) (d : Channel) :
    (allPedals.any fun p => w.pedalUnit.planned.get p && standsIn w p x d) = match d with
      | .pedal p => w.pedalUnit.planned.get p && (w.pedal p).pending.isNone && (w.pedal p).state == x
      | .key _ => false := by
  cases d with
  | key k => simp [allPedals, standsIn]
  | pedal q =>
    have hbeq (p : Pedal) : (Channel.pedal q == Channel.pedal p) = decide (p = q) := by cases p <;> cases q <;> rfl
    unfold standsIn
    simp only [hbeq]
    cases q <;> simp [allPedals, Bool.and_assoc]

/-- The pedals of a closed roll with their group OK, said of the state that the units' line leaves (R139, R145, R146). -/
theorem pedalsClosed_closing {e w : State} (hclosing : ClosingState u e n) (honly : OnlyKeysClosed e w)
    (hok : u.faulted pedalGroup = false) (h : PedalsClosed allPedals n w t) :
    t.pedalUnit.planned = ⟨false, false, false⟩
      ∧ (∀ p, u.pedalUnit.planned.get p = false → t.pedal p = u.pedal p)
      ∧ (∀ p, u.pedalUnit.planned.get p = true → t.pedal p = (u.planLift p n).pedal p)
      ∧ (u.pedalUnit.planned.sostenuto = true → t.pedalUnit.capture = [] ∧ t.pedalUnit.window = none)
      ∧ (u.pedalUnit.planned.sostenuto = false →
        t.pedalUnit.capture = u.pedalUnit.capture ∧ t.pedalUnit.window = u.pedalUnit.window)
      ∧ t.fireList = u.fireList.filter (fun x =>
        !allPedals.any fun p => u.pedalUnit.planned.get p && standsIn u p .armed x.channel)
      ∧ t.waitList = u.waitList.filter (fun x =>
        !allPedals.any fun p => u.pedalUnit.planned.get p && standsIn u p .waiting x.channel) := by
  have hall (p : Pedal) : p ∈ allPedals := by cases p <;> decide
  have hunit : w.pedalUnit = { u.pedalUnit with rollKeys := w.pedalUnit.rollKeys } := by rw [honly, hclosing.unit]
  have hplanned : w.pedalUnit.planned = u.pedalUnit.planned := by rw [hunit]
  have hpedal (p : Pedal) : w.pedal p = u.pedal p := by
    unfold State.pedal
    rw [honly, hclosing.pedals]
  have hokw : w.faulted pedalGroup = false := by
    rw [← hok, honly]
    unfold State.faulted
    rw [hclosing.groups]
  have hlift (p : Pedal) : (w.planLift p n).pedal p = (u.planLift p n).pedal p := by
    have htime : w.liftOf p n = u.liftOf p n := by
      unfold State.liftOf State.pedalRecord
      rw [← hclosing.due, ← hclosing.tables, honly]
      rfl
    rw [pedal_planLift hokw, pedal_planLift hok, htime]
    refine pedal_handLift_same (s := u.putPlanned p false) (t := w.putPlanned p false) (hpedal p) ?_ ?_ _
    · show w.roll.rollTime = u.roll.rollTime
      rw [honly]
      exact hclosing.rollTime
    · show w.deviceTime = u.deviceTime
      rw [honly]
      exact hclosing.deviceTime
  have hdown (p : Pedal) : t.pedalUnit.planned.get p = false := (h.planned p).trans (if_pos (hall p))
  have hlifted := h.lifted
  have hothers := h.others
  have hemptied := h.emptied (hall .sostenuto)
  have hcaught := h.caught
  have hfire := h.fire
  have hwait := h.wait
  simp only [hplanned, hlift, hpedal, standsIn] at hlifted hothers hemptied hcaught hfire hwait
  refine ⟨?_, fun p hp => hothers p fun hm => ?_, fun p => hlifted p (hall p), hemptied, fun hp => ?_, ?_, ?_⟩
  · have hget : ∀ q : PlannedPedals, (∀ p, q.get p = false) → q = ⟨false, false, false⟩ := by
      intro ⟨a, b, c⟩ hq
      rw [show a = false from hq .sustain, show b = false from hq .soft, show c = false from hq .sostenuto]
    exact hget _ hdown
  · rw [hp] at hm
    exact nomatch hm.2
  · obtain ⟨hcapture, hwindow⟩ := hcaught fun hm => by rw [hp] at hm; exact nomatch hm.2
    rw [hcapture, hwindow, hunit]
    exact ⟨rfl, rfl⟩
  · rw [hfire, honly, hclosing.fire]
    rfl
  · rw [hwait, honly, hclosing.wait]
    rfl

/-- Settles O28: each key by `closeKey_spec`, each pedal by `pedalsClosed_liftIfDown`, in the state that the advance of the
plan line and the entry into ENDING leave. -/
theorem endMarkClosesTheRoll : Obligations.EndMarkClosesTheRoll := by
  intro s t hp hdue hlow hexec hending n es u off lifted
  obtain ⟨huroll, -, hutables, -⟩ := lineTaken_stands s
  obtain ⟨hudevice, hugroups⟩ := lineTaken_frame s
  have hplays : s.roll.rollState = .playing := by
    rw [State.planDue, Bool.and_eq_true, Bool.and_eq_true, beq_iff_eq] at hdue
    exact hdue.1.1
  have ht : t = s.planNext := by simpa [exec_planLine hp hdue, eq_comm] using hexec
  have hclose := planNext_ending hplays (ht ▸ hending)
  have hu : s.lineTaken = u := rfl
  have hn : s.nextLine = n := rfl
  rw [hu] at huroll hutables hudevice hugroups hclose
  rw [← ht, hn] at hclose
  clear_value u n
  have hclosing := closingState u n
  have hspec := closeChannels_spec ((u.advancePlan n).endingAt n) n
  generalize (u.advancePlan n).endingAt n = e at hclosing hspec hclose
  rw [← hclose] at hspec
  obtain ⟨hkeys, hcounters, hfaulted, hok⟩ := hspec
  have hgroup : e.faulted pedalGroup = s.faulted pedalGroup := by
    unfold State.faulted
    rw [hclosing.groups, hugroups]
  have hstarts : u.unstarves = true ↔ s.roll.starved = true ∧ s.roll.operator = false := by
    rw [unstarves_iff, huroll]
  have hclosed (k : Key) : KeyClosed e k n ((u.key k).unwatched u.unstarves) (t.key k) := by
    rw [← hclosing.keys k]
    exact (hkeys k).1
  have hcurrent (k : Key) : (t.key k).current
      = if (u.key k).holdReleased then (u.key k).current else (u.key k).current.map (closedNote u k n) := by
    rw [(keyClosed_notes (hclosed k)).1, ← closedNote_closing hclosing]
    rfl
  have hpending (k : Key) : (t.key k).pending = (u.key k).pending.map (closedNote u k n) := by
    rw [(keyClosed_notes (hclosed k)).2, ← closedNote_closing hclosing]
    rfl
  have hrollKeys (k : Key) : t.pedalUnit.rollKeys[k.val]
      = if (u.key k).closes = true then false else u.pedalUnit.rollKeys[k.val] := by
    rw [(hkeys k).2, hclosing.keys, hclosing.unit]
    rfl
  have hup {k : Key} {m : Note} (hm : ((u.key k).current = some m ∧ (u.key k).holdReleased = false) ∨ (u.key k).pending = some m)
      (hf : m.fire.isSome = true) (hr : m.release = none) : t.pedalUnit.rollKeys[k.val] = false := by
    rw [hrollKeys, if_pos (closes_iff.2 ⟨m, hm, hf, hr⟩)]
  refine ⟨fun k m hm hheld hf hr => ⟨?_, hup (.inl ⟨hm, hheld⟩) hf hr⟩, fun k m hm hf hr => ⟨?_, hup (.inr hm) hf hr⟩,
    fun k m hm hnot => ?_, fun k m hm hnot => ?_, fun k => ⟨fun hnone => ?_, fun hnone => ?_⟩, fun k hnone => ?_, fun k => ?_,
    ?_⟩
  · rw [hcurrent, hheld, hm, Option.map_some, closedNote_of_needs hf hr]
    rfl
  · rw [hpending, hm, Option.map_some, closedNote_of_needs hf hr]
  · rw [hcurrent, hm]
    rcases hnot with hheld | hnot
    · rw [hheld]
      rfl
    · rw [Option.map_some, closedNote_of_not hnot, ite_self]
  · rw [hpending, hm, Option.map_some, closedNote_of_not hnot]
  · rw [hcurrent, hnone, Option.map_none, ite_self]
  · rw [hpending, hnone, Option.map_none]
  · rw [hrollKeys, if_neg fun hc => hnone (closes_iff.1 hc)]
  · have hafter : closedRecord e k n ((u.key k).unwatched u.unstarves)
        = { (u.key k).unwatched u.unstarves with current := (t.key k).current, pending := (t.key k).pending } := by
      rw [(keyClosed_notes (hclosed k)).1, (keyClosed_notes (hclosed k)).2]
      rfl
    have hreleases := releases_closing hclosing k u.unstarves
    obtain ⟨hyes, hno⟩ := hclosed k
    rw [hreleases, huroll, hudevice] at hyes hno
    have hrecord : e.record k = s.record k := by
      unfold State.record
      rw [hclosing.tables, hutables]
    refine ⟨fun h => ?_, fun h => ?_⟩
    · rw [hyes h, hafter, hclosing.deviceTime, hudevice, hrecord]
      rfl
    · rw [hno h, hafter]
      unfold KeyChannel.unwatched
      rw [if_congr (and_congr_left' hstarts |>.trans and_assoc) rfl rfl]
  · have hstood : t.counters = u.counters := hcounters.trans hclosing.counters
    have hlist {x : ChannelState} (hf : s.faulted pedalGroup = true) (d : Channel) : (!lifted x d) = true := by
      cases d with
      | key j => rfl
      | pedal p =>
        show (!(!s.faulted pedalGroup && _ && _ && _)) = true
        rw [hf]
        rfl
    cases hf : s.faulted pedalGroup with
    | true =>
      obtain ⟨hpedals, hfire, hwait, hplanned, hcapture, hwindow⟩ := hfaulted (hgroup.trans hf)
      rw [hclosing.unit] at hplanned hcapture hwindow
      refine ⟨fun _ => hplanned, nofun, fun p => ⟨fun _ => ?_, fun _ => nofun⟩, nofun, fun _ => ⟨hcapture, hwindow⟩, ?_, ?_,
        hstood⟩
      · unfold State.pedal
        rw [hpedals, hclosing.pedals]
      · rw [hfire, hclosing.fire]
        exact (List.filter_eq_self.2 fun x _ => hlist hf x.channel).symm
      · rw [hwait, hclosing.wait]
        exact (List.filter_eq_self.2 fun x _ => hlist hf x.channel).symm
    | false =>
      obtain ⟨w, honly, hpedals⟩ := hok (hgroup.trans hf)
      have huok : u.faulted pedalGroup = false := by
        rw [← hf]
        unfold State.faulted
        rw [hugroups]
      obtain ⟨hplanned, hstay, hlift, hempty, hcaught, hfire, hwait⟩ := pedalsClosed_closing hclosing honly huok hpedals
      have hany (x : ChannelState) (d : Channel) :
          (allPedals.any fun p => u.pedalUnit.planned.get p && standsIn u p x d) = lifted x d := by
        rw [any_standsIn]
        cases d with
        | key j => rfl
        | pedal p =>
          show _ = (!s.faulted pedalGroup && _ && _ && _)
          rw [hf, Bool.not_false, Bool.true_and]
      simp only [hany] at hfire hwait
      refine ⟨nofun, fun _ => hplanned, fun p => ⟨fun hp => ?_, fun hp _ => ?_⟩, fun _ => hempty, fun hs => ?_, hfire, hwait, hstood⟩
      · exact hstay p (hp.resolve_right nofun)
      · rw [planPedal_closes rfl rfl]
        exact hlift p hp
      · exact hcaught (hs.resolve_left nofun)

end Sys2Proof.Machine
end
